-- ==== Sys2Proof/Word.lean ====
section
/-! DEFINITION. The bit-vector types of the engine: a byte (R7, R51) and a 24-bit request word (R90). -/

namespace Sys2Proof

/-- A byte: CTRL, DOUT, DIN, STATUS, RESULT and every display byte (R7). -/
abbrev Byte := BitVec 8

/-- A request word (R90). -/
abbrev Word24 := BitVec 24

end Sys2Proof
end

