-- ==== Sys2Proof/Config.lean ====
section
/-! DEFINITION. The implementation parameters of R6 as plain data, their defaults, the constraints R6 puts
on them, and the free values (values the spec leaves open: constants with no body). -/

namespace Sys2Proof

/-- The parameters of R6. A model takes them as arguments: they stand in `State.cfg`, which no step changes. -/
structure Config where
  /-- one-hot masks of the six control flags inside CTRL (R6, D5) -/
  mCS1 : Byte
  mCS2 : Byte
  mRST : Byte
  mRS : Byte
  mRW : Byte
  mE : Byte
  /-- BUSY_MASK (R6, D12) -/
  busyMask : Byte
  /-- the five command bytes or bases (R6, D11) -/
  cmdDisplayOff : Byte
  cmdDisplayOn : Byte
  cmdStartLine : Byte
  cmdSetAddress : Byte
  cmdSetPage : Byte
  /-- POLL_LIMIT: `none` is ∞ (R6, R154, R155) -/
  pollLimit : Option Nat
  /-- EXPOSE_INTERNAL (R6, R96) -/
  exposeInternal : Bool
  deriving DecidableEq, Repr

/-- The default value of every parameter (the table of R6). -/
def Config.standard : Config where
  mCS1 := 0x01
  mCS2 := 0x02
  mRST := 0x04
  mRS := 0x08
  mRW := 0x10
  mE := 0x20
  busyMask := 0x80
  cmdDisplayOff := 0x3E
  cmdDisplayOn := 0x3F
  cmdStartLine := 0xC0
  cmdSetAddress := 0x40
  cmdSetPage := 0xB8
  pollLimit := none
  exposeInternal := false

/-- M_RESERVED: the bits of CTRL that are none of the six flags (R6). -/
def Config.mReserved (c : Config) : Byte :=
  ~~~(c.mCS1 ||| c.mCS2 ||| c.mRST ||| c.mRS ||| c.mRW ||| c.mE)

/-- Exactly one bit set. -/
def Config.oneHot (m : Byte) : Bool := (List.range 8).any fun i => m == 1#8 <<< i

/-- What R6 demands of the parameters: the six masks one-hot and pairwise distinct, the operand bits of the
set-address and set-page bases 0, POLL_LIMIT at least 1, and a busy mask that names some bit. -/
def Config.wf (c : Config) : Bool :=
  ([c.mCS1, c.mCS2, c.mRST, c.mRS, c.mRW, c.mE].all Config.oneHot)
    && decide ([c.mCS1, c.mCS2, c.mRST, c.mRS, c.mRW, c.mE].Pairwise (· ≠ ·))
    && c.busyMask != 0
    && c.cmdSetAddress &&& 0x3F == 0
    && c.cmdSetPage &&& 0x07 == 0
    && c.pollLimit != some 0

/-- The command bytes are ones the reference controller's decode patterns (R60) tell apart, so that each of
the engine's commands is read as the command it is named after. R60 ties its patterns to the default
values; this condition is what a non-default choice needs. It holds of `Config.standard`. -/
def Config.refDecodes (c : Config) : Bool :=
  c.cmdSetPage &&& 0xC0 != c.cmdSetAddress
    && c.cmdStartLine &&& 0xC0 == c.cmdStartLine
    && c.cmdStartLine != c.cmdSetAddress
    && c.cmdStartLine &&& 0xF8 != c.cmdSetPage
    && [c.cmdDisplayOn, c.cmdDisplayOff].all (fun b =>
        b &&& 0xC0 != c.cmdSetAddress && b &&& 0xF8 != c.cmdSetPage && b &&& 0xC0 != c.cmdStartLine)
    && c.cmdDisplayOn != c.cmdDisplayOff

/-! Geometry, fixed by R6. -/

/-- WIDTH (R6). -/
def Config.width : Nat := 128
/-- HEIGHT (R6). -/
def Config.height : Nat := 64
/-- COLS: columns of one controller (R6). -/
def Config.cols : Nat := 64
/-- PAGES: pages of one controller (R6). -/
def Config.pages : Nat := 8

/-! Free values (R13). Nothing constrains them; a statement about one holds for every value. -/

/-- FREE VALUE: the n-th `any byte` drawn from the environment (R13, R25, R58, R63, R64; U1, U3, U4, U6, U7). -/
opaque Config.anyByte : Nat → Byte

/-- FREE VALUE: the n-th unspecified number (POLLS after an engine reset, R35). -/
opaque Config.anyNat : Nat → Nat

/-- FREE VALUE: the n-th unspecified request latch (REQ after an engine reset, R35). -/
opaque Config.anyReq : Nat → Word24

/-- FREE VALUE: what display memory holds before it is first written, in the e-th life of its contents,
at an address (R52, U2): fixed once, not a fresh draw at each read. -/
opaque Config.anyRam : Nat → Nat → Byte

end Sys2Proof
end

