-- ==== Sys2Proof/Syntax.lean ====
section
/-! DEFINITION. The operations of the engine (R93), one constructor per row of spec/opcode_table.json, the four
targets (R92), and the pseudo-operations (R100). -/

namespace Sys2Proof

/-- A target: which controllers are addressed (R92). -/
inductive Target where
  | none
  | cs1
  | cs2
  | both
  deriving DecidableEq, Repr

/-- T[0]: controller 1 is addressed (R92). -/
def Target.has1 : Target → Bool
  | .none => false
  | .cs1 => true
  | .cs2 => false
  | .both => true

/-- T[1]: controller 2 is addressed (R92). -/
def Target.has2 : Target → Bool
  | .none => false
  | .cs1 => false
  | .cs2 => true
  | .both => true

/-- The fourteen operations of R93. Coordinates are the integers `x = zext(A)`, `y = zext(B)` of R97; masks,
values, commands and data are bytes used as they stand. -/
inductive Instr where
  /-- INIT, OP 0x1 (R221) -/
  | init
  /-- CLR, OP 0x2 (R220) -/
  | clr
  /-- PIX x, y, on, OP 0x3 (R200) -/
  | pix (x y : Nat) (on : Bool)
  /-- SETC mask, OP 0x4 (R120) -/
  | setc (mask : Byte)
  /-- CLRC mask, OP 0x5 (R121) -/
  | clrc (mask : Byte)
  /-- CFGRD, OP 0x6 (R122) -/
  | cfgrd
  /-- CFGWR, OP 0x7 (R123) -/
  | cfgwr
  /-- SEL t, OP 0x8 (R141) -/
  | sel (t : Target)
  /-- WAIT, OP 0x9 (R151) -/
  | wait
  /-- RDB t, rs, OP 0xA (R166) -/
  | rdb (t : Target) (rs : Bool)
  /-- RDD t, OP 0xB (R167) -/
  | rdd (t : Target)
  /-- WRB value, t, OP 0xC (R169) -/
  | wrb (value : Byte) (t : Target)
  /-- WRC cmd, t, OP 0xD (R170) -/
  | wrc (cmd : Byte) (t : Target)
  /-- WRD data, t, OP 0xE (R171) -/
  | wrd (data : Byte) (t : Target)
  deriving DecidableEq, Repr

/-- The class column of R93: public operations are the three the source exposes upward (R96). -/
def Instr.isPublic : Instr → Bool
  | .init => true
  | .clr => true
  | .pix _ _ _ => true
  | .setc _ => false
  | .clrc _ => false
  | .cfgrd => false
  | .cfgwr => false
  | .sel _ => false
  | .wait => false
  | .rdb _ _ => false
  | .rdd _ => false
  | .wrb _ _ => false
  | .wrc _ _ => false
  | .wrd _ _ => false

/-! The pseudo-operations of R100, each an exact alias. -/

/-- PSET x, y = PIX x, y, 1 (R100). -/
def Instr.pset (x y : Nat) : Instr := .pix x y true
/-- PCLR x, y = PIX x, y, 0 (R100). -/
def Instr.pclr (x y : Nat) : Instr := .pix x y false
/-- RDS t = RDB t, 0 (R100). -/
def Instr.rds (t : Target) : Instr := .rdb t false
/-- DESEL = SEL NONE (R100). -/
def Instr.desel : Instr := .sel .none
/-- SETADDR col, t = WRC CMD_SET_ADDRESS | col, t (R100). -/
def Instr.setaddr (c : Config) (col : BitVec 6) (t : Target) : Instr :=
  .wrc (c.cmdSetAddress ||| col.setWidth 8) t
/-- SETPAGE page, t = WRC CMD_SET_PAGE | page, t (R100). -/
def Instr.setpage (c : Config) (page : BitVec 3) (t : Target) : Instr :=
  .wrc (c.cmdSetPage ||| page.setWidth 8) t

end Sys2Proof
end

