-- ==== Sys2Proof/WellFormed.lean ====
section
/-! DEFINITION. Which instructions have an encoding: the coordinates of PIX are what an 8-bit field can hold
(R90, R97, D14). Every other operand's type admits exactly the values its field can hold. -/

namespace Sys2Proof

/-- A number an 8-bit operand field can hold (R97: 0..255). -/
def fitsByte (n : Nat) : Bool := decide (n < 256)

/-- An instruction with an encoding (R90, R97). A coordinate outside the display but inside 0..255 IS well
formed: PIX ignores it (R201). -/
def Instr.wf : Instr → Bool
  | .init => true
  | .clr => true
  | .pix x y _ => fitsByte x && fitsByte y
  | .setc _ => true
  | .clrc _ => true
  | .cfgrd => true
  | .cfgwr => true
  | .sel _ => true
  | .wait => true
  | .rdb _ _ => true
  | .rdd _ => true
  | .wrb _ _ => true
  | .wrc _ _ => true
  | .wrd _ _ => true

end Sys2Proof
end

