-- ==== Sys2Proof/Decode.lean ====
section
/-! DEFINITION. The request word (R90): the opcode table of R93 as rows of match and mask, the decode procedure
of R101 (total on all 2^24 words, rejecting by name), and the encoder written from the same table. -/

namespace Sys2Proof

/-! ## The fields of a request word (R90) -/

/-- OP = w[3:0]. -/
def fieldOp (w : Word24) : BitVec 4 := w.extractLsb' 0 4
/-- T = w[5:4]. -/
def fieldT (w : Word24) : BitVec 2 := w.extractLsb' 4 2
/-- F = w[6]. -/
def fieldF (w : Word24) : Bool := w.getLsbD 6
/-- A = w[15:8]. -/
def fieldA (w : Word24) : Byte := w.extractLsb' 8 8
/-- B = w[23:16]. -/
def fieldB (w : Word24) : Byte := w.extractLsb' 16 8

/-- `B ++ A ++ Z ++ F ++ T ++ OP` with Z = 0 (R90). -/
def packWord (b a : Byte) (f : Bool) (t : BitVec 2) (op : BitVec 4) : Word24 :=
  b ++ a ++ 0#1 ++ BitVec.ofBool f ++ t ++ op

/-- The two bits of a target (R92). -/
def Target.bits : Target → BitVec 2
  | .none => 0b00
  | .cs1 => 0b01
  | .cs2 => 0b10
  | .both => 0b11

/-- The target two bits stand for (R92): all four values are valid. -/
def Target.ofBits (b : BitVec 2) : Target :=
  if b = 0b00 then .none else if b = 0b01 then .cs1 else if b = 0b10 then .cs2 else .both

/-! ## The operation map (R93) -/

/-- One row of R93: a word selects the row when `w & mask = match`. -/
structure OpRow where
  op : BitVec 4
  pat : Word24
  mask : Word24
  deriving DecidableEq, Repr

/-- The fourteen rows of R93, in OP order. -/
def opRows : List OpRow :=
  [⟨0x1, 0x000001, 0xFFFFFF⟩, ⟨0x2, 0x000002, 0xFFFFFF⟩, ⟨0x3, 0x000003, 0x0000BF⟩,
   ⟨0x4, 0x000004, 0xFF00FF⟩, ⟨0x5, 0x000005, 0xFF00FF⟩, ⟨0x6, 0x000006, 0xFFFFFF⟩,
   ⟨0x7, 0x000007, 0xFFFFFF⟩, ⟨0x8, 0x000008, 0xFFFFCF⟩, ⟨0x9, 0x000009, 0xFFFFFF⟩,
   ⟨0xA, 0x00000A, 0xFFFF8F⟩, ⟨0xB, 0x00000B, 0xFFFFCF⟩, ⟨0xC, 0x00000C, 0xFF00CF⟩,
   ⟨0xD, 0x00000D, 0xFF00CF⟩, ⟨0xE, 0x00000E, 0xFF00CF⟩]

/-- The row an OP selects; none for the reserved 0x0 and 0xF (R95). -/
def rowOfOp (op : BitVec 4) : Option OpRow := opRows.find? fun r => r.op == op

/-- Why a word is no request (R94, R95, R96). -/
inductive DecodeError where
  /-- OP = 0x0 or 0xF (R95). -/
  | reservedOp
  /-- A bit the operation does not use is 1 (R94). -/
  | mustBeZero
  /-- An internal operation while EXPOSE_INTERNAL = false (R96). -/
  | internalHidden
  deriving DecidableEq, Repr

/-- Step (4) of R101: the operands of the row an OP names. -/
def operandsOf (op : BitVec 4) (w : Word24) : Option Instr :=
  let t := Target.ofBits (fieldT w)
  match op.toNat with
  | 0x1 => some .init
  | 0x2 => some .clr
  | 0x3 => some (.pix (fieldA w).toNat (fieldB w).toNat (fieldF w))
  | 0x4 => some (.setc (fieldA w))
  | 0x5 => some (.clrc (fieldA w))
  | 0x6 => some .cfgrd
  | 0x7 => some .cfgwr
  | 0x8 => some (.sel t)
  | 0x9 => some .wait
  | 0xA => some (.rdb t (fieldF w))
  | 0xB => some (.rdd t)
  | 0xC => some (.wrb (fieldA w) t)
  | 0xD => some (.wrc (fieldA w) t)
  | 0xE => some (.wrd (fieldA w) t)
  | _ => none

/-- Steps (1), (3) and (4) of R101: the operation a word stands for, whatever EXPOSE_INTERNAL is. -/
def decodeWord (w : Word24) : Except DecodeError Instr :=
  match rowOfOp (fieldOp w) with
  | none => .error .reservedOp
  | some r =>
    if w &&& r.mask = r.pat then
      match operandsOf r.op w with
      | some i => .ok i
      | none => .error .reservedOp
    else .error .mustBeZero

/-- Step (2) of R101, made after the others (R246: the order of the tests is unobservable). -/
def decodeRequest (exposeInternal : Bool) (w : Word24) : Except DecodeError Instr :=
  match decodeWord w with
  | .error e => .error e
  | .ok i => if i.isPublic || exposeInternal then .ok i else .error .internalHidden

/-- The word of the operation (R90, R93, R99). -/
def encode : Instr → Word24
  | .init => packWord 0 0 false 0 0x1
  | .clr => packWord 0 0 false 0 0x2
  | .pix x y on => packWord (BitVec.ofNat 8 y) (BitVec.ofNat 8 x) on 0 0x3
  | .setc m => packWord 0 m false 0 0x4
  | .clrc m => packWord 0 m false 0 0x5
  | .cfgrd => packWord 0 0 false 0 0x6
  | .cfgwr => packWord 0 0 false 0 0x7
  | .sel t => packWord 0 0 false t.bits 0x8
  | .wait => packWord 0 0 false 0 0x9
  | .rdb t rs => packWord 0 0 rs t.bits 0xA
  | .rdd t => packWord 0 0 false t.bits 0xB
  | .wrb v t => packWord 0 v false t.bits 0xC
  | .wrc c t => packWord 0 c false t.bits 0xD
  | .wrd d t => packWord 0 d false t.bits 0xE

/-- The word whose low `nbits` bits are those of `w`, every bit above them 0. A request is a value, not a
byte string (R54, D24), so its bits are numbered as the table numbers them. -/
def tableWord (nbits w : Nat) : Word24 := BitVec.ofNat 24 (w % 2 ^ nbits)

/-- The instruction the decoder reads from a word of the opcode table. -/
def decodeTableWord (nbits w : Nat) : Option Instr :=
  match decodeWord (tableWord nbits w) with
  | .ok i => some i
  | .error _ => none

end Sys2Proof
end

