-- ==== Sys2Proof/Machine/State.lean ====
section
/-! DEFINITION. Every piece of state the spec gives the machine, as plain data: the engine's registers (R21 to
R32), the two controllers' hidden state and the display memory (R52, R59), the moves the host and the
environment will make (R20, R34, R37), and the record of what was done (R38, R58). Then the faults, the
refusals and the reset state (R35). -/

namespace Sys2Proof.Machine

/-- DIR, the bus direction (R24). -/
inductive Dir where
  | output
  | input
  deriving DecidableEq, Repr

/-- The two controllers, `c = 1` and `c = 2` (R20). -/
inductive Ctl where
  | one
  | two
  deriving DecidableEq, Repr

/-- The delay kinds of R10 and R250. -/
inductive DelayKind where
  | settle
  | power
  | resetAssert
  | resetRecover
  deriving DecidableEq, Repr

/-- One executed primitive of R10, with its operands. `sample` records the value returned and the direction
and the enable flag it was taken under (R24, R25). -/
inductive Prim where
  | ctrlSet (m : Byte)
  | ctrlClear (m : Byte)
  | select (t : Target)
  | setDir (d : Dir)
  | drive (v : Byte)
  | sample (d : Dir) (e : Bool) (v : Byte)
  | delay (k : DelayKind)
  deriving DecidableEq, Repr

/-- One step of a sequence as the sequencer holds it (R32, R33): the seven primitives of R10 with the operands
fixed at dispatch (DOUT's operand is VAL or zero, a target operand is TGT), the assignments to the operation-local registers of R30,
the test that closes a poll (R150), and the write of RESULT (R28). -/
inductive Micro where
  /-- `CtrlSet(m)` -/
  | ctrlSet (m : Byte)
  /-- `CtrlClear(m)` -/
  | ctrlClear (m : Byte)
  /-- `Select(t)`, t a constant of the sequence (WE.1, WE.2, WR.8, IN.12) -/
  | select (t : Target)
  /-- `Select(TGT)` (SEL, RB.7, WR.2, WC.2, WD.2) -/
  | selectTgt
  /-- `SetDir(d)` -/
  | setDir (d : Dir)
  /-- `Drive(VAL)` (WR.1) -/
  | driveVal
  /-- `Drive(0x00)` (WR.6) -/
  | driveZero
  /-- `SMP <- Sample()` (WT.8, RB.11) -/
  | sample
  /-- `Delay(k)` -/
  | delay (k : DelayKind)
  /-- `VAL <- v` -/
  | setVal (v : Byte)
  /-- `VAL <- TMP` (PX.8) -/
  | setValTmp
  /-- `TGT <- t` -/
  | setTgt (t : Target)
  /-- `RBV <- SMP` (RB.11) -/
  | latchRbv
  /-- `POLLS <- 0` (R155) -/
  | pollsZero
  /-- the test after WT.10: loop, fall through, or fail (R150, R155) -/
  | test
  /-- PX.2 and PX.3: PAGE, MASK, CTLR and COL of the pixel -/
  | setPixel (page : BitVec 3) (mask : Byte) (ctlr : Target) (col : BitVec 6)
  /-- `TMP <- RBV` (PX.5) -/
  | tmpRbv
  /-- PX.7 -/
  | combine (on : Bool)
  /-- `PG <- n` (CL.1, CL.7) -/
  | setPg (n : BitVec 4)
  /-- `CN <- n` (CL.5, CL.6) -/
  | setCn (n : BitVec 7)
  /-- `RESULT <- RBV` at completion (R28, R166, R167) -/
  | setResult
  deriving DecidableEq, Repr

/-- The four kinds of pulse event (R58). -/
inductive PulseKind where
  | commandWrite
  | dataWrite
  | statusRead
  | dataRead
  deriving DecidableEq, Repr

/-- The record of a pulse event, taken from the state immediately before the step that lowers E (R58); `rst`
is the RST line the controllers see at that moment (R57, R72). -/
structure Pulse where
  sel1 : Bool
  sel2 : Bool
  rs : Bool
  rw : Bool
  rst : Bool
  dir : Dir
  byte : Byte
  deriving DecidableEq, Repr

/-- The operation-local registers of R30. -/
structure Locals where
  val : Byte
  tgt : Target
  smp : Byte
  rbv : Byte
  polls : Nat
  tmp : Byte
  mask : Byte
  page : BitVec 3
  col : BitVec 6
  ctlr : Target
  pg : BitVec 4
  cn : BitVec 7
  deriving DecidableEq, Repr

/-- The hidden state of one controller (R59). `epoch` numbers the life of its display memory's unwritten
contents (R52, R72) and `unmodelled` flags a command byte R60 does not decode (U14): both are the model's. -/
structure Controller where
  busy : Bool
  xp : BitVec 3
  ya : BitVec 6
  ol : Byte
  zl : BitVec 6
  don : Bool
  epoch : Nat
  unmodelled : Bool
  deriving DecidableEq, Repr

/-- Display memory: one list of (address, byte) pairs for both controllers (R52). -/
abbrev Memory := List Host.Cell

/-- What the environment does around ONE primitive of the engine (R13, R20, R34, R63, R72, R270). Every field
is a free input of the step; an exhausted list of slots stands for slots with every field at its default. -/
structure EnvSlot where
  /-- `Ready(c)` is taken just before the primitive (R63) -/
  ready1 : Bool := false
  ready2 : Bool := false
  /-- controller c becomes busy, if this primitive delivers it a CW, DW or DR or releases its reset (R63, R72) -/
  busy1 : Bool := false
  busy2 : Bool := false
  /-- controller c's display memory does not survive the release of its reset in this primitive (R72, U15) -/
  ramLost1 : Bool := false
  ramLost2 : Bool := false
  /-- the bus byte drawn in this primitive (`none`: the next `Config.anyByte`); `din2` for controller 2 when
  nobody drives a write -/
  din : Option Byte := none
  din2 : Option Byte := none
  /-- `EngineReset` strikes instead of the primitive (R270) -/
  reset : Bool := false
  deriving DecidableEq, Repr

/-- The moves of the outside world while the engine is idle: the host issues a request word (R37), or the
block is reset (R270). -/
inductive HostMove where
  | issue (w : Word24)
  | engineReset
  deriving DecidableEq, Repr

/-- Why a step stops with a fault. -/
inductive Fault where
  /-- Raised by `step` in the protocol-fault state: controller c, out of reset and busy, received a command
  write, data write or data read (R71, U5: treatment `fault`). Safe: the source says only that a busy
  controller "cannot accept a new one", and no claim about what follows can be made. -/
  | protocol (c : Ctl) (k : PulseKind)
  deriving DecidableEq, Repr

/-- Why an instruction has no meaning. -/
inductive Refusal where
  /-- Raised by `exec`'s arm of an instruction that has no meaning yet; no arm does so. Safe: it stops. -/
  | notModelled (mnemonic : String)
  deriving DecidableEq, Repr

/-- The state of the machine. -/
structure State where
  /-- the parameters (R6): constant, no step changes them -/
  cfg : Config
  /-- CTRL (R22) -/
  ctrl : Byte
  /-- DOUT (R23) -/
  dout : Byte
  /-- DIR (R24) -/
  dir : Dir
  /-- STATUS (R27) -/
  status : Byte
  /-- RESULT (R28) -/
  result : Byte
  /-- REQ (R29) -/
  req : Word24
  /-- seq (R32): the steps still to be executed, `[]` for IDLE -/
  seq : List Micro
  /-- the operation-local registers (R30) -/
  loc : Locals
  /-- hidden state of controller 1 (R59) -/
  c1 : Controller
  /-- hidden state of controller 2 (R59) -/
  c2 : Controller
  /-- display memory of both controllers (R52) -/
  mem : Memory
  /-- the protocol-fault state of the environment model (R71, U5) -/
  protoFault : Option (Ctl × PulseKind)
  /-- the requests the host will issue (R34, R37, R38): the model's field -/
  host : List HostMove
  /-- what the environment will do, primitive by primitive (R13, R34): the model's field -/
  env : List EnvSlot
  /-- how many free values have been drawn (R13): the model's field -/
  draws : Nat
  /-- the primitives executed, newest first (R38): the model's record -/
  trace : List Prim
  /-- the pulse events, newest first (R38, R58): the model's record -/
  pulses : List Pulse
  deriving DecidableEq, Repr

/-- The value the model gives the operation-local registers at reset: R35 leaves them unspecified.
DESIGN CHOICE, unsafe (notes/assumptions/11.md). -/
def Locals.zero : Locals where
  val := 0
  tgt := .none
  smp := 0
  rbv := 0
  polls := 0
  tmp := 0
  mask := 0
  page := 0
  col := 0
  ctlr := .none
  pg := 0
  cn := 0

/-- The value the model gives a controller's hidden state at reset: R35, R59 and R273 leave it unspecified.
DESIGN CHOICE, unsafe (notes/assumptions/11.md). -/
def Controller.zero : Controller where
  busy := false
  xp := 0
  ya := 0
  ol := 0
  zl := 0
  don := false
  epoch := 0
  unmodelled := false

/-- The machine right after reset (R35): CTRL, DOUT, DIR, STATUS, RESULT and seq as the table gives them, the
parameters at their defaults (R6), nothing listed in memory. -/
def State.reset : State where
  cfg := Config.standard
  ctrl := 0x00
  dout := 0x00
  dir := .output
  status := 0x01
  result := 0x00
  req := 0
  seq := []
  loc := Locals.zero
  c1 := Controller.zero
  c2 := Controller.zero
  mem := []
  protoFault := none
  host := []
  env := []
  draws := 1
  trace := []
  pulses := []

end Sys2Proof.Machine
end

