-- ==== Sys2Proof/Machine/Memory.lean ====
section
/-! DEFINITION. Display memory (R52): 1024 bytes, controller 1 at 0..511 and controller 2 at 512..1023, as a
list of (address, byte) pairs with addresses strictly rising. An address that is not listed holds no
written value: what it reads as is a free value, fixed for the life of the contents (U2). -/

namespace Sys2Proof.Machine

/-- The first address of controller c's 512 bytes. -/
def ramBase : Ctl → Nat
  | .one => 0
  | .two => 512

/-- The address of `RAM[c][page][col]` (R9, R52). -/
def ramAddr (c : Ctl) (page : BitVec 3) (col : BitVec 6) : Nat :=
  ramBase c + page.toNat * 64 + col.toNat

/-- One past the last address of display memory (R52: 2 × 8 × 64 bytes). -/
def ramSize : Nat := 1024

/-- The byte written at an address, if one was. -/
def Memory.lookup : Memory → Nat → Option Byte
  | [], _ => none
  | (k, v) :: rest, a => if k = a then some v else Memory.lookup rest a

/-- Write one byte, keeping the addresses strictly rising. -/
def Memory.write : Memory → Nat → Byte → Memory
  | [], a, b => [(a, b)]
  | (k, v) :: rest, a, b =>
    if a < k then (a, b) :: (k, v) :: rest
    else if a = k then (a, b) :: rest
    else (k, v) :: Memory.write rest a b

/-- Forget the 512 bytes of controller c (R72, U15: unspecified after the release of its reset). -/
def Memory.forget (m : Memory) (c : Ctl) : Memory :=
  m.filter fun e => !(decide (ramBase c ≤ e.1) && decide (e.1 < ramBase c + 512))

/-- Every address from `lo` on, strictly rising, and inside display memory. -/
def Memory.risingFrom : Memory → Nat → Bool
  | [], _ => true
  | (k, _) :: rest, lo => decide (lo ≤ k) && decide (k < ramSize) && Memory.risingFrom rest (k + 1)

/-- The canonical form: addresses strictly rising and inside display memory. An unlisted address has no
written value, so no entry can repeat it, and two memories with the same written bytes are the same list. -/
def Memory.wf (m : Memory) : Bool := Memory.risingFrom m 0

end Sys2Proof.Machine
end

