-- ==== Sys2Proof/Machine/Flags.lean ====
section
/-! DEFINITION. The control flags of CTRL (R8, R22), the fields of STATUS (R27), and the one condition the
sequences test on a sampled byte (R31). -/

namespace Sys2Proof.Machine

/-! ## Control flags: `flag(F) = (CTRL & M_F) ≠ 0` (R8) -/

/-- `(v & m) ≠ 0`: some bit named by the mask is asserted. -/
def flagIn (v m : Byte) : Bool := v &&& m != 0

/-- `flag(CS1)`. -/
def State.flagCS1 (s : State) : Bool := flagIn s.ctrl s.cfg.mCS1
/-- `flag(CS2)`. -/
def State.flagCS2 (s : State) : Bool := flagIn s.ctrl s.cfg.mCS2
/-- `flag(RST)`. -/
def State.flagRST (s : State) : Bool := flagIn s.ctrl s.cfg.mRST
/-- `flag(RS)`. -/
def State.flagRS (s : State) : Bool := flagIn s.ctrl s.cfg.mRS
/-- `flag(RW)`. -/
def State.flagRW (s : State) : Bool := flagIn s.ctrl s.cfg.mRW
/-- `flag(E)`. -/
def State.flagE (s : State) : Bool := flagIn s.ctrl s.cfg.mE
/-- `sel_c = flag(CSc)` (R57). -/
def State.selected (s : State) : Ctl → Bool
  | .one => s.flagCS1
  | .two => s.flagCS2
/-- The reserved bits of CTRL (R6, R22). -/
def State.reservedBits (s : State) : Byte := s.ctrl &&& s.cfg.mReserved

/-- What the eight data-bus lines carry from the engine: DOUT while DIR = OUTPUT, nothing while DIR = INPUT
(R23, R26). -/
def State.drivenBus (s : State) : Option Byte :=
  match s.dir with
  | .output => some s.dout
  | .input => none

/-! ## STATUS (R27) -/

/-- STATUS.IDLE, bit 0. -/
def State.idle (s : State) : Bool := s.status.getLsbD 0
/-- STATUS.ERR, bit 1. -/
def State.err (s : State) : Bool := s.status.getLsbD 1
/-- STATUS.UNRESP, bit 2. -/
def State.unresp (s : State) : Bool := s.status.getLsbD 2
/-- STATUS.UWHO, bits 4:3. -/
def State.uwho (s : State) : BitVec 2 := s.status.extractLsb' 3 2

/-- STATUS with IDLE set (R37). -/
def statusIdle (v : Byte) : Byte := v ||| 0x01
/-- STATUS with IDLE cleared (R37). -/
def statusBusy (v : Byte) : Byte := v &&& 0xFE
/-- STATUS with ERR set (R241). -/
def statusErr (v : Byte) : Byte := v ||| 0x02
/-- STATUS with UNRESP set, and UWHO with it the first time (R27, R243). -/
def statusUnresp (v : Byte) (cs2 cs1 : Bool) : Byte :=
  if v.getLsbD 2 then v
  else (v &&& 0xE7) ||| 0x04 ||| (if cs1 then 0x08 else 0) ||| (if cs2 then 0x10 else 0)

/-- What the host can read, at any time: STATUS and RESULT and nothing else (R37). -/
structure HostView where
  status : Byte
  result : Byte
  deriving DecidableEq, Repr

/-- The host's read of STATUS and RESULT (R27, R28, R37): it changes nothing. -/
def State.hostView (s : State) : HostView := ⟨s.status, s.result⟩

/-! ## The busy condition (R31 (a)) -/

/-- `busy = ((SMP & BUSY_MASK) ≠ 0)`. -/
def showsBusy (busyMask smp : Byte) : Bool := flagIn smp busyMask

/-- A status byte whose masked bits are nonzero exactly when the controller is busy; every other bit, and
which masked bits a busy controller sets, is as drawn (R63, U1). -/
def statusByte (busyMask : Byte) (busy : Bool) (drawn : Byte) : Byte :=
  match busy with
  | true => if flagIn drawn busyMask then drawn else drawn ||| busyMask
  | false => drawn &&& ~~~busyMask

end Sys2Proof.Machine
end

