-- ==== Sys2Proof/Machine/Operands.lean ====
section
/-! DEFINITION. What the operands of an operation become: chip-select masks for a target (R140), and the
controller, column, page and mask of a pixel (R200 to R203). -/

namespace Sys2Proof.Machine

/-- The chip-select bits of a target: `(M_CS1 if t[0]) | (M_CS2 if t[1])` (R140). -/
def csMask (c : Config) (t : Target) : Byte :=
  (if t.has1 then c.mCS1 else 0) ||| (if t.has2 then c.mCS2 else 0)

/-- CTRL after `Select(t)`: both chip-selects in one update (R140, D8). -/
def selectCtrl (c : Config) (t : Target) (ctrl : Byte) : Byte :=
  (ctrl &&& ~~~(c.mCS1 ||| c.mCS2)) ||| csMask c t

/-- The target that addresses one controller alone. -/
def Ctl.target : Ctl → Target
  | .one => .cs1
  | .two => .cs2

/-! ## The pixel address (R53, R200 to R203) -/

/-- PX.1: both coordinates inside the display (R201). -/
def pixInRange (x y : Nat) : Bool :=
  decide (1 ≤ x) && decide (x ≤ Config.width) && decide (1 ≤ y) && decide (y ≤ Config.height)

/-- `PAGE = (y − 1) / 8` (R202). -/
def pixPage (y : Nat) : BitVec 3 := BitVec.ofNat 3 ((y - 1) / 8)

/-- The bit index `(y − 1) mod 8` (R202). -/
def pixBit (y : Nat) : Nat := (y - 1) % 8

/-- PX.2: `1 << bit`, complemented when clearing (R202). -/
def pixMask (y : Nat) (on : Bool) : Byte :=
  if on then 1#8 <<< pixBit y else ~~~(1#8 <<< pixBit y)

/-- PX.3: x ≤ 64 is controller 1, x > 64 controller 2 (R203). -/
def pixCtl (x : Nat) : Ctl := if x ≤ Config.cols then .one else .two

/-- PX.3: `COL = x − 1` or `x − 65` (R203). -/
def pixCol (x : Nat) : BitVec 6 :=
  if x ≤ Config.cols then BitVec.ofNat 6 (x - 1) else BitVec.ofNat 6 (x - 65)

/-- PX.7: OR to set, AND to clear (R202). -/
def pixCombine (on : Bool) (byte mask : Byte) : Byte := if on then byte ||| mask else byte &&& mask

/-- The command byte "set address (column)": base OR operand (R202, R204). -/
def setAddressCmd (c : Config) (col : BitVec 6) : Byte := c.cmdSetAddress ||| col.setWidth 8

/-- The command byte "set page": base OR operand (R202, R204). -/
def setPageCmd (c : Config) (page : BitVec 3) : Byte := c.cmdSetPage ||| page.setWidth 8

end Sys2Proof.Machine
end

