-- ==== Sys2Proof/Machine/Controllers.lean ====
section
/-! DEFINITION. The reference controller (R59 to R64, R71, R72): what a controller shows on the bus and what it
does with a pulse event (R58). -/

namespace Sys2Proof.Machine

/-! ## The environment's slot, controller by controller -/

/-- The slot of the next primitive; past the end of the list, the slot with every field at its default. -/
def State.slot (s : State) : EnvSlot := s.env.headD {}

/-- Is `Ready(c)` taken just before this primitive (R63)? -/
def EnvSlot.readyOf (e : EnvSlot) : Ctl → Bool
  | .one => e.ready1
  | .two => e.ready2

/-- Does controller c become busy in this primitive, if it may (R63, R72)? -/
def EnvSlot.busyOf (e : EnvSlot) : Ctl → Bool
  | .one => e.busy1
  | .two => e.busy2

/-- Is controller c's display memory lost at the release of its reset (R72, U15)? -/
def EnvSlot.ramLostOf (e : EnvSlot) : Ctl → Bool
  | .one => e.ramLost1
  | .two => e.ramLost2

/-- `any byte` on the bus: the environment's, or the n-th free value (R13, R64). -/
def EnvSlot.busByte (e : EnvSlot) (n : Nat) : Byte := e.din.getD (Config.anyByte n)

/-- `any byte` that reaches controller 2 when nobody drives a write (R58, U7). -/
def EnvSlot.busByte2 (e : EnvSlot) (n : Nat) : Byte := e.din2.getD (Config.anyByte n)

/-! ## A controller and its memory -/

/-- The hidden state of controller c (R59). -/
def State.ctl (s : State) : Ctl → Controller
  | .one => s.c1
  | .two => s.c2

/-- Replace the hidden state of controller c. -/
def State.setCtl (s : State) (c : Ctl) (k : Controller) : State :=
  match c with
  | .one => { s with c1 := k }
  | .two => { s with c2 := k }

/-- `MemRead((c, page, col), 1)`: the byte last written there, else the free value its unwritten contents
hold (R9, R52, U2). -/
def State.ramByte (s : State) (c : Ctl) (page : BitVec 3) (col : BitVec 6) : Byte :=
  (Memory.lookup s.mem (ramAddr c page col)).getD (Config.anyRam (s.ctl c).epoch (ramAddr c page col))

/-- `MemWrite((c, page, col), 1, b)` (R9, R52). -/
def State.ramWrite (s : State) (c : Ctl) (page : BitVec 3) (col : BitVec 6) (b : Byte) : State :=
  { s with mem := Memory.write s.mem (ramAddr c page col) b }

/-- The step `Ready(c)`: `busy_c <- 0` (R63). -/
def readyStep (c : Ctl) (s : State) : State := s.setCtl c { s.ctl c with busy := false }

/-- The environment's own moves just before a primitive (R63). -/
def envMoves (e : EnvSlot) (s : State) : State :=
  let s1 := if e.ready1 then readyStep .one s else s
  if e.ready2 then readyStep .two s1 else s1

/-! ## Sampling (R25, R62, R63, R64) -/

/-- The controller that drives the bus: the only one selected, out of reset, with RW and E asserted and the
engine not driving; `none` where `Sample()` returns `any byte` (R25, R64, R72; U3, U4, U6, U17). -/
def State.driver (s : State) : Option Ctl :=
  if s.dir = .input && s.flagE && s.flagRW && s.flagRST then
    if s.flagCS1 && !s.flagCS2 then some .one
    else if s.flagCS2 && !s.flagCS1 then some .two
    else none
  else none

/-- The value of `Sample()`: the output latch for a data read (R62), the status byte for a status read (R63),
else `any byte` (R64). -/
def State.sampleValue (s : State) (e : EnvSlot) : Byte :=
  match s.driver with
  | some c =>
    if s.flagRS then (s.ctl c).ol
    else statusByte s.cfg.busyMask (s.ctl c).busy (e.busByte s.draws)
  | none => e.busByte s.draws

/-! ## Pulse events (R57, R58) -/

/-- The record of the pulse event, from the state immediately before (R58). -/
def State.pulseRecord (s : State) : Pulse where
  sel1 := s.flagCS1
  sel2 := s.flagCS2
  rs := s.flagRS
  rw := s.flagRW
  rst := s.flagRST
  dir := s.dir
  byte := s.dout

/-- The kind of a pulse event (the table of R58). -/
def Pulse.kind (p : Pulse) : PulseKind :=
  match p.rw, p.rs with
  | false, false => .commandWrite
  | false, true => .dataWrite
  | true, false => .statusRead
  | true, true => .dataRead

/-- `c ∈ sel` (R58). -/
def Pulse.selects (p : Pulse) : Ctl → Bool
  | .one => p.sel1
  | .two => p.sel2

/-- The byte that reaches a controller: DOUT if the engine drives the bus, else `any byte` (R58, U7). -/
def Pulse.busByte (p : Pulse) (drawn : Byte) : Byte :=
  match p.dir with
  | .output => p.byte
  | .input => drawn

/-- The command decode of the reference controller (R60); a byte it does not decode has no effect and is
flagged (U14). -/
def commandEffect (c : Config) (b : Byte) (k : Controller) : Controller :=
  if b &&& 0xC0 = c.cmdSetAddress then { k with ya := b.extractLsb' 0 6 }
  else if b &&& 0xF8 = c.cmdSetPage then { k with xp := b.extractLsb' 0 3 }
  else if b &&& 0xC0 = c.cmdStartLine then { k with zl := b.extractLsb' 0 6 }
  else if b = c.cmdDisplayOn then { k with don := true }
  else if b = c.cmdDisplayOff then { k with don := false }
  else { k with unmodelled := true }

/-- Command write received by controller c (R60). -/
def commandWrite (c : Ctl) (b : Byte) (s : State) : State :=
  s.setCtl c (commandEffect s.cfg b (s.ctl c))

/-- Data write received by controller c: store at (XP, YA), then advance YA modulo 64 (R61). -/
def dataWrite (c : Ctl) (b : Byte) (s : State) : State :=
  (s.ramWrite c (s.ctl c).xp (s.ctl c).ya b).setCtl c { s.ctl c with ya := (s.ctl c).ya + 1 }

/-- Data read received by controller c: reload the output latch, then advance YA modulo 64 (R62). -/
def dataRead (c : Ctl) (s : State) : State :=
  s.setCtl c { s.ctl c with ol := s.ramByte c (s.ctl c).xp (s.ctl c).ya, ya := (s.ctl c).ya + 1 }

/-- What a ready controller does with a pulse event (R60 to R63). -/
def actOn (k : PulseKind) (c : Ctl) (b : Byte) (s : State) : State :=
  match k with
  | .commandWrite => commandWrite c b s
  | .dataWrite => dataWrite c b s
  | .statusRead => s
  | .dataRead => dataRead c s

/-- `busy_c` after a CW, DW or DR: the environment may set it (R60 to R63). -/
def mayGoBusy (e : EnvSlot) (c : Ctl) (s : State) : State :=
  if e.busyOf c then s.setCtl c { s.ctl c with busy := true } else s

/-- A CW, DW or DR received by a busy controller: the protocol-fault state, the first one kept, no effect
invented (R71, U5). -/
def protocolFault (c : Ctl) (k : PulseKind) (s : State) : State :=
  { s with protoFault := some (s.protoFault.getD (c, k)) }

/-- Controller c meets the pulse event `p` carrying the bus byte `b`: not selected or held in reset, it ignores
it (R58, R72); a status read changes nothing (R63); busy, it cannot accept it (R71). -/
def receive (e : EnvSlot) (p : Pulse) (c : Ctl) (b : Byte) (s : State) : State :=
  if !(p.selects c) || !p.rst then s
  else if p.kind = .statusRead then s
  else if (s.ctl c).busy then protocolFault c p.kind s
  else mayGoBusy e c (actOn p.kind c b s)

/-- The pulse event: recorded, then received by controller 1 and controller 2 (R58, R67). -/
def pulseEvent (e : EnvSlot) (s : State) : State :=
  let p := s.pulseRecord
  let b1 := p.busByte (e.busByte s.draws)
  let b2 := p.busByte (e.busByte2 (s.draws + 1))
  receive e p .two b2
    (receive e p .one b1 { s with pulses := p :: s.pulses, draws := s.draws + 2 })

/-! ## The display reset line (R72, R272) -/

/-- Controller c's reset is released: all its hidden state is unspecified, `busy_c` may be 1, and its display
memory is kept or lost as the environment has it (R72, U15; R52, R65 (g), R221). -/
def releaseReset (e : EnvSlot) (c : Ctl) (s : State) : State :=
  let n := s.draws
  let k : Controller :=
    { busy := e.busyOf c
      xp := (Config.anyByte n).setWidth 3
      ya := (Config.anyByte (n + 1)).setWidth 6
      ol := Config.anyByte (n + 2)
      zl := (Config.anyByte (n + 3)).setWidth 6
      don := (Config.anyByte (n + 4)).getLsbD 0
      epoch := if e.ramLostOf c then n + 5 else (s.ctl c).epoch
      unmodelled := (s.ctl c).unmodelled }
  let s1 := { s with draws := n + 6, mem := if e.ramLostOf c then Memory.forget s.mem c else s.mem }
  s1.setCtl c k

end Sys2Proof.Machine
end

