-- ==== Sys2Proof/Machine/Ops.lean ====
section
/-! DEFINITION. The named operations over the engine's registers: the seven primitives of R10, completion
(R37), the two exceptions (R241, R243), and the engine reset (R270). -/

namespace Sys2Proof.Machine

/-! ## CTRL (R22, R58, R72) -/

/-- The one way CTRL changes: the fall of E is a pulse event whose record is the state before (R58), and the
rise of RST releases both controllers from reset (R72, R272). -/
def updateCtrl (e : EnvSlot) (v : Byte) (s : State) : State :=
  let s1 := if s.flagE && !flagIn v s.cfg.mE then pulseEvent e s else s
  let s2 := { s1 with ctrl := v }
  if !s.flagRST && flagIn v s.cfg.mRST then releaseReset e .two (releaseReset e .one s2) else s2

/-- Record an executed primitive (R38). -/
def record (p : Prim) (s : State) : State := { s with trace := p :: s.trace }

/-! ## The seven primitives (R10) -/

/-- `CtrlSet(m)`: `CTRL <- CTRL | m` (R10, R120). -/
def ctrlSet (m : Byte) (e : EnvSlot) (s : State) : State :=
  record (.ctrlSet m) (updateCtrl e (s.ctrl ||| m) s)

/-- `CtrlClear(m)`: `CTRL <- CTRL & ~m` (R10, R121). -/
def ctrlClear (m : Byte) (e : EnvSlot) (s : State) : State :=
  record (.ctrlClear m) (updateCtrl e (s.ctrl &&& ~~~m) s)

/-- `Select(t)` (R10, R140). -/
def select (t : Target) (e : EnvSlot) (s : State) : State :=
  record (.select t) (updateCtrl e (selectCtrl s.cfg t s.ctrl) s)

/-- `SetDir(d)` (R10, R24). -/
def setDir (d : Dir) (_ : EnvSlot) (s : State) : State := record (.setDir d) { s with dir := d }

/-- `Drive(v)` (R10, R23). -/
def drive (v : Byte) (_ : EnvSlot) (s : State) : State := record (.drive v) { s with dout := v }

/-- `SMP <- Sample()` (R10, R25, R30). -/
def sample (e : EnvSlot) (s : State) : State :=
  let v := s.sampleValue e
  record (.sample s.dir s.flagE v) { s with loc := { s.loc with smp := v }, draws := s.draws + 1 }

/-- `Delay(k)`: no state change (R10, R250, R285). -/
def delay (k : DelayKind) (_ : EnvSlot) (s : State) : State := record (.delay k) s

/-! ## Acceptance and completion of a request (R37) -/

/-- Acceptance: `REQ <- w`, `STATUS.IDLE <- 0` (R29, R37). -/
def accept (i : Instr) (s : State) : State :=
  { s with req := encode i, status := statusBusy s.status }

/-- Unspecified values for the operation-local registers (R30, R35): free values. -/
def Locals.free (n : Nat) : Locals where
  val := Config.anyByte n
  tgt := Target.ofBits ((Config.anyByte (n + 1)).setWidth 2)
  smp := Config.anyByte (n + 2)
  rbv := Config.anyByte (n + 3)
  polls := Config.anyNat (n + 4)
  tmp := Config.anyByte (n + 5)
  mask := Config.anyByte (n + 6)
  page := (Config.anyByte (n + 7)).setWidth 3
  col := (Config.anyByte (n + 8)).setWidth 6
  ctlr := Target.ofBits ((Config.anyByte (n + 9)).setWidth 2)
  pg := (Config.anyByte (n + 10)).setWidth 4
  cn := (Config.anyByte (n + 11)).setWidth 7

/-- The operation is over: the value of an operation-local register does not survive it, and is unspecified at the start of
the next (R30): a free value (notes/assumptions/31.md). -/
def dropLocals (s : State) : State := { s with loc := Locals.free s.draws, draws := s.draws + 12 }

/-- `Complete`: `seq <- IDLE`, `STATUS.IDLE <- 1` (R37); the locals do not survive (R30). -/
def complete (s : State) : State := { dropLocals s with seq := [], status := statusIdle s.status }

/-! ## Taking an exception (R240 to R247) -/

/-- `raise IllegalRequest(w)`: `STATUS.ERR <- 1`, nothing else (R241). -/
def raiseIllegalRequest (s : State) : State := { s with status := statusErr s.status }

/-- `raise ControllerUnresponsive(c)`, c the chip-select flags: UNRESP, UWHO the first time, the operation
abandoned, idle again, its locals gone (R30); RESULT not written (R243). There is no return from an exception: the next request
starts from the state the failure left (R248). -/
def raiseUnresponsive (s : State) : State :=
  { dropLocals s with status := statusIdle (statusUnresp s.status s.flagCS2 s.flagCS1), seq := [] }

/-! ## Engine reset (R270, R271) -/

/-- `EngineReset`: CTRL <- 0 (a pulse event if E was 1), every engine register at the value of R35, an operation
in progress discarded, the sticky flags cleared; display memory and the controllers are not touched but by
that pulse event (R270, R271). -/
def engineReset (e : EnvSlot) (s : State) : State :=
  let s1 := updateCtrl e 0x00 s
  { dropLocals s1 with
    dout := 0x00
    dir := .output
    status := 0x01
    result := 0x00
    req := Config.anyReq s1.draws
    seq := [] }

end Sys2Proof.Machine
end

