-- ==== Sys2Proof/Machine/Sequencer.lean ====
section
/-! DEFINITION. The sequencer (R32, R33): how one step of a sequence is executed, what can interrupt it, and the
run of a sequence up to its end or to a poll that shows busy. -/

namespace Sys2Proof.Machine

/-- After a step the sequence goes on (`go`), or the engine has left it: at the end of a poll that showed busy,
by a failure, by an engine reset, or into the protocol-fault state (`stop`). -/
inductive Flow where
  | go (s : State)
  | stop (s : State)
  deriving DecidableEq, Repr

/-- One primitive as an engine step (R20): the environment's slot for it is used up, its `Ready` moves are taken
first (R63), an `EngineReset` may strike instead (R270), and a protocol fault met in it stops the machine
(R71, U5). -/
def primitive (p : EnvSlot → State → State) (rest : List Micro) (s : State) : Flow :=
  let e := s.slot
  let s1 := envMoves e { s with env := s.env.tail }
  if e.reset then .stop (engineReset e s1)
  else
    let s2 := p e s1
    if s2.protoFault.isSome then .stop { s2 with seq := rest } else .go s2

/-- An assignment to an operation-local register (R30): no primitive, no line moves. -/
def assign (f : Locals → Locals) (s : State) : Flow := .go { s with loc := f s.loc }

/-- WT.6 to WT.10: one poll (R150). -/
def pollBody (c : Config) : List Micro :=
  [.ctrlSet c.mE, .delay .settle, .sample, .ctrlClear c.mE, .delay .settle]

/-- `POLLS <- POLLS + 1`, only where POLL_LIMIT is finite (R30, R155). -/
def countPoll (s : State) : State :=
  match s.cfg.pollLimit with
  | none => s
  | some _ => { s with loc := { s.loc with polls := s.loc.polls + 1 } }

/-- The POLL_LIMIT-th poll still showed busy: `SetDir(OUTPUT)`, then the exception (R155, R243). -/
def failWait (s : State) : Flow :=
  match primitive (setDir .output) [] s with
  | .stop s1 => .stop s1
  | .go s1 => .stop (raiseUnresponsive s1)

/-- The poll showed busy: the sequencer stands at WT.6 again (R150, R154). -/
def loopPoll (rest : List Micro) (s : State) : Flow :=
  .stop { s with seq := pollBody s.cfg ++ .test :: rest }

/-- The test made after WT.10 (R150, R153, R154, R155). -/
def pollTest (rest : List Micro) (s : State) : Flow :=
  let s1 := countPoll s
  if showsBusy s.cfg.busyMask s.loc.smp then
    if s.cfg.pollLimit = some s1.loc.polls then failWait s1 else loopPoll rest s1
  else .go s1

/-- One step of a sequence, `rest` being the steps after it (R32). -/
def micro (m : Micro) (rest : List Micro) (s : State) : Flow :=
  match m with
  | .ctrlSet v => primitive (ctrlSet v) rest s
  | .ctrlClear v => primitive (ctrlClear v) rest s
  | .select t => primitive (select t) rest s
  | .selectTgt => primitive (select s.loc.tgt) rest s
  | .setDir d => primitive (setDir d) rest s
  | .driveVal => primitive (drive s.loc.val) rest s
  | .driveZero => primitive (drive 0x00) rest s
  | .sample => primitive sample rest s
  | .delay k => primitive (delay k) rest s
  | .setVal v => assign (fun l => { l with val := v }) s
  | .setValTmp => assign (fun l => { l with val := l.tmp }) s
  | .setTgt t => assign (fun l => { l with tgt := t }) s
  | .latchRbv => assign (fun l => { l with rbv := l.smp }) s
  | .pollsZero => if s.cfg.pollLimit = none then .go s else assign (fun l => { l with polls := 0 }) s
  | .test => pollTest rest s
  | .setPixel page mask ctlr col =>
    assign (fun l => { l with page := page, mask := mask, ctlr := ctlr, col := col }) s
  | .tmpRbv => assign (fun l => { l with tmp := l.rbv }) s
  | .combine on => assign (fun l => { l with tmp := pixCombine on l.tmp l.mask }) s
  | .setPg n => assign (fun l => { l with pg := n }) s
  | .setCn n => assign (fun l => { l with cn := n }) s
  | .setResult => .go { s with result := s.loc.rbv }

/-- Execute a sequence in order (R10, R32) until it ends, which completes the operation (R37), or until the
engine leaves it. A poll that shows busy ends the machine's step with the sequencer at WT.6: the next step
makes the next poll, and a controller that never becomes ready gives steps without end (R154, R244). -/
def runSeq : List Micro → State → State
  | [], s => complete s
  | m :: rest, s =>
    match micro m rest s with
    | .go s1 => runSeq rest s1
    | .stop s1 => s1

/-- An operation: acceptance (R37), then its sequence from the first step. -/
def runOp (i : Instr) (prog : List Micro) (s : State) : State := runSeq prog (accept i s)

/-- The next step of an operation in progress (R32). -/
def resume (s : State) : State := runSeq s.seq s

end Sys2Proof.Machine
end

