-- ==== Sys2Proof/Machine/BusDirector.lean ====
section
/-! DEFINITION. Bus director: SETC, CLRC, CFGRD, CFGWR (R120 to R124). -/

namespace Sys2Proof.Machine

/-- CR.1 to CR.5, `configure_bus_for_read()` (R122). -/
def cfgReadSeq (c : Config) : List Micro :=
  [.ctrlClear c.mE, .setDir .input, .ctrlClear c.mRS, .ctrlSet c.mRW, .delay .settle]

/-- `SetDir(OUTPUT)`, `configure_bus_for_write()` (R123). -/
def cfgWriteSeq : List Micro := [.setDir .output]

/-- SETC, `set_control_bits(mask)` (R120). -/
def execSetc (mask : Byte) (s : State) : Host.Outcome State Fault Refusal :=
  .next (runOp (.setc mask) [.ctrlSet mask] s)

/-- CLRC, `clear_control_bits(mask)` (R121). -/
def execClrc (mask : Byte) (s : State) : Host.Outcome State Fault Refusal :=
  .next (runOp (.clrc mask) [.ctrlClear mask] s)

/-- CFGRD (R122). -/
def execCfgrd (s : State) : Host.Outcome State Fault Refusal :=
  .next (runOp .cfgrd (cfgReadSeq s.cfg) s)

/-- CFGWR (R123). -/
def execCfgwr (s : State) : Host.Outcome State Fault Refusal :=
  .next (runOp .cfgwr cfgWriteSeq s)

end Sys2Proof.Machine
end

