-- ==== Sys2Proof/Machine/ReadyWait.lean ====
section
/-! DEFINITION. Ready-wait: WAIT and the sub-sequences WaitReady and WaitEach (R150 to R155). -/

namespace Sys2Proof.Machine

/-- `WaitReady()`: the five steps of CFGRD, at least one poll, `SetDir(OUTPUT)` (R150, R153). -/
def waitReadySeq (c : Config) : List Micro :=
  cfgReadSeq c ++ .pollsZero :: pollBody c ++ .test :: cfgWriteSeq

/-- `WaitEach(t)`: controller 1 before controller 2, each selected alone (R152). -/
def waitEachSeq (c : Config) (t : Target) : List Micro :=
  (if t.has1 then .select .cs1 :: waitReadySeq c else [])
    ++ (if t.has2 then .select .cs2 :: waitReadySeq c else [])

/-- WAIT, `wait_ready()` (R151). -/
def execWait (s : State) : Host.Outcome State Fault Refusal :=
  .next (runOp .wait (waitReadySeq s.cfg) s)

end Sys2Proof.Machine
end

