-- ==== Sys2Proof/Machine/Selector.lean ====
section
/-! DEFINITION. Controller selector: SEL (R140 to R143). -/

namespace Sys2Proof.Machine

/-- `Select(t)` of a target operand: TGT holds it (R30, R140). -/
def selectSeq (t : Target) : List Micro := [.setTgt t, .selectTgt]

/-- SEL, `select(target)` (R141). -/
def execSel (t : Target) (s : State) : Host.Outcome State Fault Refusal :=
  .next (runOp (.sel t) (selectSeq t) s)

end Sys2Proof.Machine
end

