-- ==== Sys2Proof/Machine/Transport.lean ====
section
/-! DEFINITION. Byte transport: RDB, RDD, WRB, WRC, WRD and their sub-sequences (R165 to R173). -/

namespace Sys2Proof.Machine

/-- RB.1 to RB.13 of `ReadByte(rs, t)`: the read itself (R165). -/
def readPulseSeq (c : Config) (rs : Bool) (t : Target) : List Micro :=
  cfgReadSeq c
    ++ (if rs then [.ctrlSet c.mRS] else [])
    ++ selectSeq t
    ++ [.delay .settle, .ctrlSet c.mE, .delay .settle, .sample, .latchRbv, .ctrlClear c.mE, .setDir .output]

/-- `ReadByte(rs, t)`: its value is RBV (R165). -/
def readByteSeq (c : Config) (rs : Bool) (t : Target) : List Micro :=
  readPulseSeq c rs t ++ waitEachSeq c t

/-- `ReadData(t)`: read twice, the first result discarded (R167). -/
def readDataSeq (c : Config) (t : Target) : List Micro := readByteSeq c true t ++ readByteSeq c true t

/-- `Pulse()` (R10). -/
def pulseSeq (c : Config) : List Micro := [.ctrlSet c.mE, .delay .settle, .ctrlClear c.mE]

/-- `WriteByte(VAL, t)`, `load` being the assignment to VAL (R168). -/
def writeByteSeq (c : Config) (load : Micro) (t : Target) : List Micro :=
  [load, .driveVal] ++ selectSeq t ++ .delay .settle
    :: pulseSeq c ++ waitEachSeq c t ++ .driveZero :: pulseSeq c ++ [.select .none]

/-- `WriteCommand(cmd, t)` (R170). -/
def writeCommandSeq (c : Config) (cmd : Byte) (t : Target) : List Micro :=
  .ctrlClear c.mE :: selectSeq t ++ .ctrlClear (c.mRS ||| c.mRW) :: writeByteSeq c (.setVal cmd) t

/-- `WriteData(VAL, t)`, `load` being the assignment to VAL (R171). -/
def writeDataSeq (c : Config) (load : Micro) (t : Target) : List Micro :=
  .ctrlClear c.mE :: selectSeq t ++ .ctrlSet c.mRS :: .ctrlClear c.mRW :: writeByteSeq c load t

/-- RDB, `read_byte(controller)`: `RESULT <- ReadByte(F, T)` (R166). -/
def execRdb (t : Target) (rs : Bool) (s : State) : Host.Outcome State Fault Refusal :=
  .next (runOp (.rdb t rs) (readByteSeq s.cfg rs t ++ [.setResult]) s)

/-- RDD, `read_data(controller)`: `RESULT <- ReadData(T)` (R167). -/
def execRdd (t : Target) (s : State) : Host.Outcome State Fault Refusal :=
  .next (runOp (.rdd t) (readDataSeq s.cfg t ++ [.setResult]) s)

/-- WRB, `write_byte(value, controller)`: WriteByte with no step added (R169, D22). -/
def execWrb (value : Byte) (t : Target) (s : State) : Host.Outcome State Fault Refusal :=
  .next (runOp (.wrb value t) (writeByteSeq s.cfg (.setVal value) t) s)

/-- WRC, `write_command(cmd, controller)` (R170). -/
def execWrc (cmd : Byte) (t : Target) (s : State) : Host.Outcome State Fault Refusal :=
  .next (runOp (.wrc cmd t) (writeCommandSeq s.cfg cmd t) s)

/-- WRD, `write_data(data, controller)` (R171). -/
def execWrd (data : Byte) (t : Target) (s : State) : Host.Outcome State Fault Refusal :=
  .next (runOp (.wrd data t) (writeDataSeq s.cfg (.setVal data) t) s)

end Sys2Proof.Machine
end

