-- ==== Sys2Proof/Machine/Bulk.lean ====
section
/-! DEFINITION. Bulk operations: CLR and INIT (R220 to R222). -/

namespace Sys2Proof.Machine

/-- CL.6: `n` data writes of zero to both controllers, the counter starting at `k`. -/
def clearColumnsSeq (c : Config) : Nat → Nat → List Micro
  | 0, _ => []
  | n + 1, k =>
    writeDataSeq c (.setVal 0x00) .both ++ .setCn (BitVec.ofNat 7 (k + 1)) :: clearColumnsSeq c n (k + 1)

/-- CL.3 to CL.6 for page `p`: the page command, column 0, sixty-four zeros. -/
def clearPageSeq (c : Config) (p : Nat) : List Micro :=
  writeCommandSeq c (setPageCmd c (BitVec.ofNat 3 p)) .both
    ++ writeCommandSeq c (setAddressCmd c 0) .both
    ++ .setCn 0 :: clearColumnsSeq c Config.cols 0

/-- CL.2 to CL.7: `n` pages, the counter starting at `p`. -/
def clearPagesSeq (c : Config) : Nat → Nat → List Micro
  | 0, _ => []
  | n + 1, p => clearPageSeq c p ++ .setPg (BitVec.ofNat 4 (p + 1)) :: clearPagesSeq c n (p + 1)

/-- CLR (R220). -/
def clearSeq (c : Config) : List Micro := .setPg 0 :: clearPagesSeq c Config.pages 0

/-- INIT (R221). -/
def initSeq (c : Config) : List Micro :=
  [.ctrlSet c.mE, .delay .power, .ctrlClear (c.mCS1 ||| c.mCS2 ||| c.mRST ||| c.mE), .delay .resetAssert,
   .ctrlSet c.mRST, .delay .resetRecover]
    ++ writeCommandSeq c c.cmdDisplayOff .both
    ++ writeCommandSeq c c.cmdDisplayOn .both
    ++ writeCommandSeq c (c.cmdStartLine ||| 0) .both
    ++ writeCommandSeq c (setAddressCmd c 0) .both
    ++ writeCommandSeq c (setPageCmd c 0) .both
    ++ [.select .none]

/-- CLR, `clear_screen()` (R220). -/
def execClr (s : State) : Host.Outcome State Fault Refusal :=
  .next (runOp .clr (clearSeq s.cfg) s)

/-- INIT, `initialize()` (R221). -/
def execInit (s : State) : Host.Outcome State Fault Refusal :=
  .next (runOp .init (initSeq s.cfg) s)

end Sys2Proof.Machine
end

