-- ==== Sys2Proof/Machine/Pixel.lean ====
section
/-! DEFINITION. Pixel read-modify-write: PIX (R200 to R206). -/

namespace Sys2Proof.Machine

/-- PX.2 to PX.8 for an in-range pixel: the column command, the page command, the double read, the column
again, the combination, the write-back (R200, R204). -/
def pixelSeq (c : Config) (x y : Nat) (on : Bool) : List Micro :=
  let t := (pixCtl x).target
  .setPixel (pixPage y) (pixMask y on) t (pixCol x)
    :: writeCommandSeq c (setAddressCmd c (pixCol x)) t
    ++ writeCommandSeq c (setPageCmd c (pixPage y)) t
    ++ readDataSeq c t ++ .tmpRbv
    :: writeCommandSeq c (setAddressCmd c (pixCol x)) t
    ++ .combine on :: writeDataSeq c .setValTmp t

/-- PIX, `set_pixel(x, y, on)`: out of range it completes with no primitive executed (R200, R201, R242). -/
def execPix (x y : Nat) (on : Bool) (s : State) : Host.Outcome State Fault Refusal :=
  .next (runOp (.pix x y on) (if pixInRange x y then pixelSeq s.cfg x y on else []) s)

end Sys2Proof.Machine
end

