-- ==== Sys2Proof/Machine/Dispatch.lean ====
section
/-! DEFINITION. Dispatch (R33 (a), R101): one arm per operation, each one direct call of its meaning. -/

namespace Sys2Proof.Machine

def exec (i : Instr) (s : State) : Host.Outcome State Fault Refusal :=
  match i with
  | .init => Sys2Proof.Machine.execInit s
  | .clr => Sys2Proof.Machine.execClr s
  | .pix x y on => Sys2Proof.Machine.execPix x y on s
  | .setc mask => Sys2Proof.Machine.execSetc mask s
  | .clrc mask => Sys2Proof.Machine.execClrc mask s
  | .cfgrd => Sys2Proof.Machine.execCfgrd s
  | .cfgwr => Sys2Proof.Machine.execCfgwr s
  | .sel t => Sys2Proof.Machine.execSel t s
  | .wait => Sys2Proof.Machine.execWait s
  | .rdb t rs => Sys2Proof.Machine.execRdb t rs s
  | .rdd t => Sys2Proof.Machine.execRdd t s
  | .wrb value t => Sys2Proof.Machine.execWrb value t s
  | .wrc cmd t => Sys2Proof.Machine.execWrc cmd t s
  | .wrd data t => Sys2Proof.Machine.execWrd data t s

end Sys2Proof.Machine
end

