-- ==== Sys2Proof/Machine/Issue.lean ====
section
/-! DEFINITION. The host's moves (R37): issuing a request word, resetting the block. -/

namespace Sys2Proof.Machine

/-- `Issue(w)` on an idle engine: an illegal word raises IllegalRequest and executes no primitive (R94 to R96,
R101, R241); a legal one starts its operation, as `start` says (R37). -/
def issue (start : Instr → State → Host.Outcome State Fault Refusal) (w : Word24) (s : State) :
    Host.Outcome State Fault Refusal :=
  match decodeRequest s.cfg.exposeInternal w with
  | .error _ => .next (raiseIllegalRequest s)
  | .ok i => start i s

/-- `EngineReset` of an idle engine: an engine step like a primitive, so the environment's slot is used up and
its `Ready` moves come first (R63, R270). -/
def hostReset (s : State) : State :=
  let e := s.slot
  engineReset e (envMoves e { s with env := s.env.tail })

/-- The idle engine takes the host's next move; with none, nothing happens (R20, R37, R38). -/
def idleStep (start : Instr → State → Host.Outcome State Fault Refusal) (s : State) : Host.Outcome State Fault Refusal :=
  match s.host with
  | [] => .next s
  | .issue w :: rest => issue start w { s with host := rest }
  | .engineReset :: rest => .next (hostReset { s with host := rest })

/-- Is the word an internal operation, which only EXPOSE_INTERNAL = true lets the host issue (R96)? -/
def isInternalWord (w : Word24) : Bool :=
  match decodeWord w with
  | .error _ => false
  | .ok i => !i.isPublic

/-- The state in which the host's next move is to issue `w` and the engine can take it: idle, no protocol
fault, and the internal operations exposed if `w` is one of them (R37, R96). -/
def aboutToIssue (w : Word24) (s : State) : State :=
  { s with
    host := .issue w :: s.host
    status := statusIdle s.status
    seq := []
    protoFault := none
    cfg := { s.cfg with exposeInternal := s.cfg.exposeInternal || isInternalWord w } }

end Sys2Proof.Machine
end

