-- ==== Sys2Proof/Machine/Step.lean ====
section
/-! DEFINITION. One step of the machine (R37): in the protocol-fault state it stops (R71, U5); an idle engine takes the
host's next move, which runs its operation; otherwise the operation in progress goes on. It is a run of engine steps
(R20; Machine/Engine.lean). -/

namespace Sys2Proof.Machine

def step (s : State) : Host.Outcome State Fault Refusal :=
  match s.protoFault with
  | some (c, k) => .fault (.protocol c k)
  | none => if s.idle then idleStep exec s else .next (resume s)

/-- `s` with the word standing where the next step takes its request from: the host's next move (R37). -/
def State.withFetchWord (s : State) (nbits w : Nat) : State := aboutToIssue (tableWord nbits w) s

end Sys2Proof.Machine
end

