-- ==== Sys2Proof/Machine/Engine.lean ====
section
/-! DEFINITION. The engine step of R20: the acceptance of a request, one primitive, or the completion (R10, R37). The
machine's step (Machine/Step.lean) is a run of engine steps: from a request to the end of its operation, or to the end of
a poll that shows busy. -/

namespace Sys2Proof.Machine

/-- The sequence of each operation: what `seq` holds at dispatch (R32, R33 (a)). -/
def progOf (c : Config) : Instr → List Micro
  | .init => initSeq c
  | .clr => clearSeq c
  | .pix x y on => if pixInRange x y then pixelSeq c x y on else []
  | .setc m => [.ctrlSet m]
  | .clrc m => [.ctrlClear m]
  | .cfgrd => cfgReadSeq c
  | .cfgwr => cfgWriteSeq
  | .sel t => selectSeq t
  | .wait => waitReadySeq c
  | .rdb t rs => readByteSeq c rs t ++ [.setResult]
  | .rdd t => readDataSeq c t ++ [.setResult]
  | .wrb v t => writeByteSeq c (.setVal v) t
  | .wrc v t => writeCommandSeq c v t
  | .wrd v t => writeDataSeq c (.setVal v) t

/-- The step is one of the seven primitives of R10. -/
def isPrimitive : Micro → Bool
  | .ctrlSet _ | .ctrlClear _ | .select _ | .selectTgt | .setDir _ | .driveVal | .driveZero | .sample | .delay _ => true
  | _ => false

/-- Acceptance and dispatch: `REQ <- w`, `STATUS.IDLE <- 0`, `seq` at the first step of the operation (R33 (a), R37). -/
def dispatch (i : Instr) (s : State) : State := { accept i s with seq := progOf s.cfg i }

/-- Where a primitive leaves the sequencer, `rest` being the steps after it: there, or, at the end of a poll, where the
sampled byte sends it (R32, R33 (d), R150). After the POLL_LIMIT-th busy poll it stands at the test, which the next step
takes with `SetDir(OUTPUT)` and the exception (R155, R243). -/
def advance (rest : List Micro) (s : State) : State :=
  match rest with
  | .test :: after =>
    if showsBusy s.cfg.busyMask s.loc.smp then
      if s.cfg.pollLimit = some (countPoll s).loc.polls then { s with seq := rest }
      else { countPoll s with seq := pollBody s.cfg ++ rest }
    else { countPoll s with seq := after }
  | _ => { s with seq := rest }

/-- One engine step of an operation in progress (R20): the primitive the sequence comes to, or its completion.
Assignments to the operation-local registers, and the write of RESULT, are taken with the step after them (R30, R37). -/
def engineMove : List Micro → State → State
  | [], s => complete s
  | m :: rest, s =>
    match micro m rest s with
    | .stop s1 => s1
    | .go s1 => if isPrimitive m then advance rest s1 else engineMove rest s1

/-- One engine step (R20). Between two of them the operation is in progress, IDLE is 0, and the host has no move but to
read STATUS and RESULT (R37). -/
def engineStep (s : State) : Host.Outcome State Fault Refusal :=
  match s.protoFault with
  | some (c, k) => .fault (.protocol c k)
  | none => if s.idle then idleStep (fun i s => .next (dispatch i s)) s else .next (engineMove s.seq s)

/-- `n` engine steps, stopping at the first fault. -/
def engineRun : Nat → State → Host.Outcome State Fault Refusal
  | 0, s => .next s
  | n + 1, s =>
    match engineStep s with
    | .next t => engineRun n t
    | .fault f => .fault f
    | .refused r => .refused r

end Sys2Proof.Machine
end

