-- ==== Sys2Proof/Safety.lean ====
section
/-! DEFINITION. The terms claims are stated in: the named premises on the environment and on the launch state
(R63, R284), the rest state (R280), what every completed operation leaves (R37), the line state after an
operation (R22), the invariant of the machine, and what counts as a safe run. -/

namespace Sys2Proof

/-- The target names controller c. -/
def Target.has (t : Target) : Machine.Ctl → Bool
  | .one => t.has1
  | .two => t.has2

/-- How many controllers a target names (the `n` of R172). -/
def Target.count (t : Target) : Nat := (if t.has1 then 1 else 0) + (if t.has2 then 1 else 0)

end Sys2Proof

namespace Sys2Proof.Machine

/-! ## Premises on the environment -/

/-- The coming slots hold no EngineReset (R270). -/
def State.noReset (s : State) : Bool := s.env.all fun e => !e.reset

/-- The coming slots hold no EngineReset and make no controller busy: every wait then finds a ready controller
ready at its first poll (the condition of R172). -/
def State.calm (s : State) : Bool := s.env.all fun e => !e.reset && !e.busy1 && !e.busy2

/-- The coming slots lose no display memory at a release of the display reset (R52, R65 (g)). -/
def State.ramKept (s : State) : Bool := s.env.all fun e => !e.ramLost1 && !e.ramLost2

/-- In the coming slots `Ready(c)` never comes and no EngineReset strikes: controller c is stuck (R63, R154). -/
def State.stuck (s : State) (c : Ctl) : Bool := s.env.all fun e => !e.reset && !(e.readyOf c)

/-- The next slot holds no EngineReset. -/
def State.noResetNow (s : State) : Bool := !s.slot.reset

/-! ## Premises on the state -/

/-- Both controllers are ready (R284: the named premise "all controllers ready"). -/
def State.allReady (s : State) : Bool := !s.c1.busy && !s.c2.busy

/-- The rest state: DIR = OUTPUT and flag(E) = 0 (R15, R280). -/
def State.atRest (s : State) : Prop := s.dir = .output ∧ s.flagE = false

/-- Parameters as R6 demands, no protocol fault recorded, a calm environment, both controllers ready: where an
operation runs to its end in one step. -/
def State.undisturbed (s : State) : Prop :=
  s.cfg.wf = true ∧ s.protoFault = none ∧ s.calm = true ∧ s.allReady = true

/-- Undisturbed, and the display out of reset (R272). -/
def State.steady (s : State) : Prop := s.undisturbed ∧ s.flagRST = true

/-- Controller c is the only one selected. -/
def State.selectsOnly (s : State) (c : Ctl) : Prop :=
  s.flagCS1 = decide (c = .one) ∧ s.flagCS2 = decide (c = .two)

/-- The sequencer stands at WT.6 with E low, the bus turned round for a status read, and `rest` to do after the
wait (R150). -/
def State.waiting (s : State) (rest : List Micro) : Prop :=
  s.seq = pollBody s.cfg ++ .test :: rest ∧ s.idle = false ∧ s.protoFault = none ∧
    s.dir = .input ∧ s.flagE = false ∧ s.flagRS = false ∧ s.flagRW = true

/-- Controller c alone is selected, out of reset and busy. -/
def State.facesBusy (s : State) (c : Ctl) : Prop :=
  s.selectsOnly c ∧ s.flagRST = true ∧ (s.ctl c).busy = true

/-! ## The operation in progress -/

/-- Operation i is in progress: IDLE is 0, REQ holds its word (R29), and the steps still to be executed are a remainder
of its sequence (R32). -/
def State.inOperation (s : State) (i : Instr) : Prop :=
  s.idle = false ∧ s.req = encode i ∧ ∃ done, progOf s.cfg i = done ++ s.seq

/-- A step of operation i leads from `s` to `t`: its first, which `exec` makes, or a later one, which `step` makes from a
state where it is in progress; or one engine step of it (R20). -/
def runsOperation (i : Instr) (s t : State) : Prop :=
  exec i s = .next t ∨ (s.inOperation i ∧ (step s = .next t ∨ engineStep s = .next t))

/-- Operation i, started at `s`, is over in `t` after `k` more steps, the engine never idle before: each step but the last
ends at a poll that showed busy (notes/assumptions/3.md). -/
def overAfter (i : Instr) (k : Nat) (s t : State) : Prop :=
  ∃ u, exec i s = .next u ∧ (∀ j, j < k → ∃ v, Host.Core.run Sys2Proof.core j u = .next v ∧ v.idle = false) ∧
    Host.Core.run Sys2Proof.core k u = .next t ∧ t.idle = true

/-! ## A pulse event and busy controllers (R58, R71) -/

/-- The pulse event of `s` is one that a controller out of reset acts on: no status read, RST asserted (R58, R63, R72). -/
def State.offers (s : State) (c : Ctl) : Bool := s.selected c && s.flagRST && !(s.flagRW && !s.flagRS)

/-- Controller c would be met busy by the pulse event of `s`: `Ready(c)` does not come first (R63, R71). -/
def State.meetsBusy (s : State) (c : Ctl) : Bool := s.offers c && (s.ctl c).busy && !s.slot.readyOf c

/-- Some controller would be met busy by the pulse event of `s` (R71). -/
def State.hitsBusy (s : State) : Bool := s.meetsBusy .one || s.meetsBusy .two

/-- The protocol fault of the pulse event of `s`: the first controller met busy, and the kind of the event
(R71; notes/assumptions/9.md). -/
def State.metFault (s : State) : Option (Ctl × PulseKind) :=
  if s.meetsBusy .one then some (.one, s.pulseRecord.kind)
  else if s.meetsBusy .two then some (.two, s.pulseRecord.kind)
  else none

/-! ## What an operation leaves -/

/-- What every completed operation leaves (R29, R37): IDLE set and the other bits of STATUS as they were, the
sequencer idle, the request latched, no protocol fault; the parameters and the host's list unchanged. -/
def endsWith (i : Instr) (s t : State) : Prop :=
  t.status = statusIdle s.status ∧ t.seq = [] ∧ t.req = encode i ∧ t.protoFault = none ∧
    t.cfg = s.cfg ∧ t.host = s.host

/-- Every byte of display memory reads as before. -/
def sameRam (s t : State) : Prop := ∀ c page col, t.ramByte c page col = s.ramByte c page col

/-- Both controllers' hidden state is as before but for a `Ready` step (R63). -/
def sameButReady (s t : State) : Prop :=
  ∀ c, t.ctl c = { s.ctl c with busy := (t.ctl c).busy } ∧ ((t.ctl c).busy = true → (s.ctl c).busy = true)

/-- The control lines after an operation: chip-selects as `tgt`, RS, RW and E as given, RST and the reserved
bits as they were. The six flags and the reserved bits are all of CTRL (R22). -/
def linesAfter (s t : State) (tgt : Target) (rs rw e : Bool) : Prop :=
  t.flagCS1 = tgt.has1 ∧ t.flagCS2 = tgt.has2 ∧ t.flagRS = rs ∧ t.flagRW = rw ∧ t.flagE = e ∧
    t.flagRST = s.flagRST ∧ t.reservedBits = s.reservedBits

/-- The selection the waits of a transfer leave: the controller waited on last (R152). -/
def lastWaited : Target → Target
  | .none => .none
  | .cs1 => .cs1
  | .cs2 => .cs2
  | .both => .cs2

/-- The pulse events of `t` that `s` does not have yet, newest first. -/
def newPulses (s t : State) : List Pulse := t.pulses.take (t.pulses.length - s.pulses.length)

/-- The pulse events that do something: commands, data writes and data reads, newest first (R58). -/
def acting (l : List Pulse) : List Pulse := l.filter fun p => p.kind != .statusRead

/-- The record of a byte the engine drives to both controllers out of reset: a command where `rs` is false, a data byte
where it is true (R58). -/
def toBoth (rs : Bool) (b : Byte) : Pulse := ⟨true, true, rs, false, true, .output, b⟩

/-- The bytes CLR sends for one page, oldest first: the page, column 0, sixty-four zeros (CL.3 to CL.6, R220). -/
def pagePulses (c : Config) (p : Nat) : List Pulse :=
  toBoth false (c.cmdSetPage ||| BitVec.ofNat 8 p) :: toBoth false c.cmdSetAddress :: List.replicate 64 (toBoth true 0x00)

/-! ## The discipline of the bus (R24, R65 (f), R150) -/

/-- The four lines a sequence is checked against. -/
structure Lines where
  dir : Dir
  e : Bool
  rs : Bool
  rw : Bool
  deriving DecidableEq, Repr

/-- The lines of a state. -/
def State.lines (s : State) : Lines := ⟨s.dir, s.flagE, s.flagRS, s.flagRW⟩

/-- The lines after one step of a sequence. -/
def Lines.after (c : Config) (l : Lines) : Micro → Lines
  | .ctrlSet m =>
    { l with e := l.e || flagIn m c.mE, rs := l.rs || flagIn m c.mRS, rw := l.rw || flagIn m c.mRW }
  | .ctrlClear m =>
    { l with e := l.e && !flagIn m c.mE, rs := l.rs && !flagIn m c.mRS, rw := l.rw && !flagIn m c.mRW }
  | .setDir d => { l with dir := d }
  | _ => l

/-- Where a step may stand: a sample only with the bus turned to INPUT, read mode and E high (R24, R25); the
test of a poll only where the next poll can follow it (R150). -/
def Lines.admits (l : Lines) : Micro → Bool
  | .sample => l.dir == .input && l.e && l.rw
  | .test => l.dir == .input && !l.e && !l.rs && l.rw
  | _ => true

/-- Every step of the sequence stands where it may. -/
def disciplined (c : Config) : Lines → List Micro → Bool
  | _, [] => true
  | l, m :: rest => l.admits m && disciplined c (l.after c m) rest

/-- A sample was taken with DIR = INPUT and E high (R24, R25). -/
def Prim.readsInput : Prim → Bool
  | .sample d e _ => d == .input && e
  | _ => true

/-! ## The handshake (R71, R284) -/

/-- What a sequence is checked against: the lines, which controllers may be busy, whose status byte the last sample was,
and TGT. -/
structure Watch where
  cs1 : Bool
  cs2 : Bool
  rst : Bool
  rs : Bool
  rw : Bool
  e : Bool
  dir : Dir
  busy1 : Bool
  busy2 : Bool
  seen1 : Bool
  seen2 : Bool
  tgt : Target
  deriving DecidableEq, Repr

/-- The watch of a state, nothing having been sampled. -/
def State.watch (s : State) : Watch :=
  ⟨s.flagCS1, s.flagCS2, s.flagRST, s.flagRS, s.flagRW, s.flagE, s.dir, s.c1.busy, s.c2.busy, false, false, s.loc.tgt⟩

/-- The fall of E: a status read, or a pulse event no controller out of reset receives, changes nothing; a command
or a data byte must be on a bus the engine drives, must reach ready controllers only, and may leave them busy
(R58, R63, R71). -/
def Watch.pulse (w : Watch) : Option Watch :=
  if (w.rw && !w.rs) || !w.rst then some w
  else if !w.rw && w.dir == .input then none
  else if (w.cs1 && w.busy1) || (w.cs2 && w.busy2) then none
  else some { w with busy1 := w.busy1 || w.cs1, busy2 := w.busy2 || w.cs2, seen1 := w.seen1 && !w.cs1,
                     seen2 := w.seen2 && !w.cs2 }

/-- The watch after the lines named by a mask are cleared. -/
def Watch.clear (c : Config) (m : Byte) (w : Watch) : Watch :=
  { w with cs1 := w.cs1 && !flagIn m c.mCS1, cs2 := w.cs2 && !flagIn m c.mCS2, rst := w.rst && !flagIn m c.mRST,
           rs := w.rs && !flagIn m c.mRS, rw := w.rw && !flagIn m c.mRW, e := w.e && !flagIn m c.mE }

/-- The watch after the lines named by a mask are set. -/
def Watch.set (c : Config) (m : Byte) (w : Watch) : Watch :=
  { w with cs1 := w.cs1 || flagIn m c.mCS1, cs2 := w.cs2 || flagIn m c.mCS2, rst := w.rst || flagIn m c.mRST,
           rs := w.rs || flagIn m c.mRS, rw := w.rw || flagIn m c.mRW, e := w.e || flagIn m c.mE }

/-- Is controller 1 alone, or controller 2 alone, selected and out of reset? -/
def Watch.only1 (w : Watch) : Bool := w.cs1 && !w.cs2 && w.rst
def Watch.only2 (w : Watch) : Bool := w.cs2 && !w.cs1 && w.rst

/-- The watch after one step of a sequence; `none` where the step could send a byte to a busy controller, or one that the
engine does not drive, or would release the display reset, or where a poll is not the poll of R150. -/
def Watch.after (c : Config) (w : Watch) : Micro → Option Watch
  | .ctrlSet m => if flagIn m c.mRST && !w.rst then none else some (w.set c m)
  | .ctrlClear m => (if w.e && flagIn m c.mE then w.pulse else some w).map (Watch.clear c m)
  | .select t => some { w with cs1 := t.has1, cs2 := t.has2 }
  | .setTgt t => some { w with tgt := t }
  | .selectTgt => some { w with cs1 := w.tgt.has1, cs2 := w.tgt.has2 }
  | .setDir d => some { w with dir := d }
  | .sample =>
    let status := w.dir == .input && w.e && w.rw && !w.rs
    some { w with seen1 := status && w.only1, seen2 := status && w.only2 }
  | .test =>
    if w.dir == .input && !w.e && !w.rs && w.rw && w.seen1 == w.only1 && w.seen2 == w.only2 then
      some { w with busy1 := w.busy1 && !w.seen1, busy2 := w.busy2 && !w.seen2 }
    else none
  | _ => some w

/-- The watch after a sequence. -/
def Watch.track (c : Config) : Watch → List Micro → Option Watch
  | w, [] => some w
  | w, m :: rest => (w.after c m).bind fun w' => w'.track c rest

/-- At rest and both controllers ready (R280, R284). -/
def Watch.settled (w : Watch) : Bool := !w.e && w.dir == .output && !w.busy1 && !w.busy2

/-- The steps still to be executed send no byte to a busy controller, and end at rest with both controllers ready,
whatever the environment does (R284). For an idle engine: it is at rest, and both controllers are ready. -/
def State.covered (s : State) : Bool :=
  match s.watch.track s.cfg s.seq with
  | none => false
  | some w => w.settled

/-- A host that issues public operations only, no EngineReset, and INIT only into a calm environment: what R284
asks of the delay after the display reset. -/
def State.orderly (s : State) : Prop :=
  s.cfg.exposeInternal = false ∧ s.noReset = true ∧
    ∀ m ∈ s.host, ∃ w, m = .issue w ∧ (w = encode .init → s.calm = true)

/-- The premises and the conclusion of R284, together: the normative unbounded wait (R154), an orderly host, and the
steps still to be executed covered. -/
def State.handshake (s : State) : Prop :=
  s.cfg.wf = true ∧ s.cfg.pollLimit = none ∧ s.cfg.refDecodes = true ∧ s.protoFault = none ∧ s.orderly ∧ s.covered = true ∧ (s.idle = true → s.seq = [])

/-! ## The invariant, and safe runs -/

/-- STATUS is one the engine can show (R27): bits 7:5 zero, UWHO 0 while UNRESP = 0, and UNRESP set only where
POLL_LIMIT is finite. -/
def State.statusLegal (s : State) : Prop :=
  s.status.extractLsb' 5 3 = 0 ∧ (s.unresp = false → s.uwho = 0) ∧ (s.cfg.pollLimit = none → s.unresp = false)

/-- What holds after every engine step: the parameters satisfy R6, memory is in its canonical form, STATUS is legal,
an idle engine has nothing to do (R27, R37), the steps still to be executed keep the discipline of the bus (R24), and
every sample so far was taken with the bus in INPUT and E high (R24, R25). -/
def State.engineInv (s : State) : Prop :=
  s.cfg.wf = true ∧ Memory.wf s.mem = true ∧ s.statusLegal ∧ (s.idle = true → s.seq = []) ∧
    disciplined s.cfg s.lines s.seq = true ∧ s.trace.all Prim.readsInput = true

/-- The invariant of the machine: all that, and IDLE says where the sequencer is: an operation in progress has steps left
(R32, R37). -/
def State.inv (s : State) : Prop :=
  s.engineInv ∧ (s.seq = [] → s.idle = true ∨ s.protoFault.isSome = true)

/-- A safe state: the invariant holds, no controller was sent a byte while busy (R71), and none was sent a
command byte the reference controller does not decode (U14). -/
def State.safe (s : State) : Prop :=
  s.inv ∧ s.protoFault = none ∧ s.c1.unmodelled = false ∧ s.c2.unmodelled = false

/-- A safe run of `n` steps: it is answered by a next state, and that state is safe. -/
def safeRun (n : Nat) (s : State) : Prop := ∃ t, Host.Core.run Sys2Proof.core n s = .next t ∧ t.safe

end Sys2Proof.Machine
end

