-- ==== Sys2Proof/Certificates/Slice0/Obligations.lean ====
section
/-! DEFINITION. The statements for the provers, one per obligation of OBLIGATIONS.json: first the words the
encoding statements are made of, then encoding, the step, each family of operations, the waits, the exceptions and
resets, and the rules of the whole machine. -/

namespace Sys2Proof.Machine

/-! ## Words for the encoding statements -/

/-- The bits of a request word an operation uses, OP included (R90, R91). -/
def usedBits (op : BitVec 4) : Word24 :=
  if op = 0x3 then 0xFFFF4F
  else if op = 0x4 ∨ op = 0x5 then 0x00FF0F
  else if op = 0x8 ∨ op = 0xB then 0x00003F
  else if op = 0xA then 0x00007F
  else if op = 0xC ∨ op = 0xD ∨ op = 0xE then 0x00FF3F
  else 0x00000F

/-- The OP column of R93. -/
def opNumber : Instr → BitVec 4
  | .init => 0x1
  | .clr => 0x2
  | .pix _ _ _ => 0x3
  | .setc _ => 0x4
  | .clrc _ => 0x5
  | .cfgrd => 0x6
  | .cfgwr => 0x7
  | .sel _ => 0x8
  | .wait => 0x9
  | .rdb _ _ => 0xA
  | .rdd _ => 0xB
  | .wrb _ _ => 0xC
  | .wrc _ _ => 0xD
  | .wrd _ _ => 0xE

/-- The number of a target: NONE = 0, CS1 = 1, CS2 = 2, BOTH = 3 (R92, R99). -/
def targetNumber : Target → Nat
  | .none => 0
  | .cs1 => 1
  | .cs2 => 2
  | .both => 3

/-- The operands of the operation are the fields of the word (R92, R97, R101). -/
def operandsAre (w : Word24) : Instr → Prop
  | .init => True
  | .clr => True
  | .pix x y on => x = (fieldA w).toNat ∧ y = (fieldB w).toNat ∧ on = fieldF w
  | .setc m => m = fieldA w
  | .clrc m => m = fieldA w
  | .cfgrd => True
  | .cfgwr => True
  | .sel t => targetNumber t = (fieldT w).toNat
  | .wait => True
  | .rdb t rs => targetNumber t = (fieldT w).toNat ∧ rs = fieldF w
  | .rdd t => targetNumber t = (fieldT w).toNat
  | .wrb v t => v = fieldA w ∧ targetNumber t = (fieldT w).toNat
  | .wrc v t => v = fieldA w ∧ targetNumber t = (fieldT w).toNat
  | .wrd v t => v = fieldA w ∧ targetNumber t = (fieldT w).toNat

/-- The word by the formulas of R99. -/
def assembled : Instr → Nat
  | .init => 0x000001
  | .clr => 0x000002
  | .pix x y on => y * 65536 + x * 256 + on.toNat * 64 + 0x3
  | .setc m => m.toNat * 256 + 0x4
  | .clrc m => m.toNat * 256 + 0x5
  | .cfgrd => 0x000006
  | .cfgwr => 0x000007
  | .sel t => targetNumber t * 16 + 0x8
  | .wait => 0x000009
  | .rdb t rs => rs.toNat * 64 + targetNumber t * 16 + 0xA
  | .rdd t => targetNumber t * 16 + 0xB
  | .wrb v t => v.toNat * 256 + targetNumber t * 16 + 0xC
  | .wrc v t => v.toNat * 256 + targetNumber t * 16 + 0xD
  | .wrd v t => v.toNat * 256 + targetNumber t * 16 + 0xE

/-- The decode procedure of R101 calls the word illegal: its steps (1), (2) and (3). -/
def illegalWord (expose : Bool) (w : Word24) : Prop :=
  fieldOp w = 0x0 ∨ fieldOp w = 0xF ∨
    (0x4 ≤ (fieldOp w).toNat ∧ (fieldOp w).toNat ≤ 0xE ∧ expose = false) ∨
    ∃ r ∈ opRows, r.op = fieldOp w ∧ w &&& r.mask ≠ r.pat

/-! ## Words for the frame statements -/

/-- Which operation-local registers an operation may change: the "Used by" column of R30. -/
def localsKept (i : Instr) (s t : State) : Prop :=
  let a := s.loc
  let b := t.loc
  (s.cfg.pollLimit = none → b.polls = a.polls) ∧
  match i with
  | .setc _ => b = a
  | .clrc _ => b = a
  | .cfgrd => b = a
  | .cfgwr => b = a
  | .sel _ => b = { a with tgt := b.tgt }
  | .wait => b = { a with smp := b.smp, polls := b.polls }
  | .rdb _ _ => b = { a with tgt := b.tgt, smp := b.smp, rbv := b.rbv, polls := b.polls }
  | .rdd _ => b = { a with tgt := b.tgt, smp := b.smp, rbv := b.rbv, polls := b.polls }
  | .wrb _ _ => b = { a with val := b.val, tgt := b.tgt, smp := b.smp, polls := b.polls }
  | .wrc _ _ => b = { a with val := b.val, tgt := b.tgt, smp := b.smp, polls := b.polls }
  | .wrd _ _ => b = { a with val := b.val, tgt := b.tgt, smp := b.smp, polls := b.polls }
  | .pix x y _ => if pixInRange x y then b.pg = a.pg ∧ b.cn = a.cn else b = a
  | .clr => b = { a with val := b.val, tgt := b.tgt, smp := b.smp, polls := b.polls, pg := b.pg, cn := b.cn }
  | .init => b = { a with val := b.val, tgt := b.tgt, smp := b.smp, polls := b.polls }

/-- SETC and CLRC: the two operations that write CTRL with a mask of the host's (R120, R121). -/
def hostMask : Instr → Bool
  | .setc _ => true
  | .clrc _ => true
  | _ => false

/-- RESULT does not come from a single controller's latch, so the spec leaves it open: a status byte, or nobody or both
read (R25, R63, R64, R166, R167). -/
def resultOpen : Instr → Bool
  | .rdb t rs => !rs || t == .none || t == .both
  | .rdd t => t == .none || t == .both
  | _ => false

/-! ## Words for the statements on pulse events and resets -/

/-- The hidden state of controller c after it took the pulse event of `s`, `b` being the byte it found on the bus
(R60 to R63). -/
def afterPulse (s : State) (c : Ctl) (b : Byte) : Controller :=
  if s.flagRW then
    if s.flagRS then { s.ctl c with ol := s.ramByte c (s.ctl c).xp (s.ctl c).ya, ya := (s.ctl c).ya + 1 } else s.ctl c
  else if s.flagRS then { s.ctl c with ya := (s.ctl c).ya + 1 } else commandEffect s.cfg b (s.ctl c)

/-- What the pulse event of `s` leaves in controllers and display memory, `b c` being the byte on the bus: a controller
met busy is as it was, one that takes the event has acted on it, any other has made at most a `Ready` step; a byte of
display memory changes where a data write stored it (R58 to R63, R71, R72). -/
def received (s : State) (b : Ctl → Byte) (t : State) : Prop :=
  (s.dir = .output → ∀ c, b c = s.dout) ∧
  ∀ c,
    (t.ctl c = if s.meetsBusy c then s.ctl c
      else if s.offers c then { afterPulse s c (b c) with busy := s.slot.busyOf c }
      else { s.ctl c with busy := (s.ctl c).busy && !s.slot.readyOf c }) ∧
    ∀ page col, t.ramByte c page col =
      if (s.offers c && !s.meetsBusy c && s.flagRS && !s.flagRW) = true ∧ page = (s.ctl c).xp ∧ col = (s.ctl c).ya then b c
      else s.ramByte c page col

/-- The engine's registers at the reset values of R35; the locals and REQ have none. -/
def enginePowerUp (t : State) : Prop :=
  t.ctrl = 0x00 ∧ t.dout = 0x00 ∧ t.dir = .output ∧ t.status = 0x01 ∧ t.result = 0x00 ∧ t.seq = []

/-- What an EngineReset that strikes at `s` leaves: the engine's registers at their reset values and no primitive
executed; with E high one more pulse event, which the controllers take as any other, a busy one as
notes/assumptions/9.md says; with E low controllers and display memory untouched but for a `Ready` step (R270, R271). -/
def struck (s t : State) : Prop :=
  enginePowerUp t ∧ t.cfg = s.cfg ∧ t.trace = s.trace ∧
    t.pulses = (if s.flagE then s.pulseRecord :: s.pulses else s.pulses) ∧
    t.protoFault = (if s.flagE then s.metFault else none) ∧
    (s.flagE = false → sameButReady s t ∧ sameRam s t) ∧ (s.flagE = true → ∃ b, received s b t)

/-- The primitives of one poll, oldest first, `v` being the byte sampled (WT.6 to WT.10, R150). -/
def pollPrims (c : Config) (v : Byte) : List Prim :=
  [.ctrlSet c.mE, .delay .settle, .sample .input true v, .ctrlClear c.mE, .delay .settle]

/-- The record of a poll's pulse event: a status read (R150). -/
def pollRecord (s : State) : Pulse := ⟨s.flagCS1, s.flagCS2, false, true, s.flagRST, .input, s.dout⟩

end Sys2Proof.Machine

open Sys2Proof Sys2Proof.Machine

/-! ## Encoding (R90 to R101) -/

/-- R90, R92, R93, R97: the word of a well-formed operation decodes to it, every operand at every value. -/
def Obligations.DecodeOfEncodeIsTheOperation : Prop :=
  ∀ i : Instr, i.wf = true → decodeWord (encode i) = .ok i

/-- R95, R98: a word that decodes is the one word of its operation, and the operation is well formed. -/
def Obligations.EncodeOfDecodeIsTheWord : Prop :=
  ∀ (w : Word24) (i : Instr), decodeWord w = .ok i → i.wf = true ∧ encode i = w

/-- R101: a word is a request exactly where the procedure calls it legal, and then OP names the operation and
the fields are its operands. -/
def Obligations.DecodeProcedureOfTheSpec : Prop :=
  ∀ (expose : Bool) (w : Word24),
    ((∃ i, decodeRequest expose w = .ok i) ↔ ¬ illegalWord expose w) ∧
      ∀ i, decodeRequest expose w = .ok i → opNumber i = fieldOp w ∧ operandsAre w i

/-- R94, R91: a 1 in a bit the operation does not use, bit 7 always: no row matches, and the word is illegal. -/
def Obligations.UnusedBitsMustBeZero : Prop :=
  ∀ (expose : Bool) (w : Word24), fieldOp w ≠ 0x0 → fieldOp w ≠ 0xF → w &&& ~~~ usedBits (fieldOp w) ≠ 0 →
    (∀ r ∈ opRows, w &&& r.mask ≠ r.pat) ∧ ∀ i, decodeRequest expose w ≠ .ok i

/-- R96: the eleven internal operations are refused exactly where EXPOSE_INTERNAL is false, the three public ones
never. -/
def Obligations.InternalOperationsNeedExposure : Prop :=
  ∀ i : Instr, i.wf = true →
    ((∃ j, decodeRequest false (encode i) = .ok j) ↔ i = .init ∨ i = .clr ∨ ∃ x y on, i = .pix x y on) ∧
      decodeRequest true (encode i) = .ok i

/-- R99: the word of an operation is the formula of its assembler form. -/
def Obligations.WordsAreTheAssembledFormulas : Prop :=
  ∀ i : Instr, i.wf = true → (encode i).toNat = assembled i

/-- R93, R99, and the examples of R120, R121, R141, R166, R169 and R171: words written out in the spec, one or more for
every operation. -/
def Obligations.WordsOfTheSpecDecode : Prop :=
  decodeWord 0x000001 = .ok .init ∧ decodeWord 0x000002 = .ok .clr ∧
    decodeWord 0x010143 = .ok (.pix 1 1 true) ∧ decodeWord 0x408003 = .ok (.pix 128 64 false) ∧
    decodeWord 0x002104 = .ok (.setc 0x21) ∧ decodeWord 0x002005 = .ok (.clrc 0x20) ∧
    decodeWord 0x000006 = .ok .cfgrd ∧ decodeWord 0x000007 = .ok .cfgwr ∧
    decodeWord 0x000038 = .ok (.sel .both) ∧ decodeWord 0x000009 = .ok .wait ∧
    decodeWord 0x00006A = .ok (.rdb .cs2 true) ∧ decodeWord 0x00001B = .ok (.rdd .cs1) ∧
    decodeWord 0x00A51C = .ok (.wrb 0xA5 .cs1) ∧ decodeWord 0x003F3D = .ok (.wrc 0x3F .both) ∧
    decodeWord 0x00A51E = .ok (.wrd 0xA5 .cs1)

/-! ## The step (R20, R37, R241) -/

/-- R37: an idle engine takes the host's request, and a legal one runs the operation it decodes to. -/
def Obligations.StepRunsTheDecodedOperation : Prop :=
  ∀ (s : State) (w : Word24) (i : Instr) (rest : List HostMove), s.protoFault = none → s.idle = true →
    s.host = .issue w :: rest → decodeRequest s.cfg.exposeInternal w = .ok i → step s = exec i { s with host := rest }

/-- R241: an illegal word sets ERR and changes nothing else; the engine stays idle and takes the next request. -/
def Obligations.IllegalRequestOnlySetsErr : Prop :=
  ∀ (s : State) (w : Word24) (rest : List HostMove), s.protoFault = none → s.idle = true →
    s.host = .issue w :: rest → illegalWord s.cfg.exposeInternal w →
      ∃ t, step s = .next t ∧ t = { s with host := rest, status := s.status ||| 0x02 } ∧ t.err = true ∧
        t.idle = true ∧ t.unresp = s.unresp ∧ t.uwho = s.uwho

/-- R37: while IDLE is 0 the host has no move: what it would issue next makes no difference to the step. -/
def Obligations.BusyEngineTakesNoRequest : Prop :=
  ∀ (s t : State) (l : List HostMove), s.idle = false → step s = .next t →
    t.host = s.host ∧ step { s with host := l } = .next { t with host := l }

/-- R71, and the model's choice of notes/assumptions/9.md: the machine stops in the protocol-fault state and in no
other, and refuses nothing. -/
def Obligations.OnlyProtocolFaultsStopTheMachine : Prop :=
  ∀ s : State, (∀ c k, s.protoFault = some (c, k) → step s = .fault (.protocol c k)) ∧
    (s.protoFault = none → ∃ t, step s = .next t)

/-- With the step of notes/assumptions/3.md, which is the model's choice (R20 calls one primitive a step): after its first
step an operation has completed or failed, and the engine is idle, or the sequencer stands at WT.6 of a ready-wait; and
every step of it, the first or a later one, ends it or leaves it in progress, standing at WT.6 with the bus turned round
and a remainder of its sequence still to do (R12, R29, R32, R150, R154). -/
def Obligations.OperationsStayInTheirSequence : Prop :=
  (∀ (i : Instr) (s t : State), s.protoFault = none → s.noReset = true → exec i s = .next t → t.protoFault = none →
    (t.idle = true ∧ t.seq = []) ∨ (t.idle = false ∧ ∃ rest, t.seq = pollBody s.cfg ++ .test :: rest)) ∧
  ∀ (i : Instr) (s t : State), s.cfg.wf = true → s.protoFault = none → s.noReset = true →
    (exec i s = .next t ∨ (s.inOperation i ∧ (∃ rest, s.waiting rest) ∧ step s = .next t)) → t.protoFault = none →
    t.noReset = true ∧
      ((t.idle = true ∧ t.seq = [] ∧ t.req = encode i) ∨ (t.inOperation i ∧ ∃ rest, t.waiting rest))

/-! ## The engine step (R10, R20, R37) -/

/-- R20, R37: one engine step is the acceptance of a request, one primitive, or the completion, which for RDB and RDD
writes RESULT. A step never executes two primitives; a primitive leaves STATUS, REQ, RESULT and the host's list alone and
the sequencer at the steps after it, or, at the end of a poll, where the sampled byte sends it; a `Delay` changes nothing. An
assignment to an operation-local register is taken with the step after it (notes/assumptions/18.md). -/
def Obligations.EngineStepsAreThoseOfTheSpec : Prop :=
  (∀ (s : State) (w : Word24) (i : Instr) (rest : List HostMove), s.protoFault = none → s.idle = true →
    s.host = .issue w :: rest → decodeRequest s.cfg.exposeInternal w = .ok i →
      engineStep s =
        .next { s with host := rest, req := encode i, status := statusBusy s.status, seq := progOf s.cfg i }) ∧
  (∀ (s : State) (m : Micro) (rest : List Micro), s.protoFault = none → s.idle = false → s.noResetNow = true →
    s.seq = m :: rest → isPrimitive m = true →
      ∃ (t : State) (p : Prim), engineStep s = .next t ∧ t.trace = p :: s.trace ∧ t.env = s.env.tail ∧
        t.status = s.status ∧ t.req = s.req ∧ t.result = s.result ∧ t.cfg = s.cfg ∧ t.host = s.host ∧
        (t.protoFault = none → (∀ after, rest ≠ .test :: after) → t.seq = rest) ∧
        (t.protoFault = none → ∀ after, rest = .test :: after → t.seq =
          if showsBusy s.cfg.busyMask t.loc.smp then
            if s.cfg.pollLimit = some (s.loc.polls + 1) then rest else pollBody s.cfg ++ rest
          else after) ∧
        ∀ k, m = .delay k → p = .delay k ∧ t.protoFault = none ∧ t.ctrl = s.ctrl ∧ t.dout = s.dout ∧ t.dir = s.dir ∧
          t.pulses = s.pulses ∧ sameButReady s t ∧ sameRam s t ∧ ((∀ after, rest ≠ .test :: after) → t.loc = s.loc)) ∧
  (∀ (s u : State) (m : Micro) (rest : List Micro), s.protoFault = none → s.idle = false → s.seq = m :: rest →
    isPrimitive m = false → micro m rest s = .go u → engineStep s = engineStep { u with seq := rest }) ∧
  (∀ s : State, s.protoFault = none → s.idle = false →
    (s.seq = [] → engineStep s = .next (complete s)) ∧
    (s.seq = [.setResult] → engineStep s = .next (complete { s with result := s.loc.rbv }))) ∧
  ∀ s t : State, engineStep s = .next t → t.trace.length ≤ s.trace.length + 1 ∧ (s.idle = false → t.host = s.host)

/-- The machine's step, which is the model's choice of notes/assumptions/3.md, is a run of engine steps (R20), and between
two of them the operation is in progress: IDLE is 0. -/
def Obligations.EngineStepsMakeTheMachineStep : Prop :=
  ∀ s t : State, s.protoFault = none → step s = .next t →
    ∃ n, engineRun (n + 1) s = .next t ∧
      ∀ j, 1 ≤ j → j ≤ n → ∃ v, engineRun j s = .next v ∧ v.idle = false ∧ v.protoFault = none

/-! ## Bus director (R120 to R123) -/

/-- R120: SETC sets exactly the bits of its mask, in one primitive. Where it raises RST the controllers leave their
reset (R72), and display memory is kept unless the environment loses it then (notes/assumptions/8.md). -/
def Obligations.SetcSetsExactlyItsBits : Prop :=
  ∀ (s : State) (mask : Byte), s.protoFault = none → s.noResetNow = true →
    ∃ t, exec (.setc mask) s = .next t ∧ endsWith (.setc mask) s t ∧ t.ctrl = s.ctrl ||| mask ∧ t.dout = s.dout ∧
      t.dir = s.dir ∧ t.result = s.result ∧ t.pulses = s.pulses ∧ t.trace = .ctrlSet mask :: s.trace ∧
      ((s.flagRST = true ∨ flagIn mask s.cfg.mRST = false) → sameButReady s t ∧ sameRam s t) ∧
      ∀ c page col, s.slot.ramLostOf c = false → t.ramByte c page col = s.ramByte c page col

/-- R121: CLRC clears exactly the bits of its mask, in one primitive; it is a pulse event where E falls, recorded
from the state before, and changes nothing in the display where it does not. Where the event meets a busy controller
the lines are the same and the protocol fault is recorded (R71; the form is notes/assumptions/9.md's). -/
def Obligations.ClrcClearsExactlyItsBits : Prop :=
  ∀ (s : State) (mask : Byte), s.cfg.wf = true → s.protoFault = none → s.noResetNow = true →
    ∃ t, exec (.clrc mask) s = .next t ∧ t.ctrl = s.ctrl &&& ~~~mask ∧ t.dout = s.dout ∧ t.dir = s.dir ∧
      t.result = s.result ∧ t.req = encode (.clrc mask) ∧ t.seq = [] ∧ t.cfg = s.cfg ∧
      t.host = s.host ∧ t.trace = .ctrlClear mask :: s.trace ∧
      t.pulses = (if s.flagE && flagIn mask s.cfg.mE then s.pulseRecord :: s.pulses else s.pulses) ∧
      ((s.flagE && flagIn mask s.cfg.mE && s.hitsBusy) = false → endsWith (.clrc mask) s t) ∧
      ((s.flagE && flagIn mask s.cfg.mE && s.hitsBusy) = true → t.protoFault = s.metFault ∧
        t.status = statusBusy s.status) ∧
      ((s.flagE && flagIn mask s.cfg.mE) = false → sameButReady s t ∧ sameRam s t)

/-- R122: CFGRD leaves E = 0, RS = 0, RW = 1 and DIR = INPUT by its five primitives; CR.1 is a pulse event if E was
high, received as any other and as in `CLRC M_E`, and nothing else in it reaches a controller or display memory. Where
that event meets a busy controller CR.1 is the last primitive (R71; notes/assumptions/9.md). -/
def Obligations.CfgrdTurnsTheBusToInput : Prop :=
  ∀ s : State, s.cfg.wf = true → s.protoFault = none → s.noReset = true →
    ((s.flagE && s.hitsBusy) = false →
    ∃ u t, exec (.clrc s.cfg.mE) s = .next u ∧ exec .cfgrd s = .next t ∧ endsWith .cfgrd s t ∧ t.dir = .input ∧
      t.flagE = false ∧ t.flagRS = false ∧ t.flagRW = true ∧ t.flagCS1 = s.flagCS1 ∧ t.flagCS2 = s.flagCS2 ∧
      t.flagRST = s.flagRST ∧ t.reservedBits = s.reservedBits ∧ t.dout = s.dout ∧ t.result = s.result ∧
      t.trace = [.delay .settle, .ctrlSet s.cfg.mRW, .ctrlClear s.cfg.mRS, .setDir .input, .ctrlClear s.cfg.mE] ++
        s.trace ∧
      t.pulses = (if s.flagE then s.pulseRecord :: s.pulses else s.pulses) ∧
      sameButReady u t ∧ sameRam u t ∧ (s.flagE = true → ∃ b, received s b u) ∧
      (s.flagE = false → sameButReady s t ∧ sameRam s t)) ∧
    ((s.flagE && s.hitsBusy) = true →
      ∃ t b, exec .cfgrd s = .next t ∧ t.protoFault = s.metFault ∧ t.ctrl = s.ctrl &&& ~~~s.cfg.mE ∧ t.dir = s.dir ∧
        t.dout = s.dout ∧ t.result = s.result ∧ t.loc = s.loc ∧ t.status = statusBusy s.status ∧ t.cfg = s.cfg ∧
        t.host = s.host ∧ t.trace = .ctrlClear s.cfg.mE :: s.trace ∧ t.pulses = s.pulseRecord :: s.pulses ∧
        received s b t)

/-- R123: CFGWR sets DIR = OUTPUT in one primitive and touches nothing else. -/
def Obligations.CfgwrRestoresOutput : Prop :=
  ∀ s : State, s.protoFault = none → s.noResetNow = true →
    ∃ t, exec .cfgwr s = .next t ∧ endsWith .cfgwr s t ∧ t.dir = .output ∧ t.drivenBus = some s.dout ∧
      t.ctrl = s.ctrl ∧ t.dout = s.dout ∧ t.result = s.result ∧ t.pulses = s.pulses ∧
      t.trace = .setDir .output :: s.trace ∧ sameButReady s t ∧ sameRam s t

/-! ## Controller selector (R140, R141) -/

/-- R141, R140: SEL puts the two chip-selects to its target in one update; nothing else changes, and no pulse event
follows from it. -/
def Obligations.SelMapsTheTarget : Prop :=
  ∀ (s : State) (tgt : Target), s.cfg.wf = true → s.protoFault = none → s.noResetNow = true →
    ∃ t, exec (.sel tgt) s = .next t ∧ endsWith (.sel tgt) s t ∧
      t.ctrl = (s.ctrl &&& ~~~(s.cfg.mCS1 ||| s.cfg.mCS2)) |||
        ((if (targetNumber tgt).testBit 0 then s.cfg.mCS1 else 0) ||| (if (targetNumber tgt).testBit 1 then s.cfg.mCS2 else 0)) ∧
      linesAfter s t tgt s.flagRS s.flagRW s.flagE ∧ t.dout = s.dout ∧ t.dir = s.dir ∧ t.result = s.result ∧
      t.pulses = s.pulses ∧ t.trace = .select tgt :: s.trace ∧ sameButReady s t ∧ sameRam s t

/-! ## Pulse events and the controllers (R58 to R64, R71, R72) -/

/-- R60, R58: a command write is decoded by every selected controller out of reset, and by no other; the byte is
DOUT where the engine drives the bus. -/
def Obligations.CommandWriteReachesTheSelected : Prop :=
  ∀ (s : State) (mask : Byte), s.cfg.wf = true → s.protoFault = none → s.noResetNow = true → s.flagE = true →
    flagIn mask s.cfg.mE = true → s.flagRS = false → s.flagRW = false → s.flagRST = true →
    (∀ c, s.selected c = true → (s.ctl c).busy = false) →
    ∃ (t : State) (b : Ctl → Byte), exec (.clrc mask) s = .next t ∧ (s.dir = .output → ∀ c, b c = s.dout) ∧
      (∀ c, s.selected c = true →
        t.ctl c = { commandEffect s.cfg (b c) (s.ctl c) with busy := s.slot.busyOf c }) ∧
      (∀ c, s.selected c = false → t.ctl c = { s.ctl c with busy := (s.ctl c).busy && !s.slot.readyOf c }) ∧
      sameRam s t

/-- R60: the command bytes of the reference controller at the default parameters. -/
def Obligations.CommandBytesAtTheDefaults : Prop :=
  ∀ (b : Byte) (k : Controller),
    (0x40 ≤ b.toNat ∧ b.toNat ≤ 0x7F →
      commandEffect Config.standard b k = { k with ya := BitVec.ofNat 6 (b.toNat - 0x40) }) ∧
    (0xB8 ≤ b.toNat ∧ b.toNat ≤ 0xBF →
      commandEffect Config.standard b k = { k with xp := BitVec.ofNat 3 (b.toNat - 0xB8) }) ∧
    (0xC0 ≤ b.toNat → commandEffect Config.standard b k = { k with zl := BitVec.ofNat 6 (b.toNat - 0xC0) }) ∧
    (b = 0x3F → commandEffect Config.standard b k = { k with don := true }) ∧
    (b = 0x3E → commandEffect Config.standard b k = { k with don := false }) ∧
    (b.toNat < 0x3E ∨ (0x80 ≤ b.toNat ∧ b.toNat < 0xB8) →
      commandEffect Config.standard b k = { k with unmodelled := true })

/-- R61: a data write stores the byte at (XP, YA) of every selected controller and advances YA modulo 64; every
other byte keeps its value. -/
def Obligations.DataWriteStoresAndAdvances : Prop :=
  ∀ (s : State) (mask : Byte), s.cfg.wf = true → s.protoFault = none → s.noResetNow = true → s.flagE = true →
    flagIn mask s.cfg.mE = true → s.flagRS = true → s.flagRW = false → s.flagRST = true →
    (∀ c, s.selected c = true → (s.ctl c).busy = false) →
    ∃ (t : State) (b : Ctl → Byte), exec (.clrc mask) s = .next t ∧ (s.dir = .output → ∀ c, b c = s.dout) ∧
      (∀ c, s.selected c = true →
        t.ctl c = { s.ctl c with ya := BitVec.ofNat 6 (((s.ctl c).ya.toNat + 1) % 64), busy := s.slot.busyOf c }) ∧
      (∀ c, s.selected c = false → t.ctl c = { s.ctl c with busy := (s.ctl c).busy && !s.slot.readyOf c }) ∧
      ∀ c page col, t.ramByte c page col =
        if s.selected c = true ∧ page = (s.ctl c).xp ∧ col = (s.ctl c).ya then b c else s.ramByte c page col

/-- R62: a data read reloads the output latch of every selected controller from (XP, YA) and advances YA modulo 64;
display memory keeps its contents. -/
def Obligations.DataReadLatchesAndAdvances : Prop :=
  ∀ (s : State) (mask : Byte), s.cfg.wf = true → s.protoFault = none → s.noResetNow = true → s.flagE = true →
    flagIn mask s.cfg.mE = true → s.flagRS = true → s.flagRW = true → s.flagRST = true →
    (∀ c, s.selected c = true → (s.ctl c).busy = false) →
    ∃ t : State, exec (.clrc mask) s = .next t ∧
      (∀ c, s.selected c = true →
        t.ctl c = { s.ctl c with ol := s.ramByte c (s.ctl c).xp (s.ctl c).ya,
                                 ya := BitVec.ofNat 6 (((s.ctl c).ya.toNat + 1) % 64), busy := s.slot.busyOf c }) ∧
      (∀ c, s.selected c = false → t.ctl c = { s.ctl c with busy := (s.ctl c).busy && !s.slot.readyOf c }) ∧
      sameRam s t

/-- R58, R63, R72: a status read, a pulse event with nobody selected and a pulse event in the reset-assert window are
recorded and change no controller and no display byte, busy or not. -/
def Obligations.IdlePulseEventsAreOnlyRecorded : Prop :=
  ∀ (s : State) (mask : Byte), s.cfg.wf = true → s.protoFault = none → s.noResetNow = true → s.flagE = true →
    flagIn mask s.cfg.mE = true →
    ((s.flagRW = true ∧ s.flagRS = false) ∨ (s.flagCS1 = false ∧ s.flagCS2 = false) ∨ s.flagRST = false) →
    ∃ t, exec (.clrc mask) s = .next t ∧ endsWith (.clrc mask) s t ∧ t.pulses = s.pulseRecord :: s.pulses ∧
      sameButReady s t ∧ sameRam s t

/-- R71, and the model's choice of notes/assumptions/9.md: a busy controller that receives a command write, a data
write or a data read is given no effect, and one selected with it that is ready acts as usual; the fault is recorded and
the next step stops with it. -/
def Obligations.BusyControllerMakesAProtocolFault : Prop :=
  ∀ (s : State) (mask : Byte), s.cfg.wf = true → s.protoFault = none → s.noResetNow = true → s.flagE = true →
    flagIn mask s.cfg.mE = true → s.hitsBusy = true →
    ∃ (t : State) (b : Ctl → Byte) (c : Ctl), exec (.clrc mask) s = .next t ∧ s.meetsBusy c = true ∧
      (c = .two → s.meetsBusy .one = false) ∧ t.protoFault = some (c, s.pulseRecord.kind) ∧
      t.ctrl = s.ctrl &&& ~~~mask ∧ t.pulses = s.pulseRecord :: s.pulses ∧ received s b t ∧
      step t = .fault (.protocol c s.pulseRecord.kind)

/-- R62, R63, R64: what `Sample()` returns: the latch of the one controller that drives the bus in a data read, a
byte that shows its busy flag in a status read, and `any byte` where no single controller answers, or where it cannot
drive the bus: the engine drives it (R25, U6), or RST or E is low (notes/assumptions/16.md). -/
def Obligations.SampleShowsTheDrivingController : Prop :=
  ∀ (s : State) (e : EnvSlot),
    (∀ c, s.cfg.wf = true → s.selectsOnly c → s.flagRST = true → s.dir = .input → s.flagE = true → s.flagRW = true →
      (s.flagRS = true → s.sampleValue e = (s.ctl c).ol) ∧
      (s.flagRS = false → showsBusy s.cfg.busyMask (s.sampleValue e) = (s.ctl c).busy)) ∧
    (s.flagCS1 = s.flagCS2 ∨ s.flagRW = false ∨ s.dir = .output ∨ s.flagRST = false ∨ s.flagE = false →
      s.sampleValue e = e.busByte s.draws)

/-! ## Ready-wait (R150 to R155, R243, R244) -/

/-- R150, R151, R153: WAIT on a ready controller makes one poll and returns with DIR = OUTPUT, E = 0, RS = 0,
RW = 1: eleven primitives. An E that is high on entry falls in its first primitive, as in `CLRC M_E` (R287 (a)); nothing
else in it reaches a controller or display memory. -/
def Obligations.WaitReturnsWhenReady : Prop :=
  ∀ (s : State) (c : Ctl), s.steady → s.selectsOnly c →
    ∃ u t, exec (.clrc s.cfg.mE) s = .next u ∧ exec .wait s = .next t ∧ endsWith .wait s t ∧
      linesAfter s t c.target false true false ∧ t.dir = .output ∧ t.dout = s.dout ∧ t.result = s.result ∧
      t.trace.length = s.trace.length + 11 ∧ t.pulses = pollRecord s :: u.pulses ∧
      (s.flagE = true → u.pulses = s.pulseRecord :: s.pulses ∧ ∃ b, received s b u) ∧
      (s.flagE = false → u.pulses = s.pulses ∧ (∀ k, u.ctl k = s.ctl k) ∧ sameRam s u) ∧
      (∀ k, t.ctl k = u.ctl k) ∧ sameRam u t

/-- R150, R154: WAIT on a busy controller stands at WT.6 after its first poll, IDLE at 0. That its first step ends there is
the model's choice (notes/assumptions/3.md). -/
def Obligations.WaitStandsAtABusyPoll : Prop :=
  ∀ (s : State) (c : Ctl), s.cfg.wf = true → s.protoFault = none → s.stuck c = true → s.cfg.pollLimit ≠ some 1 →
    s.flagE = false → s.facesBusy c →
    ∃ t, exec .wait s = .next t ∧ t.waiting cfgWriteSeq ∧ t.facesBusy c ∧ t.status = statusBusy s.status ∧
      t.req = encode .wait ∧ (t.cfg.pollLimit ≠ none → t.loc.polls = 1)

/-- R150, R151: WAIT polls whatever is selected, one controller, none or both: it turns the bus round by its first five
primitives and then does what a step that stands at WT.6 does, its polls counted from zero. -/
def Obligations.WaitPollsWhateverIsSelected : Prop :=
  ∀ s : State, s.cfg.wf = true → s.protoFault = none → s.noReset = true → s.flagE = false →
    ∃ u : State, exec .wait s = step u ∧ u.waiting cfgWriteSeq ∧ u.noReset = true ∧ u.flagCS1 = s.flagCS1 ∧
      u.flagCS2 = s.flagCS2 ∧ u.flagRST = s.flagRST ∧ u.reservedBits = s.reservedBits ∧ u.dout = s.dout ∧
      u.status = statusBusy s.status ∧ u.req = encode .wait ∧ u.result = s.result ∧ u.cfg = s.cfg ∧ u.host = s.host ∧
      u.loc = { s.loc with polls := if s.cfg.pollLimit = none then s.loc.polls else 0 } ∧ u.pulses = s.pulses ∧
      u.trace = [.delay .settle, .ctrlSet s.cfg.mRW, .ctrlClear s.cfg.mRS, .setDir .input, .ctrlClear s.cfg.mE] ++
        s.trace ∧ sameButReady s u ∧ sameRam s u

/-- R150, R153, R155: one poll is five primitives and a status read; where the byte sampled in it does not show busy the
operation goes on with what follows the wait, the POLL_LIMIT-th poll included, and the controller is ready then; where it
shows busy the wait goes round again unless POLL_LIMIT polls are made. `v` is that byte: it stands in the trace the step
leaves. How far a step goes is the model's choice (notes/assumptions/3.md). -/
def Obligations.ThePollDecides : Prop :=
  ∀ (s : State) (rest : List Micro), s.cfg.wf = true → s.noReset = true → s.waiting rest →
    ∃ (u : State) (v : Byte),
      u.trace = (pollPrims s.cfg v).reverse ++ s.trace ∧ u.pulses = pollRecord s :: s.pulses ∧ u.ctrl = s.ctrl ∧
      u.dir = .input ∧ u.dout = s.dout ∧ u.status = s.status ∧ u.result = s.result ∧ u.req = s.req ∧
      u.cfg = s.cfg ∧ u.host = s.host ∧ u.protoFault = none ∧
      u.loc = { s.loc with smp := v, polls := if s.cfg.pollLimit = none then s.loc.polls else s.loc.polls + 1 } ∧
      sameButReady s u ∧ sameRam s u ∧
      (∃ t, step s = .next t ∧ (pollPrims s.cfg v).reverse ++ s.trace <:+ t.trace) ∧
      (∀ c, s.selectsOnly c → s.flagRST = true → showsBusy s.cfg.busyMask v = false → (u.ctl c).busy = false) ∧
      (showsBusy s.cfg.busyMask v = false → step s = .next (runSeq rest u)) ∧
      (showsBusy s.cfg.busyMask v = true → s.cfg.pollLimit ≠ some (s.loc.polls + 1) →
        step s = .next { u with seq := s.seq })

/-- R244, R154: with POLL_LIMIT = ∞ a controller that never becomes ready hangs the engine: after any number of
steps it is still in the poll loop, IDLE is 0 and no flag is set. That a step is one poll, five primitives and a pulse
event, is the model's choice (notes/assumptions/3.md). -/
def Obligations.StuckControllerHangsTheEngine : Prop :=
  ∀ (s : State) (rest : List Micro) (c : Ctl) (n : Nat), s.cfg.wf = true → s.cfg.pollLimit = none →
    s.stuck c = true → s.waiting rest → s.facesBusy c →
    ∃ t, Host.Core.run Sys2Proof.core n s = .next t ∧ t.waiting rest ∧ t.facesBusy c ∧ t.status = s.status ∧
      t.pulses.length = s.pulses.length + n ∧ t.trace.length = s.trace.length + 5 * n ∧ sameRam s t

/-- R243: the POLL_LIMIT-th poll still shows busy, whoever is selected: `SetDir(OUTPUT)`, UNRESP, UWHO the selection the
first time, the operation abandoned, RESULT not written, the lines as the failed wait left them. It shows busy where the
one controller selected is stuck. That the poll and the failure are one step is the model's choice
(notes/assumptions/3.md). -/
def Obligations.LastBusyPollFails : Prop :=
  ∀ (s : State) (rest : List Micro), s.cfg.wf = true → s.noReset = true → s.waiting rest →
    s.cfg.pollLimit = some (s.loc.polls + 1) →
    ∃ (t : State) (v : Byte), step s = .next t ∧ (pollPrims s.cfg v).reverse ++ s.trace <:+ t.trace ∧
      (∀ c, s.facesBusy c → s.stuck c = true → showsBusy s.cfg.busyMask v = true) ∧
      (showsBusy s.cfg.busyMask v = true → t.idle = true ∧ t.seq = [] ∧ t.unresp = true ∧ t.err = s.err ∧
        t.uwho = (if s.unresp then s.uwho else BitVec.ofBool s.flagCS2 ++ BitVec.ofBool s.flagCS1) ∧
        t.result = s.result ∧ t.ctrl = s.ctrl ∧ t.flagE = false ∧ t.flagRS = false ∧ t.flagRW = true ∧
        t.dir = .output ∧ t.dout = s.dout ∧ t.protoFault = none ∧ t.req = s.req ∧ t.cfg = s.cfg ∧ t.host = s.host ∧
        t.trace = .setDir .output :: ((pollPrims s.cfg v).reverse ++ s.trace) ∧
        t.pulses = pollRecord s :: s.pulses ∧ sameButReady s t ∧ sameRam s t)

/-- R155: with POLL_LIMIT = N a wait that has made k polls fails after N − k more, and not before. That a poll is a step is
the model's choice (notes/assumptions/3.md). -/
def Obligations.BoundedWaitFailsAtTheLimit : Prop :=
  ∀ (s : State) (rest : List Micro) (c : Ctl) (n : Nat), s.cfg.wf = true → s.stuck c = true → s.waiting rest →
    s.facesBusy c → s.cfg.pollLimit = some n → s.loc.polls < n →
    (∀ j, j < n - s.loc.polls → ∃ u, Host.Core.run Sys2Proof.core j s = .next u ∧ u.waiting rest ∧
      u.loc.polls = s.loc.polls + j ∧ u.status = s.status) ∧
    ∃ t, Host.Core.run Sys2Proof.core (n - s.loc.polls) s = .next t ∧ t.idle = true ∧ t.seq = [] ∧ t.unresp = true ∧
      t.result = s.result ∧ t.dir = .output ∧ t.pulses.length = s.pulses.length + (n - s.loc.polls) ∧ sameRam s t

/-! ## Byte transport (R165 to R172) -/

/-- R166, R165: RDB returns the latch of the one controller read, or a byte that shows it ready; the lines and the
counts are those of R165 and R172. It may be begun with any lines: an E that is high falls in its first primitive, as in
`CLRC M_E` (R287 (a)). -/
def Obligations.RdbReturnsTheSampledByte : Prop :=
  ∀ (s : State) (tgt : Target) (rs : Bool), s.steady →
    ∃ u t, exec (.clrc s.cfg.mE) s = .next u ∧ exec (.rdb tgt rs) s = .next t ∧ endsWith (.rdb tgt rs) s t ∧
      (∀ c : Ctl, tgt = c.target →
        if rs then t.result = (u.ctl c).ol else showsBusy s.cfg.busyMask t.result = false) ∧
      linesAfter s t (lastWaited tgt) (if tgt = .none then rs else false) true false ∧ t.dir = .output ∧
      t.dout = s.dout ∧
      (∀ c, t.ctl c = if rs && tgt.has c then
        { u.ctl c with ol := u.ramByte c (u.ctl c).xp (u.ctl c).ya, ya := (u.ctl c).ya + 1 } else u.ctl c) ∧
      sameRam u t ∧ t.trace.length = s.trace.length + (if rs then 13 else 12) + 12 * tgt.count ∧
      t.pulses.length = u.pulses.length + 1 + tgt.count

/-- R167: RDD reads twice and returns the second byte: of the one controller read, the byte at its position; the
latch then holds the byte after it and the column has advanced by two. It may be begun with any lines: an E that is high
falls in its first primitive, as in `CLRC M_E` (R287 (a)). -/
def Obligations.RddReturnsTheByteAtThePosition : Prop :=
  ∀ (s : State) (tgt : Target), s.steady →
    ∃ u t, exec (.clrc s.cfg.mE) s = .next u ∧ exec (.rdd tgt) s = .next t ∧ endsWith (.rdd tgt) s t ∧
      (∀ c : Ctl, tgt = c.target → t.result = u.ramByte c (u.ctl c).xp (u.ctl c).ya) ∧
      linesAfter s t (lastWaited tgt) (if tgt = .none then true else false) true false ∧ t.dir = .output ∧
      t.dout = s.dout ∧
      (∀ c, t.ctl c = if tgt.has c then
        { u.ctl c with ol := u.ramByte c (u.ctl c).xp ((u.ctl c).ya + 1), ya := (u.ctl c).ya + 2 } else u.ctl c) ∧
      sameRam u t ∧ t.trace.length = s.trace.length + 26 + 24 * tgt.count ∧
      t.pulses.length = u.pulses.length + 2 + 2 * tgt.count

/-- R169, R168: WRB pulses its byte with RS and RW as they stand, waits, and ends the cycle: what the pulse does in
each addressed controller is what its kind says, and in read mode no byte is stored. Where the bus stands at INPUT the
controllers find other bytes on it, which the spec leaves open (R281); an E that is high makes no difference. -/
def Obligations.WrbPulsesWithTheLinesAsTheyStand : Prop :=
  ∀ (s : State) (v : Byte) (tgt : Target), s.steady →
    ∃ (t : State) (b : Ctl → Byte), exec (.wrb v tgt) s = .next t ∧ endsWith (.wrb v tgt) s t ∧
      (s.dir = .output → ∀ c, b c = v) ∧
      linesAfter s t .none (if tgt = .none then s.flagRS else false) (if tgt = .none then s.flagRW else true) false ∧
      t.dir = (if tgt = .none then s.dir else .output) ∧ t.dout = 0x00 ∧ t.result = s.result ∧
      (∀ c, t.ctl c = if tgt.has c then afterPulse s c (b c) else s.ctl c) ∧
      (∀ c page col, t.ramByte c page col =
        if tgt.has c = true ∧ s.flagRS = true ∧ s.flagRW = false ∧ page = (s.ctl c).xp ∧ col = (s.ctl c).ya then b c
        else s.ramByte c page col) ∧
      t.trace.length = s.trace.length + 11 + 12 * tgt.count ∧ t.pulses.length = s.pulses.length + 2 + tgt.count

/-- R170: WRC sends its command to every controller of the target in one pulse and to no other, waits on each, and
leaves the lines of R170; display memory keeps its contents. It may be begun with any lines: an E that is high falls in
its first primitive, as in `CLRC M_E` (R287 (a)), and where the bus stands at INPUT the controllers find another byte on
it (R281). -/
def Obligations.WrcSendsTheCommandToItsTarget : Prop :=
  ∀ (s : State) (cmd : Byte) (tgt : Target), s.steady →
    ∃ (u t : State) (b : Ctl → Byte), exec (.clrc s.cfg.mE) s = .next u ∧ exec (.wrc cmd tgt) s = .next t ∧
      endsWith (.wrc cmd tgt) s t ∧ (s.dir = .output → ∀ c, b c = cmd) ∧
      linesAfter s t .none false (decide (tgt ≠ .none)) false ∧ t.dir = (if tgt = .none then s.dir else .output) ∧
      t.dout = 0x00 ∧ t.result = s.result ∧
      (∀ c, t.ctl c = if tgt.has c then commandEffect s.cfg (b c) (u.ctl c) else u.ctl c) ∧ sameRam u t ∧
      (tgt ≠ .none → acting (newPulses u t) = [⟨tgt.has1, tgt.has2, false, false, true, s.dir, cmd⟩]) ∧
      t.trace.length = s.trace.length + 14 + 12 * tgt.count ∧ t.pulses.length = u.pulses.length + 2 + tgt.count

/-- R171: WRD stores its byte at the position of every controller of the target, advances its column, and changes no
other byte. It may be begun with any lines: an E that is high falls in its first primitive, as in `CLRC M_E`
(R287 (a)), and where the bus stands at INPUT the controllers find another byte on it (R281). -/
def Obligations.WrdStoresAtThePosition : Prop :=
  ∀ (s : State) (data : Byte) (tgt : Target), s.steady →
    ∃ (u t : State) (b : Ctl → Byte), exec (.clrc s.cfg.mE) s = .next u ∧ exec (.wrd data tgt) s = .next t ∧
      endsWith (.wrd data tgt) s t ∧ (s.dir = .output → ∀ c, b c = data) ∧
      linesAfter s t .none (decide (tgt = .none)) (decide (tgt ≠ .none)) false ∧
      t.dir = (if tgt = .none then s.dir else .output) ∧ t.dout = 0x00 ∧ t.result = s.result ∧
      (∀ c, t.ctl c = if tgt.has c then { u.ctl c with ya := (u.ctl c).ya + 1 } else u.ctl c) ∧
      (∀ c page col, t.ramByte c page col =
        if tgt.has c = true ∧ page = (u.ctl c).xp ∧ col = (u.ctl c).ya then b c else u.ramByte c page col) ∧
      (tgt ≠ .none → acting (newPulses u t) = [⟨tgt.has1, tgt.has2, true, false, true, s.dir, data⟩]) ∧
      t.trace.length = s.trace.length + 15 + 12 * tgt.count ∧ t.pulses.length = u.pulses.length + 2 + tgt.count

/-! ## Controllers that take their time (R172) -/

/-- R172: an operation during which controllers become busy and ready again ends as it does where they are ready at once,
`k` polls later: the same registers, controllers, display memory, commands and data bytes; five primitives and one pulse
event more for every extra poll. That an extra poll is one more step is the model's choice (notes/assumptions/3.md). -/
def Obligations.ExtraPollsChangeNothingElse : Prop :=
  ∀ (i : Instr) (k : Nat) (s t u : State), s.cfg.wf = true → s.protoFault = none → s.noReset = true →
    s.ramKept = true → s.allReady = true → s.atRest → hostMask i = false →
    (if i = .init then ∀ c, (s.env.getD 4 {}).busyOf c = false else s.flagRST = true) →
    exec i { s with env := [] } = .next u → u.idle = true → overAfter i k s t →
    (s.cfg.pollLimit = none ∨ (s.unresp = false ∧ u.unresp = false ∧ t.unresp = false)) →
      t.protoFault = none ∧ t.status = u.status ∧ t.seq = u.seq ∧ t.req = u.req ∧ t.cfg = u.cfg ∧ t.host = u.host ∧
      t.ctrl = u.ctrl ∧ t.dout = u.dout ∧ t.dir = u.dir ∧ (resultOpen i = false → t.result = u.result) ∧
      (∀ c, t.ctl c = u.ctl c) ∧ sameRam u t ∧ acting (newPulses s t) = acting (newPulses s u) ∧
      t.trace.length = u.trace.length + 5 * k ∧ t.pulses.length = u.pulses.length + k

/-! ## Pixel read-modify-write (R200 to R206) -/

/-- R201, R242: a pixel outside the display is ignored: PIX completes at once with no primitive executed and nothing
changed, in any environment, but the request latch and the operation-local registers, which have no value between
operations (R30). -/
def Obligations.OutOfRangePixelIsIgnored : Prop :=
  ∀ (s : State) (x y : Nat) (on : Bool), x < 1 ∨ 128 < x ∨ y < 1 ∨ 64 < y →
    exec (.pix x y on) s =
      .next (dropLocals { s with req := encode (.pix x y on), seq := [], status := statusIdle s.status })

/-- R200, R204, R205: PIX inside the display changes the one bit of the one byte, sends the six transfers of R204 to
the one controller, and leaves the rest as it was: 155 primitives and 16 pulse events. -/
def Obligations.PixChangesExactlyItsBit : Prop :=
  ∀ (s : State) (x y : Nat) (on : Bool), s.steady → s.atRest → s.cfg.refDecodes = true →
    1 ≤ x → x ≤ 128 → 1 ≤ y → y ≤ 64 →
    let c : Ctl := if x ≤ 64 then .one else .two
    let col : BitVec 6 := BitVec.ofNat 6 (if x ≤ 64 then x - 1 else x - 65)
    let page : BitVec 3 := BitVec.ofNat 3 ((y - 1) / 8)
    ∃ (t : State) (z : Byte), exec (.pix x y on) s = .next t ∧ endsWith (.pix x y on) s t ∧
      (∀ i, i < 8 → z.getLsbD i = if i = (y - 1) % 8 then on else (s.ramByte c page col).getLsbD i) ∧
      (∀ k p l, t.ramByte k p l = if k = c ∧ p = page ∧ l = col then z else s.ramByte k p l) ∧
      (∀ k, k ≠ c → t.ctl k = s.ctl k) ∧
      t.ctl c = { s.ctl c with xp := page, ya := col + 1, ol := s.ramByte c page (col + 1) } ∧
      linesAfter s t .none false true false ∧ t.dir = .output ∧ t.dout = 0x00 ∧ t.result = s.result ∧
      t.trace.length = s.trace.length + 155 ∧ t.pulses.length = s.pulses.length + 16 ∧
      (let p := fun rs rw d b => (⟨decide (c = .one), decide (c = .two), rs, rw, true, d, b⟩ : Pulse)
       acting (newPulses s t) =
        [p true false .output z, p false false .output (s.cfg.cmdSetAddress ||| col.setWidth 8),
         p true true .input 0, p true true .input 0, p false false .output (s.cfg.cmdSetPage ||| page.setWidth 8),
         p false false .output (s.cfg.cmdSetAddress ||| col.setWidth 8)])

/-- R205 (b): setting a pixel and then clearing it restores the byte but for the pixel's own bit, which ends 0; and no
other byte of the display has changed. -/
def Obligations.SetThenClearRestoresTheByte : Prop :=
  ∀ (s t u : State) (x y : Nat), s.steady → s.atRest → s.cfg.refDecodes = true → 1 ≤ x → x ≤ 128 → 1 ≤ y → y ≤ 64 →
    exec (.pix x y true) s = .next t → exec (.pix x y false) t = .next u →
      (∀ i, i < 8 → (u.ramByte (pixCtl x) (pixPage y) (pixCol x)).getLsbD i =
        if i = (y - 1) % 8 then false else (s.ramByte (pixCtl x) (pixPage y) (pixCol x)).getLsbD i) ∧
      (∀ k p l, ¬ (k = pixCtl x ∧ p = pixPage y ∧ l = pixCol x) → u.ramByte k p l = s.ramByte k p l) ∧
      ((s.ramByte (pixCtl x) (pixPage y) (pixCol x)).getLsbD ((y - 1) % 8) = false → sameRam s u)

/-- R203: x ≤ 64 is controller 1, column x − 1, x > 64 controller 2, column x − 65; and the map from the pixels to the
display bits is a bijection. -/
def Obligations.PixelMapIsABijection : Prop :=
  (∀ x, 1 ≤ x → x ≤ 128 → pixCtl x = (if x ≤ 64 then .one else .two) ∧
    (pixCol x).toNat = if x ≤ 64 then x - 1 else x - 65) ∧
  ∀ (c : Ctl) (page : BitVec 3) (col : BitVec 6) (bit : Nat), bit < 8 →
    ∃ x y, (1 ≤ x ∧ x ≤ 128 ∧ 1 ≤ y ∧ y ≤ 64 ∧
        pixCtl x = c ∧ pixPage y = page ∧ pixCol x = col ∧ pixBit y = bit) ∧
      ∀ x' y', 1 ≤ x' → x' ≤ 128 → 1 ≤ y' → y' ≤ 64 →
        pixCtl x' = c → pixPage y' = page → pixCol x' = col → pixBit y' = bit → x' = x ∧ y' = y

/-- R202: the arithmetic of PIX: nothing wraps, the mask moves one bit, and OR and addition agree in the command
bytes. -/
def Obligations.PixelArithmeticIsExact : Prop :=
  (∀ y, 1 ≤ y → y ≤ 64 → (pixPage y).toNat = (y - 1) / 8 ∧
      (pixMask y true).toNat = 2 ^ ((y - 1) % 8) ∧ (pixMask y false).toNat = 255 - 2 ^ ((y - 1) % 8)) ∧
    (∀ (on : Bool) (b : Byte) (y i : Nat), 1 ≤ y → y ≤ 64 → i < 8 →
      (pixCombine on b (pixMask y on)).getLsbD i = if i = (y - 1) % 8 then on else b.getLsbD i) ∧
    ∀ (c : Config) (col : BitVec 6) (page : BitVec 3), c.wf = true →
      (setAddressCmd c col).toNat = c.cmdSetAddress.toNat + col.toNat ∧
        (setPageCmd c page).toNat = c.cmdSetPage.toNat + page.toNat

/-! ## Bulk operations (R220, R221) -/

/-- R220: CLR leaves every display byte 0, both controllers at page 7, column 0, and the lines of a data write: 20576
primitives and 2112 pulse events, of which its 16 commands and 512 data bytes, all to both controllers and page by page,
are those that act. -/
def Obligations.ClrZeroesTheDisplay : Prop :=
  ∀ s : State, s.steady → s.atRest → s.cfg.refDecodes = true →
    ∃ t, exec .clr s = .next t ∧ endsWith .clr s t ∧ (∀ c page col, t.ramByte c page col = 0x00) ∧
      (∀ c, t.ctl c = { s.ctl c with xp := 7, ya := 0 }) ∧ linesAfter s t .none false true false ∧
      t.dir = .output ∧ t.dout = 0x00 ∧ t.result = s.result ∧ t.trace.length = s.trace.length + 20576 ∧
      t.pulses.length = s.pulses.length + 2112 ∧
      acting (newPulses s t) = ((List.range 8).flatMap (pagePulses s.cfg)).reverse

/-- R221: INIT, whatever the lines on entry, ends with nobody selected, RST = 1, RS = 0, RW = 1, E = 0, DOUT zero and
DIR = OUTPUT, the display on and both controllers at line, page and column 0: 197 primitives and 21 pulse events, of which
its five commands to both controllers act, and the entry pulse of IN.3 where the lines on entry make it a byte or a data
read. Display memory is kept where the environment keeps it at the release of the reset (R72; notes/assumptions/8.md), but
for the one byte that the entry pulse writes as a data write (R287), in each controller it reaches; that the controllers are ready after the release is what
the calm environment says (notes/assumptions/25.md). -/
def Obligations.InitReachesItsEndState : Prop :=
  ∀ s : State, s.undisturbed → s.cfg.refDecodes = true → s.ramKept = true →
    ∃ t, exec .init s = .next t ∧ endsWith .init s t ∧ t.flagCS1 = false ∧ t.flagCS2 = false ∧ t.flagRST = true ∧
      t.flagRS = false ∧ t.flagRW = true ∧ t.flagE = false ∧ t.reservedBits = s.reservedBits ∧ t.dout = 0x00 ∧
      t.dir = .output ∧ t.result = s.result ∧
      (∀ c, (t.ctl c).xp = 0 ∧ (t.ctl c).ya = 0 ∧ (t.ctl c).zl = 0 ∧ (t.ctl c).don = true ∧
        (t.ctl c).busy = false) ∧
      (∃ b : Ctl → Byte, (s.dir = .output → ∀ c, b c = s.dout) ∧ ∀ c page col, t.ramByte c page col =
        if (s.selected c && s.flagRS && !s.flagRW && s.flagRST) = true ∧ page = (s.ctl c).xp ∧ col = (s.ctl c).ya then b c
        else s.ramByte c page col) ∧
      t.trace.length = s.trace.length + 197 ∧ t.pulses.length = s.pulses.length + 21 ∧
      acting (newPulses s t) = [toBoth false s.cfg.cmdSetPage, toBoth false s.cfg.cmdSetAddress,
        toBoth false s.cfg.cmdStartLine, toBoth false s.cfg.cmdDisplayOn,
        { toBoth false s.cfg.cmdDisplayOff with dir := s.dir }] ++ acting [s.pulseRecord]

/-! ## Reset (R35, R270, R271) -/

/-- R35: the values the spec gives for reset, memory with nothing written; and the parameters at the defaults of R6,
which is the model's choice of notes/assumptions/2.md and 30.md (R6 leaves them to the configuration). -/
def Obligations.ResetValuesOfTheSpec : Prop :=
  enginePowerUp State.reset ∧ State.reset.idle = true ∧ State.reset.err = false ∧ State.reset.unresp = false ∧
    State.reset.uwho = 0 ∧ State.reset.mem = [] ∧ State.reset.cfg = Config.standard ∧
    State.reset.cfg.wf = true ∧ State.reset.cfg.refDecodes = true

/-- R270, R271: an engine reset of the idle engine gives every engine register its reset value, and is a pulse event
if E was high; if not, display memory and the controllers are untouched. -/
def Obligations.EngineResetOfTheIdleEngine : Prop :=
  ∀ (s : State) (rest : List HostMove), s.cfg.wf = true → s.protoFault = none → s.idle = true →
    s.host = .engineReset :: rest → ∃ t, step s = .next t ∧ struck s t ∧ t.host = rest

/-- R270, R244: an engine reset ends a ready-wait in progress, whichever of the five primitives of the poll it strikes:
no further primitive is executed, every engine register takes its reset value, an E that is high then makes the one
pulse event of the poll, a status read, and display memory and the controllers are untouched. The step it strikes in is the
poll (notes/assumptions/3.md). -/
def Obligations.EngineResetEndsTheHang : Prop :=
  ∀ (s : State) (rest : List Micro) (n : Nat), s.cfg.wf = true → s.waiting rest → n < 5 →
    (∀ j, j < n → (s.env.getD j {}).reset = false) → (s.env.getD n {}).reset = true →
    ∃ (t : State) (v : Byte), step s = .next t ∧ enginePowerUp t ∧ t.cfg = s.cfg ∧ t.host = s.host ∧
      t.trace = ((pollPrims s.cfg v).take n).reverse ++ s.trace ∧
      t.pulses = (if n = 0 then s.pulses else pollRecord s :: s.pulses) ∧ t.protoFault = none ∧ sameButReady s t ∧
      sameRam s t

/-- R270, R271: an engine reset may strike at any time. In place of an operation's first primitive, or of the primitive a
resumed sequence goes on with, it leaves what `struck` says, whatever E is; at a later primitive the primitives before it
are executed, it takes the place of the next one, and the engine's registers take their reset values; a step that ends
before it is not struck. -/
def Obligations.EngineResetStrikesAtAnyPrimitive : Prop :=
  (∀ (i : Instr) (s : State), s.cfg.wf = true → s.protoFault = none → s.slot.reset = true →
    (∀ x y on, i = .pix x y on → 1 ≤ x ∧ x ≤ 128 ∧ 1 ≤ y ∧ y ≤ 64) →
      ∃ t, exec i s = .next t ∧ struck s t ∧ t.host = s.host) ∧
  (∀ (s : State) (m : Micro) (rest : List Micro), s.cfg.wf = true → s.protoFault = none → s.idle = false →
    s.seq = m :: rest → isPrimitive m = true → s.slot.reset = true →
      ∃ t, step s = .next t ∧ struck s t ∧ t.host = s.host) ∧
  ∀ (i : Instr) (n : Nat) (s t : State), runsOperation i s t →
    (∀ j, j < n → (s.env.getD j {}).reset = false) → (s.env.getD n {}).reset = true →
      (t.env = s.env.drop (n + 1) ∧ t.trace.length = s.trace.length + n ∧ enginePowerUp t ∧ t.cfg = s.cfg ∧
        t.host = s.host) ∨
      ∃ k, k ≤ n ∧ t.env = s.env.drop k ∧ t.trace.length = s.trace.length + k

/-! ## Rules of the whole machine -/

/-- R27, R241, R243, R248: without an engine reset ERR and UNRESP stay set once set, and UWHO keeps its first value. -/
def Obligations.StickyFlagsStaySet : Prop :=
  ∀ s t : State, s.noReset = true → (∀ rest, s.host ≠ .engineReset :: rest) → step s = .next t →
    (s.err = true → t.err = true) ∧ (s.unresp = true → t.unresp = true ∧ t.uwho = s.uwho)

/-- R22, R272: of all operations only SETC and CLRC change the reserved bits of CTRL, and only they and INIT the
display reset line; no step changes the parameters (R6, R34). In every machine step of an operation and in every
engine step. -/
def Obligations.ReservedBitsAndResetLineAreKept : Prop :=
  ∀ (i : Instr) (s t : State), s.cfg.wf = true → s.noReset = true → runsOperation i s t → t.cfg = s.cfg ∧
    (hostMask i = false → t.reservedBits = s.reservedBits ∧ (i ≠ .init → t.flagRST = s.flagRST))

/-- R28: only RDB and RDD write RESULT; in every machine step of an operation and in every engine step. -/
def Obligations.OnlyReadsWriteResult : Prop :=
  ∀ (i : Instr) (s t : State), s.noReset = true → runsOperation i s t →
    (∀ tgt rs, i ≠ .rdb tgt rs) → (∀ tgt, i ≠ .rdd tgt) → t.result = s.result

/-- R30: while it is in progress an operation changes only the operation-local registers that its sub-sequences use, in
every machine step and in every engine step; and it reads none before it has written it: with any other values in them at
its start it ends in the same state, after the same steps. -/
def Obligations.LocalsUsedByTheirOperations : Prop :=
  (∀ (i : Instr) (s t : State), s.noReset = true → runsOperation i s t → t.idle = false → localsKept i s t) ∧
  ∀ (i : Instr) (k : Nat) (s t : State) (l : Locals), overAfter i k s t → overAfter i k { s with loc := l } t

/-- R52, R67: nothing but a data write that controller c receives changes a byte of its display memory, in any step and
any environment that keeps display memory at a release of the reset. -/
def Obligations.OnlyDataWritesChangeDisplayMemory : Prop :=
  ∀ (s t : State) (c : Ctl), s.cfg.wf = true → s.ramKept = true → step s = .next t →
    (∀ p ∈ newPulses s t, (p.kind = .dataWrite && p.selects c && p.rst) = false) →
    ∀ page col, t.ramByte c page col = s.ramByte c page col

/-- R72, R275: while the display is held in reset no operation but INIT, or SETC, which can release it, changes a
controller or a display byte; in every machine step of it and in every engine step. -/
def Obligations.HeldInResetNothingIsReceived : Prop :=
  ∀ (i : Instr) (s t : State), s.cfg.wf = true → s.noReset = true → s.flagRST = false → i ≠ .init →
    (∀ m, i ≠ .setc m) → runsOperation i s t →
    t.protoFault = s.protoFault ∧ sameButReady s t ∧ sameRam s t

/-- R280: every operation that leaves the engine idle leaves E low and DIR = OUTPUT if it found them so, except SETC,
CLRC and CFGRD; in any environment without an engine reset, after any number of polls, and also where a wait failed. -/
def Obligations.OperationsReturnToRest : Prop :=
  ∀ (i : Instr) (s t : State), s.cfg.wf = true → s.protoFault = none → s.noReset = true →
    hostMask i = false → i ≠ .cfgrd →
    ((s.atRest ∧ exec i s = .next t) ∨ (s.inOperation i ∧ (∃ rest, s.waiting rest) ∧ step s = .next t)) →
    t.idle = true → t.atRest

/-- R284: from a handshake state every step goes on to one: no command or data byte ever reaches a busy controller, or
is sent on a bus the engine does not drive, and the engine is idle only at rest with both controllers ready. -/
def Obligations.HandshakeIsKeptByEveryStep : Prop :=
  ∀ s : State, s.handshake → ∃ t, step s = .next t ∧ t.handshake ∧ (t.idle = true → t.atRest ∧ t.allReady = true)

/-- The invariant of the machine holds at reset (R35), and the launch premise of R284 holds there, for every host and
environment that keep it. That the controllers are ready in `State.reset` is the model's choice of
notes/assumptions/11.md: the spec leaves it open. -/
def Obligations.InvariantsHoldAtReset : Prop :=
  State.reset.inv ∧
    ∀ (h : List HostMove) (e : List EnvSlot), ({ State.reset with host := h, env := e }).orderly →
      ({ State.reset with host := h, env := e }).handshake

/-- Every step keeps the invariant: the parameters (R6), the canonical form of memory (R52), STATUS as R27 has it, IDLE
and the sequencer in step (R37), and the discipline of the bus (R24, R25). Every engine step keeps all of it but that the
sequencer may have nothing left to do while IDLE is 0: it then completes (R20, R37). -/
def Obligations.InvariantIsKeptByEveryStep : Prop :=
  (∀ s t : State, s.inv → step s = .next t → t.inv) ∧ ∀ s t : State, s.engineInv → engineStep s = .next t → t.engineInv
end

