-- ==== Sys2Proof/Laws/State.lean ====
section
/-! SUPPORT. One lemma per field per update of State, so that no later proof unfolds a record update. -/

namespace Sys2Proof.Machine

@[simp] theorem record_cfg (p : Prim) (s : State) : (record p s).cfg = s.cfg := rfl
@[simp] theorem record_ctrl (p : Prim) (s : State) : (record p s).ctrl = s.ctrl := rfl
@[simp] theorem record_dout (p : Prim) (s : State) : (record p s).dout = s.dout := rfl
@[simp] theorem record_dir (p : Prim) (s : State) : (record p s).dir = s.dir := rfl
@[simp] theorem record_status (p : Prim) (s : State) : (record p s).status = s.status := rfl
@[simp] theorem record_result (p : Prim) (s : State) : (record p s).result = s.result := rfl
@[simp] theorem record_req (p : Prim) (s : State) : (record p s).req = s.req := rfl
@[simp] theorem record_seq (p : Prim) (s : State) : (record p s).seq = s.seq := rfl
@[simp] theorem record_loc (p : Prim) (s : State) : (record p s).loc = s.loc := rfl
@[simp] theorem record_c1 (p : Prim) (s : State) : (record p s).c1 = s.c1 := rfl
@[simp] theorem record_c2 (p : Prim) (s : State) : (record p s).c2 = s.c2 := rfl
@[simp] theorem record_mem (p : Prim) (s : State) : (record p s).mem = s.mem := rfl
@[simp] theorem record_protoFault (p : Prim) (s : State) : (record p s).protoFault = s.protoFault := rfl
@[simp] theorem record_host (p : Prim) (s : State) : (record p s).host = s.host := rfl
@[simp] theorem record_env (p : Prim) (s : State) : (record p s).env = s.env := rfl
@[simp] theorem record_draws (p : Prim) (s : State) : (record p s).draws = s.draws := rfl
@[simp] theorem record_trace (p : Prim) (s : State) : (record p s).trace = p :: s.trace := rfl
@[simp] theorem record_pulses (p : Prim) (s : State) : (record p s).pulses = s.pulses := rfl

@[simp] theorem accept_cfg (i : Instr) (s : State) : (accept i s).cfg = s.cfg := rfl
@[simp] theorem accept_ctrl (i : Instr) (s : State) : (accept i s).ctrl = s.ctrl := rfl
@[simp] theorem accept_dout (i : Instr) (s : State) : (accept i s).dout = s.dout := rfl
@[simp] theorem accept_dir (i : Instr) (s : State) : (accept i s).dir = s.dir := rfl
@[simp] theorem accept_status (i : Instr) (s : State) : (accept i s).status = statusBusy s.status := rfl
@[simp] theorem accept_result (i : Instr) (s : State) : (accept i s).result = s.result := rfl
@[simp] theorem accept_req (i : Instr) (s : State) : (accept i s).req = encode i := rfl
@[simp] theorem accept_seq (i : Instr) (s : State) : (accept i s).seq = s.seq := rfl
@[simp] theorem accept_loc (i : Instr) (s : State) : (accept i s).loc = s.loc := rfl
@[simp] theorem accept_c1 (i : Instr) (s : State) : (accept i s).c1 = s.c1 := rfl
@[simp] theorem accept_c2 (i : Instr) (s : State) : (accept i s).c2 = s.c2 := rfl
@[simp] theorem accept_mem (i : Instr) (s : State) : (accept i s).mem = s.mem := rfl
@[simp] theorem accept_protoFault (i : Instr) (s : State) : (accept i s).protoFault = s.protoFault := rfl
@[simp] theorem accept_host (i : Instr) (s : State) : (accept i s).host = s.host := rfl
@[simp] theorem accept_env (i : Instr) (s : State) : (accept i s).env = s.env := rfl
@[simp] theorem accept_draws (i : Instr) (s : State) : (accept i s).draws = s.draws := rfl
@[simp] theorem accept_trace (i : Instr) (s : State) : (accept i s).trace = s.trace := rfl
@[simp] theorem accept_pulses (i : Instr) (s : State) : (accept i s).pulses = s.pulses := rfl

@[simp] theorem dropLocals_cfg (s : State) : (dropLocals s).cfg = s.cfg := rfl
@[simp] theorem dropLocals_ctrl (s : State) : (dropLocals s).ctrl = s.ctrl := rfl
@[simp] theorem dropLocals_dout (s : State) : (dropLocals s).dout = s.dout := rfl
@[simp] theorem dropLocals_dir (s : State) : (dropLocals s).dir = s.dir := rfl
@[simp] theorem dropLocals_status (s : State) : (dropLocals s).status = s.status := rfl
@[simp] theorem dropLocals_result (s : State) : (dropLocals s).result = s.result := rfl
@[simp] theorem dropLocals_req (s : State) : (dropLocals s).req = s.req := rfl
@[simp] theorem dropLocals_seq (s : State) : (dropLocals s).seq = s.seq := rfl
@[simp] theorem dropLocals_loc (s : State) : (dropLocals s).loc = Locals.free s.draws := rfl
@[simp] theorem dropLocals_c1 (s : State) : (dropLocals s).c1 = s.c1 := rfl
@[simp] theorem dropLocals_c2 (s : State) : (dropLocals s).c2 = s.c2 := rfl
@[simp] theorem dropLocals_mem (s : State) : (dropLocals s).mem = s.mem := rfl
@[simp] theorem dropLocals_protoFault (s : State) : (dropLocals s).protoFault = s.protoFault := rfl
@[simp] theorem dropLocals_host (s : State) : (dropLocals s).host = s.host := rfl
@[simp] theorem dropLocals_env (s : State) : (dropLocals s).env = s.env := rfl
@[simp] theorem dropLocals_draws (s : State) : (dropLocals s).draws = s.draws + 12 := rfl
@[simp] theorem dropLocals_trace (s : State) : (dropLocals s).trace = s.trace := rfl
@[simp] theorem dropLocals_pulses (s : State) : (dropLocals s).pulses = s.pulses := rfl

@[simp] theorem complete_cfg (s : State) : (complete s).cfg = s.cfg := rfl
@[simp] theorem complete_ctrl (s : State) : (complete s).ctrl = s.ctrl := rfl
@[simp] theorem complete_dout (s : State) : (complete s).dout = s.dout := rfl
@[simp] theorem complete_dir (s : State) : (complete s).dir = s.dir := rfl
@[simp] theorem complete_status (s : State) : (complete s).status = statusIdle s.status := rfl
@[simp] theorem complete_result (s : State) : (complete s).result = s.result := rfl
@[simp] theorem complete_req (s : State) : (complete s).req = s.req := rfl
@[simp] theorem complete_seq (s : State) : (complete s).seq = [] := rfl
@[simp] theorem complete_loc (s : State) : (complete s).loc = Locals.free s.draws := rfl
@[simp] theorem complete_c1 (s : State) : (complete s).c1 = s.c1 := rfl
@[simp] theorem complete_c2 (s : State) : (complete s).c2 = s.c2 := rfl
@[simp] theorem complete_mem (s : State) : (complete s).mem = s.mem := rfl
@[simp] theorem complete_protoFault (s : State) : (complete s).protoFault = s.protoFault := rfl
@[simp] theorem complete_host (s : State) : (complete s).host = s.host := rfl
@[simp] theorem complete_env (s : State) : (complete s).env = s.env := rfl
@[simp] theorem complete_draws (s : State) : (complete s).draws = s.draws + 12 := rfl
@[simp] theorem complete_trace (s : State) : (complete s).trace = s.trace := rfl
@[simp] theorem complete_pulses (s : State) : (complete s).pulses = s.pulses := rfl

@[simp] theorem raiseIllegalRequest_cfg (s : State) : (raiseIllegalRequest s).cfg = s.cfg := rfl
@[simp] theorem raiseIllegalRequest_ctrl (s : State) : (raiseIllegalRequest s).ctrl = s.ctrl := rfl
@[simp] theorem raiseIllegalRequest_dout (s : State) : (raiseIllegalRequest s).dout = s.dout := rfl
@[simp] theorem raiseIllegalRequest_dir (s : State) : (raiseIllegalRequest s).dir = s.dir := rfl
@[simp] theorem raiseIllegalRequest_status (s : State) : (raiseIllegalRequest s).status = statusErr s.status := rfl
@[simp] theorem raiseIllegalRequest_result (s : State) : (raiseIllegalRequest s).result = s.result := rfl
@[simp] theorem raiseIllegalRequest_req (s : State) : (raiseIllegalRequest s).req = s.req := rfl
@[simp] theorem raiseIllegalRequest_seq (s : State) : (raiseIllegalRequest s).seq = s.seq := rfl
@[simp] theorem raiseIllegalRequest_loc (s : State) : (raiseIllegalRequest s).loc = s.loc := rfl
@[simp] theorem raiseIllegalRequest_c1 (s : State) : (raiseIllegalRequest s).c1 = s.c1 := rfl
@[simp] theorem raiseIllegalRequest_c2 (s : State) : (raiseIllegalRequest s).c2 = s.c2 := rfl
@[simp] theorem raiseIllegalRequest_mem (s : State) : (raiseIllegalRequest s).mem = s.mem := rfl
@[simp] theorem raiseIllegalRequest_protoFault (s : State) : (raiseIllegalRequest s).protoFault = s.protoFault := rfl
@[simp] theorem raiseIllegalRequest_host (s : State) : (raiseIllegalRequest s).host = s.host := rfl
@[simp] theorem raiseIllegalRequest_env (s : State) : (raiseIllegalRequest s).env = s.env := rfl
@[simp] theorem raiseIllegalRequest_draws (s : State) : (raiseIllegalRequest s).draws = s.draws := rfl
@[simp] theorem raiseIllegalRequest_trace (s : State) : (raiseIllegalRequest s).trace = s.trace := rfl
@[simp] theorem raiseIllegalRequest_pulses (s : State) : (raiseIllegalRequest s).pulses = s.pulses := rfl

@[simp] theorem raiseUnresponsive_cfg (s : State) : (raiseUnresponsive s).cfg = s.cfg := rfl
@[simp] theorem raiseUnresponsive_ctrl (s : State) : (raiseUnresponsive s).ctrl = s.ctrl := rfl
@[simp] theorem raiseUnresponsive_dout (s : State) : (raiseUnresponsive s).dout = s.dout := rfl
@[simp] theorem raiseUnresponsive_dir (s : State) : (raiseUnresponsive s).dir = s.dir := rfl
@[simp] theorem raiseUnresponsive_status (s : State) : (raiseUnresponsive s).status = statusIdle (statusUnresp s.status s.flagCS2 s.flagCS1) := rfl
@[simp] theorem raiseUnresponsive_result (s : State) : (raiseUnresponsive s).result = s.result := rfl
@[simp] theorem raiseUnresponsive_req (s : State) : (raiseUnresponsive s).req = s.req := rfl
@[simp] theorem raiseUnresponsive_seq (s : State) : (raiseUnresponsive s).seq = [] := rfl
@[simp] theorem raiseUnresponsive_loc (s : State) : (raiseUnresponsive s).loc = Locals.free s.draws := rfl
@[simp] theorem raiseUnresponsive_c1 (s : State) : (raiseUnresponsive s).c1 = s.c1 := rfl
@[simp] theorem raiseUnresponsive_c2 (s : State) : (raiseUnresponsive s).c2 = s.c2 := rfl
@[simp] theorem raiseUnresponsive_mem (s : State) : (raiseUnresponsive s).mem = s.mem := rfl
@[simp] theorem raiseUnresponsive_protoFault (s : State) : (raiseUnresponsive s).protoFault = s.protoFault := rfl
@[simp] theorem raiseUnresponsive_host (s : State) : (raiseUnresponsive s).host = s.host := rfl
@[simp] theorem raiseUnresponsive_env (s : State) : (raiseUnresponsive s).env = s.env := rfl
@[simp] theorem raiseUnresponsive_draws (s : State) : (raiseUnresponsive s).draws = s.draws + 12 := rfl
@[simp] theorem raiseUnresponsive_trace (s : State) : (raiseUnresponsive s).trace = s.trace := rfl
@[simp] theorem raiseUnresponsive_pulses (s : State) : (raiseUnresponsive s).pulses = s.pulses := rfl

@[simp] theorem protocolFault_cfg (c : Ctl) (k : PulseKind) (s : State) : (protocolFault c k s).cfg = s.cfg := rfl
@[simp] theorem protocolFault_ctrl (c : Ctl) (k : PulseKind) (s : State) : (protocolFault c k s).ctrl = s.ctrl := rfl
@[simp] theorem protocolFault_dout (c : Ctl) (k : PulseKind) (s : State) : (protocolFault c k s).dout = s.dout := rfl
@[simp] theorem protocolFault_dir (c : Ctl) (k : PulseKind) (s : State) : (protocolFault c k s).dir = s.dir := rfl
@[simp] theorem protocolFault_status (c : Ctl) (k : PulseKind) (s : State) : (protocolFault c k s).status = s.status := rfl
@[simp] theorem protocolFault_result (c : Ctl) (k : PulseKind) (s : State) : (protocolFault c k s).result = s.result := rfl
@[simp] theorem protocolFault_req (c : Ctl) (k : PulseKind) (s : State) : (protocolFault c k s).req = s.req := rfl
@[simp] theorem protocolFault_seq (c : Ctl) (k : PulseKind) (s : State) : (protocolFault c k s).seq = s.seq := rfl
@[simp] theorem protocolFault_loc (c : Ctl) (k : PulseKind) (s : State) : (protocolFault c k s).loc = s.loc := rfl
@[simp] theorem protocolFault_c1 (c : Ctl) (k : PulseKind) (s : State) : (protocolFault c k s).c1 = s.c1 := rfl
@[simp] theorem protocolFault_c2 (c : Ctl) (k : PulseKind) (s : State) : (protocolFault c k s).c2 = s.c2 := rfl
@[simp] theorem protocolFault_mem (c : Ctl) (k : PulseKind) (s : State) : (protocolFault c k s).mem = s.mem := rfl
@[simp] theorem protocolFault_protoFault (c : Ctl) (k : PulseKind) (s : State) : (protocolFault c k s).protoFault = some (s.protoFault.getD (c, k)) := rfl
@[simp] theorem protocolFault_host (c : Ctl) (k : PulseKind) (s : State) : (protocolFault c k s).host = s.host := rfl
@[simp] theorem protocolFault_env (c : Ctl) (k : PulseKind) (s : State) : (protocolFault c k s).env = s.env := rfl
@[simp] theorem protocolFault_draws (c : Ctl) (k : PulseKind) (s : State) : (protocolFault c k s).draws = s.draws := rfl
@[simp] theorem protocolFault_trace (c : Ctl) (k : PulseKind) (s : State) : (protocolFault c k s).trace = s.trace := rfl
@[simp] theorem protocolFault_pulses (c : Ctl) (k : PulseKind) (s : State) : (protocolFault c k s).pulses = s.pulses := rfl

@[simp] theorem ramWrite_cfg (c : Ctl) (p : BitVec 3) (l : BitVec 6) (b : Byte) (s : State) : (s.ramWrite c p l b).cfg = s.cfg := rfl
@[simp] theorem ramWrite_ctrl (c : Ctl) (p : BitVec 3) (l : BitVec 6) (b : Byte) (s : State) : (s.ramWrite c p l b).ctrl = s.ctrl := rfl
@[simp] theorem ramWrite_dout (c : Ctl) (p : BitVec 3) (l : BitVec 6) (b : Byte) (s : State) : (s.ramWrite c p l b).dout = s.dout := rfl
@[simp] theorem ramWrite_dir (c : Ctl) (p : BitVec 3) (l : BitVec 6) (b : Byte) (s : State) : (s.ramWrite c p l b).dir = s.dir := rfl
@[simp] theorem ramWrite_status (c : Ctl) (p : BitVec 3) (l : BitVec 6) (b : Byte) (s : State) : (s.ramWrite c p l b).status = s.status := rfl
@[simp] theorem ramWrite_result (c : Ctl) (p : BitVec 3) (l : BitVec 6) (b : Byte) (s : State) : (s.ramWrite c p l b).result = s.result := rfl
@[simp] theorem ramWrite_req (c : Ctl) (p : BitVec 3) (l : BitVec 6) (b : Byte) (s : State) : (s.ramWrite c p l b).req = s.req := rfl
@[simp] theorem ramWrite_seq (c : Ctl) (p : BitVec 3) (l : BitVec 6) (b : Byte) (s : State) : (s.ramWrite c p l b).seq = s.seq := rfl
@[simp] theorem ramWrite_loc (c : Ctl) (p : BitVec 3) (l : BitVec 6) (b : Byte) (s : State) : (s.ramWrite c p l b).loc = s.loc := rfl
@[simp] theorem ramWrite_c1 (c : Ctl) (p : BitVec 3) (l : BitVec 6) (b : Byte) (s : State) : (s.ramWrite c p l b).c1 = s.c1 := rfl
@[simp] theorem ramWrite_c2 (c : Ctl) (p : BitVec 3) (l : BitVec 6) (b : Byte) (s : State) : (s.ramWrite c p l b).c2 = s.c2 := rfl
@[simp] theorem ramWrite_mem (c : Ctl) (p : BitVec 3) (l : BitVec 6) (b : Byte) (s : State) : (s.ramWrite c p l b).mem = Memory.write s.mem (ramAddr c p l) b := rfl
@[simp] theorem ramWrite_protoFault (c : Ctl) (p : BitVec 3) (l : BitVec 6) (b : Byte) (s : State) : (s.ramWrite c p l b).protoFault = s.protoFault := rfl
@[simp] theorem ramWrite_host (c : Ctl) (p : BitVec 3) (l : BitVec 6) (b : Byte) (s : State) : (s.ramWrite c p l b).host = s.host := rfl
@[simp] theorem ramWrite_env (c : Ctl) (p : BitVec 3) (l : BitVec 6) (b : Byte) (s : State) : (s.ramWrite c p l b).env = s.env := rfl
@[simp] theorem ramWrite_draws (c : Ctl) (p : BitVec 3) (l : BitVec 6) (b : Byte) (s : State) : (s.ramWrite c p l b).draws = s.draws := rfl
@[simp] theorem ramWrite_trace (c : Ctl) (p : BitVec 3) (l : BitVec 6) (b : Byte) (s : State) : (s.ramWrite c p l b).trace = s.trace := rfl
@[simp] theorem ramWrite_pulses (c : Ctl) (p : BitVec 3) (l : BitVec 6) (b : Byte) (s : State) : (s.ramWrite c p l b).pulses = s.pulses := rfl

@[simp] theorem aboutToIssue_ctrl (w : Word24) (s : State) : (aboutToIssue w s).ctrl = s.ctrl := rfl
@[simp] theorem aboutToIssue_dout (w : Word24) (s : State) : (aboutToIssue w s).dout = s.dout := rfl
@[simp] theorem aboutToIssue_dir (w : Word24) (s : State) : (aboutToIssue w s).dir = s.dir := rfl
@[simp] theorem aboutToIssue_status (w : Word24) (s : State) : (aboutToIssue w s).status = statusIdle s.status := rfl
@[simp] theorem aboutToIssue_result (w : Word24) (s : State) : (aboutToIssue w s).result = s.result := rfl
@[simp] theorem aboutToIssue_req (w : Word24) (s : State) : (aboutToIssue w s).req = s.req := rfl
@[simp] theorem aboutToIssue_seq (w : Word24) (s : State) : (aboutToIssue w s).seq = [] := rfl
@[simp] theorem aboutToIssue_loc (w : Word24) (s : State) : (aboutToIssue w s).loc = s.loc := rfl
@[simp] theorem aboutToIssue_c1 (w : Word24) (s : State) : (aboutToIssue w s).c1 = s.c1 := rfl
@[simp] theorem aboutToIssue_c2 (w : Word24) (s : State) : (aboutToIssue w s).c2 = s.c2 := rfl
@[simp] theorem aboutToIssue_mem (w : Word24) (s : State) : (aboutToIssue w s).mem = s.mem := rfl
@[simp] theorem aboutToIssue_protoFault (w : Word24) (s : State) : (aboutToIssue w s).protoFault = none := rfl
@[simp] theorem aboutToIssue_host (w : Word24) (s : State) : (aboutToIssue w s).host = .issue w :: s.host := rfl
@[simp] theorem aboutToIssue_env (w : Word24) (s : State) : (aboutToIssue w s).env = s.env := rfl
@[simp] theorem aboutToIssue_draws (w : Word24) (s : State) : (aboutToIssue w s).draws = s.draws := rfl
@[simp] theorem aboutToIssue_trace (w : Word24) (s : State) : (aboutToIssue w s).trace = s.trace := rfl
@[simp] theorem aboutToIssue_pulses (w : Word24) (s : State) : (aboutToIssue w s).pulses = s.pulses := rfl

@[simp] theorem setCtl_cfg (s : State) (c : Ctl) (k : Controller) : (s.setCtl c k).cfg = s.cfg := by cases c <;> rfl
@[simp] theorem setCtl_ctrl (s : State) (c : Ctl) (k : Controller) : (s.setCtl c k).ctrl = s.ctrl := by cases c <;> rfl
@[simp] theorem setCtl_dout (s : State) (c : Ctl) (k : Controller) : (s.setCtl c k).dout = s.dout := by cases c <;> rfl
@[simp] theorem setCtl_dir (s : State) (c : Ctl) (k : Controller) : (s.setCtl c k).dir = s.dir := by cases c <;> rfl
@[simp] theorem setCtl_status (s : State) (c : Ctl) (k : Controller) : (s.setCtl c k).status = s.status := by cases c <;> rfl
@[simp] theorem setCtl_result (s : State) (c : Ctl) (k : Controller) : (s.setCtl c k).result = s.result := by cases c <;> rfl
@[simp] theorem setCtl_req (s : State) (c : Ctl) (k : Controller) : (s.setCtl c k).req = s.req := by cases c <;> rfl
@[simp] theorem setCtl_seq (s : State) (c : Ctl) (k : Controller) : (s.setCtl c k).seq = s.seq := by cases c <;> rfl
@[simp] theorem setCtl_loc (s : State) (c : Ctl) (k : Controller) : (s.setCtl c k).loc = s.loc := by cases c <;> rfl
@[simp] theorem setCtl_mem (s : State) (c : Ctl) (k : Controller) : (s.setCtl c k).mem = s.mem := by cases c <;> rfl
@[simp] theorem setCtl_protoFault (s : State) (c : Ctl) (k : Controller) : (s.setCtl c k).protoFault = s.protoFault := by cases c <;> rfl
@[simp] theorem setCtl_host (s : State) (c : Ctl) (k : Controller) : (s.setCtl c k).host = s.host := by cases c <;> rfl
@[simp] theorem setCtl_env (s : State) (c : Ctl) (k : Controller) : (s.setCtl c k).env = s.env := by cases c <;> rfl
@[simp] theorem setCtl_draws (s : State) (c : Ctl) (k : Controller) : (s.setCtl c k).draws = s.draws := by cases c <;> rfl
@[simp] theorem setCtl_trace (s : State) (c : Ctl) (k : Controller) : (s.setCtl c k).trace = s.trace := by cases c <;> rfl
@[simp] theorem setCtl_pulses (s : State) (c : Ctl) (k : Controller) : (s.setCtl c k).pulses = s.pulses := by cases c <;> rfl

/-! Reading one controller after replacing one. -/

@[simp] theorem setCtl_ctl_same (s : State) (c : Ctl) (k : Controller) : (s.setCtl c k).ctl c = k := by
  cases c <;> rfl

theorem setCtl_ctl_other (s : State) {c d : Ctl} (k : Controller) (h : d ≠ c) :
    (s.setCtl c k).ctl d = s.ctl d := by
  cases c <;> cases d <;> first | rfl | exact absurd rfl h

@[simp] theorem setCtl_one (s : State) (k : Controller) : s.setCtl .one k = { s with c1 := k } := rfl
@[simp] theorem setCtl_two (s : State) (k : Controller) : s.setCtl .two k = { s with c2 := k } := rfl
@[simp] theorem ctl_one (s : State) : s.ctl .one = s.c1 := rfl
@[simp] theorem ctl_two (s : State) : s.ctl .two = s.c2 := rfl

end Sys2Proof.Machine
end

