-- ==== Sys2Proof/Laws/Flags.lean ====
section
/-! SUPPORT. How flags of CTRL move: set, clear and select as Boolean facts about single flags, for parameters
that satisfy R6. -/

namespace Sys2Proof.Machine

/-- A one-hot mask reads one bit. -/
theorem flagIn_oneHot {m : Byte} (h : Config.oneHot m = true) : ∃ i, i < 8 ∧ ∀ v, flagIn v m = v.getLsbD i := by
  obtain ⟨i, hi, hm⟩ : ∃ i, i < 8 ∧ m = 1#8 <<< i := by simpa [Config.oneHot] using h
  refine ⟨i, hi, ?_⟩
  subst hm
  interval_cases i <;> decide +kernel

theorem flagIn_or (a b m : Byte) : flagIn (a ||| b) m = (flagIn a m || flagIn b m) := by
  have : (a ||| b) &&& m = (a &&& m) ||| (b &&& m) := by
    apply BitVec.eq_of_getLsbD_eq; intro i _; simp [Bool.and_or_distrib_right]
  unfold flagIn
  rw [this]
  cases ha : a &&& m != 0 <;> cases hb : b &&& m != 0 <;> simp_all

theorem flagIn_zero (m : Byte) : flagIn 0#8 m = false := by simp [flagIn]

theorem flagIn_and_not (a b : Byte) {m : Byte} (h : Config.oneHot m = true) :
    flagIn (a &&& ~~~b) m = (flagIn a m && !flagIn b m) := by
  obtain ⟨i, hi, hv⟩ := flagIn_oneHot h
  simp [hv, hi]

theorem flagIn_self {m : Byte} (h : Config.oneHot m = true) : flagIn m m = true := by
  obtain ⟨i, hi, rfl⟩ : ∃ i, i < 8 ∧ m = 1#8 <<< i := by simpa [Config.oneHot] using h
  interval_cases i <;> rfl

theorem flagIn_distinct {m k : Byte} (hm : Config.oneHot m = true) (hk : Config.oneHot k = true) (h : m ≠ k) :
    flagIn m k = false := by
  obtain ⟨i, hi, rfl⟩ : ∃ i, i < 8 ∧ m = 1#8 <<< i := by simpa [Config.oneHot] using hm
  obtain ⟨j, hj, rfl⟩ : ∃ i, i < 8 ∧ k = 1#8 <<< i := by simpa [Config.oneHot] using hk
  revert h
  interval_cases i <;> interval_cases j <;> decide

theorem Config.wf_distinct {c : Config} (h : c.wf = true) :
    [c.mCS1, c.mCS2, c.mRST, c.mRS, c.mRW, c.mE].Pairwise (· ≠ ·) := by
  simp only [Config.wf, Bool.and_eq_true, decide_eq_true_eq] at h
  exact h.1.1.1.1.2

theorem Config.wf_oneHot_mCS1 {c : Config} (h : c.wf = true) : Config.oneHot c.mCS1 = true := by
  simp only [Config.wf, List.all_cons, Bool.and_eq_true] at h; tauto

theorem Config.wf_oneHot_mCS2 {c : Config} (h : c.wf = true) : Config.oneHot c.mCS2 = true := by
  simp only [Config.wf, List.all_cons, Bool.and_eq_true] at h; tauto

theorem Config.wf_oneHot_mRST {c : Config} (h : c.wf = true) : Config.oneHot c.mRST = true := by
  simp only [Config.wf, List.all_cons, Bool.and_eq_true] at h; tauto

theorem Config.wf_oneHot_mRS {c : Config} (h : c.wf = true) : Config.oneHot c.mRS = true := by
  simp only [Config.wf, List.all_cons, Bool.and_eq_true] at h; tauto

theorem Config.wf_oneHot_mRW {c : Config} (h : c.wf = true) : Config.oneHot c.mRW = true := by
  simp only [Config.wf, List.all_cons, Bool.and_eq_true] at h; tauto

theorem Config.wf_oneHot_mE {c : Config} (h : c.wf = true) : Config.oneHot c.mE = true := by
  simp only [Config.wf, List.all_cons, Bool.and_eq_true] at h; tauto

theorem flag_mCS1_mCS1 {c : Config} (h : c.wf = true) : flagIn c.mCS1 c.mCS1 = true :=
  flagIn_self (Config.wf_oneHot_mCS1 h)

theorem flag_mCS1_mCS2 {c : Config} (h : c.wf = true) : flagIn c.mCS1 c.mCS2 = false :=
  flagIn_distinct (Config.wf_oneHot_mCS1 h) (Config.wf_oneHot_mCS2 h) (by have := Config.wf_distinct h; simp at this; tauto)

theorem flag_mCS1_mRST {c : Config} (h : c.wf = true) : flagIn c.mCS1 c.mRST = false :=
  flagIn_distinct (Config.wf_oneHot_mCS1 h) (Config.wf_oneHot_mRST h) (by have := Config.wf_distinct h; simp at this; tauto)

theorem flag_mCS1_mRS {c : Config} (h : c.wf = true) : flagIn c.mCS1 c.mRS = false :=
  flagIn_distinct (Config.wf_oneHot_mCS1 h) (Config.wf_oneHot_mRS h) (by have := Config.wf_distinct h; simp at this; tauto)

theorem flag_mCS1_mRW {c : Config} (h : c.wf = true) : flagIn c.mCS1 c.mRW = false :=
  flagIn_distinct (Config.wf_oneHot_mCS1 h) (Config.wf_oneHot_mRW h) (by have := Config.wf_distinct h; simp at this; tauto)

theorem flag_mCS1_mE {c : Config} (h : c.wf = true) : flagIn c.mCS1 c.mE = false :=
  flagIn_distinct (Config.wf_oneHot_mCS1 h) (Config.wf_oneHot_mE h) (by have := Config.wf_distinct h; simp at this; tauto)

theorem flag_mCS2_mCS1 {c : Config} (h : c.wf = true) : flagIn c.mCS2 c.mCS1 = false :=
  flagIn_distinct (Config.wf_oneHot_mCS2 h) (Config.wf_oneHot_mCS1 h) (by have := Config.wf_distinct h; simp at this; tauto)

theorem flag_mCS2_mCS2 {c : Config} (h : c.wf = true) : flagIn c.mCS2 c.mCS2 = true :=
  flagIn_self (Config.wf_oneHot_mCS2 h)

theorem flag_mCS2_mRST {c : Config} (h : c.wf = true) : flagIn c.mCS2 c.mRST = false :=
  flagIn_distinct (Config.wf_oneHot_mCS2 h) (Config.wf_oneHot_mRST h) (by have := Config.wf_distinct h; simp at this; tauto)

theorem flag_mCS2_mRS {c : Config} (h : c.wf = true) : flagIn c.mCS2 c.mRS = false :=
  flagIn_distinct (Config.wf_oneHot_mCS2 h) (Config.wf_oneHot_mRS h) (by have := Config.wf_distinct h; simp at this; tauto)

theorem flag_mCS2_mRW {c : Config} (h : c.wf = true) : flagIn c.mCS2 c.mRW = false :=
  flagIn_distinct (Config.wf_oneHot_mCS2 h) (Config.wf_oneHot_mRW h) (by have := Config.wf_distinct h; simp at this; tauto)

theorem flag_mCS2_mE {c : Config} (h : c.wf = true) : flagIn c.mCS2 c.mE = false :=
  flagIn_distinct (Config.wf_oneHot_mCS2 h) (Config.wf_oneHot_mE h) (by have := Config.wf_distinct h; simp at this; tauto)

theorem flag_mRST_mCS1 {c : Config} (h : c.wf = true) : flagIn c.mRST c.mCS1 = false :=
  flagIn_distinct (Config.wf_oneHot_mRST h) (Config.wf_oneHot_mCS1 h) (by have := Config.wf_distinct h; simp at this; tauto)

theorem flag_mRST_mCS2 {c : Config} (h : c.wf = true) : flagIn c.mRST c.mCS2 = false :=
  flagIn_distinct (Config.wf_oneHot_mRST h) (Config.wf_oneHot_mCS2 h) (by have := Config.wf_distinct h; simp at this; tauto)

theorem flag_mRST_mRST {c : Config} (h : c.wf = true) : flagIn c.mRST c.mRST = true :=
  flagIn_self (Config.wf_oneHot_mRST h)

theorem flag_mRST_mRS {c : Config} (h : c.wf = true) : flagIn c.mRST c.mRS = false :=
  flagIn_distinct (Config.wf_oneHot_mRST h) (Config.wf_oneHot_mRS h) (by have := Config.wf_distinct h; simp at this; tauto)

theorem flag_mRST_mRW {c : Config} (h : c.wf = true) : flagIn c.mRST c.mRW = false :=
  flagIn_distinct (Config.wf_oneHot_mRST h) (Config.wf_oneHot_mRW h) (by have := Config.wf_distinct h; simp at this; tauto)

theorem flag_mRST_mE {c : Config} (h : c.wf = true) : flagIn c.mRST c.mE = false :=
  flagIn_distinct (Config.wf_oneHot_mRST h) (Config.wf_oneHot_mE h) (by have := Config.wf_distinct h; simp at this; tauto)

theorem flag_mRS_mCS1 {c : Config} (h : c.wf = true) : flagIn c.mRS c.mCS1 = false :=
  flagIn_distinct (Config.wf_oneHot_mRS h) (Config.wf_oneHot_mCS1 h) (by have := Config.wf_distinct h; simp at this; tauto)

theorem flag_mRS_mCS2 {c : Config} (h : c.wf = true) : flagIn c.mRS c.mCS2 = false :=
  flagIn_distinct (Config.wf_oneHot_mRS h) (Config.wf_oneHot_mCS2 h) (by have := Config.wf_distinct h; simp at this; tauto)

theorem flag_mRS_mRST {c : Config} (h : c.wf = true) : flagIn c.mRS c.mRST = false :=
  flagIn_distinct (Config.wf_oneHot_mRS h) (Config.wf_oneHot_mRST h) (by have := Config.wf_distinct h; simp at this; tauto)

theorem flag_mRS_mRS {c : Config} (h : c.wf = true) : flagIn c.mRS c.mRS = true :=
  flagIn_self (Config.wf_oneHot_mRS h)

theorem flag_mRS_mRW {c : Config} (h : c.wf = true) : flagIn c.mRS c.mRW = false :=
  flagIn_distinct (Config.wf_oneHot_mRS h) (Config.wf_oneHot_mRW h) (by have := Config.wf_distinct h; simp at this; tauto)

theorem flag_mRS_mE {c : Config} (h : c.wf = true) : flagIn c.mRS c.mE = false :=
  flagIn_distinct (Config.wf_oneHot_mRS h) (Config.wf_oneHot_mE h) (by have := Config.wf_distinct h; simp at this; tauto)

theorem flag_mRW_mCS1 {c : Config} (h : c.wf = true) : flagIn c.mRW c.mCS1 = false :=
  flagIn_distinct (Config.wf_oneHot_mRW h) (Config.wf_oneHot_mCS1 h) (by have := Config.wf_distinct h; simp at this; tauto)

theorem flag_mRW_mCS2 {c : Config} (h : c.wf = true) : flagIn c.mRW c.mCS2 = false :=
  flagIn_distinct (Config.wf_oneHot_mRW h) (Config.wf_oneHot_mCS2 h) (by have := Config.wf_distinct h; simp at this; tauto)

theorem flag_mRW_mRST {c : Config} (h : c.wf = true) : flagIn c.mRW c.mRST = false :=
  flagIn_distinct (Config.wf_oneHot_mRW h) (Config.wf_oneHot_mRST h) (by have := Config.wf_distinct h; simp at this; tauto)

theorem flag_mRW_mRS {c : Config} (h : c.wf = true) : flagIn c.mRW c.mRS = false :=
  flagIn_distinct (Config.wf_oneHot_mRW h) (Config.wf_oneHot_mRS h) (by have := Config.wf_distinct h; simp at this; tauto)

theorem flag_mRW_mRW {c : Config} (h : c.wf = true) : flagIn c.mRW c.mRW = true :=
  flagIn_self (Config.wf_oneHot_mRW h)

theorem flag_mRW_mE {c : Config} (h : c.wf = true) : flagIn c.mRW c.mE = false :=
  flagIn_distinct (Config.wf_oneHot_mRW h) (Config.wf_oneHot_mE h) (by have := Config.wf_distinct h; simp at this; tauto)

theorem flag_mE_mCS1 {c : Config} (h : c.wf = true) : flagIn c.mE c.mCS1 = false :=
  flagIn_distinct (Config.wf_oneHot_mE h) (Config.wf_oneHot_mCS1 h) (by have := Config.wf_distinct h; simp at this; tauto)

theorem flag_mE_mCS2 {c : Config} (h : c.wf = true) : flagIn c.mE c.mCS2 = false :=
  flagIn_distinct (Config.wf_oneHot_mE h) (Config.wf_oneHot_mCS2 h) (by have := Config.wf_distinct h; simp at this; tauto)

theorem flag_mE_mRST {c : Config} (h : c.wf = true) : flagIn c.mE c.mRST = false :=
  flagIn_distinct (Config.wf_oneHot_mE h) (Config.wf_oneHot_mRST h) (by have := Config.wf_distinct h; simp at this; tauto)

theorem flag_mE_mRS {c : Config} (h : c.wf = true) : flagIn c.mE c.mRS = false :=
  flagIn_distinct (Config.wf_oneHot_mE h) (Config.wf_oneHot_mRS h) (by have := Config.wf_distinct h; simp at this; tauto)

theorem flag_mE_mRW {c : Config} (h : c.wf = true) : flagIn c.mE c.mRW = false :=
  flagIn_distinct (Config.wf_oneHot_mE h) (Config.wf_oneHot_mRW h) (by have := Config.wf_distinct h; simp at this; tauto)

theorem flag_mE_mE {c : Config} (h : c.wf = true) : flagIn c.mE c.mE = true :=
  flagIn_self (Config.wf_oneHot_mE h)

/-! `Select` (R140). -/

theorem flag_csMask_mCS1 {c : Config} (h : c.wf = true) (t : Target) : flagIn (csMask c t) c.mCS1 = t.has1 := by
  cases t <;> simp [csMask, Target.has1, Target.has2, flagIn_or, flagIn_zero, flag_mCS1_mCS1 h, flag_mCS2_mCS1 h]

theorem flag_csMask_mCS2 {c : Config} (h : c.wf = true) (t : Target) : flagIn (csMask c t) c.mCS2 = t.has2 := by
  cases t <;> simp [csMask, Target.has1, Target.has2, flagIn_or, flagIn_zero, flag_mCS1_mCS2 h, flag_mCS2_mCS2 h]

theorem flag_csMask_other {c : Config} {m : Byte} (h1 : flagIn c.mCS1 m = false) (h2 : flagIn c.mCS2 m = false)
    (t : Target) : flagIn (csMask c t) m = false := by
  cases t <;> simp [csMask, Target.has1, Target.has2, flagIn_or, flagIn_zero, h1, h2]

theorem flag_select_mCS1 {c : Config} (h : c.wf = true) (t : Target) (v : Byte) :
    flagIn (selectCtrl c t v) c.mCS1 = t.has1 := by
  simp [selectCtrl, flagIn_or, flagIn_and_not _ _ (Config.wf_oneHot_mCS1 h), flag_mCS1_mCS1 h, flag_csMask_mCS1 h]

theorem flag_select_mCS2 {c : Config} (h : c.wf = true) (t : Target) (v : Byte) :
    flagIn (selectCtrl c t v) c.mCS2 = t.has2 := by
  simp [selectCtrl, flagIn_or, flagIn_and_not _ _ (Config.wf_oneHot_mCS2 h), flag_mCS2_mCS2 h, flag_csMask_mCS2 h]

theorem flag_select_other {c : Config} {m : Byte} (hm : Config.oneHot m = true) (h1 : flagIn c.mCS1 m = false)
    (h2 : flagIn c.mCS2 m = false) (t : Target) (v : Byte) : flagIn (selectCtrl c t v) m = flagIn v m := by
  simp [selectCtrl, flagIn_or, flagIn_and_not _ _ hm, h1, h2, flag_csMask_other h1 h2]

theorem flag_select_mRST {c : Config} (h : c.wf = true) (t : Target) (v : Byte) :
    flagIn (selectCtrl c t v) c.mRST = flagIn v c.mRST :=
  flag_select_other (Config.wf_oneHot_mRST h) (flag_mCS1_mRST h) (flag_mCS2_mRST h) t v

theorem flag_select_mRS {c : Config} (h : c.wf = true) (t : Target) (v : Byte) :
    flagIn (selectCtrl c t v) c.mRS = flagIn v c.mRS :=
  flag_select_other (Config.wf_oneHot_mRS h) (flag_mCS1_mRS h) (flag_mCS2_mRS h) t v

theorem flag_select_mRW {c : Config} (h : c.wf = true) (t : Target) (v : Byte) :
    flagIn (selectCtrl c t v) c.mRW = flagIn v c.mRW :=
  flag_select_other (Config.wf_oneHot_mRW h) (flag_mCS1_mRW h) (flag_mCS2_mRW h) t v

theorem flag_select_mE {c : Config} (h : c.wf = true) (t : Target) (v : Byte) :
    flagIn (selectCtrl c t v) c.mE = flagIn v c.mE :=
  flag_select_other (Config.wf_oneHot_mE h) (flag_mCS1_mE h) (flag_mCS2_mE h) t v

/-! The reserved bits (R6, R22). -/

theorem reserved_or {c : Config} (v m : Byte) (h : m &&& c.mReserved = 0) :
    (v ||| m) &&& c.mReserved = v &&& c.mReserved := by
  have : (v ||| m) &&& c.mReserved = (v &&& c.mReserved) ||| (m &&& c.mReserved) := by
    apply BitVec.eq_of_getLsbD_eq; intro i _; simp [Bool.and_or_distrib_right]
  rw [this, h]; simp

theorem reserved_and_not {c : Config} (v m : Byte) (h : m &&& c.mReserved = 0) :
    (v &&& ~~~m) &&& c.mReserved = v &&& c.mReserved := by
  apply BitVec.eq_of_getLsbD_eq
  intro i hi
  have := congrArg (fun x : Byte => x.getLsbD i) h
  simp only [BitVec.getLsbD_and, BitVec.ofNat_eq_ofNat, BitVec.getLsbD_zero, BitVec.getLsbD_not] at this ⊢
  cases hm : m.getLsbD i <;> cases hr : c.mReserved.getLsbD i <;> simp_all

theorem reserved_flag {c : Config} (m : Byte)
    (h : m ∈ [c.mCS1, c.mCS2, c.mRST, c.mRS, c.mRW, c.mE]) : m &&& c.mReserved = 0 := by
  apply BitVec.eq_of_getLsbD_eq
  intro i hi
  simp only [List.mem_cons, List.not_mem_nil, or_false] at h
  simp only [Config.mReserved, BitVec.getLsbD_and, BitVec.getLsbD_not, BitVec.getLsbD_or, hi, decide_true,
    Bool.true_and, BitVec.ofNat_eq_ofNat, BitVec.getLsbD_zero]
  have key : ∀ a1 a2 a3 a4 a5 a6 : Bool, ∀ a ∈ [a1, a2, a3, a4, a5, a6],
      (a && !(a1 || a2 || a3 || a4 || a5 || a6)) = false := by decide
  rcases h with rfl | rfl | rfl | rfl | rfl | rfl <;> exact key _ _ _ _ _ _ _ (by simp)

theorem reserved_or_masks {c : Config} {a b : Byte} (ha : a &&& c.mReserved = 0) (hb : b &&& c.mReserved = 0) :
    (a ||| b) &&& c.mReserved = 0 := by
  have : (a ||| b) &&& c.mReserved = (a &&& c.mReserved) ||| (b &&& c.mReserved) := by
    apply BitVec.eq_of_getLsbD_eq; intro i _; simp [Bool.and_or_distrib_right]
  rw [this, ha, hb]; simp

/-! What a status byte shows (R63). -/

theorem showsBusy_statusByte {c : Config} (h : c.wf = true) (busy : Bool) (drawn : Byte) :
    showsBusy c.busyMask (statusByte c.busyMask busy drawn) = busy := by
  have hm : c.busyMask ≠ 0#8 := by
    simp only [Config.wf, Bool.and_eq_true, bne_iff_ne] at h; exact h.1.1.1.2
  cases busy with
  | false =>
    have : drawn &&& ~~~c.busyMask &&& c.busyMask = 0#8 := by
      apply BitVec.eq_of_getLsbD_eq; intro i hi
      cases h1 : c.busyMask.getLsbD i <;> simp [h1, hi]
    simp [statusByte, showsBusy, flagIn, this]
  | true =>
    by_cases hd : flagIn drawn c.busyMask = true
    · simp [statusByte, showsBusy, hd]
    · have : flagIn c.busyMask c.busyMask = true := by simp [flagIn, hm]
      simp [statusByte, showsBusy, hd, flagIn_or, this]

end Sys2Proof.Machine
end

