-- ==== Sys2Proof/Laws/Memory.lean ====
section
/-! SUPPORT. Display memory: reading after a write or after forgetting one controller's bytes, the canonical
form kept by every operation, and distinct positions at distinct addresses. -/

namespace Sys2Proof.Machine

theorem lookup_write_same (m : Memory) (a : Nat) (b : Byte) :
    Memory.lookup (Memory.write m a b) a = some b := by
  induction m with
  | nil => simp [Memory.write, Memory.lookup]
  | cons e rest ih =>
    obtain ⟨k, v⟩ := e
    simp only [Memory.write]
    split
    · simp [Memory.lookup]
    · split
      · simp [Memory.lookup]
      · rename_i h1 h2
        simp [Memory.lookup, ih, Ne.symm h2]

theorem lookup_write_other (m : Memory) {a a' : Nat} (b : Byte) (h : a' ≠ a) :
    Memory.lookup (Memory.write m a b) a' = Memory.lookup m a' := by
  induction m with
  | nil => simp [Memory.write, Memory.lookup, Ne.symm h]
  | cons e rest ih =>
    obtain ⟨k, v⟩ := e
    simp only [Memory.write]
    split
    · simp [Memory.lookup, Ne.symm h]
    · split
      · rename_i h1 h2
        subst h2
        simp [Memory.lookup, Ne.symm h]
      · simp [Memory.lookup, ih]

theorem risingFrom_mono {m : Memory} {lo hi : Nat} (h : lo ≤ hi) (w : Memory.risingFrom m hi = true) :
    Memory.risingFrom m lo = true := by
  cases m with
  | nil => rfl
  | cons e rest =>
    obtain ⟨k, v⟩ := e
    simp only [Memory.risingFrom, Bool.and_eq_true, decide_eq_true_eq] at w ⊢
    exact ⟨⟨by omega, w.1.2⟩, w.2⟩

theorem risingFrom_write {m : Memory} {lo a : Nat} (b : Byte) (w : Memory.risingFrom m lo = true) (h : lo ≤ a)
    (ha : a < ramSize) : Memory.risingFrom (Memory.write m a b) lo = true := by
  induction m generalizing lo with
  | nil => simp [Memory.write, Memory.risingFrom, h, ha]
  | cons e rest ih =>
    obtain ⟨k, v⟩ := e
    simp only [Memory.risingFrom, Bool.and_eq_true, decide_eq_true_eq] at w
    simp only [Memory.write]
    split
    · rename_i h1
      simp only [Memory.risingFrom, Bool.and_eq_true, decide_eq_true_eq]
      exact ⟨⟨h, ha⟩, ⟨by omega, w.1.2⟩, w.2⟩
    · split
      · rename_i h1 h2
        subst h2
        simp only [Memory.risingFrom, Bool.and_eq_true, decide_eq_true_eq]
        exact ⟨⟨h, ha⟩, w.2⟩
      · simp only [Memory.risingFrom, Bool.and_eq_true, decide_eq_true_eq]
        exact ⟨⟨w.1.1, w.1.2⟩, ih w.2 (by omega)⟩

theorem risingFrom_filter {m : Memory} {lo : Nat} (p : Host.Cell → Bool) (w : Memory.risingFrom m lo = true) :
    Memory.risingFrom (m.filter p) lo = true := by
  induction m generalizing lo with
  | nil => exact w
  | cons e rest ih =>
    obtain ⟨k, v⟩ := e
    simp only [Memory.risingFrom, Bool.and_eq_true, decide_eq_true_eq] at w
    simp only [List.filter_cons]
    split
    · simp only [Memory.risingFrom, Bool.and_eq_true, decide_eq_true_eq]
      exact ⟨⟨w.1.1, w.1.2⟩, ih w.2⟩
    · exact risingFrom_mono (by omega) (ih w.2)

theorem ramAddr_lt (c : Ctl) (page : BitVec 3) (col : BitVec 6) : ramAddr c page col < ramSize := by
  have h1 := page.isLt
  have h2 := col.isLt
  cases c <;> simp only [ramAddr, ramBase, ramSize] <;> omega

theorem ramAddr_inj {c c' : Ctl} {p p' : BitVec 3} {l l' : BitVec 6} :
    ramAddr c p l = ramAddr c' p' l' ↔ c = c' ∧ p = p' ∧ l = l' := by
  have h1 := p.isLt
  have h2 := l.isLt
  have h3 := p'.isLt
  have h4 := l'.isLt
  constructor
  · intro h
    cases c <;> cases c' <;> simp only [ramAddr, ramBase] at h <;>
      refine ⟨?_, ?_, ?_⟩ <;> first
        | rfl
        | (exfalso; omega)
        | (apply BitVec.eq_of_toNat_eq; omega)
  · rintro ⟨rfl, rfl, rfl⟩; rfl

/-- Writing a display byte keeps the canonical form. -/
theorem write_wf {m : Memory} (w : Memory.wf m = true) (c : Ctl) (page : BitVec 3) (col : BitVec 6) (b : Byte) :
    Memory.wf (Memory.write m (ramAddr c page col) b) = true :=
  risingFrom_write b w (Nat.zero_le _) (ramAddr_lt c page col)

/-- Forgetting a controller's bytes keeps the canonical form. -/
theorem forget_wf {m : Memory} (w : Memory.wf m = true) (c : Ctl) : Memory.wf (Memory.forget m c) = true :=
  risingFrom_filter _ w

theorem reset_memory_wf : Memory.wf State.reset.mem = true := rfl

theorem lookup_forget_other (m : Memory) (c : Ctl) {a : Nat} (h : a < ramBase c ∨ ramBase c + 512 ≤ a) :
    Memory.lookup (Memory.forget m c) a = Memory.lookup m a := by
  induction m with
  | nil => rfl
  | cons e rest ih =>
    obtain ⟨k, v⟩ := e
    simp only [Memory.forget, List.filter_cons] at ih ⊢
    split
    · simp only [Memory.lookup, ih]
    · rename_i hk
      have : k ≠ a := by rintro rfl; simp at hk; omega
      simp only [Memory.lookup, this, if_false, ih]

/-- Reading a display byte after writing one (R52, R61). -/
theorem ramByte_ramWrite (s : State) (c c' : Ctl) (p p' : BitVec 3) (l l' : BitVec 6) (b : Byte) :
    (s.ramWrite c p l b).ramByte c' p' l' = if c' = c ∧ p' = p ∧ l' = l then b else s.ramByte c' p' l' := by
  have hc : (s.ramWrite c p l b).ctl c' = s.ctl c' := by cases c' <;> rfl
  unfold State.ramByte
  rw [hc, ramWrite_mem]
  split
  · rename_i h
    obtain ⟨rfl, rfl, rfl⟩ := h
    simp [lookup_write_same]
  · rename_i h
    rw [lookup_write_other]
    intro h'
    exact h (ramAddr_inj.mp h')

/-- Reading display memory depends on the memory and the epochs alone. -/
theorem ramByte_congr {s t : State} (hm : t.mem = s.mem) (h : ∀ c, (t.ctl c).epoch = (s.ctl c).epoch) :
    ∀ c page col, t.ramByte c page col = s.ramByte c page col := by
  intro c p l
  simp [State.ramByte, hm, h]

end Sys2Proof.Machine
end

