-- ==== Sys2Proof/Laws/Controllers.lean ====
section
/-! SUPPORT. What the environment's moves, a received pulse event, the release of the display reset and an update
of CTRL leave alone, and what each can do to a controller and to display memory. -/

namespace Sys2Proof.Machine

@[simp] theorem readyStep_cfg (c : Ctl) (s : State) : (readyStep c s).cfg = s.cfg := by simp [readyStep]
@[simp] theorem readyStep_dout (c : Ctl) (s : State) : (readyStep c s).dout = s.dout := by simp [readyStep]
@[simp] theorem readyStep_dir (c : Ctl) (s : State) : (readyStep c s).dir = s.dir := by simp [readyStep]
@[simp] theorem readyStep_status (c : Ctl) (s : State) : (readyStep c s).status = s.status := by simp [readyStep]
@[simp] theorem readyStep_result (c : Ctl) (s : State) : (readyStep c s).result = s.result := by simp [readyStep]
@[simp] theorem readyStep_req (c : Ctl) (s : State) : (readyStep c s).req = s.req := by simp [readyStep]
@[simp] theorem readyStep_seq (c : Ctl) (s : State) : (readyStep c s).seq = s.seq := by simp [readyStep]
@[simp] theorem readyStep_loc (c : Ctl) (s : State) : (readyStep c s).loc = s.loc := by simp [readyStep]
@[simp] theorem readyStep_host (c : Ctl) (s : State) : (readyStep c s).host = s.host := by simp [readyStep]
@[simp] theorem readyStep_env (c : Ctl) (s : State) : (readyStep c s).env = s.env := by simp [readyStep]
@[simp] theorem readyStep_trace (c : Ctl) (s : State) : (readyStep c s).trace = s.trace := by simp [readyStep]
@[simp] theorem readyStep_ctrl (c : Ctl) (s : State) : (readyStep c s).ctrl = s.ctrl := by simp [readyStep]
@[simp] theorem readyStep_mem (c : Ctl) (s : State) : (readyStep c s).mem = s.mem := by simp [readyStep]
@[simp] theorem readyStep_protoFault (c : Ctl) (s : State) : (readyStep c s).protoFault = s.protoFault := by simp [readyStep]
@[simp] theorem readyStep_draws (c : Ctl) (s : State) : (readyStep c s).draws = s.draws := by simp [readyStep]
@[simp] theorem readyStep_pulses (c : Ctl) (s : State) : (readyStep c s).pulses = s.pulses := by simp [readyStep]

@[simp] theorem envMoves_cfg (e : EnvSlot) (s : State) : (envMoves e s).cfg = s.cfg := by unfold envMoves; dsimp only; split <;> split <;> simp
@[simp] theorem envMoves_dout (e : EnvSlot) (s : State) : (envMoves e s).dout = s.dout := by unfold envMoves; dsimp only; split <;> split <;> simp
@[simp] theorem envMoves_dir (e : EnvSlot) (s : State) : (envMoves e s).dir = s.dir := by unfold envMoves; dsimp only; split <;> split <;> simp
@[simp] theorem envMoves_status (e : EnvSlot) (s : State) : (envMoves e s).status = s.status := by unfold envMoves; dsimp only; split <;> split <;> simp
@[simp] theorem envMoves_result (e : EnvSlot) (s : State) : (envMoves e s).result = s.result := by unfold envMoves; dsimp only; split <;> split <;> simp
@[simp] theorem envMoves_req (e : EnvSlot) (s : State) : (envMoves e s).req = s.req := by unfold envMoves; dsimp only; split <;> split <;> simp
@[simp] theorem envMoves_seq (e : EnvSlot) (s : State) : (envMoves e s).seq = s.seq := by unfold envMoves; dsimp only; split <;> split <;> simp
@[simp] theorem envMoves_loc (e : EnvSlot) (s : State) : (envMoves e s).loc = s.loc := by unfold envMoves; dsimp only; split <;> split <;> simp
@[simp] theorem envMoves_host (e : EnvSlot) (s : State) : (envMoves e s).host = s.host := by unfold envMoves; dsimp only; split <;> split <;> simp
@[simp] theorem envMoves_env (e : EnvSlot) (s : State) : (envMoves e s).env = s.env := by unfold envMoves; dsimp only; split <;> split <;> simp
@[simp] theorem envMoves_trace (e : EnvSlot) (s : State) : (envMoves e s).trace = s.trace := by unfold envMoves; dsimp only; split <;> split <;> simp
@[simp] theorem envMoves_ctrl (e : EnvSlot) (s : State) : (envMoves e s).ctrl = s.ctrl := by unfold envMoves; dsimp only; split <;> split <;> simp
@[simp] theorem envMoves_mem (e : EnvSlot) (s : State) : (envMoves e s).mem = s.mem := by unfold envMoves; dsimp only; split <;> split <;> simp
@[simp] theorem envMoves_protoFault (e : EnvSlot) (s : State) : (envMoves e s).protoFault = s.protoFault := by unfold envMoves; dsimp only; split <;> split <;> simp
@[simp] theorem envMoves_draws (e : EnvSlot) (s : State) : (envMoves e s).draws = s.draws := by unfold envMoves; dsimp only; split <;> split <;> simp
@[simp] theorem envMoves_pulses (e : EnvSlot) (s : State) : (envMoves e s).pulses = s.pulses := by unfold envMoves; dsimp only; split <;> split <;> simp

@[simp] theorem commandWrite_cfg (c : Ctl) (b : Byte) (s : State) : (commandWrite c b s).cfg = s.cfg := by simp [commandWrite]
@[simp] theorem commandWrite_dout (c : Ctl) (b : Byte) (s : State) : (commandWrite c b s).dout = s.dout := by simp [commandWrite]
@[simp] theorem commandWrite_dir (c : Ctl) (b : Byte) (s : State) : (commandWrite c b s).dir = s.dir := by simp [commandWrite]
@[simp] theorem commandWrite_status (c : Ctl) (b : Byte) (s : State) : (commandWrite c b s).status = s.status := by simp [commandWrite]
@[simp] theorem commandWrite_result (c : Ctl) (b : Byte) (s : State) : (commandWrite c b s).result = s.result := by simp [commandWrite]
@[simp] theorem commandWrite_req (c : Ctl) (b : Byte) (s : State) : (commandWrite c b s).req = s.req := by simp [commandWrite]
@[simp] theorem commandWrite_seq (c : Ctl) (b : Byte) (s : State) : (commandWrite c b s).seq = s.seq := by simp [commandWrite]
@[simp] theorem commandWrite_loc (c : Ctl) (b : Byte) (s : State) : (commandWrite c b s).loc = s.loc := by simp [commandWrite]
@[simp] theorem commandWrite_host (c : Ctl) (b : Byte) (s : State) : (commandWrite c b s).host = s.host := by simp [commandWrite]
@[simp] theorem commandWrite_env (c : Ctl) (b : Byte) (s : State) : (commandWrite c b s).env = s.env := by simp [commandWrite]
@[simp] theorem commandWrite_trace (c : Ctl) (b : Byte) (s : State) : (commandWrite c b s).trace = s.trace := by simp [commandWrite]
@[simp] theorem commandWrite_ctrl (c : Ctl) (b : Byte) (s : State) : (commandWrite c b s).ctrl = s.ctrl := by simp [commandWrite]
@[simp] theorem commandWrite_mem (c : Ctl) (b : Byte) (s : State) : (commandWrite c b s).mem = s.mem := by simp [commandWrite]
@[simp] theorem commandWrite_protoFault (c : Ctl) (b : Byte) (s : State) : (commandWrite c b s).protoFault = s.protoFault := by simp [commandWrite]
@[simp] theorem commandWrite_draws (c : Ctl) (b : Byte) (s : State) : (commandWrite c b s).draws = s.draws := by simp [commandWrite]
@[simp] theorem commandWrite_pulses (c : Ctl) (b : Byte) (s : State) : (commandWrite c b s).pulses = s.pulses := by simp [commandWrite]

@[simp] theorem dataWrite_cfg (c : Ctl) (b : Byte) (s : State) : (dataWrite c b s).cfg = s.cfg := by simp [dataWrite]
@[simp] theorem dataWrite_dout (c : Ctl) (b : Byte) (s : State) : (dataWrite c b s).dout = s.dout := by simp [dataWrite]
@[simp] theorem dataWrite_dir (c : Ctl) (b : Byte) (s : State) : (dataWrite c b s).dir = s.dir := by simp [dataWrite]
@[simp] theorem dataWrite_status (c : Ctl) (b : Byte) (s : State) : (dataWrite c b s).status = s.status := by simp [dataWrite]
@[simp] theorem dataWrite_result (c : Ctl) (b : Byte) (s : State) : (dataWrite c b s).result = s.result := by simp [dataWrite]
@[simp] theorem dataWrite_req (c : Ctl) (b : Byte) (s : State) : (dataWrite c b s).req = s.req := by simp [dataWrite]
@[simp] theorem dataWrite_seq (c : Ctl) (b : Byte) (s : State) : (dataWrite c b s).seq = s.seq := by simp [dataWrite]
@[simp] theorem dataWrite_loc (c : Ctl) (b : Byte) (s : State) : (dataWrite c b s).loc = s.loc := by simp [dataWrite]
@[simp] theorem dataWrite_host (c : Ctl) (b : Byte) (s : State) : (dataWrite c b s).host = s.host := by simp [dataWrite]
@[simp] theorem dataWrite_env (c : Ctl) (b : Byte) (s : State) : (dataWrite c b s).env = s.env := by simp [dataWrite]
@[simp] theorem dataWrite_trace (c : Ctl) (b : Byte) (s : State) : (dataWrite c b s).trace = s.trace := by simp [dataWrite]
@[simp] theorem dataWrite_ctrl (c : Ctl) (b : Byte) (s : State) : (dataWrite c b s).ctrl = s.ctrl := by simp [dataWrite]
@[simp] theorem dataWrite_protoFault (c : Ctl) (b : Byte) (s : State) : (dataWrite c b s).protoFault = s.protoFault := by simp [dataWrite]
@[simp] theorem dataWrite_draws (c : Ctl) (b : Byte) (s : State) : (dataWrite c b s).draws = s.draws := by simp [dataWrite]
@[simp] theorem dataWrite_pulses (c : Ctl) (b : Byte) (s : State) : (dataWrite c b s).pulses = s.pulses := by simp [dataWrite]

@[simp] theorem dataRead_cfg (c : Ctl) (s : State) : (dataRead c s).cfg = s.cfg := by simp [dataRead]
@[simp] theorem dataRead_dout (c : Ctl) (s : State) : (dataRead c s).dout = s.dout := by simp [dataRead]
@[simp] theorem dataRead_dir (c : Ctl) (s : State) : (dataRead c s).dir = s.dir := by simp [dataRead]
@[simp] theorem dataRead_status (c : Ctl) (s : State) : (dataRead c s).status = s.status := by simp [dataRead]
@[simp] theorem dataRead_result (c : Ctl) (s : State) : (dataRead c s).result = s.result := by simp [dataRead]
@[simp] theorem dataRead_req (c : Ctl) (s : State) : (dataRead c s).req = s.req := by simp [dataRead]
@[simp] theorem dataRead_seq (c : Ctl) (s : State) : (dataRead c s).seq = s.seq := by simp [dataRead]
@[simp] theorem dataRead_loc (c : Ctl) (s : State) : (dataRead c s).loc = s.loc := by simp [dataRead]
@[simp] theorem dataRead_host (c : Ctl) (s : State) : (dataRead c s).host = s.host := by simp [dataRead]
@[simp] theorem dataRead_env (c : Ctl) (s : State) : (dataRead c s).env = s.env := by simp [dataRead]
@[simp] theorem dataRead_trace (c : Ctl) (s : State) : (dataRead c s).trace = s.trace := by simp [dataRead]
@[simp] theorem dataRead_ctrl (c : Ctl) (s : State) : (dataRead c s).ctrl = s.ctrl := by simp [dataRead]
@[simp] theorem dataRead_mem (c : Ctl) (s : State) : (dataRead c s).mem = s.mem := by simp [dataRead]
@[simp] theorem dataRead_protoFault (c : Ctl) (s : State) : (dataRead c s).protoFault = s.protoFault := by simp [dataRead]
@[simp] theorem dataRead_draws (c : Ctl) (s : State) : (dataRead c s).draws = s.draws := by simp [dataRead]
@[simp] theorem dataRead_pulses (c : Ctl) (s : State) : (dataRead c s).pulses = s.pulses := by simp [dataRead]

@[simp] theorem actOn_cfg (k : PulseKind) (c : Ctl) (b : Byte) (s : State) : (actOn k c b s).cfg = s.cfg := by cases k <;> simp [actOn]
@[simp] theorem actOn_dout (k : PulseKind) (c : Ctl) (b : Byte) (s : State) : (actOn k c b s).dout = s.dout := by cases k <;> simp [actOn]
@[simp] theorem actOn_dir (k : PulseKind) (c : Ctl) (b : Byte) (s : State) : (actOn k c b s).dir = s.dir := by cases k <;> simp [actOn]
@[simp] theorem actOn_status (k : PulseKind) (c : Ctl) (b : Byte) (s : State) : (actOn k c b s).status = s.status := by cases k <;> simp [actOn]
@[simp] theorem actOn_result (k : PulseKind) (c : Ctl) (b : Byte) (s : State) : (actOn k c b s).result = s.result := by cases k <;> simp [actOn]
@[simp] theorem actOn_req (k : PulseKind) (c : Ctl) (b : Byte) (s : State) : (actOn k c b s).req = s.req := by cases k <;> simp [actOn]
@[simp] theorem actOn_seq (k : PulseKind) (c : Ctl) (b : Byte) (s : State) : (actOn k c b s).seq = s.seq := by cases k <;> simp [actOn]
@[simp] theorem actOn_loc (k : PulseKind) (c : Ctl) (b : Byte) (s : State) : (actOn k c b s).loc = s.loc := by cases k <;> simp [actOn]
@[simp] theorem actOn_host (k : PulseKind) (c : Ctl) (b : Byte) (s : State) : (actOn k c b s).host = s.host := by cases k <;> simp [actOn]
@[simp] theorem actOn_env (k : PulseKind) (c : Ctl) (b : Byte) (s : State) : (actOn k c b s).env = s.env := by cases k <;> simp [actOn]
@[simp] theorem actOn_trace (k : PulseKind) (c : Ctl) (b : Byte) (s : State) : (actOn k c b s).trace = s.trace := by cases k <;> simp [actOn]
@[simp] theorem actOn_ctrl (k : PulseKind) (c : Ctl) (b : Byte) (s : State) : (actOn k c b s).ctrl = s.ctrl := by cases k <;> simp [actOn]
@[simp] theorem actOn_protoFault (k : PulseKind) (c : Ctl) (b : Byte) (s : State) : (actOn k c b s).protoFault = s.protoFault := by cases k <;> simp [actOn]
@[simp] theorem actOn_draws (k : PulseKind) (c : Ctl) (b : Byte) (s : State) : (actOn k c b s).draws = s.draws := by cases k <;> simp [actOn]
@[simp] theorem actOn_pulses (k : PulseKind) (c : Ctl) (b : Byte) (s : State) : (actOn k c b s).pulses = s.pulses := by cases k <;> simp [actOn]

@[simp] theorem mayGoBusy_cfg (e : EnvSlot) (c : Ctl) (s : State) : (mayGoBusy e c s).cfg = s.cfg := by unfold mayGoBusy; split <;> simp
@[simp] theorem mayGoBusy_dout (e : EnvSlot) (c : Ctl) (s : State) : (mayGoBusy e c s).dout = s.dout := by unfold mayGoBusy; split <;> simp
@[simp] theorem mayGoBusy_dir (e : EnvSlot) (c : Ctl) (s : State) : (mayGoBusy e c s).dir = s.dir := by unfold mayGoBusy; split <;> simp
@[simp] theorem mayGoBusy_status (e : EnvSlot) (c : Ctl) (s : State) : (mayGoBusy e c s).status = s.status := by unfold mayGoBusy; split <;> simp
@[simp] theorem mayGoBusy_result (e : EnvSlot) (c : Ctl) (s : State) : (mayGoBusy e c s).result = s.result := by unfold mayGoBusy; split <;> simp
@[simp] theorem mayGoBusy_req (e : EnvSlot) (c : Ctl) (s : State) : (mayGoBusy e c s).req = s.req := by unfold mayGoBusy; split <;> simp
@[simp] theorem mayGoBusy_seq (e : EnvSlot) (c : Ctl) (s : State) : (mayGoBusy e c s).seq = s.seq := by unfold mayGoBusy; split <;> simp
@[simp] theorem mayGoBusy_loc (e : EnvSlot) (c : Ctl) (s : State) : (mayGoBusy e c s).loc = s.loc := by unfold mayGoBusy; split <;> simp
@[simp] theorem mayGoBusy_host (e : EnvSlot) (c : Ctl) (s : State) : (mayGoBusy e c s).host = s.host := by unfold mayGoBusy; split <;> simp
@[simp] theorem mayGoBusy_env (e : EnvSlot) (c : Ctl) (s : State) : (mayGoBusy e c s).env = s.env := by unfold mayGoBusy; split <;> simp
@[simp] theorem mayGoBusy_trace (e : EnvSlot) (c : Ctl) (s : State) : (mayGoBusy e c s).trace = s.trace := by unfold mayGoBusy; split <;> simp
@[simp] theorem mayGoBusy_ctrl (e : EnvSlot) (c : Ctl) (s : State) : (mayGoBusy e c s).ctrl = s.ctrl := by unfold mayGoBusy; split <;> simp
@[simp] theorem mayGoBusy_mem (e : EnvSlot) (c : Ctl) (s : State) : (mayGoBusy e c s).mem = s.mem := by unfold mayGoBusy; split <;> simp
@[simp] theorem mayGoBusy_protoFault (e : EnvSlot) (c : Ctl) (s : State) : (mayGoBusy e c s).protoFault = s.protoFault := by unfold mayGoBusy; split <;> simp
@[simp] theorem mayGoBusy_draws (e : EnvSlot) (c : Ctl) (s : State) : (mayGoBusy e c s).draws = s.draws := by unfold mayGoBusy; split <;> simp
@[simp] theorem mayGoBusy_pulses (e : EnvSlot) (c : Ctl) (s : State) : (mayGoBusy e c s).pulses = s.pulses := by unfold mayGoBusy; split <;> simp

@[simp] theorem receive_cfg (e : EnvSlot) (p : Pulse) (c : Ctl) (b : Byte) (s : State) : (receive e p c b s).cfg = s.cfg := by unfold receive; repeat (first | split | simp)
@[simp] theorem receive_dout (e : EnvSlot) (p : Pulse) (c : Ctl) (b : Byte) (s : State) : (receive e p c b s).dout = s.dout := by unfold receive; repeat (first | split | simp)
@[simp] theorem receive_dir (e : EnvSlot) (p : Pulse) (c : Ctl) (b : Byte) (s : State) : (receive e p c b s).dir = s.dir := by unfold receive; repeat (first | split | simp)
@[simp] theorem receive_status (e : EnvSlot) (p : Pulse) (c : Ctl) (b : Byte) (s : State) : (receive e p c b s).status = s.status := by unfold receive; repeat (first | split | simp)
@[simp] theorem receive_result (e : EnvSlot) (p : Pulse) (c : Ctl) (b : Byte) (s : State) : (receive e p c b s).result = s.result := by unfold receive; repeat (first | split | simp)
@[simp] theorem receive_req (e : EnvSlot) (p : Pulse) (c : Ctl) (b : Byte) (s : State) : (receive e p c b s).req = s.req := by unfold receive; repeat (first | split | simp)
@[simp] theorem receive_seq (e : EnvSlot) (p : Pulse) (c : Ctl) (b : Byte) (s : State) : (receive e p c b s).seq = s.seq := by unfold receive; repeat (first | split | simp)
@[simp] theorem receive_loc (e : EnvSlot) (p : Pulse) (c : Ctl) (b : Byte) (s : State) : (receive e p c b s).loc = s.loc := by unfold receive; repeat (first | split | simp)
@[simp] theorem receive_host (e : EnvSlot) (p : Pulse) (c : Ctl) (b : Byte) (s : State) : (receive e p c b s).host = s.host := by unfold receive; repeat (first | split | simp)
@[simp] theorem receive_env (e : EnvSlot) (p : Pulse) (c : Ctl) (b : Byte) (s : State) : (receive e p c b s).env = s.env := by unfold receive; repeat (first | split | simp)
@[simp] theorem receive_trace (e : EnvSlot) (p : Pulse) (c : Ctl) (b : Byte) (s : State) : (receive e p c b s).trace = s.trace := by unfold receive; repeat (first | split | simp)
@[simp] theorem receive_ctrl (e : EnvSlot) (p : Pulse) (c : Ctl) (b : Byte) (s : State) : (receive e p c b s).ctrl = s.ctrl := by unfold receive; repeat (first | split | simp)
@[simp] theorem receive_draws (e : EnvSlot) (p : Pulse) (c : Ctl) (b : Byte) (s : State) : (receive e p c b s).draws = s.draws := by unfold receive; repeat (first | split | simp)
@[simp] theorem receive_pulses (e : EnvSlot) (p : Pulse) (c : Ctl) (b : Byte) (s : State) : (receive e p c b s).pulses = s.pulses := by unfold receive; repeat (first | split | simp)

@[simp] theorem pulseEvent_cfg (e : EnvSlot) (s : State) : (pulseEvent e s).cfg = s.cfg := by simp [pulseEvent]
@[simp] theorem pulseEvent_dout (e : EnvSlot) (s : State) : (pulseEvent e s).dout = s.dout := by simp [pulseEvent]
@[simp] theorem pulseEvent_dir (e : EnvSlot) (s : State) : (pulseEvent e s).dir = s.dir := by simp [pulseEvent]
@[simp] theorem pulseEvent_status (e : EnvSlot) (s : State) : (pulseEvent e s).status = s.status := by simp [pulseEvent]
@[simp] theorem pulseEvent_result (e : EnvSlot) (s : State) : (pulseEvent e s).result = s.result := by simp [pulseEvent]
@[simp] theorem pulseEvent_req (e : EnvSlot) (s : State) : (pulseEvent e s).req = s.req := by simp [pulseEvent]
@[simp] theorem pulseEvent_seq (e : EnvSlot) (s : State) : (pulseEvent e s).seq = s.seq := by simp [pulseEvent]
@[simp] theorem pulseEvent_loc (e : EnvSlot) (s : State) : (pulseEvent e s).loc = s.loc := by simp [pulseEvent]
@[simp] theorem pulseEvent_host (e : EnvSlot) (s : State) : (pulseEvent e s).host = s.host := by simp [pulseEvent]
@[simp] theorem pulseEvent_env (e : EnvSlot) (s : State) : (pulseEvent e s).env = s.env := by simp [pulseEvent]
@[simp] theorem pulseEvent_trace (e : EnvSlot) (s : State) : (pulseEvent e s).trace = s.trace := by simp [pulseEvent]
@[simp] theorem pulseEvent_ctrl (e : EnvSlot) (s : State) : (pulseEvent e s).ctrl = s.ctrl := by simp [pulseEvent]

@[simp] theorem releaseReset_cfg (e : EnvSlot) (c : Ctl) (s : State) : (releaseReset e c s).cfg = s.cfg := by simp [releaseReset]
@[simp] theorem releaseReset_dout (e : EnvSlot) (c : Ctl) (s : State) : (releaseReset e c s).dout = s.dout := by simp [releaseReset]
@[simp] theorem releaseReset_dir (e : EnvSlot) (c : Ctl) (s : State) : (releaseReset e c s).dir = s.dir := by simp [releaseReset]
@[simp] theorem releaseReset_status (e : EnvSlot) (c : Ctl) (s : State) : (releaseReset e c s).status = s.status := by simp [releaseReset]
@[simp] theorem releaseReset_result (e : EnvSlot) (c : Ctl) (s : State) : (releaseReset e c s).result = s.result := by simp [releaseReset]
@[simp] theorem releaseReset_req (e : EnvSlot) (c : Ctl) (s : State) : (releaseReset e c s).req = s.req := by simp [releaseReset]
@[simp] theorem releaseReset_seq (e : EnvSlot) (c : Ctl) (s : State) : (releaseReset e c s).seq = s.seq := by simp [releaseReset]
@[simp] theorem releaseReset_loc (e : EnvSlot) (c : Ctl) (s : State) : (releaseReset e c s).loc = s.loc := by simp [releaseReset]
@[simp] theorem releaseReset_host (e : EnvSlot) (c : Ctl) (s : State) : (releaseReset e c s).host = s.host := by simp [releaseReset]
@[simp] theorem releaseReset_env (e : EnvSlot) (c : Ctl) (s : State) : (releaseReset e c s).env = s.env := by simp [releaseReset]
@[simp] theorem releaseReset_trace (e : EnvSlot) (c : Ctl) (s : State) : (releaseReset e c s).trace = s.trace := by simp [releaseReset]
@[simp] theorem releaseReset_ctrl (e : EnvSlot) (c : Ctl) (s : State) : (releaseReset e c s).ctrl = s.ctrl := by simp [releaseReset]
@[simp] theorem releaseReset_protoFault (e : EnvSlot) (c : Ctl) (s : State) : (releaseReset e c s).protoFault = s.protoFault := by simp [releaseReset]
@[simp] theorem releaseReset_pulses (e : EnvSlot) (c : Ctl) (s : State) : (releaseReset e c s).pulses = s.pulses := by simp [releaseReset]

@[simp] theorem updateCtrl_cfg (e : EnvSlot) (v : Byte) (s : State) : (updateCtrl e v s).cfg = s.cfg := by unfold updateCtrl; dsimp only; split <;> split <;> simp
@[simp] theorem updateCtrl_dout (e : EnvSlot) (v : Byte) (s : State) : (updateCtrl e v s).dout = s.dout := by unfold updateCtrl; dsimp only; split <;> split <;> simp
@[simp] theorem updateCtrl_dir (e : EnvSlot) (v : Byte) (s : State) : (updateCtrl e v s).dir = s.dir := by unfold updateCtrl; dsimp only; split <;> split <;> simp
@[simp] theorem updateCtrl_status (e : EnvSlot) (v : Byte) (s : State) : (updateCtrl e v s).status = s.status := by unfold updateCtrl; dsimp only; split <;> split <;> simp
@[simp] theorem updateCtrl_result (e : EnvSlot) (v : Byte) (s : State) : (updateCtrl e v s).result = s.result := by unfold updateCtrl; dsimp only; split <;> split <;> simp
@[simp] theorem updateCtrl_req (e : EnvSlot) (v : Byte) (s : State) : (updateCtrl e v s).req = s.req := by unfold updateCtrl; dsimp only; split <;> split <;> simp
@[simp] theorem updateCtrl_seq (e : EnvSlot) (v : Byte) (s : State) : (updateCtrl e v s).seq = s.seq := by unfold updateCtrl; dsimp only; split <;> split <;> simp
@[simp] theorem updateCtrl_loc (e : EnvSlot) (v : Byte) (s : State) : (updateCtrl e v s).loc = s.loc := by unfold updateCtrl; dsimp only; split <;> split <;> simp
@[simp] theorem updateCtrl_host (e : EnvSlot) (v : Byte) (s : State) : (updateCtrl e v s).host = s.host := by unfold updateCtrl; dsimp only; split <;> split <;> simp
@[simp] theorem updateCtrl_env (e : EnvSlot) (v : Byte) (s : State) : (updateCtrl e v s).env = s.env := by unfold updateCtrl; dsimp only; split <;> split <;> simp
@[simp] theorem updateCtrl_trace (e : EnvSlot) (v : Byte) (s : State) : (updateCtrl e v s).trace = s.trace := by unfold updateCtrl; dsimp only; split <;> split <;> simp

@[simp] theorem updateCtrl_ctrl (e : EnvSlot) (v : Byte) (s : State) : (updateCtrl e v s).ctrl = v := by
  unfold updateCtrl; dsimp only; split <;> simp

@[simp] theorem pulseEvent_pulses (e : EnvSlot) (s : State) :
    (pulseEvent e s).pulses = s.pulseRecord :: s.pulses := by
  simp [pulseEvent]

end Sys2Proof.Machine
end

