-- ==== Sys2Proof/Laws/Sequencer.lean ====
section
/-! SUPPORT. Runs of the sequencer: what every step of a sequence keeps, every run keeps; sequences that go
through compose; and each step of a sequence in a quiet state, said once. -/

namespace Sys2Proof.Machine

/-- A property of the state a step of a sequence ends in, whichever way it ends. -/
def Flow.holds (P : State → Prop) : Flow → Prop
  | .go s => P s
  | .stop s => P s

/-- One induction for every run: a property that each step of the sequence keeps, and completion keeps, the
whole run keeps. -/
theorem runSeq_keeps {P : State → Prop} {Q : Micro → Prop}
    (hm : ∀ m rest s, Q m → (∀ k ∈ rest, Q k) → P s → (micro m rest s).holds P)
    (hc : ∀ s, P s → P (complete s)) :
    ∀ (prog : List Micro) (s : State), (∀ m ∈ prog, Q m) → P s → P (runSeq prog s)
  | [], s, _, hs => hc s hs
  | m :: rest, s, hq, hs => by
    have h := hm m rest s (hq m (by simp)) (fun k hk => hq k (by simp [hk])) hs
    unfold runSeq
    cases hf : micro m rest s with
    | go s1 =>
      rw [hf] at h
      exact runSeq_keeps hm hc rest s1 (fun k hk => hq k (by simp [hk])) h
    | stop s1 => rw [hf] at h; exact h

/-- Where a primitive leaves the sequencer: the state is as the primitive left it, but for the sequencer's place and, after a
poll, the count. -/
theorem advance_keeps {P : State → Prop} (hseq : ∀ u q, P u → P { u with seq := q }) {rest : List Micro} {s : State}
    (hp : ∀ after, rest = .test :: after → P (countPoll s)) (h : P s) : P (advance rest s) := by
  unfold advance
  split
  · split
    · split
      · exact hseq _ _ h
      · exact hseq _ _ (hp _ rfl)
    · exact hseq _ _ (hp _ rfl)
  · exact hseq _ _ h

/-- The same for one engine step (R20). -/
theorem engineMove_keeps {P : State → Prop} {Q : Micro → Prop}
    (hm : ∀ m rest s, Q m → (∀ k ∈ rest, Q k) → P s → (micro m rest s).holds P)
    (hc : ∀ s, P s → P (complete s)) (ha : ∀ rest s, (∀ k ∈ rest, Q k) → P s → P (advance rest s)) :
    ∀ (prog : List Micro) (s : State), (∀ m ∈ prog, Q m) → P s → P (engineMove prog s)
  | [], s, _, hs => hc s hs
  | m :: rest, s, hq, hs => by
    have hr : ∀ k ∈ rest, Q k := fun k hk => hq k (by simp [hk])
    have h := hm m rest s (hq m (by simp)) hr hs
    unfold engineMove
    cases hf : micro m rest s with
    | go s1 =>
      rw [hf] at h
      dsimp only
      split
      · exact ha rest s1 hr h
      · exact engineMove_keeps hm hc ha rest s1 hr h
    | stop s1 => rw [hf] at h; exact h

/-- The state after a sequence every step of which goes on. -/
def runGo : List Micro → State → Option State
  | [], s => some s
  | m :: rest, s =>
    match micro m [] s with
    | .go s1 => runGo rest s1
    | .stop _ => none

theorem primitive_go {p : EnvSlot → State → State} {r r' : List Micro} {s t : State}
    (h : primitive p r s = .go t) : primitive p r' s = .go t := by
  unfold primitive at h ⊢
  dsimp only at h ⊢
  split at h
  · cases h
  · rename_i h1
    rw [if_neg h1]
    split at h
    · cases h
    · rename_i h2
      rw [if_neg h2]
      exact h

/-- A step that goes on does the same whatever stands after it. -/
theorem micro_go {m : Micro} {r r' : List Micro} {s t : State} (h : micro m r s = .go t) :
    micro m r' s = .go t := by
  cases m
  case test =>
    simp only [micro, pollTest] at h ⊢
    split at h
    · split at h
      · unfold failWait at h; split at h <;> cases h
      · cases h
    · rename_i h1; rw [if_neg h1]; exact h
  all_goals first
    | exact primitive_go h
    | exact h

/-- A part that goes through is followed by the rest. -/
theorem runSeq_append {a b : List Micro} {s t : State} (h : runGo a s = some t) :
    runSeq (a ++ b) s = runSeq b t := by
  induction a generalizing s with
  | nil => simp only [runGo, Option.some.injEq] at h; subst h; rfl
  | cons m rest ih =>
    unfold runGo at h
    cases hf : micro m [] s with
    | stop s1 => rw [hf] at h; cases h
    | go s1 =>
      rw [hf] at h
      simp only [List.cons_append, runSeq, micro_go hf]
      exact ih h

theorem runGo_append {a b : List Micro} {s t : State} (h : runGo a s = some t) :
    runGo (a ++ b) s = runGo b t := by
  induction a generalizing s with
  | nil => simp only [runGo, Option.some.injEq] at h; subst h; rfl
  | cons m rest ih =>
    unfold runGo at h
    cases hf : micro m [] s with
    | stop s1 => rw [hf] at h; cases h
    | go s1 =>
      rw [hf] at h
      simp only [List.cons_append, runGo, hf]
      exact ih h

/-- A whole sequence that goes through completes. -/
theorem runSeq_of_runGo {a : List Micro} {s t : State} (h : runGo a s = some t) : runSeq a s = complete t := by
  have := runSeq_append (b := []) h
  simpa [runSeq] using this

/-! ## Quiet states -/

/-- Nothing outside interferes: no protocol fault, a calm environment, both controllers ready. -/
structure Quiet (s : State) : Prop where
  wf : s.cfg.wf = true
  fault : s.protoFault = none
  calm : s.calm = true
  ready1 : s.c1.busy = false
  ready2 : s.c2.busy = false

theorem Quiet.of_undisturbed {s : State} (h : s.undisturbed) : Quiet s := by
  obtain ⟨h1, h2, h3, h4⟩ := h
  simp only [State.allReady, Bool.and_eq_true, Bool.not_eq_true'] at h4
  exact ⟨h1, h2, h3, h4.1, h4.2⟩

theorem readyStep_ready {s : State} {c : Ctl} (h : (s.ctl c).busy = false) : readyStep c s = s := by
  cases c
  · simp only [readyStep, setCtl_one, ctl_one] at h ⊢
    cases s; rename_i c1 c2 _ _ _ _ _ _ _; cases c1; simp_all
  · simp only [readyStep, setCtl_two, ctl_two] at h ⊢
    cases s; rename_i c1 c2 _ _ _ _ _ _ _; cases c2; simp_all

theorem envMoves_ready {s : State} (e : EnvSlot) (h1 : s.c1.busy = false) (h2 : s.c2.busy = false) :
    envMoves e s = s := by
  have r1 : readyStep .one s = s := readyStep_ready (by simpa using h1)
  have r2 : readyStep .two s = s := readyStep_ready (by simpa using h2)
  unfold envMoves
  rw [r1]
  simp [r2]

theorem calm_head {s : State} (h : s.calm = true) :
    s.slot.reset = false ∧ s.slot.busy1 = false ∧ s.slot.busy2 = false := by
  unfold State.calm at h
  unfold State.slot
  cases he : s.env with
  | nil => simp
  | cons e rest => rw [he] at h; simp at h; simp [h.1]

theorem calm_tail {s : State} (h : s.calm = true) : (s.env.tail).all (fun e => !e.reset && !e.busy1 && !e.busy2) = true := by
  unfold State.calm at h
  cases he : s.env with
  | nil => simp
  | cons e rest => rw [he] at h; simp only [List.all_cons, Bool.and_eq_true] at h; simpa using h.2

/-- A controller that is ready, in a calm slot, meets a pulse event. -/
def deliver (p : Pulse) (c : Ctl) (b : Byte) (s : State) : State :=
  if p.selects c && p.rst then actOn p.kind c b s else s

theorem receive_quiet {e : EnvSlot} {p : Pulse} {c : Ctl} {b : Byte} {s : State}
    (hb : (s.ctl c).busy = false) (he : e.busyOf c = false) : receive e p c b s = deliver p c b s := by
  unfold receive deliver
  cases h1 : p.selects c <;> cases h2 : p.rst <;> simp [hb, mayGoBusy, he]
  intro hk; simp [hk, actOn]

theorem actOn_busy (k : PulseKind) (c d : Ctl) (b : Byte) (s : State) :
    ((actOn k c b s).ctl d).busy = (s.ctl d).busy := by
  cases k <;> cases c <;> cases d <;>
    simp [actOn, commandWrite, dataWrite, dataRead, commandEffect] <;> (repeat' split) <;> rfl

theorem deliver_busy (p : Pulse) (c d : Ctl) (b : Byte) (s : State) :
    ((deliver p c b s).ctl d).busy = (s.ctl d).busy := by
  unfold deliver; split
  · exact actOn_busy ..
  · rfl

/-- A pulse event in a quiet state: recorded, then each controller acts. -/
def quietPulse (e : EnvSlot) (s : State) : State :=
  deliver s.pulseRecord .two (s.pulseRecord.busByte (e.busByte2 (s.draws + 1)))
    (deliver s.pulseRecord .one (s.pulseRecord.busByte (e.busByte s.draws))
      { s with pulses := s.pulseRecord :: s.pulses, draws := s.draws + 2 })

theorem pulseEvent_quiet {e : EnvSlot} {s : State} (h1 : s.c1.busy = false) (h2 : s.c2.busy = false)
    (e1 : e.busy1 = false) (e2 : e.busy2 = false) : pulseEvent e s = quietPulse e s := by
  unfold pulseEvent quietPulse
  dsimp only
  rw [receive_quiet (c := .one) (by simpa using h1) (by simpa [EnvSlot.busyOf] using e1)]
  rw [receive_quiet (c := .two) (by rw [deliver_busy]; simpa using h2) (by simpa [EnvSlot.busyOf] using e2)]

end Sys2Proof.Machine
end

