-- ==== Sys2Proof/Laws/Steps.lean ====
section
/-! SUPPORT. One primitive in any environment without an EngineReset: the state it acts on, what it does to the
lines, and what a pulse event does in it, kind by kind (R10, R20, R58 to R63, R71). -/

namespace Sys2Proof.Machine

/-! ## The state a primitive acts on -/

/-- The state a primitive acts on: its slot used up, the environment's `Ready` moves taken (R20, R63). -/
def State.arrive (s : State) : State := envMoves s.slot { s with env := s.env.tail }

@[simp] theorem arrive_cfg (s : State) : s.arrive.cfg = s.cfg := by simp [State.arrive]
@[simp] theorem arrive_ctrl (s : State) : s.arrive.ctrl = s.ctrl := by simp [State.arrive]
@[simp] theorem arrive_dout (s : State) : s.arrive.dout = s.dout := by simp [State.arrive]
@[simp] theorem arrive_dir (s : State) : s.arrive.dir = s.dir := by simp [State.arrive]
@[simp] theorem arrive_status (s : State) : s.arrive.status = s.status := by simp [State.arrive]
@[simp] theorem arrive_result (s : State) : s.arrive.result = s.result := by simp [State.arrive]
@[simp] theorem arrive_req (s : State) : s.arrive.req = s.req := by simp [State.arrive]
@[simp] theorem arrive_seq (s : State) : s.arrive.seq = s.seq := by simp [State.arrive]
@[simp] theorem arrive_loc (s : State) : s.arrive.loc = s.loc := by simp [State.arrive]
@[simp] theorem arrive_host (s : State) : s.arrive.host = s.host := by simp [State.arrive]
@[simp] theorem arrive_env (s : State) : s.arrive.env = s.env.tail := by simp [State.arrive]
@[simp] theorem arrive_trace (s : State) : s.arrive.trace = s.trace := by simp [State.arrive]
@[simp] theorem arrive_mem (s : State) : s.arrive.mem = s.mem := by simp [State.arrive]
@[simp] theorem arrive_protoFault (s : State) : s.arrive.protoFault = s.protoFault := by simp [State.arrive]
@[simp] theorem arrive_draws (s : State) : s.arrive.draws = s.draws := by simp [State.arrive]
@[simp] theorem arrive_pulses (s : State) : s.arrive.pulses = s.pulses := by simp [State.arrive]

@[simp] theorem arrive_flagCS1 (s : State) : s.arrive.flagCS1 = s.flagCS1 := by simp [State.flagCS1]
@[simp] theorem arrive_flagCS2 (s : State) : s.arrive.flagCS2 = s.flagCS2 := by simp [State.flagCS2]
@[simp] theorem arrive_flagRST (s : State) : s.arrive.flagRST = s.flagRST := by simp [State.flagRST]
@[simp] theorem arrive_flagRS (s : State) : s.arrive.flagRS = s.flagRS := by simp [State.flagRS]
@[simp] theorem arrive_flagRW (s : State) : s.arrive.flagRW = s.flagRW := by simp [State.flagRW]
@[simp] theorem arrive_flagE (s : State) : s.arrive.flagE = s.flagE := by simp [State.flagE]
@[simp] theorem arrive_pulseRecord (s : State) : s.arrive.pulseRecord = s.pulseRecord := by
  simp [State.pulseRecord]

theorem readyStep_ctl (c k : Ctl) (s : State) :
    (readyStep c s).ctl k = if k = c then { s.ctl k with busy := false } else s.ctl k := by
  cases c <;> cases k <;> rfl

/-- The environment's moves touch the busy flags only (R63). -/
theorem envMoves_ctl (e : EnvSlot) (s : State) (k : Ctl) :
    (envMoves e s).ctl k = { s.ctl k with busy := (s.ctl k).busy && !e.readyOf k } := by
  unfold envMoves EnvSlot.readyOf
  cases e.ready1 <;> cases e.ready2 <;> cases k <;> simp [readyStep_ctl] <;> rfl

theorem arrive_ctl (s : State) (k : Ctl) :
    s.arrive.ctl k = { s.ctl k with busy := (s.ctl k).busy && !s.slot.readyOf k } := by
  rw [State.arrive, envMoves_ctl]; cases k <;> rfl

@[simp] theorem arrive_ram (s : State) (k : Ctl) (p : BitVec 3) (l : BitVec 6) :
    s.arrive.ramByte k p l = s.ramByte k p l := by
  unfold State.ramByte
  rw [arrive_mem, arrive_ctl]

/-- A primitive that meets no EngineReset and no protocol fault. -/
theorem primitive_arrive {s : State} {p : EnvSlot → State → State} {rest : List Micro} (h : s.noResetNow = true)
    (hf : (p s.slot s.arrive).protoFault = none) : primitive p rest s = .go (p s.slot s.arrive) := by
  unfold primitive
  simp only [State.noResetNow, Bool.not_eq_true'] at h
  simp only [State.arrive] at hf
  simp [h, hf, State.arrive]

/-- A primitive that ends in the protocol-fault state (R71, U5). -/
theorem primitive_fault {s : State} {p : EnvSlot → State → State} {rest : List Micro} (h : s.noResetNow = true)
    (hf : (p s.slot s.arrive).protoFault.isSome = true) :
    primitive p rest s = .stop { p s.slot s.arrive with seq := rest } := by
  unfold primitive
  simp only [State.noResetNow, Bool.not_eq_true'] at h
  simp only [State.arrive] at hf
  simp [h, hf, State.arrive]

/-- A primitive struck by an EngineReset (R270). -/
theorem primitive_reset {s : State} {p : EnvSlot → State → State} {rest : List Micro} (h : s.slot.reset = true) :
    primitive p rest s = .stop (engineReset s.slot s.arrive) := by
  unfold primitive
  simp [h, State.arrive]

/-! ## Updates of CTRL -/

/-- Neither does E fall nor RST rise. -/
theorem updateCtrl_quiet {e : EnvSlot} {v : Byte} {s : State} (hE : (s.flagE && !flagIn v s.cfg.mE) = false)
    (hR : (!s.flagRST && flagIn v s.cfg.mRST) = false) : updateCtrl e v s = { s with ctrl := v } := by
  unfold updateCtrl; simp [hE, hR]

/-- E falls. -/
theorem updateCtrl_falls {e : EnvSlot} {v : Byte} {s : State} (hE : (s.flagE && !flagIn v s.cfg.mE) = true)
    (hR : (!s.flagRST && flagIn v s.cfg.mRST) = false) :
    updateCtrl e v s = { pulseEvent e s with ctrl := v } := by
  unfold updateCtrl; simp [hE, hR]

/-- RST rises. -/
theorem updateCtrl_releases {e : EnvSlot} {v : Byte} {s : State} (hE : (s.flagE && !flagIn v s.cfg.mE) = false)
    (hR : (!s.flagRST && flagIn v s.cfg.mRST) = true) :
    updateCtrl e v s = releaseReset e .two (releaseReset e .one { s with ctrl := v }) := by
  unfold updateCtrl; simp [hE, hR]

theorem set_keeps_E (s : State) (m : Byte) : (s.flagE && !flagIn (s.ctrl ||| m) s.cfg.mE) = false := by
  rw [flagIn_or]; show (s.flagE && !(s.flagE || _)) = false; cases s.flagE <;> simp

theorem clear_keeps_RST (s : State) (w : s.cfg.wf = true) (m : Byte) :
    (!s.flagRST && flagIn (s.ctrl &&& ~~~m) s.cfg.mRST) = false := by
  rw [flagIn_and_not _ _ (Config.wf_oneHot_mRST w)]
  show (!s.flagRST && (s.flagRST && _)) = false
  cases s.flagRST <;> simp

theorem clear_falls (s : State) (w : s.cfg.wf = true) (m : Byte) :
    (s.flagE && !flagIn (s.ctrl &&& ~~~m) s.cfg.mE) = (s.flagE && flagIn m s.cfg.mE) := by
  rw [flagIn_and_not _ _ (Config.wf_oneHot_mE w)]
  show (s.flagE && !(s.flagE && _)) = _
  cases s.flagE <;> simp

theorem zero_keeps_RST (s : State) : (!s.flagRST && flagIn 0x00 s.cfg.mRST) = false := by
  simp [flagIn_zero]

/-! ## Pulse events, in any environment -/

/-- A controller that does not receive the event, or a status read (R58, R63, R72). -/
theorem receive_ignored {e : EnvSlot} {p : Pulse} {k : Ctl} {b : Byte} {s : State}
    (h : p.selects k = false ∨ p.rst = false ∨ p.kind = .statusRead) : receive e p k b s = s := by
  unfold receive
  rcases h with h | h | h
  · simp [h]
  · simp [h]
  · by_cases h' : (!(p.selects k) || !p.rst) = true
    · rw [if_pos h']
    · rw [if_neg h', if_pos h]

/-- A ready controller that receives the event acts on it, and may become busy (R60 to R63). -/
theorem receive_ready {e : EnvSlot} {p : Pulse} {k : Ctl} {b : Byte} {s : State} (hs : p.selects k = true)
    (hr : p.rst = true) (hk : p.kind ≠ .statusRead) (hb : (s.ctl k).busy = false) :
    receive e p k b s = mayGoBusy e k (actOn p.kind k b s) := by
  unfold receive; simp [hs, hr, hk, hb]

/-- A busy controller that receives the event (R71). -/
theorem receive_busy {e : EnvSlot} {p : Pulse} {k : Ctl} {b : Byte} {s : State} (hs : p.selects k = true)
    (hr : p.rst = true) (hk : p.kind ≠ .statusRead) (hb : (s.ctl k).busy = true) :
    receive e p k b s = protocolFault k p.kind s := by
  unfold receive; simp [hs, hr, hk, hb]

theorem mayGoBusy_ctl (e : EnvSlot) (c k : Ctl) (s : State) :
    (mayGoBusy e c s).ctl k = if k = c then { s.ctl k with busy := (s.ctl k).busy || e.busyOf c } else s.ctl k := by
  unfold mayGoBusy
  cases c <;> cases k <;> split <;> simp_all [EnvSlot.busyOf]

@[simp] theorem mayGoBusy_ram (e : EnvSlot) (c k : Ctl) (s : State) (p : BitVec 3) (l : BitVec 6) :
    (mayGoBusy e c s).ramByte k p l = s.ramByte k p l := by
  unfold State.ramByte
  rw [mayGoBusy_ctl]
  have : (mayGoBusy e c s).mem = s.mem := by unfold mayGoBusy; split <;> simp
  rw [this]
  split <;> rfl

/-- What controller k holds after it acted on an event (R60 to R63). -/
def pulsedCtl (c : Config) (k : PulseKind) (b ram : Byte) (x : Controller) : Controller :=
  match k with
  | .commandWrite => commandEffect c b x
  | .dataWrite => { x with ya := x.ya + 1 }
  | .statusRead => x
  | .dataRead => { x with ol := ram, ya := x.ya + 1 }

theorem actOn_ctl (k : PulseKind) (c j : Ctl) (b : Byte) (s : State) : (actOn k c b s).ctl j =
    if j = c then pulsedCtl s.cfg k b (s.ramByte c (s.ctl c).xp (s.ctl c).ya) (s.ctl c) else s.ctl j := by
  cases k <;> cases c <;> cases j <;> rfl

theorem commandEffect_epoch (c : Config) (b : Byte) (x : Controller) : (commandEffect c b x).epoch = x.epoch := by
  unfold commandEffect; (repeat' split) <;> rfl

theorem commandEffect_busy (c : Config) (b : Byte) (x : Controller) : (commandEffect c b x).busy = x.busy := by
  unfold commandEffect; (repeat' split) <;> rfl

theorem pulsedCtl_epoch (c : Config) (k : PulseKind) (b r : Byte) (x : Controller) :
    (pulsedCtl c k b r x).epoch = x.epoch := by
  cases k <;> simp [pulsedCtl, commandEffect_epoch]

theorem pulsedCtl_busy (c : Config) (k : PulseKind) (b r : Byte) (x : Controller) :
    (pulsedCtl c k b r x).busy = x.busy := by
  cases k <;> simp [pulsedCtl, commandEffect_busy]

/-- Only a data write changes display memory, and only the byte at the controller's position (R52, R61). -/
theorem actOn_ram (k : PulseKind) (c j : Ctl) (b : Byte) (s : State) (p : BitVec 3) (l : BitVec 6) :
    (actOn k c b s).ramByte j p l =
      if k = .dataWrite ∧ j = c ∧ p = (s.ctl c).xp ∧ l = (s.ctl c).ya then b else s.ramByte j p l := by
  have he : ((actOn k c b s).ctl j).epoch = (s.ctl j).epoch := by
    rw [actOn_ctl]; split
    · rename_i h; subst h; exact pulsedCtl_epoch ..
    · rfl
  cases k
  case dataWrite =>
    have hm : (actOn .dataWrite c b s).mem = Memory.write s.mem (ramAddr c (s.ctl c).xp (s.ctl c).ya) b := by
      cases c <;> rfl
    have := ramByte_ramWrite s c j (s.ctl c).xp p (s.ctl c).ya l b
    unfold State.ramByte at this ⊢
    rw [he, hm]
    have e2 : ((s.ramWrite c (s.ctl c).xp (s.ctl c).ya b).ctl j) = s.ctl j := by cases j <;> rfl
    rw [e2] at this
    simpa [eq_comm] using this
  case commandWrite =>
    have hm : (actOn .commandWrite c b s).mem = s.mem := by cases c <;> rfl
    simp [State.ramByte, he, hm]
  case statusRead => simp [actOn]
  case dataRead =>
    have hm : (actOn .dataRead c b s).mem = s.mem := by cases c <;> rfl
    simp [State.ramByte, he, hm]

/-! What each controller makes of a pulse event, controllers ready. -/

/-- Controller k, out of reset and selected, has the event to act on (R58). -/
def Pulse.reaches (p : Pulse) (k : Ctl) : Bool := p.selects k && p.rst && p.kind != .statusRead

theorem receive_cfg' (e : EnvSlot) (p : Pulse) (k : Ctl) (b : Byte) (s : State) : (receive e p k b s).cfg = s.cfg := by
  unfold receive
  split
  · rfl
  split
  · rfl
  split
  · rfl
  · unfold mayGoBusy; split <;> simp

theorem receive_ctl {e : EnvSlot} {p : Pulse} {k : Ctl} {b : Byte} {s : State}
    (hb : p.reaches k = true → (s.ctl k).busy = false) (j : Ctl) :
    (receive e p k b s).ctl j = if j = k ∧ p.reaches k = true then
      { pulsedCtl s.cfg p.kind b (s.ramByte k (s.ctl k).xp (s.ctl k).ya) (s.ctl k) with busy := e.busyOf k }
      else s.ctl j := by
  cases h : p.reaches k
  · have hi : receive e p k b s = s := by
      refine receive_ignored ?_
      simp only [Pulse.reaches, Bool.and_eq_false_iff, bne_eq_false_iff_eq] at h
      rcases h with (h | h) | h
      · exact Or.inl h
      · exact Or.inr (Or.inl h)
      · exact Or.inr (Or.inr h)
    rw [hi]; simp
  · have hb' := hb h
    simp only [Pulse.reaches, Bool.and_eq_true, bne_iff_ne, ne_eq] at h
    rw [receive_ready h.1.1 h.1.2 h.2 hb', mayGoBusy_ctl, actOn_ctl]
    by_cases hj : j = k
    · simp [hj, pulsedCtl_busy, hb']
    · simp [hj, actOn_ctl]

theorem receive_ram {e : EnvSlot} {p : Pulse} {k : Ctl} {b : Byte} {s : State}
    (hb : p.reaches k = true → (s.ctl k).busy = false) (j : Ctl) (q : BitVec 3) (l : BitVec 6) :
    (receive e p k b s).ramByte j q l =
      if p.reaches k = true ∧ p.kind = .dataWrite ∧ j = k ∧ q = (s.ctl k).xp ∧ l = (s.ctl k).ya then b
      else s.ramByte j q l := by
  cases h : p.reaches k
  · have hi : receive e p k b s = s := by
      refine receive_ignored ?_
      simp only [Pulse.reaches, Bool.and_eq_false_iff, bne_eq_false_iff_eq] at h
      rcases h with (h | h) | h
      · exact Or.inl h
      · exact Or.inr (Or.inl h)
      · exact Or.inr (Or.inr h)
    rw [hi]; simp
  · have hb' := hb h
    simp only [Pulse.reaches, Bool.and_eq_true, bne_iff_ne, ne_eq] at h
    rw [receive_ready h.1.1 h.1.2 h.2 hb', mayGoBusy_ram, actOn_ram]
    simp

theorem receive_noFault {e : EnvSlot} {p : Pulse} {k : Ctl} {b : Byte} {s : State}
    (hb : p.reaches k = true → (s.ctl k).busy = false) : (receive e p k b s).protoFault = s.protoFault := by
  cases h : p.reaches k
  · have hi : receive e p k b s = s := by
      refine receive_ignored ?_
      simp only [Pulse.reaches, Bool.and_eq_false_iff, bne_eq_false_iff_eq] at h
      rcases h with (h | h) | h
      · exact Or.inl h
      · exact Or.inr (Or.inl h)
      · exact Or.inr (Or.inr h)
    rw [hi]
  · have hb' := hb h
    simp only [Pulse.reaches, Bool.and_eq_true, bne_iff_ne, ne_eq] at h
    rw [receive_ready h.1.1 h.1.2 h.2 hb']
    simp

/-- The bytes the two controllers find on the bus at a pulse event (R58, U7). -/
def State.pulseByte (s : State) (e : EnvSlot) : Ctl → Byte
  | .one => s.pulseRecord.busByte (e.busByte s.draws)
  | .two => s.pulseRecord.busByte (e.busByte2 (s.draws + 1))

theorem pulseByte_output {s : State} (e : EnvSlot) (h : s.dir = .output) (k : Ctl) : s.pulseByte e k = s.dout := by
  cases k <;> simp [State.pulseByte, State.pulseRecord, Pulse.busByte, h]

/-- A pulse event that reaches ready controllers only (R58 to R63): what each holds after it, display memory, and no
protocol fault. -/
theorem pulseEvent_effect {e : EnvSlot} {s : State} (hb : ∀ k, s.pulseRecord.reaches k = true → (s.ctl k).busy = false) :
    (∀ k, (pulseEvent e s).ctl k = if s.pulseRecord.reaches k = true then
      { pulsedCtl s.cfg s.pulseRecord.kind (s.pulseByte e k) (s.ramByte k (s.ctl k).xp (s.ctl k).ya) (s.ctl k) with
        busy := e.busyOf k } else s.ctl k) ∧
    (∀ k q l, (pulseEvent e s).ramByte k q l =
      if s.pulseRecord.reaches k = true ∧ s.pulseRecord.kind = .dataWrite ∧ q = (s.ctl k).xp ∧ l = (s.ctl k).ya then
        s.pulseByte e k else s.ramByte k q l) ∧
    (pulseEvent e s).protoFault = s.protoFault := by
  let s0 : State := { s with pulses := s.pulseRecord :: s.pulses, draws := s.draws + 2 }
  let s1 := receive e s.pulseRecord .one (s.pulseByte e .one) s0
  have hp : pulseEvent e s = receive e s.pulseRecord .two (s.pulseByte e .two) s1 := rfl
  have b1 : s.pulseRecord.reaches .one = true → (s0.ctl .one).busy = false := hb .one
  have c1 := receive_ctl (e := e) (b := s.pulseByte e .one) b1
  have m1 := receive_ram (e := e) (b := s.pulseByte e .one) b1
  have f1 := receive_noFault (e := e) (b := s.pulseByte e .one) b1
  have c12 : s1.ctl .two = s.ctl .two := (c1 .two).trans (by simp; rfl)
  have b2 : s.pulseRecord.reaches .two = true → (s1.ctl .two).busy = false := by rw [c12]; exact hb .two
  have c2 := receive_ctl (e := e) (b := s.pulseByte e .two) b2
  have m2 := receive_ram (e := e) (b := s.pulseByte e .two) b2
  have f2 := receive_noFault (e := e) (b := s.pulseByte e .two) b2
  have g1 : s1.cfg = s.cfg := receive_cfg' ..
  rw [hp]
  refine ⟨fun k => ?_, fun k q l => ?_, f2.trans f1⟩
  · rw [c2]
    cases k
    · simp only [reduceCtorEq, false_and, if_false]
      rw [c1]
      simp only [true_and]
      rfl
    · simp only [true_and]
      rw [c12, g1]
      have : s1.ramByte .two (s.ctl .two).xp (s.ctl .two).ya = s.ramByte .two (s.ctl .two).xp (s.ctl .two).ya :=
        (m1 .two _ _).trans (by simp; rfl)
      rw [this]
  · rw [m2, m1]
    cases k
    · simp only [reduceCtorEq, false_and, and_false, if_false, true_and]
      rfl
    · simp only [reduceCtorEq, false_and, and_false, if_false, true_and, c12]
      rfl

end Sys2Proof.Machine
end

