-- ==== Sys2Proof/Laws/Single.lean ====
section
/-! SUPPORT. Operations of one primitive (SETC, CLRC, CFGWR, SEL), in any environment without an EngineReset: what
runs, what completion leaves, and everything a `CtrlClear` can do (R10, R37, R58, R121). -/

namespace Sys2Proof.Machine

theorem runSeq_single {m : Micro} {s u : State} (h : micro m [] s = .go u) : runSeq [m] s = complete u := by
  simp [runSeq, h]

theorem statusIdle_busy (v : Byte) : statusIdle (statusBusy v) = statusIdle v := by
  simp only [statusIdle, statusBusy]
  revert v; decide

/-- An operation of one primitive: it runs, and completes. -/
theorem exec_single {i : Instr} {m : Micro} {p : EnvSlot → State → State} {s t : State}
    (hx : exec i s = .next (runOp i [m] s)) (hm : ∀ u, micro m [] u = primitive p [] u) (n : s.noResetNow = true)
    (ht : p s.slot (accept i s).arrive = t) (hf : t.protoFault = none) : exec i s = .next (complete t) := by
  subst ht
  rw [hx]
  have hg : micro m [] (accept i s) = .go (p s.slot (accept i s).arrive) := by
    rw [hm]; exact primitive_arrive (s := accept i s) n hf
  exact congrArg _ (runSeq_single hg)

theorem sameButReady_of {s t : State} (h : ∀ k, (t.ctl k).busy = true → (s.ctl k).busy = true)
    (h' : ∀ k, t.ctl k = { s.ctl k with busy := (t.ctl k).busy }) : sameButReady s t := fun k => ⟨h' k, h k⟩

theorem sameButReady_arrive {s t : State}
    (h : ∀ k, t.ctl k = { s.ctl k with busy := (s.ctl k).busy && !s.slot.readyOf k }) : sameButReady s t :=
  sameButReady_of (fun k hb => by rw [h k] at hb; exact (Bool.and_eq_true _ _ ▸ hb).1) fun k => by rw [h k]

theorem ctl_accept (i : Instr) (s : State) (k : Ctl) : (accept i s).ctl k = s.ctl k := by cases k <;> rfl
theorem ctl_complete (s : State) (k : Ctl) : (complete s).ctl k = s.ctl k := by cases k <;> rfl
theorem ctl_record (p : Prim) (s : State) (k : Ctl) : (record p s).ctl k = s.ctl k := by cases k <;> rfl
theorem ctl_withCtrl (v : State) (x : Byte) (c : Ctl) : ({ v with ctrl := x } : State).ctl c = v.ctl c := by
  cases c <;> rfl
theorem ram_accept (i : Instr) (s : State) (k : Ctl) (p : BitVec 3) (l : BitVec 6) :
    (accept i s).ramByte k p l = s.ramByte k p l := by cases k <;> rfl
theorem ram_complete (s : State) (k : Ctl) (p : BitVec 3) (l : BitVec 6) :
    (complete s).ramByte k p l = s.ramByte k p l := by cases k <;> rfl
theorem ram_record (q : Prim) (s : State) (k : Ctl) (p : BitVec 3) (l : BitVec 6) :
    (record q s).ramByte k p l = s.ramByte k p l := by cases k <;> rfl
theorem ram_withCtrl (v : State) (x : Byte) (c : Ctl) (p : BitVec 3) (l : BitVec 6) :
    ({ v with ctrl := x } : State).ramByte c p l = v.ramByte c p l := by cases c <;> rfl

/-- What a `CtrlClear` leaves as it was, and what it writes, E falling or not, where no busy controller receives the
pulse event (R58, R121). -/
structure Cleared (e : EnvSlot) (m : Byte) (s t : State) : Prop where
  cfg : t.cfg = s.cfg
  dout : t.dout = s.dout
  dir : t.dir = s.dir
  status : t.status = s.status
  result : t.result = s.result
  req : t.req = s.req
  seq : t.seq = s.seq
  loc : t.loc = s.loc
  host : t.host = s.host
  env : t.env = s.env
  fault : t.protoFault = s.protoFault
  ctrl : t.ctrl = s.ctrl &&& ~~~m
  trace : t.trace = .ctrlClear m :: s.trace
  pulses : t.pulses = if s.flagE && flagIn m s.cfg.mE then s.pulseRecord :: s.pulses else s.pulses
  ctl : ∀ k, t.ctl k = if (s.flagE && flagIn m s.cfg.mE && s.pulseRecord.reaches k) = true then
      { pulsedCtl s.cfg s.pulseRecord.kind (s.pulseByte e k) (s.ramByte k (s.ctl k).xp (s.ctl k).ya) (s.ctl k) with
        busy := e.busyOf k } else s.ctl k
  ram : ∀ k q l, t.ramByte k q l = if (s.flagE && flagIn m s.cfg.mE && s.pulseRecord.reaches k) = true ∧
      s.pulseRecord.kind = .dataWrite ∧ q = (s.ctl k).xp ∧ l = (s.ctl k).ya then s.pulseByte e k else s.ramByte k q l

theorem ctrlClear_effect {e : EnvSlot} {m : Byte} {s : State} (w : s.cfg.wf = true)
    (hb : (s.flagE && flagIn m s.cfg.mE) = true → ∀ k, s.pulseRecord.reaches k = true → (s.ctl k).busy = false) :
    Cleared e m s (ctrlClear m e s) := by
  have hR := clear_keeps_RST s w m
  have hF := clear_falls s w m
  unfold ctrlClear
  cases hc : (s.flagE && flagIn m s.cfg.mE)
  · rw [updateCtrl_quiet (hF.trans hc) hR]
    constructor <;> try rfl
    · simp [hc]
    · intro k; rw [ctl_record, ctl_withCtrl]; simp [hc]
    · intro k q l; rw [ram_record, ram_withCtrl]; simp [hc]
  · obtain ⟨h1, h2, h3⟩ := pulseEvent_effect (e := e) (hb hc)
    rw [updateCtrl_falls (hF.trans hc) hR]
    constructor <;> try (simp [record]; done)
    · simpa [record] using h3
    · simp [hc, record]
    · intro k; rw [ctl_record, ctl_withCtrl, h1]; simp [hc]
    · intro k q l; rw [ram_record, ram_withCtrl, h2]; simp [hc]

end Sys2Proof.Machine
end

