-- ==== Sys2Proof/Laws/Polls.lean ====
section
/-! SUPPORT. The primitives of a ready-wait in any environment without an EngineReset: what each leaves, and the five
primitives of CFGRD and of one poll as wholes (R122, R150). -/

namespace Sys2Proof.Machine

/-- Between `s` and `t` nothing has moved but the lines, DIR, SMP, POLLS, the records, and busy flags by `Ready`. -/
structure Kept (s t : State) : Prop where
  cfg : t.cfg = s.cfg
  dout : t.dout = s.dout
  status : t.status = s.status
  result : t.result = s.result
  req : t.req = s.req
  seq : t.seq = s.seq
  host : t.host = s.host
  fault : t.protoFault = s.protoFault
  ctl : ∀ k, t.ctl k = { s.ctl k with busy := (t.ctl k).busy }
  ready : ∀ k, (t.ctl k).busy = true → (s.ctl k).busy = true
  busy : ∀ k, s.stuck k = true → (t.ctl k).busy = (s.ctl k).busy
  ram : sameRam s t
  noReset : s.noReset = true → t.noReset = true
  stuck : ∀ k, s.stuck k = true → t.stuck k = true

theorem Kept.refl (s : State) : Kept s s :=
  ⟨rfl, rfl, rfl, rfl, rfl, rfl, rfl, rfl, fun _ => rfl, fun _ h => h, fun _ _ => rfl, fun _ _ _ => rfl, id, fun _ => id⟩

theorem Kept.trans {s t u : State} (h : Kept s t) (k : Kept t u) : Kept s u where
  cfg := k.cfg.trans h.cfg
  dout := k.dout.trans h.dout
  status := k.status.trans h.status
  result := k.result.trans h.result
  req := k.req.trans h.req
  seq := k.seq.trans h.seq
  host := k.host.trans h.host
  fault := k.fault.trans h.fault
  ctl j := by rw [k.ctl j, h.ctl j]
  ready j hb := h.ready j (k.ready j hb)
  busy j hs := (k.busy j (h.stuck j hs)).trans (h.busy j hs)
  ram c p l := (k.ram c p l).trans (h.ram c p l)
  noReset hn := k.noReset (h.noReset hn)
  stuck j hs := k.stuck j (h.stuck j hs)

theorem Kept.sameButReady {s t : State} (h : Kept s t) : sameButReady s t := sameButReady_of h.ready h.ctl

/-- A property of every slot to come holds of the next slot, and of those after it. -/
theorem all_slots {p : EnvSlot → Bool} (hd : p {} = true) {s : State} (h : s.env.all p = true) :
    p s.slot = true ∧ s.env.tail.all p = true := by
  unfold State.slot
  cases he : s.env with
  | nil => simpa using hd
  | cons e r => rw [he] at h; simpa using h

theorem noReset_now {s : State} (h : s.noReset = true) : s.noResetNow = true :=
  (all_slots (p := fun e => !e.reset) rfl h).1

theorem stuck_slot {s : State} {k : Ctl} (h : s.stuck k = true) :
    s.slot.readyOf k = false ∧ s.noResetNow = true := by
  have := (all_slots (p := fun e => !e.reset && !(e.readyOf k)) (by cases k <;> rfl) h).1
  simp only [Bool.and_eq_true, Bool.not_eq_true'] at this
  exact ⟨this.2, by simp [State.noResetNow, this.1]⟩

/-- The environment's own moves. -/
theorem kept_arrive (s : State) : Kept s s.arrive where
  cfg := by simp
  dout := by simp
  status := by simp
  result := by simp
  req := by simp
  seq := by simp
  host := by simp
  fault := by simp
  ctl k := by rw [arrive_ctl]
  ready k h := by rw [arrive_ctl] at h; exact (Bool.and_eq_true _ _ ▸ h).1
  busy k h := by rw [arrive_ctl]; simp [(stuck_slot h).1]
  ram _ _ _ := by simp
  noReset h := by
    unfold State.noReset; rw [arrive_env]; exact (all_slots (p := fun e => !e.reset) rfl h).2
  stuck k h := by
    unfold State.stuck; rw [arrive_env]
    exact (all_slots (p := fun e => !e.reset && !(e.readyOf k)) (by cases k <;> rfl) h).2

/-- A state that differs in the lines, DIR, the locals, the draws and the records only. -/
theorem kept_lines {s t : State} (h1 : t.cfg = s.cfg) (h2 : t.dout = s.dout) (h3 : t.status = s.status)
    (h4 : t.result = s.result) (h5 : t.req = s.req) (h6 : t.seq = s.seq) (h7 : t.host = s.host)
    (h8 : t.protoFault = s.protoFault) (h9 : t.c1 = s.c1) (h10 : t.c2 = s.c2) (h11 : t.mem = s.mem)
    (h12 : t.env = s.env) : Kept s t where
  cfg := h1
  dout := h2
  status := h3
  result := h4
  req := h5
  seq := h6
  host := h7
  fault := h8
  ctl k := by cases k <;> simp only [State.ctl, h9, h10]
  ready k := by cases k <;> simp only [State.ctl, h9, h10] <;> exact id
  busy k _ := by cases k <;> simp only [State.ctl, h9, h10]
  ram k _ _ := by cases k <;> simp only [State.ramByte, State.ctl, h9, h10, h11]
  noReset := by unfold State.noReset; rw [h12]; exact id
  stuck k := by unfold State.stuck; rw [h12]; exact id

/-- What a piece of a sequence did: it went on to `t`, kept what `Kept` says, and left the lines, DIR, the locals and
the records as given, a slot used up for each primitive. -/
structure Went (p : List Micro) (s t : State) (ctrl : Byte) (dir : Dir) (loc : Locals) (trace : List Prim)
    (pulses : List Pulse) : Prop where
  go : runGo p s = some t
  kept : Kept s t
  ctrl : t.ctrl = ctrl
  dir : t.dir = dir
  loc : t.loc = loc
  env : t.env = s.env.drop trace.length
  trace : t.trace = trace ++ s.trace
  pulses : t.pulses = pulses ++ s.pulses

theorem Went.append {p q : List Micro} {s t u : State} {c c' : Byte} {d d' : Dir} {l l' : Locals}
    {tr tr' : List Prim} {ps ps' : List Pulse} (h : Went p s t c d l tr ps) (k : Went q t u c' d' l' tr' ps') :
    Went (p ++ q) s u c' d' l' (tr' ++ tr) (ps' ++ ps) where
  go := (runGo_append h.go).trans k.go
  kept := h.kept.trans k.kept
  ctrl := k.ctrl
  dir := k.dir
  loc := k.loc
  trace := by rw [k.trace, h.trace, List.append_assoc]
  pulses := by rw [k.pulses, h.pulses, List.append_assoc]
  env := by rw [k.env, h.env, List.drop_drop, List.length_append, Nat.add_comm]

theorem runGo_one {m : Micro} {s t : State} (h : micro m [] s = .go t) : runGo [m] s = some t := by
  simp [runGo, h]

/-- A primitive that writes no controller and no display byte. -/
theorem went_lines {m : Micro} {p : EnvSlot → State → State} {s t : State} (n : s.noResetNow = true)
    (hf : s.protoFault = none) (hm : micro m [] s = primitive p [] s) (ht : p s.slot s.arrive = t)
    {q : Prim} (h1 : t.cfg = s.arrive.cfg) (h2 : t.dout = s.arrive.dout) (h3 : t.status = s.arrive.status)
    (h4 : t.result = s.arrive.result) (h5 : t.req = s.arrive.req) (h6 : t.seq = s.arrive.seq)
    (h7 : t.host = s.arrive.host) (h8 : t.protoFault = s.arrive.protoFault) (h9 : t.c1 = s.arrive.c1)
    (h10 : t.c2 = s.arrive.c2) (h11 : t.mem = s.arrive.mem) (h12 : t.env = s.arrive.env)
    (h14 : t.pulses = s.arrive.pulses) {c : Byte} {d : Dir} {l : Locals} (h15 : t.ctrl = c) (h16 : t.dir = d)
    (h17 : t.loc = l) (h13 : t.trace = q :: s.trace) : Went [m] s t c d l [q] [] where
  go := by
    refine runGo_one ?_
    rw [hm, primitive_arrive n (by rw [ht, h8]; simpa using hf), ht]
  kept := (kept_arrive s).trans (kept_lines h1 h2 h3 h4 h5 h6 h7 h8 h9 h10 h11 h12)
  ctrl := h15
  dir := h16
  loc := h17
  trace := h13
  pulses := by rw [h14]; simp
  env := by rw [h12, arrive_env, List.length_singleton, List.drop_one]

theorem went_setDir {s : State} (n : s.noResetNow = true) (hf : s.protoFault = none) (d : Dir) :
    ∃ t, Went [.setDir d] s t s.ctrl d s.loc [.setDir d] [] :=
  ⟨_, went_lines (m := .setDir d) n hf rfl (t := setDir d s.slot s.arrive) rfl rfl rfl rfl rfl rfl rfl rfl rfl rfl rfl
    rfl rfl rfl (arrive_ctrl s) rfl (arrive_loc s) (congrArg _ (arrive_trace s))⟩

theorem went_delay {s : State} (n : s.noResetNow = true) (hf : s.protoFault = none) (k : DelayKind) :
    ∃ t, Went [.delay k] s t s.ctrl s.dir s.loc [.delay k] [] :=
  ⟨_, went_lines (m := .delay k) n hf rfl (t := delay k s.slot s.arrive) rfl rfl rfl rfl rfl rfl rfl rfl rfl rfl rfl
    rfl rfl rfl (arrive_ctrl s) (arrive_dir s) (arrive_loc s) (congrArg _ (arrive_trace s))⟩

theorem went_sample {s : State} (n : s.noResetNow = true) (hf : s.protoFault = none) :
    ∃ t, Went [.sample] s t s.ctrl s.dir { s.loc with smp := s.arrive.sampleValue s.slot }
      [.sample s.dir s.flagE (s.arrive.sampleValue s.slot)] [] ∧ ∀ k, t.ctl k = s.arrive.ctl k := by
  refine ⟨sample s.slot s.arrive, went_lines (m := .sample) n hf rfl rfl rfl rfl rfl rfl rfl rfl rfl rfl rfl rfl rfl
    rfl rfl (arrive_ctrl s) (arrive_dir s) ?_ ?_, fun k => by cases k <;> rfl⟩
  · exact congrArg (fun l : Locals => { l with smp := s.arrive.sampleValue s.slot }) (arrive_loc s)
  · show Prim.sample s.arrive.dir s.arrive.flagE _ :: s.arrive.trace = _
    rw [arrive_dir, arrive_flagE, arrive_trace]

/-- `CtrlSet(m)` that does not release the display reset. -/
theorem went_set {s : State} (n : s.noResetNow = true) (hf : s.protoFault = none) (m : Byte)
    (hr : flagIn m s.cfg.mRST = false) :
    ∃ t, Went [.ctrlSet m] s t (s.ctrl ||| m) s.dir s.loc [.ctrlSet m] [] := by
  have hR : (!s.arrive.flagRST && flagIn (s.arrive.ctrl ||| m) s.arrive.cfg.mRST) = false := by
    rw [flagIn_or, arrive_cfg, hr, Bool.or_false, arrive_ctrl, arrive_flagRST]
    show (!s.flagRST && s.flagRST) = false
    simp
  have ht : ctrlSet m s.slot s.arrive = record (.ctrlSet m) { s.arrive with ctrl := s.arrive.ctrl ||| m } :=
    congrArg _ (updateCtrl_quiet (set_keeps_E _ m) hR)
  exact ⟨_, went_lines (m := .ctrlSet m) n hf rfl ht rfl rfl rfl rfl rfl rfl rfl rfl rfl rfl rfl rfl rfl
    (congrArg (· ||| m) (arrive_ctrl s)) (arrive_dir s) (arrive_loc s) (congrArg _ (arrive_trace s))⟩

/-- `CtrlClear(m)` whose pulse event, if there is one, no controller acts on. -/
theorem went_clear {s : State} (w : s.cfg.wf = true) (n : s.noResetNow = true) (hf : s.protoFault = none) (m : Byte)
    (hi : (s.flagE && flagIn m s.cfg.mE) = true → ∀ k, s.pulseRecord.reaches k = false) :
    ∃ t, Went [.ctrlClear m] s t (s.ctrl &&& ~~~m) s.dir s.loc [.ctrlClear m]
      (if s.flagE && flagIn m s.cfg.mE then [s.pulseRecord] else []) := by
  have hi' : (s.arrive.flagE && flagIn m s.arrive.cfg.mE) = true → ∀ k, s.arrive.pulseRecord.reaches k = false := by
    simpa using hi
  have C := ctrlClear_effect (e := s.slot) (m := m) (s := s.arrive) (by simpa using w)
    (fun h k hk => by rw [hi' h k] at hk; cases hk)
  have hr : ∀ k, (s.arrive.flagE && flagIn m s.arrive.cfg.mE && s.arrive.pulseRecord.reaches k) = false := by
    intro k
    cases h : (s.arrive.flagE && flagIn m s.arrive.cfg.mE)
    · rfl
    · rw [hi' h k]; rfl
  have hctl : ∀ k, (ctrlClear m s.slot s.arrive).ctl k = s.arrive.ctl k := fun k => by rw [C.ctl, hr k]; simp
  refine ⟨ctrlClear m s.slot s.arrive, ⟨runGo_one ?_, ?_, ?_, ?_, ?_, ?_, ?_, ?_⟩⟩
  · exact primitive_arrive (p := ctrlClear m) n (by rw [C.fault]; simpa using hf)
  · refine (kept_arrive s).trans ⟨C.cfg, C.dout, C.status, C.result, C.req, C.seq, C.host, C.fault, ?_, ?_, ?_, ?_, ?_, ?_⟩
    · intro k; rw [hctl k]
    · intro k h; rw [hctl k] at h; exact h
    · intro k _; rw [hctl k]
    · intro k p l; rw [C.ram, hr k]; simp
    · unfold State.noReset; rw [C.env]; exact id
    · intro k; unfold State.stuck; rw [C.env]; exact id
  · rw [C.ctrl, arrive_ctrl]
  · rw [C.dir, arrive_dir]
  · rw [C.loc, arrive_loc]
  · rw [C.env, arrive_env, List.length_singleton, List.drop_one]
  · rw [C.trace, arrive_trace]; rfl
  · rw [C.pulses, arrive_flagE, arrive_cfg, arrive_pulseRecord, arrive_pulses]; split <;> rfl

/-! ## CFGRD and the poll as wholes -/

/-- A state a primitive can start from: parameters as R6, no EngineReset to come, no protocol fault. -/
structure Able (s : State) : Prop where
  wf : s.cfg.wf = true
  noReset : s.noReset = true
  fault : s.protoFault = none

theorem Able.kept {s t : State} (h : Able s) (k : Kept s t) : Able t :=
  ⟨by rw [k.cfg]; exact h.wf, k.noReset h.noReset, k.fault.trans h.fault⟩

/-- The flags of CTRL, one by one. -/
theorem flags_of {s t : State} (hc : t.cfg = s.cfg) {v : Byte} (h : t.ctrl = v) :
    t.flagCS1 = flagIn v s.cfg.mCS1 ∧ t.flagCS2 = flagIn v s.cfg.mCS2 ∧ t.flagRST = flagIn v s.cfg.mRST ∧
      t.flagRS = flagIn v s.cfg.mRS ∧ t.flagRW = flagIn v s.cfg.mRW ∧ t.flagE = flagIn v s.cfg.mE ∧
      t.reservedBits = v &&& s.cfg.mReserved := by
  subst h; simp only [State.flagCS1, State.flagCS2, State.flagRST, State.flagRS, State.flagRW, State.flagE,
    State.reservedBits, hc, and_self]

/-- CR.2 to CR.5, E being low: the bus is turned round (R122). -/
theorem went_turn {s : State} (a : Able s) (he : s.flagE = false) :
    ∃ t, Went [.setDir .input, .ctrlClear s.cfg.mRS, .ctrlSet s.cfg.mRW, .delay .settle] s t
      ((s.ctrl &&& ~~~s.cfg.mRS) ||| s.cfg.mRW) .input s.loc
      [.delay .settle, .ctrlSet s.cfg.mRW, .ctrlClear s.cfg.mRS, .setDir .input] [] := by
  obtain ⟨s1, h1⟩ := went_setDir (noReset_now a.noReset) a.fault .input
  have a1 := a.kept h1.kept
  have c1 := h1.kept.cfg
  have e1 : s1.flagE = false := by rw [(flags_of c1 h1.ctrl).2.2.2.2.2.1]; exact he
  obtain ⟨s2, h2⟩ := went_clear a1.wf (noReset_now a1.noReset) a1.fault s.cfg.mRS (by rw [e1]; simp)
  have a2 := a1.kept h2.kept
  have c2 := h2.kept.cfg.trans c1
  obtain ⟨s3, h3⟩ := went_set (noReset_now a2.noReset) a2.fault s.cfg.mRW (by rw [c2]; exact flag_mRW_mRST a.wf)
  have a3 := a2.kept h3.kept
  obtain ⟨s4, h4⟩ := went_delay (noReset_now a3.noReset) a3.fault .settle
  have := ((h1.append h2).append h3).append h4
  rw [e1] at this
  refine ⟨s4, ?_⟩
  rw [h3.ctrl, h3.dir, h3.loc, h2.ctrl, h2.dir, h2.loc, h1.ctrl, h1.dir, h1.loc] at this
  exact this

/-- Lowering a line that is low. -/
theorem and_not_low {v m : Byte} (h : flagIn v m = false) : v &&& ~~~m = v := by
  simp only [flagIn, bne_eq_false_iff_eq] at h
  apply BitVec.eq_of_getLsbD_eq
  intro i hi
  have := congrArg (fun x : Byte => x.getLsbD i) h
  simp only [BitVec.getLsbD_and, BitVec.ofNat_eq_ofNat, BitVec.getLsbD_zero, BitVec.getLsbD_not, hi] at this ⊢
  cases hm : m.getLsbD i <;> simp_all

/-- CR.1 to CR.5 with E low on entry (R122). -/
theorem went_cfgRead {s : State} (a : Able s) (he : s.flagE = false) :
    ∃ t, Went (cfgReadSeq s.cfg) s t ((s.ctrl &&& ~~~s.cfg.mRS) ||| s.cfg.mRW) .input s.loc
      [.delay .settle, .ctrlSet s.cfg.mRW, .ctrlClear s.cfg.mRS, .setDir .input, .ctrlClear s.cfg.mE] [] := by
  obtain ⟨s1, h1⟩ := went_clear a.wf (noReset_now a.noReset) a.fault s.cfg.mE (by rw [he]; simp)
  have hc : s1.ctrl = s.ctrl := h1.ctrl.trans (and_not_low he)
  have F := flags_of h1.kept.cfg hc
  obtain ⟨s2, h2⟩ := went_turn (a.kept h1.kept) (F.2.2.2.2.2.1.trans he)
  have W := h1.append h2
  rw [he, hc, h1.loc, h1.kept.cfg] at W
  exact ⟨s2, W⟩

/-- The lines after CFGRD: E as it was, RS low, RW high (R122). -/
theorem turned_flags {s t : State} (w : s.cfg.wf = true) (hc : t.cfg = s.cfg)
    (h : t.ctrl = (s.ctrl &&& ~~~s.cfg.mRS) ||| s.cfg.mRW) :
    t.flagCS1 = s.flagCS1 ∧ t.flagCS2 = s.flagCS2 ∧ t.flagRST = s.flagRST ∧ t.flagRS = false ∧ t.flagRW = true ∧
      t.flagE = s.flagE ∧ t.reservedBits = s.reservedBits := by
  have F := flags_of hc h
  refine ⟨F.1.trans ?_, F.2.1.trans ?_, F.2.2.1.trans ?_, F.2.2.2.1.trans ?_, F.2.2.2.2.1.trans ?_,
    F.2.2.2.2.2.1.trans ?_, F.2.2.2.2.2.2.trans ?_⟩
  · rw [flagIn_or, flagIn_and_not _ _ (Config.wf_oneHot_mCS1 w), flag_mRS_mCS1 w, flag_mRW_mCS1 w]
    simp [State.flagCS1]
  · rw [flagIn_or, flagIn_and_not _ _ (Config.wf_oneHot_mCS2 w), flag_mRS_mCS2 w, flag_mRW_mCS2 w]
    simp [State.flagCS2]
  · rw [flagIn_or, flagIn_and_not _ _ (Config.wf_oneHot_mRST w), flag_mRS_mRST w, flag_mRW_mRST w]
    simp [State.flagRST]
  · rw [flagIn_or, flagIn_and_not _ _ (Config.wf_oneHot_mRS w), flag_mRS_mRS w, flag_mRW_mRS w]; simp
  · rw [flagIn_or, flag_mRW_mRW w]; simp
  · rw [flagIn_or, flagIn_and_not _ _ (Config.wf_oneHot_mE w), flag_mRS_mE w, flag_mRW_mE w]
    simp [State.flagE]
  · rw [reserved_or _ _ (reserved_flag _ (by simp)), reserved_and_not _ _ (reserved_flag _ (by simp))]; rfl

/-- `POLLS <- 0` (R155). -/
theorem went_pollsZero (s : State) : ∃ t, Went [.pollsZero] s t s.ctrl s.dir
    { s.loc with polls := if s.cfg.pollLimit = none then s.loc.polls else 0 } [] [] := by
  by_cases h : s.cfg.pollLimit = none
  · exact ⟨s, runGo_one (by simp [micro, h]), Kept.refl s, rfl, rfl, by simp [h], rfl, rfl, rfl⟩
  · exact ⟨{ s with loc := { s.loc with polls := 0 } }, runGo_one (by simp [micro, h, assign]),
      kept_lines rfl rfl rfl rfl rfl rfl rfl rfl rfl rfl rfl rfl, rfl, rfl, by simp [h], rfl, rfl, rfl⟩

/-- Raising a line that was low and lowering it again. -/
theorem or_and_not {v m : Byte} (h : flagIn v m = false) : (v ||| m) &&& ~~~m = v := by
  simp only [flagIn, bne_eq_false_iff_eq] at h
  apply BitVec.eq_of_getLsbD_eq
  intro i hi
  have := congrArg (fun x : Byte => x.getLsbD i) h
  simp only [BitVec.getLsbD_and, BitVec.ofNat_eq_ofNat, BitVec.getLsbD_zero, BitVec.getLsbD_not, BitVec.getLsbD_or, hi] at this ⊢
  cases hm : m.getLsbD i <;> simp_all

/-- One poll, E being low, RS low and RW high: five primitives and a status read, CTRL as before; and what the sampled
byte tells (R63, R150). -/
theorem went_poll {s : State} (a : Able s) (he : s.flagE = false) (hrs : s.flagRS = false) (hrw : s.flagRW = true)
    (hd : s.dir = .input) :
    ∃ (t : State) (v : Byte), Went (pollBody s.cfg) s t s.ctrl .input { s.loc with smp := v }
      [.delay .settle, .ctrlClear s.cfg.mE, .sample .input true v, .delay .settle, .ctrlSet s.cfg.mE]
      [⟨s.flagCS1, s.flagCS2, false, true, s.flagRST, .input, s.dout⟩] ∧
      ∀ c, s.selectsOnly c → s.flagRST = true → ((t.ctl c).busy = true → showsBusy s.cfg.busyMask v = true) ∧
        (s.stuck c = true → showsBusy s.cfg.busyMask v = (s.ctl c).busy) := by
  obtain ⟨s1, h1⟩ := went_set (noReset_now a.noReset) a.fault s.cfg.mE (flag_mE_mRST a.wf)
  have a1 := a.kept h1.kept
  have c1 := h1.kept.cfg
  obtain ⟨s2, h2⟩ := went_delay (noReset_now a1.noReset) a1.fault .settle
  have a2 := a1.kept h2.kept
  have c2 := h2.kept.cfg.trans c1
  have k2 := h1.kept.trans h2.kept
  have f2 := flags_of c2 (h2.ctrl.trans h1.ctrl)
  have x1 : s2.flagCS1 = s.flagCS1 := by rw [f2.1, flagIn_or, flag_mE_mCS1 a.wf, Bool.or_false]; rfl
  have x2 : s2.flagCS2 = s.flagCS2 := by rw [f2.2.1, flagIn_or, flag_mE_mCS2 a.wf, Bool.or_false]; rfl
  have x3 : s2.flagRST = s.flagRST := by rw [f2.2.2.1, flagIn_or, flag_mE_mRST a.wf, Bool.or_false]; rfl
  have x4 : s2.flagRS = false := by rw [f2.2.2.2.1, flagIn_or, flag_mE_mRS a.wf, Bool.or_false]; exact hrs
  have x5 : s2.flagRW = true := by rw [f2.2.2.2.2.1, flagIn_or, flag_mE_mRW a.wf, Bool.or_false]; exact hrw
  have x6 : s2.flagE = true := by rw [f2.2.2.2.2.2.1, flagIn_or, flag_mE_mE a.wf, Bool.or_true]
  have d2 : s2.dir = .input := h2.dir.trans (h1.dir.trans hd)
  obtain ⟨s3, h3, q3⟩ := went_sample (noReset_now a2.noReset) a2.fault
  have a3 := a2.kept h3.kept
  have c3 := h3.kept.cfg.trans c2
  have k3 := k2.trans h3.kept
  have f3 := flags_of (s := s2) h3.kept.cfg h3.ctrl
  have y6 : s3.flagE = true := f3.2.2.2.2.2.1.trans x6
  have p3 : s3.pulseRecord = ⟨s.flagCS1, s.flagCS2, false, true, s.flagRST, .input, s.dout⟩ := by
    have y1 : s3.flagCS1 = s.flagCS1 := f3.1.trans x1
    have y2 : s3.flagCS2 = s.flagCS2 := f3.2.1.trans x2
    have y3 : s3.flagRST = s.flagRST := f3.2.2.1.trans x3
    have y4 : s3.flagRS = false := f3.2.2.2.1.trans x4
    have y5 : s3.flagRW = true := f3.2.2.2.2.1.trans x5
    simp only [State.pulseRecord, y1, y2, y3, y4, y5, h3.dir, d2, k3.dout]
  obtain ⟨s4, h4⟩ := went_clear a3.wf (noReset_now a3.noReset) a3.fault s.cfg.mE (fun _ k => by
    rw [p3]; simp [Pulse.reaches, Pulse.kind])
  have a4 := a3.kept h4.kept
  obtain ⟨s5, h5⟩ := went_delay (noReset_now a4.noReset) a4.fault .settle
  have W := (((h1.append h2).append h3).append h4).append h5
  have hmE : flagIn s.cfg.mE s3.cfg.mE = true := by rw [c3]; exact flag_mE_mE a.wf
  rw [y6, hmE, p3, h4.ctrl, h4.dir, h4.loc, h3.ctrl, h3.dir, h3.loc, h2.ctrl, h2.dir, h2.loc, h1.ctrl, h1.dir,
    h1.loc, hd, x6, or_and_not he] at W
  refine ⟨s5, s2.arrive.sampleValue s2.slot, W, fun c hs hr => ?_⟩
  have hv : showsBusy s.cfg.busyMask (s2.arrive.sampleValue s2.slot) = (s2.arrive.ctl c).busy := by
    have hdr : s2.arrive.driver = some c := by
      obtain ⟨g1, g2⟩ := hs
      unfold State.driver
      rw [arrive_dir, arrive_flagE, arrive_flagRW, arrive_flagRST, arrive_flagCS1, arrive_flagCS2, d2, x6, x5, x3, hr,
        x1, x2, g1, g2]
      cases c <;> simp
    unfold State.sampleValue
    rw [hdr]
    simp only [arrive_flagRS, x4, Bool.false_eq_true, if_false, arrive_cfg]
    rw [← c2]
    exact showsBusy_statusByte a2.wf _ _
  refine ⟨fun hb => ?_, fun hst => ?_⟩
  · rw [hv, ← q3 c]
    exact (h4.kept.trans h5.kept).ready c hb
  · rw [hv, arrive_ctl, ← k2.busy c hst]
    simp [(stuck_slot (k2.stuck c hst)).1]

/-! ## The test after a poll -/

theorem countPoll_kept (s : State) : Kept s (countPoll s) := by
  unfold countPoll; split
  · exact Kept.refl s
  · exact kept_lines rfl rfl rfl rfl rfl rfl rfl rfl rfl rfl rfl rfl

theorem countPoll_loc (s : State) : (countPoll s).loc = { s.loc with polls := if s.cfg.pollLimit = none then s.loc.polls else s.loc.polls + 1 } := by
  unfold countPoll; split <;> simp_all

theorem countPoll_same (s : State) : (countPoll s).ctrl = s.ctrl ∧ (countPoll s).dir = s.dir ∧ (countPoll s).trace = s.trace ∧ (countPoll s).pulses = s.pulses := by
  unfold countPoll; split <;> simp

theorem runSeq_stop {m rest s t} (h : micro m rest s = .stop t) : runSeq (m :: rest) s = t := by
  simp [runSeq, h]
theorem runSeq_cons {m rest s t} (h : micro m rest s = .go t) : runSeq (m :: rest) s = runSeq rest t := by
  simp [runSeq, h]

/-- The poll and its test, from WT.6 on (R150, R155): `u` is the state after the test's count. -/
theorem runSeq_poll {s : State} {rest : List Micro} (a : Able s) (h4 : s.dir = .input) (h5 : s.flagE = false)
    (h6 : s.flagRS = false) (h7 : s.flagRW = true) :
    ∃ (u : State) (v : Byte), Kept s u ∧ u.ctrl = s.ctrl ∧ u.dir = .input ∧
      u.trace = [.delay .settle, .ctrlClear s.cfg.mE, .sample .input true v, .delay .settle, .ctrlSet s.cfg.mE] ++
        s.trace ∧
      u.pulses = ⟨s.flagCS1, s.flagCS2, false, true, s.flagRST, .input, s.dout⟩ :: s.pulses ∧
      u.loc = { s.loc with smp := v, polls := if s.cfg.pollLimit = none then s.loc.polls else s.loc.polls + 1 } ∧
      (∀ c, s.selectsOnly c → s.flagRST = true → ((u.ctl c).busy = true → showsBusy s.cfg.busyMask v = true) ∧
        (s.stuck c = true → showsBusy s.cfg.busyMask v = (s.ctl c).busy)) ∧
      (showsBusy s.cfg.busyMask v = false → runSeq (pollBody s.cfg ++ .test :: rest) s = runSeq rest u) ∧
      (showsBusy s.cfg.busyMask v = true → s.cfg.pollLimit ≠ some (s.loc.polls + 1) →
        runSeq (pollBody s.cfg ++ .test :: rest) s = { u with seq := pollBody s.cfg ++ .test :: rest }) ∧
      (showsBusy s.cfg.busyMask v = true → s.cfg.pollLimit = some (s.loc.polls + 1) →
        ∃ t, Went [.setDir .output] u t u.ctrl .output u.loc [.setDir .output] [] ∧
          runSeq (pollBody s.cfg ++ .test :: rest) s = raiseUnresponsive t) := by
  obtain ⟨t, v, W, hs⟩ := went_poll a h5 h6 h7 h4
  have hstep : runSeq (pollBody s.cfg ++ .test :: rest) s = runSeq (.test :: rest) t := runSeq_append W.go
  have K := W.kept.trans (countPoll_kept t)
  have cu : (countPoll t).cfg = s.cfg := K.cfg
  have lt : t.loc.smp = v := by rw [W.loc]
  have lu : (countPoll t).loc = { s.loc with smp := v, polls := if s.cfg.pollLimit = none then s.loc.polls else s.loc.polls + 1 } := by
    rw [countPoll_loc, W.loc, W.kept.cfg]
  have hcl : ∀ k, (countPoll t).ctl k = t.ctl k := by intro k; unfold countPoll; split <;> cases k <;> rfl
  have hpl : ∀ n, s.cfg.pollLimit = some n → (countPoll t).loc.polls = s.loc.polls + 1 := by
    intro n hn; rw [lu, hn]; simp
  refine ⟨countPoll t, v, K, (countPoll_same t).1.trans W.ctrl, (countPoll_same t).2.1.trans W.dir,
    (countPoll_same t).2.2.1.trans W.trace, (countPoll_same t).2.2.2.trans W.pulses, lu, ?_, ?_, ?_, ?_⟩
  · intro c h h'; rw [hcl c]; exact hs c h h'
  · intro hb
    rw [hstep, runSeq_cons (t := countPoll t)]
    simp [micro, pollTest, lt, W.kept.cfg, hb]
  · intro hb hn
    rw [hstep, runSeq_stop (t := { countPoll t with seq := pollBody s.cfg ++ .test :: rest })]
    simp only [micro, pollTest, lt, W.kept.cfg, hb, if_true]
    rw [if_neg]
    · simp only [loopPoll, cu]
    · intro h; rw [hpl _ h] at h; exact hn h
  · intro hb hn
    have au := a.kept K
    obtain ⟨x, X⟩ := went_setDir (noReset_now au.noReset) au.fault .output
    refine ⟨x, X, ?_⟩
    have hx : primitive (setDir .output) [] (countPoll t) = .go x := by
      have := X.go
      unfold runGo at this
      split at this
      · rename_i y hy; simp only [runGo, Option.some.injEq] at this; subst this; exact hy
      · cases this
    rw [hstep, runSeq_stop (t := raiseUnresponsive x)]
    simp only [micro, pollTest, lt, W.kept.cfg, hb, if_true]
    rw [if_pos (by rw [hpl _ hn, hn]), failWait, hx]

end Sys2Proof.Machine
end

