-- ==== Sys2Proof/Laws/Cases.lean ====
section
/-! SUPPORT. What the sequencer can do, said once: everything one step of a sequence can answer, in any environment,
and the induction over the run of a sequence that goes with it (R10, R20, R32, R71, R150, R155, R270). -/

namespace Sys2Proof.Machine

/-- An induction over the run of a sequence: `I` says what holds with the steps still to be executed, `E` what the
run ends in. -/
theorem runSeq_rec {I : List Micro → State → Prop} {E : State → Prop} (done : ∀ s, I [] s → E (complete s))
    (next : ∀ m rest s, I (m :: rest) s → (∀ t, micro m rest s = .go t → I rest t) ∧
      (∀ t, micro m rest s = .stop t → E t)) : ∀ (prog : List Micro) (s : State), I prog s → E (runSeq prog s)
  | [], s, h => done s h
  | m :: rest, s, h => by
    unfold runSeq
    cases hf : micro m rest s with
    | go t => exact runSeq_rec done next rest t ((next m rest s h).1 t hf)
    | stop t => exact (next m rest s h).2 t hf

/-- What a primitive can answer: an engine reset, a protocol fault with the rest of the sequence kept, or the state
the primitive leaves. -/
theorem primitive_cases {p : EnvSlot → State → State} {rest : List Micro} {s : State} {P : Flow → Prop}
    (h1 : s.slot.reset = true → P (.stop (engineReset s.slot s.arrive)))
    (h2 : s.slot.reset = false → (p s.slot s.arrive).protoFault.isSome = true → P (.stop { p s.slot s.arrive with seq := rest }))
    (h3 : s.slot.reset = false → (p s.slot s.arrive).protoFault = none → P (.go (p s.slot s.arrive))) : P (primitive p rest s) := by
  cases hr : s.slot.reset
  · have n : s.noResetNow = true := by simp [State.noResetNow, hr]
    cases hf : (p s.slot s.arrive).protoFault with
    | none => rw [primitive_arrive n hf]; exact h3 hr hf
    | some x => rw [primitive_fault n (by rw [hf]; rfl)]; exact h2 hr (by rw [hf]; rfl)
  · rw [primitive_reset hr]; exact h1 hr

/-! ## What a step that goes on keeps -/

/-- Neither a primitive nor an assignment touches these; of the environment's slots some are used up. -/
structure Passed (s t : State) : Prop where
  cfg : t.cfg = s.cfg
  status : t.status = s.status
  req : t.req = s.req
  seq : t.seq = s.seq
  host : t.host = s.host
  env : ∃ n, t.env = s.env.drop n
  pulses : s.pulses <:+ t.pulses
  trace : s.trace <:+ t.trace

theorem Passed.refl (s : State) : Passed s s := ⟨rfl, rfl, rfl, rfl, rfl, ⟨0, rfl⟩, List.suffix_refl _, List.suffix_refl _⟩

theorem Passed.trans {s t u : State} (h : Passed s t) (k : Passed t u) : Passed s u := by
  obtain ⟨n, hn⟩ := h.env
  obtain ⟨m, hm⟩ := k.env
  exact ⟨k.cfg.trans h.cfg, k.status.trans h.status, k.req.trans h.req, k.seq.trans h.seq, k.host.trans h.host,
    ⟨n + m, by rw [hm, hn, List.drop_drop]⟩, h.pulses.trans k.pulses, h.trace.trans k.trace⟩

theorem Passed.idle {s t : State} (h : Passed s t) : t.idle = s.idle := by simp only [State.idle, h.status]

/-- What every coming slot has, every slot still to come has. -/
theorem Passed.all {s t : State} (h : Passed s t) {q : EnvSlot → Bool} (a : s.env.all q = true) : t.env.all q = true := by
  obtain ⟨n, hn⟩ := h.env
  rw [hn, List.all_eq_true]
  exact fun e he => List.all_eq_true.mp a e (List.mem_of_mem_drop he)

theorem Passed.noReset {s t : State} (h : Passed s t) (n : s.noReset = true) : t.noReset = true := h.all n
theorem Passed.calm {s t : State} (h : Passed s t) (n : s.calm = true) : t.calm = true := h.all n
theorem Passed.ramKept {s t : State} (h : Passed s t) (n : s.ramKept = true) : t.ramKept = true := h.all n

theorem passed_prim {s : State} {p : EnvSlot → State → State} (h : ∀ e u, (p e u).cfg = u.cfg ∧
    (p e u).status = u.status ∧ (p e u).req = u.req ∧ (p e u).seq = u.seq ∧ (p e u).host = u.host ∧
    (p e u).env = u.env ∧ u.pulses <:+ (p e u).pulses ∧ u.trace <:+ (p e u).trace) : Passed s (p s.slot s.arrive) := by
  obtain ⟨h1, h2, h3, h4, h5, h6, h7, h8⟩ := h s.slot s.arrive
  rw [arrive_pulses] at h7
  rw [arrive_trace] at h8
  exact ⟨h1.trans (arrive_cfg s), h2.trans (arrive_status s), h3.trans (arrive_req s), h4.trans (arrive_seq s),
    h5.trans (arrive_host s), ⟨1, by rw [h6, arrive_env, List.drop_one]⟩, h7, h8⟩

/-- An update of CTRL adds the pulse event of a fall of E to the record, and nothing else (R58). -/
theorem updateCtrl_pulses (e : EnvSlot) (v : Byte) (s : State) : (updateCtrl e v s).pulses =
    if s.flagE && !flagIn v s.cfg.mE then s.pulseRecord :: s.pulses else s.pulses := by
  unfold updateCtrl; dsimp only; split <;> split <;> simp

theorem updateCtrl_pulses_suffix (e : EnvSlot) (v : Byte) (s : State) : s.pulses <:+ (updateCtrl e v s).pulses := by
  rw [updateCtrl_pulses]; split
  · exact List.suffix_cons _ _
  · exact List.suffix_refl _

theorem passed_setDir (d : Dir) (s : State) : Passed s (setDir d s.slot s.arrive) :=
  passed_prim fun _ _ => ⟨rfl, rfl, rfl, rfl, rfl, rfl, List.suffix_refl _, List.suffix_cons _ _⟩

theorem countPoll_passed (s : State) : Passed s (countPoll s) :=
  have k := countPoll_kept s
  have h := countPoll_same s
  ⟨k.cfg, k.status, k.req, k.seq, k.host, ⟨0, by unfold countPoll; split <;> rfl⟩, by rw [h.2.2.2], by rw [h.2.2.1]⟩

/-- The primitive a step is, if it is one (R10). -/
def primOf (s : State) : Micro → Option (EnvSlot → State → State)
  | .ctrlSet v => some (ctrlSet v)
  | .ctrlClear v => some (ctrlClear v)
  | .select t => some (select t)
  | .selectTgt => some (select s.loc.tgt)
  | .setDir d => some (setDir d)
  | .driveVal => some (drive s.loc.val)
  | .driveZero => some (drive 0x00)
  | .sample => some sample
  | .delay k => some (delay k)
  | _ => none

theorem primOf_micro {s : State} {m : Micro} {p : EnvSlot → State → State} (h : primOf s m = some p)
    (rest : List Micro) : micro m rest s = primitive p rest s := by
  cases m <;> cases h <;> rfl

theorem primOf_passed {s : State} {m : Micro} {p : EnvSlot → State → State} (h : primOf s m = some p) (u : State) :
    Passed u (p u.slot u.arrive) := by
  cases m <;> cases h
  · exact passed_prim fun e u => by simp [ctrlSet, record, updateCtrl_pulses_suffix]
  · exact passed_prim fun e u => by simp [ctrlClear, record, updateCtrl_pulses_suffix]
  · exact passed_prim fun e u => by simp [select, record, updateCtrl_pulses_suffix]
  · exact passed_prim fun e u => by simp [select, record, updateCtrl_pulses_suffix]
  all_goals exact passed_prim fun e u =>
    ⟨rfl, rfl, rfl, rfl, rfl, rfl, List.suffix_refl _, List.suffix_cons _ _⟩

/-! ## Everything one step can do -/

/-- A step of a sequence is a primitive, which an EngineReset may strike, and which goes on or ends in the
protocol-fault state; or an assignment; or the test of a poll, which falls through, loops, or fails by way of one
more primitive. -/
theorem micro_cases {m : Micro} {rest : List Micro} {s : State} {P : Flow → Prop}
    (struck : s.slot.reset = true → ∀ u, (u = s ∨ m = .test ∧ u = countPoll s) →
      P (.stop (engineReset u.slot u.arrive)))
    (prim : ∀ p, primOf s m = some p → (p s.slot s.arrive).protoFault = none → P (.go (p s.slot s.arrive)))
    (fault : ∀ p, primOf s m = some p → (p s.slot s.arrive).protoFault.isSome = true →
      P (.stop { p s.slot s.arrive with seq := rest }))
    (assign : ∀ f : Locals → Locals, primOf s m = none → m ≠ .test → P (.go { s with loc := f s.loc }))
    (result : m = .setResult → P (.go { s with result := s.loc.rbv }))
    (ready : m = .test → showsBusy s.cfg.busyMask s.loc.smp = false → P (.go (countPoll s)))
    (loop : m = .test → showsBusy s.cfg.busyMask s.loc.smp = true → s.cfg.pollLimit ≠ some (countPoll s).loc.polls →
      P (.stop { countPoll s with seq := pollBody s.cfg ++ .test :: rest }))
    (dead : m = .test → (setDir .output (countPoll s).slot (countPoll s).arrive).protoFault.isSome = true →
      P (.stop { setDir .output (countPoll s).slot (countPoll s).arrive with seq := [] }))
    (fail : m = .test → showsBusy s.cfg.busyMask s.loc.smp = true → s.cfg.pollLimit = some (countPoll s).loc.polls →
      P (.stop (raiseUnresponsive (setDir .output (countPoll s).slot (countPoll s).arrive)))) :
    P (micro m rest s) := by
  cases hm : primOf s m with
  | some p =>
    rw [primOf_micro hm]
    exact primitive_cases (fun h => struck h s (Or.inl rfl))
      (fun _ hf => fault p hm hf) (fun _ hf => prim p hm hf)
  | none =>
    cases m
    case test =>
      simp only [micro, pollTest]
      split
      · rename_i hb
        split
        · rename_i hp
          have he : (countPoll s).slot = s.slot := by unfold countPoll; split <;> rfl
          unfold failWait
          refine primitive_cases (p := setDir .output) (P := fun f => P (match f with
            | .stop s1 => .stop s1
            | .go s1 => .stop (raiseUnresponsive s1))) (fun h => ?_) (fun _ hf => ?_) (fun _ _ => ?_)
          · exact struck (he ▸ h) _ (Or.inr ⟨rfl, rfl⟩)
          · exact dead rfl hf
          · exact fail rfl hb hp
        · rename_i hp
          have e : loopPoll rest (countPoll s) = .stop { countPoll s with seq := pollBody s.cfg ++ .test :: rest } := by
            simp only [loopPoll, (countPoll_kept s).cfg]
          rw [e]; exact loop rfl hb hp
      · rename_i hb; exact ready rfl (by simpa using hb)
    case setResult => exact result rfl
    case pollsZero =>
      simp only [micro]; split
      · exact assign id rfl nofun
      · exact assign (fun l => { l with polls := 0 }) rfl nofun
    case setVal => exact assign (fun l => { l with val := _ }) rfl nofun
    case setValTmp => exact assign (fun l => { l with val := l.tmp }) rfl nofun
    case setTgt => exact assign (fun l => { l with tgt := _ }) rfl nofun
    case latchRbv => exact assign (fun l => { l with rbv := l.smp }) rfl nofun
    case setPixel => exact assign (fun l => { l with page := _, mask := _, ctlr := _, col := _ }) rfl nofun
    case tmpRbv => exact assign (fun l => { l with tmp := l.rbv }) rfl nofun
    case combine => exact assign (fun l => { l with tmp := pixCombine _ l.tmp l.mask }) rfl nofun
    case setPg => exact assign (fun l => { l with pg := _ }) rfl nofun
    case setCn => exact assign (fun l => { l with cn := _ }) rfl nofun
    all_goals cases hm

/-- A step that goes on keeps what primitives and assignments keep. -/
theorem micro_passed {m : Micro} {rest : List Micro} {s t : State} (h : micro m rest s = .go t) : Passed s t := by
  revert h
  refine micro_cases (P := fun f => f = .go t → Passed s t) (fun _ _ _ h => (nomatch h)) ?_ (fun _ _ _ h => (nomatch h)) ?_ ?_ ?_
    (fun _ _ _ h => (nomatch h)) (fun _ _ h => (nomatch h)) (fun _ _ _ h => (nomatch h))
  · intro p hp _ h; cases h; exact primOf_passed hp s
  · intro f _ _ h; cases h; exact ⟨rfl, rfl, rfl, rfl, rfl, ⟨0, rfl⟩, List.suffix_refl _, List.suffix_refl _⟩
  · intro _ h; cases h; exact ⟨rfl, rfl, rfl, rfl, rfl, ⟨0, rfl⟩, List.suffix_refl _, List.suffix_refl _⟩
  · intro _ _ h; cases h; exact countPoll_passed s

theorem runGo_passed {p : List Micro} {s t : State} (h : runGo p s = some t) : Passed s t := by
  induction p generalizing s with
  | nil => cases h; exact Passed.refl _
  | cons m rest ih =>
    unfold runGo at h
    split at h
    · rename_i u hu; exact (micro_passed hu).trans (ih h)
    · cases h

/-- The induction over a run: what holds with `p` still to be executed, and what every way out of the run ends in. -/
theorem run_cases {I : List Micro → State → Prop} {E : State → Prop} (done : ∀ s, I [] s → E (complete s))
    (struck : ∀ m rest s, I (m :: rest) s → s.slot.reset = true → ∀ u, (u = s ∨ m = .test ∧ u = countPoll s) →
      E (engineReset u.slot u.arrive))
    (prim : ∀ m rest s p, I (m :: rest) s → primOf s m = some p → (p s.slot s.arrive).protoFault = none →
      I rest (p s.slot s.arrive))
    (fault : ∀ m rest s p, I (m :: rest) s → primOf s m = some p → (p s.slot s.arrive).protoFault.isSome = true →
      E { p s.slot s.arrive with seq := rest })
    (assign : ∀ m rest s (f : Locals → Locals), I (m :: rest) s → primOf s m = none → m ≠ .test →
      I rest { s with loc := f s.loc })
    (result : ∀ rest s, I (.setResult :: rest) s → I rest { s with result := s.loc.rbv })
    (ready : ∀ rest s, I (.test :: rest) s → showsBusy s.cfg.busyMask s.loc.smp = false → I rest (countPoll s))
    (loop : ∀ rest s, I (.test :: rest) s → showsBusy s.cfg.busyMask s.loc.smp = true →
      E { countPoll s with seq := pollBody s.cfg ++ .test :: rest })
    (dead : ∀ rest s, I (.test :: rest) s →
      (setDir .output (countPoll s).slot (countPoll s).arrive).protoFault.isSome = true →
      E { setDir .output (countPoll s).slot (countPoll s).arrive with seq := [] })
    (fail : ∀ rest s, I (.test :: rest) s → showsBusy s.cfg.busyMask s.loc.smp = true →
      s.cfg.pollLimit = some (countPoll s).loc.polls →
      E (raiseUnresponsive (setDir .output (countPoll s).slot (countPoll s).arrive))) :
    ∀ (prog : List Micro) (s : State), I prog s → E (runSeq prog s) := by
  refine runSeq_rec done ?_
  intro m rest s h
  refine micro_cases (P := fun f => (∀ t, f = .go t → I rest t) ∧ (∀ t, f = .stop t → E t)) ?_ ?_ ?_ ?_ ?_ ?_ ?_ ?_ ?_
  · intro hr u hu
    exact ⟨fun t e => (nomatch e), fun t e => (by cases e; exact struck m rest s h hr u hu)⟩
  · intro p hp hf; exact ⟨fun t e => (by cases e; exact prim m rest s p h hp hf), fun t e => (nomatch e)⟩
  · intro p hp hf; exact ⟨fun t e => (nomatch e), fun t e => (by cases e; exact fault m rest s p h hp hf)⟩
  · intro f h1 h2; exact ⟨fun t e => (by cases e; exact assign m rest s f h h1 h2), fun t e => (nomatch e)⟩
  · rintro rfl; exact ⟨fun t e => (by cases e; exact result rest s h), fun t e => (nomatch e)⟩
  · rintro rfl hb; exact ⟨fun t e => (by cases e; exact ready rest s h hb), fun t e => (nomatch e)⟩
  · rintro rfl hb _; exact ⟨fun t e => (nomatch e), fun t e => (by cases e; exact loop rest s h hb)⟩
  · rintro rfl hf; exact ⟨fun t e => (nomatch e), fun t e => (by cases e; exact dead rest s h hf)⟩
  · rintro rfl hb hp; exact ⟨fun t e => (nomatch e), fun t e => (by cases e; exact fail rest s h hb hp)⟩

/-- The trace only grows: what a run has executed stays in the trace it leaves (R38). -/
theorem runSeq_trace (p : List Micro) (s : State) : s.trace <:+ (runSeq p s).trace := by
  have reset : ∀ x : State, s.trace <:+ x.trace → s.trace <:+ (engineReset x.slot x.arrive).trace := by
    intro x h
    rw [show (engineReset x.slot x.arrive).trace = x.trace by simp [engineReset]]
    exact h
  refine run_cases (I := fun _ u => s.trace <:+ u.trace) (E := fun u => s.trace <:+ u.trace) (fun _ h => h)
    ?_ ?_ ?_ (fun _ _ _ _ h _ _ => h) (fun _ _ h => h) ?_ ?_ ?_ ?_ p s (List.suffix_refl _)
  · rintro m r v h _ x (rfl | ⟨_, rfl⟩)
    · exact reset _ h
    · exact reset _ (h.trans (countPoll_passed v).trace)
  · exact fun m r v q h hp _ => h.trans (primOf_passed hp v).trace
  · exact fun m r v q h hp _ => h.trans (primOf_passed hp v).trace
  · exact fun r v h _ => h.trans (countPoll_passed v).trace
  · exact fun r v h _ => h.trans (countPoll_passed v).trace
  · exact fun r v h _ => h.trans ((countPoll_passed v).trans (passed_setDir .output _)).trace
  · exact fun r v h _ _ => h.trans ((countPoll_passed v).trans (passed_setDir .output _)).trace

end Sys2Proof.Machine
end

