-- ==== Sys2Proof/Laws/Aside.lean ====
section
/-! SUPPORT. The sequencer reads neither the host's list nor the steps it holds: a run is the same whatever stands
there, and only what it writes itself differs (R32, R37). -/

namespace Sys2Proof.Machine

/-- Other steps held, another host's list, and other operation-local registers. -/
def State.around (q : List Micro) (l : List HostMove) (k : Locals) (s : State) : State :=
  { s with seq := q, host := l, loc := k }

/-- Other steps held, and another host's list. -/
def State.aside (q : List Micro) (l : List HostMove) (s : State) : State := s.around q l s.loc

/-- Another host's list. -/
def State.hosted (l : List HostMove) (s : State) : State := { s with host := l }

variable {q : List Micro} {l : List HostMove} {k : Locals}

theorem around_setCtl (s : State) (c : Ctl) (x : Controller) :
    (s.setCtl c x).around q l k = (s.around q l k).setCtl c x := by cases c <;> rfl

theorem around_ctl (s : State) (c : Ctl) : (s.around q l k).ctl c = s.ctl c := by cases c <;> rfl

theorem around_readyStep (s : State) (c : Ctl) : readyStep c (s.around q l k) = (readyStep c s).around q l k := by
  cases c <;> rfl

theorem around_envMoves (e : EnvSlot) (s : State) : envMoves e (s.around q l k) = (envMoves e s).around q l k := by
  unfold envMoves
  cases e.ready1 <;> cases e.ready2 <;> rfl

theorem around_arrive (s : State) : (s.around q l k).arrive = s.arrive.around q l k :=
  around_envMoves s.slot { s with env := s.env.tail }

theorem around_mayGoBusy (e : EnvSlot) (c : Ctl) (s : State) :
    mayGoBusy e c (s.around q l k) = (mayGoBusy e c s).around q l k := by
  unfold mayGoBusy; split
  · rw [around_setCtl, around_ctl]
  · rfl

theorem around_actOn (d : PulseKind) (c : Ctl) (b : Byte) (s : State) :
    actOn d c b (s.around q l k) = (actOn d c b s).around q l k := by cases d <;> cases c <;> rfl

theorem around_receive (e : EnvSlot) (p : Pulse) (c : Ctl) (b : Byte) (s : State) :
    receive e p c b (s.around q l k) = (receive e p c b s).around q l k := by
  unfold receive
  rw [around_ctl]
  split
  · rfl
  split
  · rfl
  split
  · rfl
  · rw [around_actOn, around_mayGoBusy]

theorem around_pulseEvent (e : EnvSlot) (s : State) : pulseEvent e (s.around q l k) = (pulseEvent e s).around q l k :=
  (congrArg _ (around_receive e _ _ _ { s with pulses := s.pulseRecord :: s.pulses, draws := s.draws + 2 })).trans
    (around_receive ..)

theorem around_releaseReset (e : EnvSlot) (c : Ctl) (s : State) :
    releaseReset e c (s.around q l k) = (releaseReset e c s).around q l k := by cases c <;> rfl

theorem around_updateCtrl (e : EnvSlot) (v : Byte) (s : State) :
    updateCtrl e v (s.around q l k) = (updateCtrl e v s).around q l k := by
  have hp : (if (s.flagE && !flagIn v s.cfg.mE) = true then pulseEvent e (s.around q l k) else s.around q l k) =
      (if (s.flagE && !flagIn v s.cfg.mE) = true then pulseEvent e s else s).around q l k := by
    split
    · exact around_pulseEvent e s
    · rfl
  unfold updateCtrl
  show (if (!s.flagRST && flagIn v s.cfg.mRST) = true then releaseReset e .two (releaseReset e .one
      { (if (s.flagE && !flagIn v s.cfg.mE) = true then pulseEvent e (s.around q l k) else s.around q l k) with ctrl := v })
    else { (if (s.flagE && !flagIn v s.cfg.mE) = true then pulseEvent e (s.around q l k) else s.around q l k) with
      ctrl := v }) = _
  rw [hp]
  dsimp only
  generalize (if (s.flagE && !flagIn v s.cfg.mE) = true then pulseEvent e s else s) = u
  split
  · exact (congrArg _ (around_releaseReset e .one { u with ctrl := v })).trans (around_releaseReset ..)
  · rfl

theorem around_engineReset (e : EnvSlot) (s : State) :
    engineReset e (s.around q l k) = (engineReset e s).hosted l := by
  unfold engineReset
  rw [around_updateCtrl]
  rfl

theorem aside_arrive (s : State) : (s.aside q l).arrive = s.arrive.aside q l := by
  rw [State.aside, around_arrive, State.aside, arrive_loc]

theorem aside_updateCtrl (e : EnvSlot) (v : Byte) (s : State) :
    updateCtrl e v (s.aside q l) = (updateCtrl e v s).aside q l := by
  rw [State.aside, around_updateCtrl, State.aside, updateCtrl_loc]

theorem aside_engineReset (e : EnvSlot) (s : State) : engineReset e (s.aside q l) = (engineReset e s).hosted l :=
  around_engineReset e s

/-- A flow on the other list: what stops has written the steps it holds itself. -/
def Flow.aside (q : List Micro) (l : List HostMove) : Flow → Flow
  | .go s => .go (s.aside q l)
  | .stop s => .stop (s.hosted l)

theorem aside_primitive {p : EnvSlot → State → State} (h : ∀ e u, p e (u.aside q l) = (p e u).aside q l)
    (rest : List Micro) (s : State) : primitive p rest (s.aside q l) = (primitive p rest s).aside q l := by
  have ha : envMoves (s.aside q l).slot { s.aside q l with env := (s.aside q l).env.tail } = s.arrive.aside q l :=
    aside_arrive s
  unfold primitive
  dsimp only
  rw [ha]
  show (if s.slot.reset = true then Flow.stop (engineReset s.slot (s.arrive.aside q l))
    else if (p s.slot (s.arrive.aside q l)).protoFault.isSome = true then
      Flow.stop { p s.slot (s.arrive.aside q l) with seq := rest } else Flow.go (p s.slot (s.arrive.aside q l))) = _
  rw [h, aside_engineReset]
  show _ = Flow.aside q l (if s.slot.reset = true then Flow.stop (engineReset s.slot s.arrive)
    else if (p s.slot s.arrive).protoFault.isSome = true then
      Flow.stop { p s.slot s.arrive with seq := rest } else Flow.go (p s.slot s.arrive))
  generalize p s.slot s.arrive = u
  split
  · rfl
  · show (if u.protoFault.isSome = true then _ else _) = _
    split <;> rfl

theorem aside_countPoll (s : State) : countPoll (s.aside q l) = (countPoll s).aside q l := by
  have h : (s.aside q l).cfg.pollLimit = s.cfg.pollLimit := rfl
  unfold countPoll
  rw [h]
  split <;> rfl

/-- One step of a sequence, the lists aside. -/
theorem aside_micro (m : Micro) (rest : List Micro) (s : State) :
    micro m rest (s.aside q l) = (micro m rest s).aside q l := by
  cases m
  case ctrlSet v => exact aside_primitive (fun e u => congrArg (record _) (aside_updateCtrl ..)) rest s
  case ctrlClear v => exact aside_primitive (fun e u => congrArg (record _) (aside_updateCtrl ..)) rest s
  case select t => exact aside_primitive (fun e u => congrArg (record _) (aside_updateCtrl ..)) rest s
  case selectTgt => exact aside_primitive (fun e u => congrArg (record _) (aside_updateCtrl ..)) rest s
  case setDir d => exact aside_primitive (p := setDir d) (fun _ _ => rfl) rest s
  case driveVal => exact aside_primitive (p := drive s.loc.val) (fun _ _ => rfl) rest s
  case driveZero => exact aside_primitive (p := drive 0x00) (fun _ _ => rfl) rest s
  case sample => exact aside_primitive (p := sample) (fun _ u => by cases u; rfl) rest s
  case delay k => exact aside_primitive (p := delay k) (fun _ _ => rfl) rest s
  case test =>
    simp only [micro, pollTest, aside_countPoll]
    have h1 : (s.aside q l).cfg = s.cfg := rfl
    have h2 : (s.aside q l).loc = s.loc := rfl
    have h3 : ((countPoll s).aside q l).loc = (countPoll s).loc := rfl
    rw [h1, h2, h3]
    split
    · split
      · unfold failWait
        rw [aside_primitive (p := setDir .output) (fun _ _ => rfl)]
        cases primitive (setDir .output) [] (countPoll s) <;> rfl
      · rfl
    · rfl
  case pollsZero =>
    have h1 : (s.aside q l).cfg = s.cfg := rfl
    simp only [micro, h1]
    split <;> rfl
  all_goals rfl

/-- The run of a sequence, the lists aside. -/
theorem aside_runSeq (p : List Micro) (s : State) : runSeq p (s.aside q l) = (runSeq p s).hosted l := by
  induction p generalizing s with
  | nil => rfl
  | cons m rest ih =>
    unfold runSeq
    rw [aside_micro]
    cases micro m rest s with
    | go t => exact ih t
    | stop t => rfl

end Sys2Proof.Machine
end

