-- ==== Sys2Proof/Laws/Commands.lean ====
section
/-! SUPPORT. The engine's five commands as the reference controller decodes them (R60), for command bytes its
patterns tell apart. -/

namespace Sys2Proof.Machine

variable {c : Config}

theorem and_or_base (b x m : Byte) (h : x &&& m = 0) : (b ||| x) &&& m = b &&& m := by
  have : (b ||| x) &&& m = (b &&& m) ||| (x &&& m) := by
    apply BitVec.eq_of_getLsbD_eq; intro i _; simp [Bool.and_or_distrib_right]
  rw [this, h]; simp

theorem wf_setAddress (w : c.wf = true) : c.cmdSetAddress &&& 0x3F = 0 := by
  simp only [Config.wf, Bool.and_eq_true, beq_iff_eq] at w; exact w.1.1.2

theorem wf_setPage (w : c.wf = true) : c.cmdSetPage &&& 0x07 = 0 := by
  simp only [Config.wf, Bool.and_eq_true, beq_iff_eq] at w; exact w.1.2

theorem col_high (col : BitVec 6) : (col.setWidth 8 : Byte) &&& 0xC0 = 0 := by
  revert col; decide

/-- A base with its low bits zero is what the mask of its high bits leaves. -/
theorem base_low {b m : Byte} (h : b &&& ~~~m = 0) : b &&& m = b := by
  apply BitVec.eq_of_getLsbD_eq
  intro i hi
  have h' : (b &&& ~~~m).getLsbD i = (0 : Byte).getLsbD i := by rw [h]
  simp only [BitVec.getLsbD_and, BitVec.getLsbD_not, hi, decide_true, Bool.true_and, BitVec.ofNat_eq_ofNat,
    BitVec.getLsbD_zero] at h' ⊢
  cases hb : b.getLsbD i <;> cases hm : m.getLsbD i <;> simp_all

/-- The operand bits of a command byte. -/
theorem operand_bits {n : Nat} {b : Byte} (hn : n ≤ 8) (x : BitVec n) (h : b.extractLsb' 0 n = 0) :
    (b ||| x.setWidth 8).extractLsb' 0 n = x := by
  apply BitVec.eq_of_getLsbD_eq
  intro i hi
  have h' : (b.extractLsb' 0 n).getLsbD i = (0 : BitVec n).getLsbD i := by rw [h]
  simp only [BitVec.getLsbD_extractLsb', hi, decide_true, Bool.true_and, Nat.zero_add, BitVec.ofNat_eq_ofNat,
    BitVec.getLsbD_zero] at h'
  simp only [BitVec.getLsbD_extractLsb', hi, decide_true, Bool.true_and, Nat.zero_add, BitVec.getLsbD_or, h',
    Bool.false_or, BitVec.getLsbD_setWidth, show i < 8 by omega]

theorem low6 {b : Byte} (h : b &&& 0x3F = 0) : b.extractLsb' 0 6 = 0 := by
  have : ∀ b : Byte, b &&& 0x3F = 0 → b.extractLsb' 0 6 = 0 := by decide +kernel
  exact this b h

theorem low3 {b : Byte} (h : b &&& 0x07 = 0) : b.extractLsb' 0 3 = 0 := by
  have : ∀ b : Byte, b &&& 0x07 = 0 → b.extractLsb' 0 3 = 0 := by decide +kernel
  exact this b h

theorem page_high (page : BitVec 3) : (page.setWidth 8 : Byte) &&& 0xC0 = 0 ∧ (page.setWidth 8 : Byte) &&& 0xF8 = 0 := by
  revert page; decide

/-- Set address (column): the position's column becomes the operand (R60). -/
theorem commandEffect_setAddress (w : c.wf = true) (col : BitVec 6) (k : Controller) :
    commandEffect c (setAddressCmd c col) k = { k with ya := col } := by
  have h1 : setAddressCmd c col &&& 0xC0 = c.cmdSetAddress := by
    rw [setAddressCmd, and_or_base _ _ _ (col_high col)]
    exact base_low (m := 0xC0) (wf_setAddress w)
  rw [commandEffect, if_pos h1, setAddressCmd, operand_bits (by omega) col (low6 (wf_setAddress w))]

/-- Set page: the position's page becomes the operand (R60). -/
theorem commandEffect_setPage (w : c.wf = true) (r : c.refDecodes = true) (page : BitVec 3) (k : Controller) :
    commandEffect c (setPageCmd c page) k = { k with xp := page } := by
  have h0 : c.cmdSetPage &&& 0xC0 ≠ c.cmdSetAddress := by
    simp only [Config.refDecodes, Bool.and_eq_true, bne_iff_ne] at r; exact r.1.1.1.1.1
  have h1 : setPageCmd c page &&& 0xC0 ≠ c.cmdSetAddress := by
    rw [setPageCmd, and_or_base _ _ _ (page_high page).1]; exact h0
  have h2 : setPageCmd c page &&& 0xF8 = c.cmdSetPage := by
    rw [setPageCmd, and_or_base _ _ _ (page_high page).2]
    exact base_low (m := 0xF8) (wf_setPage w)
  rw [commandEffect, if_neg h1, if_pos h2, setPageCmd, operand_bits (by omega) page (low3 (wf_setPage w))]

/-- Start line 0 (R60, R221). -/
theorem commandEffect_startLine (r : c.refDecodes = true) (k : Controller) :
    commandEffect c (c.cmdStartLine ||| 0) k = { k with zl := 0 } := by
  simp only [Config.refDecodes, Bool.and_eq_true, bne_iff_ne, beq_iff_eq] at r
  have e : c.cmdStartLine ||| 0 = c.cmdStartLine := by simp
  have hz : c.cmdStartLine.extractLsb' 0 6 = 0 := by
    have : ∀ b : Byte, b &&& 0xC0 = b → b.extractLsb' 0 6 = 0 := by decide +kernel
    exact this _ r.1.1.1.1.2
  rw [e, commandEffect, if_neg, if_neg r.1.1.2, if_pos r.1.1.1.1.2, hz]
  rw [r.1.1.1.1.2]; exact r.1.1.1.2

/-- Display on (R60). -/
theorem commandEffect_displayOn (r : c.refDecodes = true) (k : Controller) :
    commandEffect c c.cmdDisplayOn k = { k with don := true } := by
  simp only [Config.refDecodes, List.all_cons, Bool.and_eq_true, bne_iff_ne, beq_iff_eq] at r
  have h := r.1.2.1
  rw [commandEffect, if_neg h.1.1, if_neg h.1.2, if_neg h.2, if_pos rfl]

/-- Display off (R60). -/
theorem commandEffect_displayOff (r : c.refDecodes = true) (k : Controller) :
    commandEffect c c.cmdDisplayOff k = { k with don := false } := by
  simp only [Config.refDecodes, List.all_cons, Bool.and_eq_true, bne_iff_ne, beq_iff_eq] at r
  have h := r.1.2.2.1
  rw [commandEffect, if_neg h.1.1, if_neg h.1.2, if_neg h.2, if_neg (Ne.symm r.2), if_pos rfl]

end Sys2Proof.Machine
end

