-- ==== Sys2Proof/Laws/Quiet.lean ====
section
/-! SUPPORT. Each step of a sequence in a quiet state: exactly what it changes. -/

namespace Sys2Proof.Machine

variable {s : State} {rest : List Micro}

/-- The environment's slots that make nothing happen. -/
def calmSlots (l : List EnvSlot) : Prop := l.all (fun e => !e.reset && !e.busy1 && !e.busy2) = true

theorem calmSlots_tail {l : List EnvSlot} (h : calmSlots l) : calmSlots l.tail := by
  unfold calmSlots at h ⊢
  cases l with
  | nil => rfl
  | cons e r => simp only [List.all_cons, Bool.and_eq_true] at h; simpa using h.2

theorem calmSlots_drop {l : List EnvSlot} (h : calmSlots l) (n : Nat) : calmSlots (l.drop n) := by
  unfold calmSlots at h ⊢
  rw [List.all_eq_true] at h ⊢
  exact fun e he => h e (List.mem_of_mem_drop he)

/-- Quietness, field by field. -/
theorem quiet_iff {s : State} : Quiet s ↔
    s.cfg.wf = true ∧ s.protoFault = none ∧ calmSlots s.env ∧ s.c1.busy = false ∧ s.c2.busy = false :=
  ⟨fun q => ⟨q.wf, q.fault, q.calm, q.ready1, q.ready2⟩, fun ⟨a, b, c, d, e⟩ => ⟨a, b, c, d, e⟩⟩

/-! ## Small updates, each with its field lemmas -/

/-- A primitive is done: its slot is used up and it is recorded. -/
def tick (p : Prim) (s : State) : State := { s with env := s.env.tail, trace := p :: s.trace }
/-- Another value of CTRL. -/
def State.withCtrl (s : State) (v : Byte) : State := { s with ctrl := v }
/-- Another direction. -/
def State.withDir (s : State) (d : Dir) : State := { s with dir := d }
/-- Another value of DOUT. -/
def State.withDout (s : State) (v : Byte) : State := { s with dout := v }
/-- Other operation-local registers. -/
def State.withLoc (s : State) (l : Locals) : State := { s with loc := l }
/-- `n` more free values drawn. -/
def State.drawn (s : State) (n : Nat) : State := { s with draws := s.draws + n }
/-- A pulse event recorded. -/
def State.pulsed (s : State) (p : Pulse) : State := { s with pulses := p :: s.pulses, draws := s.draws + 2 }
/-- Other controllers and memory. -/
def State.withDisplay (s : State) (k1 k2 : Controller) (m : Memory) : State := { s with c1 := k1, c2 := k2, mem := m }

/-- Another environment. -/
def State.withEnv (s : State) (l : List EnvSlot) : State := { s with env := l }

@[simp] theorem withEnv_cfg (s : State) (l : List EnvSlot) : (s.withEnv l).cfg = s.cfg := rfl
@[simp] theorem withEnv_ctrl (s : State) (l : List EnvSlot) : (s.withEnv l).ctrl = s.ctrl := rfl
@[simp] theorem withEnv_dout (s : State) (l : List EnvSlot) : (s.withEnv l).dout = s.dout := rfl
@[simp] theorem withEnv_dir (s : State) (l : List EnvSlot) : (s.withEnv l).dir = s.dir := rfl
@[simp] theorem withEnv_status (s : State) (l : List EnvSlot) : (s.withEnv l).status = s.status := rfl
@[simp] theorem withEnv_result (s : State) (l : List EnvSlot) : (s.withEnv l).result = s.result := rfl
@[simp] theorem withEnv_req (s : State) (l : List EnvSlot) : (s.withEnv l).req = s.req := rfl
@[simp] theorem withEnv_seq (s : State) (l : List EnvSlot) : (s.withEnv l).seq = s.seq := rfl
@[simp] theorem withEnv_loc (s : State) (l : List EnvSlot) : (s.withEnv l).loc = s.loc := rfl
@[simp] theorem withEnv_c1 (s : State) (l : List EnvSlot) : (s.withEnv l).c1 = s.c1 := rfl
@[simp] theorem withEnv_c2 (s : State) (l : List EnvSlot) : (s.withEnv l).c2 = s.c2 := rfl
@[simp] theorem withEnv_mem (s : State) (l : List EnvSlot) : (s.withEnv l).mem = s.mem := rfl
@[simp] theorem withEnv_protoFault (s : State) (l : List EnvSlot) : (s.withEnv l).protoFault = s.protoFault := rfl
@[simp] theorem withEnv_host (s : State) (l : List EnvSlot) : (s.withEnv l).host = s.host := rfl
@[simp] theorem withEnv_draws (s : State) (l : List EnvSlot) : (s.withEnv l).draws = s.draws := rfl
@[simp] theorem withEnv_trace (s : State) (l : List EnvSlot) : (s.withEnv l).trace = s.trace := rfl
@[simp] theorem withEnv_pulses (s : State) (l : List EnvSlot) : (s.withEnv l).pulses = s.pulses := rfl
@[simp] theorem withEnv_env (s : State) (l : List EnvSlot) : (s.withEnv l).env = l := rfl
@[simp] theorem tick_cfg (s : State) (p : Prim) : (tick p s).cfg = s.cfg := rfl
@[simp] theorem tick_ctrl (s : State) (p : Prim) : (tick p s).ctrl = s.ctrl := rfl
@[simp] theorem tick_dout (s : State) (p : Prim) : (tick p s).dout = s.dout := rfl
@[simp] theorem tick_dir (s : State) (p : Prim) : (tick p s).dir = s.dir := rfl
@[simp] theorem tick_status (s : State) (p : Prim) : (tick p s).status = s.status := rfl
@[simp] theorem tick_result (s : State) (p : Prim) : (tick p s).result = s.result := rfl
@[simp] theorem tick_req (s : State) (p : Prim) : (tick p s).req = s.req := rfl
@[simp] theorem tick_seq (s : State) (p : Prim) : (tick p s).seq = s.seq := rfl
@[simp] theorem tick_loc (s : State) (p : Prim) : (tick p s).loc = s.loc := rfl
@[simp] theorem tick_c1 (s : State) (p : Prim) : (tick p s).c1 = s.c1 := rfl
@[simp] theorem tick_c2 (s : State) (p : Prim) : (tick p s).c2 = s.c2 := rfl
@[simp] theorem tick_mem (s : State) (p : Prim) : (tick p s).mem = s.mem := rfl
@[simp] theorem tick_protoFault (s : State) (p : Prim) : (tick p s).protoFault = s.protoFault := rfl
@[simp] theorem tick_host (s : State) (p : Prim) : (tick p s).host = s.host := rfl
@[simp] theorem tick_env (s : State) (p : Prim) : (tick p s).env = s.env.tail := rfl
@[simp] theorem tick_draws (s : State) (p : Prim) : (tick p s).draws = s.draws := rfl
@[simp] theorem tick_trace (s : State) (p : Prim) : (tick p s).trace = p :: s.trace := rfl
@[simp] theorem tick_pulses (s : State) (p : Prim) : (tick p s).pulses = s.pulses := rfl
@[simp] theorem withCtrl_cfg (s : State) (v : Byte) : (s.withCtrl v).cfg = s.cfg := rfl
@[simp] theorem withCtrl_ctrl (s : State) (v : Byte) : (s.withCtrl v).ctrl = v := rfl
@[simp] theorem withCtrl_dout (s : State) (v : Byte) : (s.withCtrl v).dout = s.dout := rfl
@[simp] theorem withCtrl_dir (s : State) (v : Byte) : (s.withCtrl v).dir = s.dir := rfl
@[simp] theorem withCtrl_status (s : State) (v : Byte) : (s.withCtrl v).status = s.status := rfl
@[simp] theorem withCtrl_result (s : State) (v : Byte) : (s.withCtrl v).result = s.result := rfl
@[simp] theorem withCtrl_req (s : State) (v : Byte) : (s.withCtrl v).req = s.req := rfl
@[simp] theorem withCtrl_seq (s : State) (v : Byte) : (s.withCtrl v).seq = s.seq := rfl
@[simp] theorem withCtrl_loc (s : State) (v : Byte) : (s.withCtrl v).loc = s.loc := rfl
@[simp] theorem withCtrl_c1 (s : State) (v : Byte) : (s.withCtrl v).c1 = s.c1 := rfl
@[simp] theorem withCtrl_c2 (s : State) (v : Byte) : (s.withCtrl v).c2 = s.c2 := rfl
@[simp] theorem withCtrl_mem (s : State) (v : Byte) : (s.withCtrl v).mem = s.mem := rfl
@[simp] theorem withCtrl_protoFault (s : State) (v : Byte) : (s.withCtrl v).protoFault = s.protoFault := rfl
@[simp] theorem withCtrl_host (s : State) (v : Byte) : (s.withCtrl v).host = s.host := rfl
@[simp] theorem withCtrl_env (s : State) (v : Byte) : (s.withCtrl v).env = s.env := rfl
@[simp] theorem withCtrl_draws (s : State) (v : Byte) : (s.withCtrl v).draws = s.draws := rfl
@[simp] theorem withCtrl_trace (s : State) (v : Byte) : (s.withCtrl v).trace = s.trace := rfl
@[simp] theorem withCtrl_pulses (s : State) (v : Byte) : (s.withCtrl v).pulses = s.pulses := rfl
@[simp] theorem withDir_cfg (s : State) (d : Dir) : (s.withDir d).cfg = s.cfg := rfl
@[simp] theorem withDir_ctrl (s : State) (d : Dir) : (s.withDir d).ctrl = s.ctrl := rfl
@[simp] theorem withDir_dout (s : State) (d : Dir) : (s.withDir d).dout = s.dout := rfl
@[simp] theorem withDir_dir (s : State) (d : Dir) : (s.withDir d).dir = d := rfl
@[simp] theorem withDir_status (s : State) (d : Dir) : (s.withDir d).status = s.status := rfl
@[simp] theorem withDir_result (s : State) (d : Dir) : (s.withDir d).result = s.result := rfl
@[simp] theorem withDir_req (s : State) (d : Dir) : (s.withDir d).req = s.req := rfl
@[simp] theorem withDir_seq (s : State) (d : Dir) : (s.withDir d).seq = s.seq := rfl
@[simp] theorem withDir_loc (s : State) (d : Dir) : (s.withDir d).loc = s.loc := rfl
@[simp] theorem withDir_c1 (s : State) (d : Dir) : (s.withDir d).c1 = s.c1 := rfl
@[simp] theorem withDir_c2 (s : State) (d : Dir) : (s.withDir d).c2 = s.c2 := rfl
@[simp] theorem withDir_mem (s : State) (d : Dir) : (s.withDir d).mem = s.mem := rfl
@[simp] theorem withDir_protoFault (s : State) (d : Dir) : (s.withDir d).protoFault = s.protoFault := rfl
@[simp] theorem withDir_host (s : State) (d : Dir) : (s.withDir d).host = s.host := rfl
@[simp] theorem withDir_env (s : State) (d : Dir) : (s.withDir d).env = s.env := rfl
@[simp] theorem withDir_draws (s : State) (d : Dir) : (s.withDir d).draws = s.draws := rfl
@[simp] theorem withDir_trace (s : State) (d : Dir) : (s.withDir d).trace = s.trace := rfl
@[simp] theorem withDir_pulses (s : State) (d : Dir) : (s.withDir d).pulses = s.pulses := rfl
@[simp] theorem withDout_cfg (s : State) (v : Byte) : (s.withDout v).cfg = s.cfg := rfl
@[simp] theorem withDout_ctrl (s : State) (v : Byte) : (s.withDout v).ctrl = s.ctrl := rfl
@[simp] theorem withDout_dout (s : State) (v : Byte) : (s.withDout v).dout = v := rfl
@[simp] theorem withDout_dir (s : State) (v : Byte) : (s.withDout v).dir = s.dir := rfl
@[simp] theorem withDout_status (s : State) (v : Byte) : (s.withDout v).status = s.status := rfl
@[simp] theorem withDout_result (s : State) (v : Byte) : (s.withDout v).result = s.result := rfl
@[simp] theorem withDout_req (s : State) (v : Byte) : (s.withDout v).req = s.req := rfl
@[simp] theorem withDout_seq (s : State) (v : Byte) : (s.withDout v).seq = s.seq := rfl
@[simp] theorem withDout_loc (s : State) (v : Byte) : (s.withDout v).loc = s.loc := rfl
@[simp] theorem withDout_c1 (s : State) (v : Byte) : (s.withDout v).c1 = s.c1 := rfl
@[simp] theorem withDout_c2 (s : State) (v : Byte) : (s.withDout v).c2 = s.c2 := rfl
@[simp] theorem withDout_mem (s : State) (v : Byte) : (s.withDout v).mem = s.mem := rfl
@[simp] theorem withDout_protoFault (s : State) (v : Byte) : (s.withDout v).protoFault = s.protoFault := rfl
@[simp] theorem withDout_host (s : State) (v : Byte) : (s.withDout v).host = s.host := rfl
@[simp] theorem withDout_env (s : State) (v : Byte) : (s.withDout v).env = s.env := rfl
@[simp] theorem withDout_draws (s : State) (v : Byte) : (s.withDout v).draws = s.draws := rfl
@[simp] theorem withDout_trace (s : State) (v : Byte) : (s.withDout v).trace = s.trace := rfl
@[simp] theorem withDout_pulses (s : State) (v : Byte) : (s.withDout v).pulses = s.pulses := rfl
@[simp] theorem withLoc_cfg (s : State) (l : Locals) : (s.withLoc l).cfg = s.cfg := rfl
@[simp] theorem withLoc_ctrl (s : State) (l : Locals) : (s.withLoc l).ctrl = s.ctrl := rfl
@[simp] theorem withLoc_dout (s : State) (l : Locals) : (s.withLoc l).dout = s.dout := rfl
@[simp] theorem withLoc_dir (s : State) (l : Locals) : (s.withLoc l).dir = s.dir := rfl
@[simp] theorem withLoc_status (s : State) (l : Locals) : (s.withLoc l).status = s.status := rfl
@[simp] theorem withLoc_result (s : State) (l : Locals) : (s.withLoc l).result = s.result := rfl
@[simp] theorem withLoc_req (s : State) (l : Locals) : (s.withLoc l).req = s.req := rfl
@[simp] theorem withLoc_seq (s : State) (l : Locals) : (s.withLoc l).seq = s.seq := rfl
@[simp] theorem withLoc_loc (s : State) (l : Locals) : (s.withLoc l).loc = l := rfl
@[simp] theorem withLoc_c1 (s : State) (l : Locals) : (s.withLoc l).c1 = s.c1 := rfl
@[simp] theorem withLoc_c2 (s : State) (l : Locals) : (s.withLoc l).c2 = s.c2 := rfl
@[simp] theorem withLoc_mem (s : State) (l : Locals) : (s.withLoc l).mem = s.mem := rfl
@[simp] theorem withLoc_protoFault (s : State) (l : Locals) : (s.withLoc l).protoFault = s.protoFault := rfl
@[simp] theorem withLoc_host (s : State) (l : Locals) : (s.withLoc l).host = s.host := rfl
@[simp] theorem withLoc_env (s : State) (l : Locals) : (s.withLoc l).env = s.env := rfl
@[simp] theorem withLoc_draws (s : State) (l : Locals) : (s.withLoc l).draws = s.draws := rfl
@[simp] theorem withLoc_trace (s : State) (l : Locals) : (s.withLoc l).trace = s.trace := rfl
@[simp] theorem withLoc_pulses (s : State) (l : Locals) : (s.withLoc l).pulses = s.pulses := rfl
@[simp] theorem drawn_cfg (s : State) (n : Nat) : (s.drawn n).cfg = s.cfg := rfl
@[simp] theorem drawn_ctrl (s : State) (n : Nat) : (s.drawn n).ctrl = s.ctrl := rfl
@[simp] theorem drawn_dout (s : State) (n : Nat) : (s.drawn n).dout = s.dout := rfl
@[simp] theorem drawn_dir (s : State) (n : Nat) : (s.drawn n).dir = s.dir := rfl
@[simp] theorem drawn_status (s : State) (n : Nat) : (s.drawn n).status = s.status := rfl
@[simp] theorem drawn_result (s : State) (n : Nat) : (s.drawn n).result = s.result := rfl
@[simp] theorem drawn_req (s : State) (n : Nat) : (s.drawn n).req = s.req := rfl
@[simp] theorem drawn_seq (s : State) (n : Nat) : (s.drawn n).seq = s.seq := rfl
@[simp] theorem drawn_loc (s : State) (n : Nat) : (s.drawn n).loc = s.loc := rfl
@[simp] theorem drawn_c1 (s : State) (n : Nat) : (s.drawn n).c1 = s.c1 := rfl
@[simp] theorem drawn_c2 (s : State) (n : Nat) : (s.drawn n).c2 = s.c2 := rfl
@[simp] theorem drawn_mem (s : State) (n : Nat) : (s.drawn n).mem = s.mem := rfl
@[simp] theorem drawn_protoFault (s : State) (n : Nat) : (s.drawn n).protoFault = s.protoFault := rfl
@[simp] theorem drawn_host (s : State) (n : Nat) : (s.drawn n).host = s.host := rfl
@[simp] theorem drawn_env (s : State) (n : Nat) : (s.drawn n).env = s.env := rfl
@[simp] theorem drawn_draws (s : State) (n : Nat) : (s.drawn n).draws = s.draws + n := rfl
@[simp] theorem drawn_trace (s : State) (n : Nat) : (s.drawn n).trace = s.trace := rfl
@[simp] theorem drawn_pulses (s : State) (n : Nat) : (s.drawn n).pulses = s.pulses := rfl
@[simp] theorem pulsed_cfg (s : State) (p : Pulse) : (s.pulsed p).cfg = s.cfg := rfl
@[simp] theorem pulsed_ctrl (s : State) (p : Pulse) : (s.pulsed p).ctrl = s.ctrl := rfl
@[simp] theorem pulsed_dout (s : State) (p : Pulse) : (s.pulsed p).dout = s.dout := rfl
@[simp] theorem pulsed_dir (s : State) (p : Pulse) : (s.pulsed p).dir = s.dir := rfl
@[simp] theorem pulsed_status (s : State) (p : Pulse) : (s.pulsed p).status = s.status := rfl
@[simp] theorem pulsed_result (s : State) (p : Pulse) : (s.pulsed p).result = s.result := rfl
@[simp] theorem pulsed_req (s : State) (p : Pulse) : (s.pulsed p).req = s.req := rfl
@[simp] theorem pulsed_seq (s : State) (p : Pulse) : (s.pulsed p).seq = s.seq := rfl
@[simp] theorem pulsed_loc (s : State) (p : Pulse) : (s.pulsed p).loc = s.loc := rfl
@[simp] theorem pulsed_c1 (s : State) (p : Pulse) : (s.pulsed p).c1 = s.c1 := rfl
@[simp] theorem pulsed_c2 (s : State) (p : Pulse) : (s.pulsed p).c2 = s.c2 := rfl
@[simp] theorem pulsed_mem (s : State) (p : Pulse) : (s.pulsed p).mem = s.mem := rfl
@[simp] theorem pulsed_protoFault (s : State) (p : Pulse) : (s.pulsed p).protoFault = s.protoFault := rfl
@[simp] theorem pulsed_host (s : State) (p : Pulse) : (s.pulsed p).host = s.host := rfl
@[simp] theorem pulsed_env (s : State) (p : Pulse) : (s.pulsed p).env = s.env := rfl
@[simp] theorem pulsed_draws (s : State) (p : Pulse) : (s.pulsed p).draws = s.draws + 2 := rfl
@[simp] theorem pulsed_trace (s : State) (p : Pulse) : (s.pulsed p).trace = s.trace := rfl
@[simp] theorem pulsed_pulses (s : State) (p : Pulse) : (s.pulsed p).pulses = p :: s.pulses := rfl
@[simp] theorem withDisplay_cfg (s : State) (k1 k2 : Controller) (m : Memory) : (s.withDisplay k1 k2 m).cfg = s.cfg := rfl
@[simp] theorem withDisplay_ctrl (s : State) (k1 k2 : Controller) (m : Memory) : (s.withDisplay k1 k2 m).ctrl = s.ctrl := rfl
@[simp] theorem withDisplay_dout (s : State) (k1 k2 : Controller) (m : Memory) : (s.withDisplay k1 k2 m).dout = s.dout := rfl
@[simp] theorem withDisplay_dir (s : State) (k1 k2 : Controller) (m : Memory) : (s.withDisplay k1 k2 m).dir = s.dir := rfl
@[simp] theorem withDisplay_status (s : State) (k1 k2 : Controller) (m : Memory) : (s.withDisplay k1 k2 m).status = s.status := rfl
@[simp] theorem withDisplay_result (s : State) (k1 k2 : Controller) (m : Memory) : (s.withDisplay k1 k2 m).result = s.result := rfl
@[simp] theorem withDisplay_req (s : State) (k1 k2 : Controller) (m : Memory) : (s.withDisplay k1 k2 m).req = s.req := rfl
@[simp] theorem withDisplay_seq (s : State) (k1 k2 : Controller) (m : Memory) : (s.withDisplay k1 k2 m).seq = s.seq := rfl
@[simp] theorem withDisplay_loc (s : State) (k1 k2 : Controller) (m : Memory) : (s.withDisplay k1 k2 m).loc = s.loc := rfl
@[simp] theorem withDisplay_c1 (s : State) (k1 k2 : Controller) (m : Memory) : (s.withDisplay k1 k2 m).c1 = k1 := rfl
@[simp] theorem withDisplay_c2 (s : State) (k1 k2 : Controller) (m : Memory) : (s.withDisplay k1 k2 m).c2 = k2 := rfl
@[simp] theorem withDisplay_mem (s : State) (k1 k2 : Controller) (m : Memory) : (s.withDisplay k1 k2 m).mem = m := rfl
@[simp] theorem withDisplay_protoFault (s : State) (k1 k2 : Controller) (m : Memory) : (s.withDisplay k1 k2 m).protoFault = s.protoFault := rfl
@[simp] theorem withDisplay_host (s : State) (k1 k2 : Controller) (m : Memory) : (s.withDisplay k1 k2 m).host = s.host := rfl
@[simp] theorem withDisplay_env (s : State) (k1 k2 : Controller) (m : Memory) : (s.withDisplay k1 k2 m).env = s.env := rfl
@[simp] theorem withDisplay_draws (s : State) (k1 k2 : Controller) (m : Memory) : (s.withDisplay k1 k2 m).draws = s.draws := rfl
@[simp] theorem withDisplay_trace (s : State) (k1 k2 : Controller) (m : Memory) : (s.withDisplay k1 k2 m).trace = s.trace := rfl
@[simp] theorem withDisplay_pulses (s : State) (k1 k2 : Controller) (m : Memory) : (s.withDisplay k1 k2 m).pulses = s.pulses := rfl

theorem Quiet.tick {s : State} (q : Quiet s) (p : Prim) : Quiet (tick p s) :=
  ⟨q.wf, q.fault, calmSlots_tail q.calm, q.ready1, q.ready2⟩
theorem Quiet.withCtrl {s : State} (q : Quiet s) (v : Byte) : Quiet (s.withCtrl v) :=
  ⟨q.wf, q.fault, q.calm, q.ready1, q.ready2⟩
theorem Quiet.withDir {s : State} (q : Quiet s) (d : Dir) : Quiet (s.withDir d) :=
  ⟨q.wf, q.fault, q.calm, q.ready1, q.ready2⟩
theorem Quiet.withDout {s : State} (q : Quiet s) (v : Byte) : Quiet (s.withDout v) :=
  ⟨q.wf, q.fault, q.calm, q.ready1, q.ready2⟩
theorem Quiet.withLoc {s : State} (q : Quiet s) (l : Locals) : Quiet (s.withLoc l) :=
  ⟨q.wf, q.fault, q.calm, q.ready1, q.ready2⟩
theorem Quiet.drawn {s : State} (q : Quiet s) (n : Nat) : Quiet (s.drawn n) :=
  ⟨q.wf, q.fault, q.calm, q.ready1, q.ready2⟩
theorem Quiet.pulsed {s : State} (q : Quiet s) (p : Pulse) : Quiet (s.pulsed p) :=
  ⟨q.wf, q.fault, q.calm, q.ready1, q.ready2⟩
theorem Quiet.withDisplay {s : State} (q : Quiet s) {k1 k2 : Controller} (m : Memory) (h1 : k1.busy = false)
    (h2 : k2.busy = false) : Quiet (s.withDisplay k1 k2 m) :=
  ⟨q.wf, q.fault, q.calm, h1, h2⟩

/-! ## Each step of a sequence -/

theorem primitive_quiet (q : Quiet s) (p : EnvSlot → State → State)
    (h : (p s.slot { s with env := s.env.tail }).protoFault = none) :
    primitive p rest s = .go (p s.slot { s with env := s.env.tail }) := by
  have hc := calm_head q.calm
  unfold primitive
  dsimp only
  rw [envMoves_ready (s := { s with env := s.env.tail }) _ q.ready1 q.ready2]
  simp [hc.1, h]

/-- `CtrlSet(m)` that does not raise RST. -/
theorem runGo_ctrlSet (q : Quiet s) (m : Byte) (h : s.flagRST = true ∨ flagIn m s.cfg.mRST = false) :
    runGo (.ctrlSet m :: rest) s =
      runGo rest (tick (.ctrlSet m) (s.withCtrl (s.ctrl ||| m))) := by
  have hu : updateCtrl s.slot (s.ctrl ||| m) { s with env := s.env.tail } =
      { s with ctrl := s.ctrl ||| m, env := s.env.tail } := by
    unfold updateCtrl
    have h1 : (flagIn s.ctrl s.cfg.mE && !flagIn (s.ctrl ||| m) s.cfg.mE) = false := by
      rw [flagIn_or]; cases flagIn s.ctrl s.cfg.mE <;> simp
    have h2 : (!flagIn s.ctrl s.cfg.mRST && flagIn (s.ctrl ||| m) s.cfg.mRST) = false := by
      rw [flagIn_or]
      rcases h with h | h
      · simp only [State.flagRST] at h; simp [h]
      · cases flagIn s.ctrl s.cfg.mRST <;> simp [h]
    simp [State.flagE, State.flagRST, h1, h2]
  have hp := primitive_quiet (rest := ([] : List Micro)) q (ctrlSet m) (by rw [ctrlSet, hu]; exact q.fault)
  simp only [runGo, micro, hp, ctrlSet, hu, record]; rfl

/-- `CtrlClear(m)` that does not lower E. -/
theorem runGo_ctrlClear (q : Quiet s) (m : Byte) (h : s.flagE = false ∨ flagIn m s.cfg.mE = false) :
    runGo (.ctrlClear m :: rest) s =
      runGo rest (tick (.ctrlClear m) (s.withCtrl (s.ctrl &&& ~~~m))) := by
  have hu : updateCtrl s.slot (s.ctrl &&& ~~~m) { s with env := s.env.tail } =
      { s with ctrl := s.ctrl &&& ~~~m, env := s.env.tail } := by
    unfold updateCtrl
    have h1 : (flagIn s.ctrl s.cfg.mE && !flagIn (s.ctrl &&& ~~~m) s.cfg.mE) = false := by
      rw [flagIn_and_not _ _ (Config.wf_oneHot_mE q.wf)]
      rcases h with h | h
      · simp only [State.flagE] at h; simp [h]
      · cases flagIn s.ctrl s.cfg.mE <;> simp [h]
    have h2 : (!flagIn s.ctrl s.cfg.mRST && flagIn (s.ctrl &&& ~~~m) s.cfg.mRST) = false := by
      rw [flagIn_and_not _ _ (Config.wf_oneHot_mRST q.wf)]
      cases flagIn s.ctrl s.cfg.mRST <;> simp
    simp [State.flagE, State.flagRST, h1, h2]
  have hp := primitive_quiet (rest := ([] : List Micro)) q (ctrlClear m) (by rw [ctrlClear, hu]; exact q.fault)
  simp only [runGo, micro, hp, ctrlClear, hu, record]; rfl

theorem deliver_protoFault (p : Pulse) (c : Ctl) (b : Byte) (s : State) :
    (deliver p c b s).protoFault = s.protoFault := by
  unfold deliver; split <;> simp

theorem quietPulse_protoFault (e : EnvSlot) (s : State) : (quietPulse e s).protoFault = s.protoFault := by
  simp [quietPulse, deliver_protoFault]

theorem deliver_env (p : Pulse) (c : Ctl) (b : Byte) (s : State) (l : List EnvSlot) :
    deliver p c b (s.withEnv l) = (deliver p c b s).withEnv l := by
  unfold deliver; split
  · cases p.kind <;> cases c <;> rfl
  · rfl

theorem quietPulse_env (e : EnvSlot) (s : State) (l : List EnvSlot) :
    quietPulse e (s.withEnv l) = (quietPulse e s).withEnv l := by
  unfold quietPulse
  rw [← deliver_env, ← deliver_env]
  rfl

@[simp] theorem deliver_keeps_env (p : Pulse) (c : Ctl) (b : Byte) (s : State) : (deliver p c b s).env = s.env := by
  unfold deliver; split <;> simp

@[simp] theorem deliver_keeps_trace (p : Pulse) (c : Ctl) (b : Byte) (s : State) :
    (deliver p c b s).trace = s.trace := by
  unfold deliver; split <;> simp

@[simp] theorem quietPulse_keeps_env (e : EnvSlot) (s : State) : (quietPulse e s).env = s.env := by
  simp [quietPulse]

@[simp] theorem quietPulse_keeps_trace (e : EnvSlot) (s : State) : (quietPulse e s).trace = s.trace := by
  simp [quietPulse]

/-- `CtrlClear(m)` that lowers E: the pulse event. -/
theorem runGo_ctrlClear_pulse (q : Quiet s) (m : Byte) (h : s.flagE = true) (hm : flagIn m s.cfg.mE = true) :
    runGo (.ctrlClear m :: rest) s =
      runGo rest (tick (.ctrlClear m) ((quietPulse s.slot s).withCtrl (s.ctrl &&& ~~~m))) := by
  have hc := calm_head q.calm
  have hu : updateCtrl s.slot (s.ctrl &&& ~~~m) (s.withEnv s.env.tail) =
      (quietPulse s.slot (s.withEnv s.env.tail)).withCtrl (s.ctrl &&& ~~~m) := by
    unfold updateCtrl
    rw [pulseEvent_quiet (s := s.withEnv s.env.tail) q.ready1 q.ready2 hc.2.1 hc.2.2]
    have h1 : (flagIn s.ctrl s.cfg.mE && !flagIn (s.ctrl &&& ~~~m) s.cfg.mE) = true := by
      rw [flagIn_and_not _ _ (Config.wf_oneHot_mE q.wf)]
      simp only [State.flagE] at h; simp [h, hm]
    have h2 : (!flagIn s.ctrl s.cfg.mRST && flagIn (s.ctrl &&& ~~~m) s.cfg.mRST) = false := by
      rw [flagIn_and_not _ _ (Config.wf_oneHot_mRST q.wf)]
      cases flagIn s.ctrl s.cfg.mRST <;> simp
    simp [State.flagE, State.flagRST, h1, h2, State.withCtrl]
  have hp := primitive_quiet (rest := ([] : List Micro)) q (ctrlClear m)
    (by change (record _ (updateCtrl _ _ (s.withEnv s.env.tail))).protoFault = none
        rw [hu]; exact (quietPulse_protoFault ..).trans q.fault)
  simp only [runGo, micro, hp]
  change runGo rest (record _ (updateCtrl _ _ (s.withEnv s.env.tail))) = _
  rw [hu, quietPulse_env]
  simp [record, tick, State.withCtrl, State.withEnv]

/-- A pulse event that is a status read changes neither controller (R63). -/
theorem quietPulse_statusRead (e : EnvSlot) (s : State) (h : s.pulseRecord.kind = .statusRead) :
    quietPulse e s = s.pulsed s.pulseRecord := by
  simp [quietPulse, deliver, h, actOn, State.pulsed]

/-- The byte each controller finds on the bus at a pulse event: DOUT while the engine drives it (R58). -/
def State.busBytes (s : State) (e : EnvSlot) : Byte × Byte :=
  (s.pulseRecord.busByte (e.busByte s.draws), s.pulseRecord.busByte (e.busByte2 (s.draws + 1)))

theorem busBytes_output {e : EnvSlot} (h : s.dir = .output) : s.busBytes e = (s.dout, s.dout) := by
  simp [State.busBytes, State.pulseRecord, Pulse.busByte, h]

/-- A command write: each selected controller decodes the byte (R60). -/
theorem quietPulse_commandWrite (e : EnvSlot) (s : State) (h : s.pulseRecord.kind = .commandWrite) :
    quietPulse e s = (s.pulsed s.pulseRecord).withDisplay
      (if s.flagCS1 && s.flagRST then commandEffect s.cfg (s.busBytes e).1 s.c1 else s.c1)
      (if s.flagCS2 && s.flagRST then commandEffect s.cfg (s.busBytes e).2 s.c2 else s.c2) s.mem := by
  have e1 : s.pulseRecord.selects .one = s.flagCS1 := rfl
  have e2 : s.pulseRecord.selects .two = s.flagCS2 := rfl
  have e3 : s.pulseRecord.rst = s.flagRST := rfl
  unfold quietPulse deliver State.busBytes
  simp only [h, actOn, commandWrite, e1, e2, e3]
  by_cases h1 : s.flagCS1 = true <;> by_cases h2 : s.flagCS2 = true <;> by_cases h3 : s.flagRST = true <;>
    simp [h1, h2, h3, State.pulsed, State.withDisplay]

/-- A data read: each selected controller reloads its latch and advances its column (R62). -/
theorem quietPulse_dataRead (e : EnvSlot) (s : State) (h : s.pulseRecord.kind = .dataRead) :
    quietPulse e s = (s.pulsed s.pulseRecord).withDisplay
      (if s.flagCS1 && s.flagRST then
        { s.c1 with ol := s.ramByte .one s.c1.xp s.c1.ya, ya := s.c1.ya + 1 } else s.c1)
      (if s.flagCS2 && s.flagRST then
        { s.c2 with ol := s.ramByte .two s.c2.xp s.c2.ya, ya := s.c2.ya + 1 } else s.c2) s.mem := by
  have hk : s.pulseRecord.kind = .dataRead := h
  unfold quietPulse deliver
  simp only [hk, actOn, dataRead]
  simp only [State.pulseRecord, Pulse.selects]
  by_cases h1 : s.flagCS1 = true <;> by_cases h2 : s.flagCS2 = true <;> by_cases h3 : s.flagRST = true <;>
    simp [h1, h2, h3, State.pulsed, State.withDisplay, State.ramByte]

/-- The memory after the data write of one byte to the selected controllers (R61). -/
def writtenMem (s : State) (on1 on2 : Bool) (b : Byte × Byte) : Memory :=
  let m := if on1 then Memory.write s.mem (ramAddr .one s.c1.xp s.c1.ya) b.1 else s.mem
  if on2 then Memory.write m (ramAddr .two s.c2.xp s.c2.ya) b.2 else m

/-- A data write: each selected controller stores the byte and advances its column (R61). -/
theorem quietPulse_dataWrite (e : EnvSlot) (s : State) (h : s.pulseRecord.kind = .dataWrite) :
    quietPulse e s = (s.pulsed s.pulseRecord).withDisplay
      (if s.flagCS1 && s.flagRST then { s.c1 with ya := s.c1.ya + 1 } else s.c1)
      (if s.flagCS2 && s.flagRST then { s.c2 with ya := s.c2.ya + 1 } else s.c2)
      (writtenMem s (s.flagCS1 && s.flagRST) (s.flagCS2 && s.flagRST) (s.busBytes e)) := by
  have e1 : s.pulseRecord.selects .one = s.flagCS1 := rfl
  have e2 : s.pulseRecord.selects .two = s.flagCS2 := rfl
  have e3 : s.pulseRecord.rst = s.flagRST := rfl
  unfold quietPulse deliver State.busBytes
  simp only [h, actOn, dataWrite, e1, e2, e3]
  by_cases h1 : s.flagCS1 = true <;> by_cases h2 : s.flagCS2 = true <;> by_cases h3 : s.flagRST = true <;>
    simp [h1, h2, h3, State.pulsed, State.withDisplay, State.ramWrite, writtenMem]

/-- `Select(t)`. -/
theorem runGo_select (q : Quiet s) (t : Target) :
    runGo (.select t :: rest) s =
      runGo rest (tick (.select t) (s.withCtrl (selectCtrl s.cfg t s.ctrl))) := by
  have hu : updateCtrl s.slot (selectCtrl s.cfg t s.ctrl) { s with env := s.env.tail } =
      { s with ctrl := selectCtrl s.cfg t s.ctrl, env := s.env.tail } := by
    unfold updateCtrl
    simp [State.flagE, State.flagRST, flag_select_mE q.wf, flag_select_mRST q.wf]
  have hp := primitive_quiet (rest := ([] : List Micro)) q (select t) (by rw [select, hu]; exact q.fault)
  simp only [runGo, micro, hp, select, hu, record]; rfl

/-- `SetDir(d)`. -/
theorem runGo_setDir (q : Quiet s) (d : Dir) :
    runGo (.setDir d :: rest) s =
      runGo rest (tick (.setDir d) (s.withDir d)) := by
  have hp := primitive_quiet (rest := ([] : List Micro)) q (setDir d) q.fault
  simp only [runGo, micro, hp, setDir, record]; rfl

/-- `Drive(VAL)`. -/
theorem runGo_driveVal (q : Quiet s) :
    runGo (.driveVal :: rest) s =
      runGo rest (tick (.drive s.loc.val) (s.withDout s.loc.val)) := by
  have hp := primitive_quiet (rest := ([] : List Micro)) q (drive s.loc.val) q.fault
  simp only [runGo, micro, hp, drive, record]; rfl

/-- `Drive(0x00)`. -/
theorem runGo_driveZero (q : Quiet s) :
    runGo (.driveZero :: rest) s =
      runGo rest (tick (.drive 0x00) (s.withDout 0x00)) := by
  have hp := primitive_quiet (rest := ([] : List Micro)) q (drive 0x00) q.fault
  simp only [runGo, micro, hp, drive, record]; rfl

/-- `Delay(k)`. -/
theorem runGo_delay (q : Quiet s) (k : DelayKind) :
    runGo (.delay k :: rest) s = runGo rest (tick (.delay k) s) := by
  have hp := primitive_quiet (rest := ([] : List Micro)) q (delay k) q.fault
  simp only [runGo, micro, hp, delay, record]; rfl

/-- `SMP <- Sample()`. -/
theorem runGo_sample (q : Quiet s) :
    runGo (.sample :: rest) s =
      runGo rest (tick (.sample s.dir s.flagE (s.sampleValue s.slot))
        ((s.withLoc { s.loc with smp := s.sampleValue s.slot }).drawn 1)) := by
  have hp := primitive_quiet (rest := ([] : List Micro)) q sample q.fault
  simp only [runGo, micro, hp, sample, record]
  rfl

end Sys2Proof.Machine
end

