-- ==== Sys2Proof/Laws/Reach.lean ====
section
/-! SUPPORT. What a quiet run of a sequence does to the lines and the display, as a small calculus: `Reach` says
that a sequence goes through, how many primitives it executes, and what the machine looks like after. -/

namespace Sys2Proof.Machine

/-- What a sequence is about: the lines, the controllers, display memory, the pulse events, and the
operation-local registers that carry data. -/
structure View where
  cs1 : Bool
  cs2 : Bool
  rst : Bool
  rs : Bool
  rw : Bool
  e : Bool
  reserved : Byte
  dir : Dir
  dout : Byte
  c1 : Controller
  c2 : Controller
  mem : Memory
  pulses : List Pulse
  val : Byte
  rbv : Byte
  tmp : Byte
  mask : Byte

/-- The view of a state. -/
def State.view (s : State) : View :=
  ⟨s.flagCS1, s.flagCS2, s.flagRST, s.flagRS, s.flagRW, s.flagE, s.reservedBits, s.dir, s.dout, s.c1, s.c2, s.mem,
    s.pulses, s.loc.val, s.loc.rbv, s.loc.tmp, s.loc.mask⟩

/-! Other lines, other registers. -/

def View.withE (v : View) (b : Bool) : View := { v with e := b }
def View.withRs (v : View) (b : Bool) : View := { v with rs := b }
def View.withRw (v : View) (b : Bool) : View := { v with rw := b }
def View.withCs (v : View) (t : Target) : View := { v with cs1 := t.has1, cs2 := t.has2 }
def View.withDir (v : View) (d : Dir) : View := { v with dir := d }
def View.withDout (v : View) (x : Byte) : View := { v with dout := x }
def View.withVal (v : View) (x : Byte) : View := { v with val := x }
def View.withRbv (v : View) (x : Byte) : View := { v with rbv := x }
def View.withTmp (v : View) (x : Byte) : View := { v with tmp := x }
def View.withMask (v : View) (x : Byte) : View := { v with mask := x }
def View.withPulses (v : View) (l : List Pulse) : View := { v with pulses := l }

@[simp] theorem View.withE_cs1 (v : View) (b : Bool) : (v.withE b).cs1 = v.cs1 := rfl
@[simp] theorem View.withE_cs2 (v : View) (b : Bool) : (v.withE b).cs2 = v.cs2 := rfl
@[simp] theorem View.withE_rst (v : View) (b : Bool) : (v.withE b).rst = v.rst := rfl
@[simp] theorem View.withE_rs (v : View) (b : Bool) : (v.withE b).rs = v.rs := rfl
@[simp] theorem View.withE_rw (v : View) (b : Bool) : (v.withE b).rw = v.rw := rfl
@[simp] theorem View.withE_e (v : View) (b : Bool) : (v.withE b).e = b := rfl
@[simp] theorem View.withE_reserved (v : View) (b : Bool) : (v.withE b).reserved = v.reserved := rfl
@[simp] theorem View.withE_dir (v : View) (b : Bool) : (v.withE b).dir = v.dir := rfl
@[simp] theorem View.withE_dout (v : View) (b : Bool) : (v.withE b).dout = v.dout := rfl
@[simp] theorem View.withE_c1 (v : View) (b : Bool) : (v.withE b).c1 = v.c1 := rfl
@[simp] theorem View.withE_c2 (v : View) (b : Bool) : (v.withE b).c2 = v.c2 := rfl
@[simp] theorem View.withE_mem (v : View) (b : Bool) : (v.withE b).mem = v.mem := rfl
@[simp] theorem View.withE_pulses (v : View) (b : Bool) : (v.withE b).pulses = v.pulses := rfl
@[simp] theorem View.withE_val (v : View) (b : Bool) : (v.withE b).val = v.val := rfl
@[simp] theorem View.withE_rbv (v : View) (b : Bool) : (v.withE b).rbv = v.rbv := rfl
@[simp] theorem View.withE_tmp (v : View) (b : Bool) : (v.withE b).tmp = v.tmp := rfl
@[simp] theorem View.withE_mask (v : View) (b : Bool) : (v.withE b).mask = v.mask := rfl
@[simp] theorem View.withRs_cs1 (v : View) (b : Bool) : (v.withRs b).cs1 = v.cs1 := rfl
@[simp] theorem View.withRs_cs2 (v : View) (b : Bool) : (v.withRs b).cs2 = v.cs2 := rfl
@[simp] theorem View.withRs_rst (v : View) (b : Bool) : (v.withRs b).rst = v.rst := rfl
@[simp] theorem View.withRs_rs (v : View) (b : Bool) : (v.withRs b).rs = b := rfl
@[simp] theorem View.withRs_rw (v : View) (b : Bool) : (v.withRs b).rw = v.rw := rfl
@[simp] theorem View.withRs_e (v : View) (b : Bool) : (v.withRs b).e = v.e := rfl
@[simp] theorem View.withRs_reserved (v : View) (b : Bool) : (v.withRs b).reserved = v.reserved := rfl
@[simp] theorem View.withRs_dir (v : View) (b : Bool) : (v.withRs b).dir = v.dir := rfl
@[simp] theorem View.withRs_dout (v : View) (b : Bool) : (v.withRs b).dout = v.dout := rfl
@[simp] theorem View.withRs_c1 (v : View) (b : Bool) : (v.withRs b).c1 = v.c1 := rfl
@[simp] theorem View.withRs_c2 (v : View) (b : Bool) : (v.withRs b).c2 = v.c2 := rfl
@[simp] theorem View.withRs_mem (v : View) (b : Bool) : (v.withRs b).mem = v.mem := rfl
@[simp] theorem View.withRs_pulses (v : View) (b : Bool) : (v.withRs b).pulses = v.pulses := rfl
@[simp] theorem View.withRs_val (v : View) (b : Bool) : (v.withRs b).val = v.val := rfl
@[simp] theorem View.withRs_rbv (v : View) (b : Bool) : (v.withRs b).rbv = v.rbv := rfl
@[simp] theorem View.withRs_tmp (v : View) (b : Bool) : (v.withRs b).tmp = v.tmp := rfl
@[simp] theorem View.withRs_mask (v : View) (b : Bool) : (v.withRs b).mask = v.mask := rfl
@[simp] theorem View.withRw_cs1 (v : View) (b : Bool) : (v.withRw b).cs1 = v.cs1 := rfl
@[simp] theorem View.withRw_cs2 (v : View) (b : Bool) : (v.withRw b).cs2 = v.cs2 := rfl
@[simp] theorem View.withRw_rst (v : View) (b : Bool) : (v.withRw b).rst = v.rst := rfl
@[simp] theorem View.withRw_rs (v : View) (b : Bool) : (v.withRw b).rs = v.rs := rfl
@[simp] theorem View.withRw_rw (v : View) (b : Bool) : (v.withRw b).rw = b := rfl
@[simp] theorem View.withRw_e (v : View) (b : Bool) : (v.withRw b).e = v.e := rfl
@[simp] theorem View.withRw_reserved (v : View) (b : Bool) : (v.withRw b).reserved = v.reserved := rfl
@[simp] theorem View.withRw_dir (v : View) (b : Bool) : (v.withRw b).dir = v.dir := rfl
@[simp] theorem View.withRw_dout (v : View) (b : Bool) : (v.withRw b).dout = v.dout := rfl
@[simp] theorem View.withRw_c1 (v : View) (b : Bool) : (v.withRw b).c1 = v.c1 := rfl
@[simp] theorem View.withRw_c2 (v : View) (b : Bool) : (v.withRw b).c2 = v.c2 := rfl
@[simp] theorem View.withRw_mem (v : View) (b : Bool) : (v.withRw b).mem = v.mem := rfl
@[simp] theorem View.withRw_pulses (v : View) (b : Bool) : (v.withRw b).pulses = v.pulses := rfl
@[simp] theorem View.withRw_val (v : View) (b : Bool) : (v.withRw b).val = v.val := rfl
@[simp] theorem View.withRw_rbv (v : View) (b : Bool) : (v.withRw b).rbv = v.rbv := rfl
@[simp] theorem View.withRw_tmp (v : View) (b : Bool) : (v.withRw b).tmp = v.tmp := rfl
@[simp] theorem View.withRw_mask (v : View) (b : Bool) : (v.withRw b).mask = v.mask := rfl
@[simp] theorem View.withCs_cs1 (v : View) (t : Target) : (v.withCs t).cs1 = t.has1 := rfl
@[simp] theorem View.withCs_cs2 (v : View) (t : Target) : (v.withCs t).cs2 = t.has2 := rfl
@[simp] theorem View.withCs_rst (v : View) (t : Target) : (v.withCs t).rst = v.rst := rfl
@[simp] theorem View.withCs_rs (v : View) (t : Target) : (v.withCs t).rs = v.rs := rfl
@[simp] theorem View.withCs_rw (v : View) (t : Target) : (v.withCs t).rw = v.rw := rfl
@[simp] theorem View.withCs_e (v : View) (t : Target) : (v.withCs t).e = v.e := rfl
@[simp] theorem View.withCs_reserved (v : View) (t : Target) : (v.withCs t).reserved = v.reserved := rfl
@[simp] theorem View.withCs_dir (v : View) (t : Target) : (v.withCs t).dir = v.dir := rfl
@[simp] theorem View.withCs_dout (v : View) (t : Target) : (v.withCs t).dout = v.dout := rfl
@[simp] theorem View.withCs_c1 (v : View) (t : Target) : (v.withCs t).c1 = v.c1 := rfl
@[simp] theorem View.withCs_c2 (v : View) (t : Target) : (v.withCs t).c2 = v.c2 := rfl
@[simp] theorem View.withCs_mem (v : View) (t : Target) : (v.withCs t).mem = v.mem := rfl
@[simp] theorem View.withCs_pulses (v : View) (t : Target) : (v.withCs t).pulses = v.pulses := rfl
@[simp] theorem View.withCs_val (v : View) (t : Target) : (v.withCs t).val = v.val := rfl
@[simp] theorem View.withCs_rbv (v : View) (t : Target) : (v.withCs t).rbv = v.rbv := rfl
@[simp] theorem View.withCs_tmp (v : View) (t : Target) : (v.withCs t).tmp = v.tmp := rfl
@[simp] theorem View.withCs_mask (v : View) (t : Target) : (v.withCs t).mask = v.mask := rfl
@[simp] theorem View.withDir_cs1 (v : View) (d : Dir) : (v.withDir d).cs1 = v.cs1 := rfl
@[simp] theorem View.withDir_cs2 (v : View) (d : Dir) : (v.withDir d).cs2 = v.cs2 := rfl
@[simp] theorem View.withDir_rst (v : View) (d : Dir) : (v.withDir d).rst = v.rst := rfl
@[simp] theorem View.withDir_rs (v : View) (d : Dir) : (v.withDir d).rs = v.rs := rfl
@[simp] theorem View.withDir_rw (v : View) (d : Dir) : (v.withDir d).rw = v.rw := rfl
@[simp] theorem View.withDir_e (v : View) (d : Dir) : (v.withDir d).e = v.e := rfl
@[simp] theorem View.withDir_reserved (v : View) (d : Dir) : (v.withDir d).reserved = v.reserved := rfl
@[simp] theorem View.withDir_dir (v : View) (d : Dir) : (v.withDir d).dir = d := rfl
@[simp] theorem View.withDir_dout (v : View) (d : Dir) : (v.withDir d).dout = v.dout := rfl
@[simp] theorem View.withDir_c1 (v : View) (d : Dir) : (v.withDir d).c1 = v.c1 := rfl
@[simp] theorem View.withDir_c2 (v : View) (d : Dir) : (v.withDir d).c2 = v.c2 := rfl
@[simp] theorem View.withDir_mem (v : View) (d : Dir) : (v.withDir d).mem = v.mem := rfl
@[simp] theorem View.withDir_pulses (v : View) (d : Dir) : (v.withDir d).pulses = v.pulses := rfl
@[simp] theorem View.withDir_val (v : View) (d : Dir) : (v.withDir d).val = v.val := rfl
@[simp] theorem View.withDir_rbv (v : View) (d : Dir) : (v.withDir d).rbv = v.rbv := rfl
@[simp] theorem View.withDir_tmp (v : View) (d : Dir) : (v.withDir d).tmp = v.tmp := rfl
@[simp] theorem View.withDir_mask (v : View) (d : Dir) : (v.withDir d).mask = v.mask := rfl
@[simp] theorem View.withDout_cs1 (v : View) (x : Byte) : (v.withDout x).cs1 = v.cs1 := rfl
@[simp] theorem View.withDout_cs2 (v : View) (x : Byte) : (v.withDout x).cs2 = v.cs2 := rfl
@[simp] theorem View.withDout_rst (v : View) (x : Byte) : (v.withDout x).rst = v.rst := rfl
@[simp] theorem View.withDout_rs (v : View) (x : Byte) : (v.withDout x).rs = v.rs := rfl
@[simp] theorem View.withDout_rw (v : View) (x : Byte) : (v.withDout x).rw = v.rw := rfl
@[simp] theorem View.withDout_e (v : View) (x : Byte) : (v.withDout x).e = v.e := rfl
@[simp] theorem View.withDout_reserved (v : View) (x : Byte) : (v.withDout x).reserved = v.reserved := rfl
@[simp] theorem View.withDout_dir (v : View) (x : Byte) : (v.withDout x).dir = v.dir := rfl
@[simp] theorem View.withDout_dout (v : View) (x : Byte) : (v.withDout x).dout = x := rfl
@[simp] theorem View.withDout_c1 (v : View) (x : Byte) : (v.withDout x).c1 = v.c1 := rfl
@[simp] theorem View.withDout_c2 (v : View) (x : Byte) : (v.withDout x).c2 = v.c2 := rfl
@[simp] theorem View.withDout_mem (v : View) (x : Byte) : (v.withDout x).mem = v.mem := rfl
@[simp] theorem View.withDout_pulses (v : View) (x : Byte) : (v.withDout x).pulses = v.pulses := rfl
@[simp] theorem View.withDout_val (v : View) (x : Byte) : (v.withDout x).val = v.val := rfl
@[simp] theorem View.withDout_rbv (v : View) (x : Byte) : (v.withDout x).rbv = v.rbv := rfl
@[simp] theorem View.withDout_tmp (v : View) (x : Byte) : (v.withDout x).tmp = v.tmp := rfl
@[simp] theorem View.withDout_mask (v : View) (x : Byte) : (v.withDout x).mask = v.mask := rfl
@[simp] theorem View.withVal_cs1 (v : View) (x : Byte) : (v.withVal x).cs1 = v.cs1 := rfl
@[simp] theorem View.withVal_cs2 (v : View) (x : Byte) : (v.withVal x).cs2 = v.cs2 := rfl
@[simp] theorem View.withVal_rst (v : View) (x : Byte) : (v.withVal x).rst = v.rst := rfl
@[simp] theorem View.withVal_rs (v : View) (x : Byte) : (v.withVal x).rs = v.rs := rfl
@[simp] theorem View.withVal_rw (v : View) (x : Byte) : (v.withVal x).rw = v.rw := rfl
@[simp] theorem View.withVal_e (v : View) (x : Byte) : (v.withVal x).e = v.e := rfl
@[simp] theorem View.withVal_reserved (v : View) (x : Byte) : (v.withVal x).reserved = v.reserved := rfl
@[simp] theorem View.withVal_dir (v : View) (x : Byte) : (v.withVal x).dir = v.dir := rfl
@[simp] theorem View.withVal_dout (v : View) (x : Byte) : (v.withVal x).dout = v.dout := rfl
@[simp] theorem View.withVal_c1 (v : View) (x : Byte) : (v.withVal x).c1 = v.c1 := rfl
@[simp] theorem View.withVal_c2 (v : View) (x : Byte) : (v.withVal x).c2 = v.c2 := rfl
@[simp] theorem View.withVal_mem (v : View) (x : Byte) : (v.withVal x).mem = v.mem := rfl
@[simp] theorem View.withVal_pulses (v : View) (x : Byte) : (v.withVal x).pulses = v.pulses := rfl
@[simp] theorem View.withVal_val (v : View) (x : Byte) : (v.withVal x).val = x := rfl
@[simp] theorem View.withVal_rbv (v : View) (x : Byte) : (v.withVal x).rbv = v.rbv := rfl
@[simp] theorem View.withVal_tmp (v : View) (x : Byte) : (v.withVal x).tmp = v.tmp := rfl
@[simp] theorem View.withVal_mask (v : View) (x : Byte) : (v.withVal x).mask = v.mask := rfl
@[simp] theorem View.withRbv_cs1 (v : View) (x : Byte) : (v.withRbv x).cs1 = v.cs1 := rfl
@[simp] theorem View.withRbv_cs2 (v : View) (x : Byte) : (v.withRbv x).cs2 = v.cs2 := rfl
@[simp] theorem View.withRbv_rst (v : View) (x : Byte) : (v.withRbv x).rst = v.rst := rfl
@[simp] theorem View.withRbv_rs (v : View) (x : Byte) : (v.withRbv x).rs = v.rs := rfl
@[simp] theorem View.withRbv_rw (v : View) (x : Byte) : (v.withRbv x).rw = v.rw := rfl
@[simp] theorem View.withRbv_e (v : View) (x : Byte) : (v.withRbv x).e = v.e := rfl
@[simp] theorem View.withRbv_reserved (v : View) (x : Byte) : (v.withRbv x).reserved = v.reserved := rfl
@[simp] theorem View.withRbv_dir (v : View) (x : Byte) : (v.withRbv x).dir = v.dir := rfl
@[simp] theorem View.withRbv_dout (v : View) (x : Byte) : (v.withRbv x).dout = v.dout := rfl
@[simp] theorem View.withRbv_c1 (v : View) (x : Byte) : (v.withRbv x).c1 = v.c1 := rfl
@[simp] theorem View.withRbv_c2 (v : View) (x : Byte) : (v.withRbv x).c2 = v.c2 := rfl
@[simp] theorem View.withRbv_mem (v : View) (x : Byte) : (v.withRbv x).mem = v.mem := rfl
@[simp] theorem View.withRbv_pulses (v : View) (x : Byte) : (v.withRbv x).pulses = v.pulses := rfl
@[simp] theorem View.withRbv_val (v : View) (x : Byte) : (v.withRbv x).val = v.val := rfl
@[simp] theorem View.withRbv_rbv (v : View) (x : Byte) : (v.withRbv x).rbv = x := rfl
@[simp] theorem View.withRbv_tmp (v : View) (x : Byte) : (v.withRbv x).tmp = v.tmp := rfl
@[simp] theorem View.withRbv_mask (v : View) (x : Byte) : (v.withRbv x).mask = v.mask := rfl
@[simp] theorem View.withTmp_cs1 (v : View) (x : Byte) : (v.withTmp x).cs1 = v.cs1 := rfl
@[simp] theorem View.withTmp_cs2 (v : View) (x : Byte) : (v.withTmp x).cs2 = v.cs2 := rfl
@[simp] theorem View.withTmp_rst (v : View) (x : Byte) : (v.withTmp x).rst = v.rst := rfl
@[simp] theorem View.withTmp_rs (v : View) (x : Byte) : (v.withTmp x).rs = v.rs := rfl
@[simp] theorem View.withTmp_rw (v : View) (x : Byte) : (v.withTmp x).rw = v.rw := rfl
@[simp] theorem View.withTmp_e (v : View) (x : Byte) : (v.withTmp x).e = v.e := rfl
@[simp] theorem View.withTmp_reserved (v : View) (x : Byte) : (v.withTmp x).reserved = v.reserved := rfl
@[simp] theorem View.withTmp_dir (v : View) (x : Byte) : (v.withTmp x).dir = v.dir := rfl
@[simp] theorem View.withTmp_dout (v : View) (x : Byte) : (v.withTmp x).dout = v.dout := rfl
@[simp] theorem View.withTmp_c1 (v : View) (x : Byte) : (v.withTmp x).c1 = v.c1 := rfl
@[simp] theorem View.withTmp_c2 (v : View) (x : Byte) : (v.withTmp x).c2 = v.c2 := rfl
@[simp] theorem View.withTmp_mem (v : View) (x : Byte) : (v.withTmp x).mem = v.mem := rfl
@[simp] theorem View.withTmp_pulses (v : View) (x : Byte) : (v.withTmp x).pulses = v.pulses := rfl
@[simp] theorem View.withTmp_val (v : View) (x : Byte) : (v.withTmp x).val = v.val := rfl
@[simp] theorem View.withTmp_rbv (v : View) (x : Byte) : (v.withTmp x).rbv = v.rbv := rfl
@[simp] theorem View.withTmp_tmp (v : View) (x : Byte) : (v.withTmp x).tmp = x := rfl
@[simp] theorem View.withTmp_mask (v : View) (x : Byte) : (v.withTmp x).mask = v.mask := rfl
@[simp] theorem View.withMask_cs1 (v : View) (x : Byte) : (v.withMask x).cs1 = v.cs1 := rfl
@[simp] theorem View.withMask_cs2 (v : View) (x : Byte) : (v.withMask x).cs2 = v.cs2 := rfl
@[simp] theorem View.withMask_rst (v : View) (x : Byte) : (v.withMask x).rst = v.rst := rfl
@[simp] theorem View.withMask_rs (v : View) (x : Byte) : (v.withMask x).rs = v.rs := rfl
@[simp] theorem View.withMask_rw (v : View) (x : Byte) : (v.withMask x).rw = v.rw := rfl
@[simp] theorem View.withMask_e (v : View) (x : Byte) : (v.withMask x).e = v.e := rfl
@[simp] theorem View.withMask_reserved (v : View) (x : Byte) : (v.withMask x).reserved = v.reserved := rfl
@[simp] theorem View.withMask_dir (v : View) (x : Byte) : (v.withMask x).dir = v.dir := rfl
@[simp] theorem View.withMask_dout (v : View) (x : Byte) : (v.withMask x).dout = v.dout := rfl
@[simp] theorem View.withMask_c1 (v : View) (x : Byte) : (v.withMask x).c1 = v.c1 := rfl
@[simp] theorem View.withMask_c2 (v : View) (x : Byte) : (v.withMask x).c2 = v.c2 := rfl
@[simp] theorem View.withMask_mem (v : View) (x : Byte) : (v.withMask x).mem = v.mem := rfl
@[simp] theorem View.withMask_pulses (v : View) (x : Byte) : (v.withMask x).pulses = v.pulses := rfl
@[simp] theorem View.withMask_val (v : View) (x : Byte) : (v.withMask x).val = v.val := rfl
@[simp] theorem View.withMask_rbv (v : View) (x : Byte) : (v.withMask x).rbv = v.rbv := rfl
@[simp] theorem View.withMask_tmp (v : View) (x : Byte) : (v.withMask x).tmp = v.tmp := rfl
@[simp] theorem View.withMask_mask (v : View) (x : Byte) : (v.withMask x).mask = x := rfl
@[simp] theorem View.withPulses_cs1 (v : View) (l : List Pulse) : (v.withPulses l).cs1 = v.cs1 := rfl
@[simp] theorem View.withPulses_cs2 (v : View) (l : List Pulse) : (v.withPulses l).cs2 = v.cs2 := rfl
@[simp] theorem View.withPulses_rst (v : View) (l : List Pulse) : (v.withPulses l).rst = v.rst := rfl
@[simp] theorem View.withPulses_rs (v : View) (l : List Pulse) : (v.withPulses l).rs = v.rs := rfl
@[simp] theorem View.withPulses_rw (v : View) (l : List Pulse) : (v.withPulses l).rw = v.rw := rfl
@[simp] theorem View.withPulses_e (v : View) (l : List Pulse) : (v.withPulses l).e = v.e := rfl
@[simp] theorem View.withPulses_reserved (v : View) (l : List Pulse) : (v.withPulses l).reserved = v.reserved := rfl
@[simp] theorem View.withPulses_dir (v : View) (l : List Pulse) : (v.withPulses l).dir = v.dir := rfl
@[simp] theorem View.withPulses_dout (v : View) (l : List Pulse) : (v.withPulses l).dout = v.dout := rfl
@[simp] theorem View.withPulses_c1 (v : View) (l : List Pulse) : (v.withPulses l).c1 = v.c1 := rfl
@[simp] theorem View.withPulses_c2 (v : View) (l : List Pulse) : (v.withPulses l).c2 = v.c2 := rfl
@[simp] theorem View.withPulses_mem (v : View) (l : List Pulse) : (v.withPulses l).mem = v.mem := rfl
@[simp] theorem View.withPulses_pulses (v : View) (l : List Pulse) : (v.withPulses l).pulses = l := rfl
@[simp] theorem View.withPulses_val (v : View) (l : List Pulse) : (v.withPulses l).val = v.val := rfl
@[simp] theorem View.withPulses_rbv (v : View) (l : List Pulse) : (v.withPulses l).rbv = v.rbv := rfl
@[simp] theorem View.withPulses_tmp (v : View) (l : List Pulse) : (v.withPulses l).tmp = v.tmp := rfl
@[simp] theorem View.withPulses_mask (v : View) (l : List Pulse) : (v.withPulses l).mask = v.mask := rfl

/-- What every part of a sequence that goes through `n` primitives leaves as it was, or moves on by `n`. -/
structure Ran (s t : State) (n : Nat) : Prop where
  quiet : Quiet t
  cfg : t.cfg = s.cfg
  status : t.status = s.status
  result : t.result = s.result
  req : t.req = s.req
  seq : t.seq = s.seq
  host : t.host = s.host
  env : t.env = s.env.drop n
  trace : t.trace.length = s.trace.length + n

theorem Ran.refl {s : State} (q : Quiet s) : Ran s s 0 := ⟨q, rfl, rfl, rfl, rfl, rfl, rfl, rfl, rfl⟩

theorem Ran.trans {s t u : State} {n m : Nat} (h : Ran s t n) (k : Ran t u m) : Ran s u (n + m) :=
  ⟨k.quiet, k.cfg.trans h.cfg, k.status.trans h.status, k.result.trans h.result, k.req.trans h.req,
    k.seq.trans h.seq, k.host.trans h.host, by rw [k.env, h.env, List.drop_drop], by rw [k.trace, h.trace]; omega⟩

theorem Ran.as' {s t : State} {n m : Nat} (h : Ran s t n) (e : n = m) : Ran s t m := e ▸ h

/-- From any quiet state that looks like `v`, the sequence goes through `n` primitives to one that looks
like `v'`. -/
def Reach (c : Config) (v : View) (prog : List Micro) (n : Nat) (v' : View) : Prop :=
  ∀ s, Quiet s → s.cfg = c → s.view = v → ∃ t, runGo prog s = some t ∧ Ran s t n ∧ t.view = v'

theorem Reach.refl {c : Config} {v : View} : Reach c v [] 0 v := fun s q _ h => ⟨s, rfl, Ran.refl q, h⟩

theorem Reach.append {c : Config} {v v' v'' : View} {p q : List Micro} {n m : Nat} (h : Reach c v p n v')
    (k : Reach c v' q m v'') : Reach c v (p ++ q) (n + m) v'' := by
  intro s qs hc hv
  obtain ⟨t, ht, rt, vt⟩ := h s qs hc hv
  obtain ⟨u, hu, ru, vu⟩ := k t rt.quiet (rt.cfg.trans hc) vt
  exact ⟨u, by rw [runGo_append ht, hu], rt.trans ru, vu⟩

theorem Reach.cons {c : Config} {v v' v'' : View} {x : Micro} {q : List Micro} {n m : Nat}
    (h : Reach c v [x] n v') (k : Reach c v' q m v'') : Reach c v (x :: q) (n + m) v'' :=
  Reach.append (p := [x]) h k

theorem Reach.as {c : Config} {v v' w : View} {p : List Micro} {n m : Nat} (h : Reach c v p n v') (hn : n = m)
    (hw : v' = w) : Reach c v p m w := hn ▸ hw ▸ h

/-! ## The steps of a sequence -/

variable {c : Config} {v : View}

theorem tail_is_drop {α : Type} (l : List α) : l.tail = l.drop 1 := by cases l <;> rfl

theorem ran_tick {s t : State} (q : Quiet t) (p : Prim) (h1 : t.cfg = s.cfg) (h2 : t.status = s.status)
    (h3 : t.result = s.result) (h4 : t.req = s.req) (h5 : t.seq = s.seq) (h6 : t.host = s.host)
    (h7 : t.env = s.env) (h8 : t.trace = s.trace) : Ran s (tick p t) 1 :=
  ⟨q.tick p, h1, h2, h3, h4, h5, h6, by rw [tick_env, h7, tail_is_drop], by simp [h8]⟩

theorem ran_ctrl {s : State} (q : Quiet s) (p : Prim) (w : Byte) : Ran s (tick p (s.withCtrl w)) 1 :=
  ran_tick (q.withCtrl w) p rfl rfl rfl rfl rfl rfl rfl rfl

/-- The view with other control lines. -/
theorem view_ctrl {s : State} (p : Prim) (w : Byte) : (tick p (s.withCtrl w)).view =
    { s.view with cs1 := flagIn w s.cfg.mCS1, cs2 := flagIn w s.cfg.mCS2, rst := flagIn w s.cfg.mRST,
                  rs := flagIn w s.cfg.mRS, rw := flagIn w s.cfg.mRW, e := flagIn w s.cfg.mE,
                  reserved := w &&& s.cfg.mReserved } := rfl

theorem mE_reserved (c : Config) : c.mE &&& c.mReserved = 0 := reserved_flag _ (by simp)
theorem mRS_reserved (c : Config) : c.mRS &&& c.mReserved = 0 := reserved_flag _ (by simp)
theorem mRW_reserved (c : Config) : c.mRW &&& c.mReserved = 0 := reserved_flag _ (by simp)
theorem mRST_reserved (c : Config) : c.mRST &&& c.mReserved = 0 := reserved_flag _ (by simp)
theorem mCS1_reserved (c : Config) : c.mCS1 &&& c.mReserved = 0 := reserved_flag _ (by simp)
theorem mCS2_reserved (c : Config) : c.mCS2 &&& c.mReserved = 0 := reserved_flag _ (by simp)

theorem csMask_reserved (c : Config) (t : Target) : csMask c t &&& c.mReserved = 0 := by
  have h1 := mCS1_reserved c
  have h2 := mCS2_reserved c
  cases t <;> simp [csMask, Target.has1, Target.has2, h1, h2, reserved_or_masks]

/-- `CtrlSet(M_E)`. -/
theorem reach_setE (w : c.wf = true) : Reach c v [.ctrlSet c.mE] 1 (v.withE true) := by
  intro s q hc hv
  subst hc hv
  refine ⟨_, runGo_ctrlSet q _ (Or.inr (flag_mE_mRST w)), ran_ctrl q .., ?_⟩
  rw [view_ctrl]
  simp [State.view, flagIn_or, flag_mE_mCS1 w, flag_mE_mCS2 w, flag_mE_mRST w, flag_mE_mRS w, flag_mE_mRW w, flag_mE_mE w, reserved_or _ _ (mE_reserved _), State.flagCS1, State.flagCS2, State.flagRST, State.flagRS, State.flagRW, State.flagE, State.reservedBits, View.withE, View.withRs,
    View.withRw, View.withCs]

/-- `CtrlSet(M_RS)`. -/
theorem reach_setRS (w : c.wf = true) : Reach c v [.ctrlSet c.mRS] 1 (v.withRs true) := by
  intro s q hc hv
  subst hc hv
  refine ⟨_, runGo_ctrlSet q _ (Or.inr (flag_mRS_mRST w)), ran_ctrl q .., ?_⟩
  rw [view_ctrl]
  simp [State.view, flagIn_or, flag_mRS_mCS1 w, flag_mRS_mCS2 w, flag_mRS_mRST w, flag_mRS_mRS w, flag_mRS_mRW w, flag_mRS_mE w, reserved_or _ _ (mRS_reserved _), State.flagCS1, State.flagCS2, State.flagRST, State.flagRS, State.flagRW, State.flagE, State.reservedBits, View.withE, View.withRs,
    View.withRw, View.withCs]

/-- `CtrlSet(M_RW)`. -/
theorem reach_setRW (w : c.wf = true) : Reach c v [.ctrlSet c.mRW] 1 (v.withRw true) := by
  intro s q hc hv
  subst hc hv
  refine ⟨_, runGo_ctrlSet q _ (Or.inr (flag_mRW_mRST w)), ran_ctrl q .., ?_⟩
  rw [view_ctrl]
  simp [State.view, flagIn_or, flag_mRW_mCS1 w, flag_mRW_mCS2 w, flag_mRW_mRST w, flag_mRW_mRS w, flag_mRW_mRW w, flag_mRW_mE w, reserved_or _ _ (mRW_reserved _), State.flagCS1, State.flagCS2, State.flagRST, State.flagRS, State.flagRW, State.flagE, State.reservedBits, View.withE, View.withRs,
    View.withRw, View.withCs]

/-- `CtrlClear(m)` that lowers no E, seen line by line. -/
theorem reach_clear (w : c.wf = true) (m : Byte) (hm : m &&& c.mReserved = 0)
    (he : v.e = false ∨ flagIn m c.mE = false) :
    Reach c v [.ctrlClear m] 1
      { v with cs1 := v.cs1 && !flagIn m c.mCS1, cs2 := v.cs2 && !flagIn m c.mCS2, rst := v.rst && !flagIn m c.mRST,
               rs := v.rs && !flagIn m c.mRS, rw := v.rw && !flagIn m c.mRW, e := v.e && !flagIn m c.mE } := by
  intro s q hc hv
  subst hc hv
  refine ⟨_, runGo_ctrlClear q _ he, ran_ctrl q .., ?_⟩
  rw [view_ctrl]
  simp [State.view, flagIn_and_not _ _ (Config.wf_oneHot_mCS1 w), flagIn_and_not _ _ (Config.wf_oneHot_mCS2 w), flagIn_and_not _ _ (Config.wf_oneHot_mRST w), flagIn_and_not _ _ (Config.wf_oneHot_mRS w), flagIn_and_not _ _ (Config.wf_oneHot_mRW w), flagIn_and_not _ _ (Config.wf_oneHot_mE w), reserved_and_not _ _ hm, State.flagCS1, State.flagCS2, State.flagRST, State.flagRS, State.flagRW, State.flagE, State.reservedBits, View.withE, View.withRs,
    View.withRw, View.withCs]

/-- `CtrlClear(M_E)` with E low. -/
theorem reach_clearE (w : c.wf = true) (he : v.e = false) : Reach c v [.ctrlClear c.mE] 1 v :=
  (reach_clear w c.mE (mE_reserved c) (Or.inl he)).as rfl (by
    cases v; simp_all [flag_mE_mCS1 w, flag_mE_mCS2 w, flag_mE_mRST w, flag_mE_mRS w, flag_mE_mRW w, flag_mE_mE w])

/-- `CtrlClear(M_RS)`. -/
theorem reach_clearRS (w : c.wf = true) : Reach c v [.ctrlClear c.mRS] 1 (v.withRs false) :=
  (reach_clear w c.mRS (mRS_reserved c) (Or.inr (flag_mRS_mE w))).as rfl (by
    cases v; simp [View.withRs, flag_mRS_mCS1 w, flag_mRS_mCS2 w, flag_mRS_mRST w, flag_mRS_mRS w, flag_mRS_mRW w, flag_mRS_mE w])

/-- `CtrlClear(M_RW)`. -/
theorem reach_clearRW (w : c.wf = true) : Reach c v [.ctrlClear c.mRW] 1 (v.withRw false) :=
  (reach_clear w c.mRW (mRW_reserved c) (Or.inr (flag_mRW_mE w))).as rfl (by
    cases v; simp [View.withRw, flag_mRW_mCS1 w, flag_mRW_mCS2 w, flag_mRW_mRST w, flag_mRW_mRS w, flag_mRW_mRW w, flag_mRW_mE w])

/-- `CtrlClear(M_RS | M_RW)` (R170). -/
theorem reach_clearRSRW (w : c.wf = true) :
    Reach c v [.ctrlClear (c.mRS ||| c.mRW)] 1 ((v.withRs false).withRw false) :=
  (reach_clear w _ (reserved_or_masks (mRS_reserved c) (mRW_reserved c))
    (Or.inr (by rw [flagIn_or, flag_mRS_mE w, flag_mRW_mE w]; rfl))).as rfl (by
    cases v; simp [View.withRs, View.withRw, flagIn_or, flag_mRS_mCS1 w, flag_mRS_mCS2 w, flag_mRS_mRST w, flag_mRS_mRS w, flag_mRS_mRW w, flag_mRS_mE w, flag_mRW_mCS1 w, flag_mRW_mCS2 w, flag_mRW_mRST w, flag_mRW_mRS w, flag_mRW_mRW w, flag_mRW_mE w])

theorem reserved_select (c : Config) (t : Target) (v : Byte) :
    selectCtrl c t v &&& c.mReserved = v &&& c.mReserved := by
  rw [selectCtrl, reserved_or _ _ (csMask_reserved ..),
    reserved_and_not _ _ (reserved_or_masks (mCS1_reserved _) (mCS2_reserved _))]

/-- `Select(t)` (R140). -/
theorem reach_select (w : c.wf = true) (t : Target) :
    Reach c v [.select t] 1 (v.withCs t) := by
  intro s q hc hv
  subst hc hv
  refine ⟨_, runGo_select q t, ran_ctrl q .., ?_⟩
  rw [view_ctrl]
  have hr := reserved_select s.cfg t s.ctrl
  simp [State.view, flag_select_mCS1 w, flag_select_mCS2 w, flag_select_mRST w, flag_select_mRS w, flag_select_mRW w,
    flag_select_mE w, hr, State.flagCS1, State.flagCS2, State.flagRST, State.flagRS, State.flagRW, State.flagE, State.reservedBits, View.withE, View.withRs,
    View.withRw, View.withCs]

/-- `SetDir(d)`. -/
theorem reach_setDir (d : Dir) : Reach c v [.setDir d] 1 (v.withDir d) := by
  intro s q hc hv
  subst hv
  exact ⟨_, runGo_setDir q d, ran_tick (q.withDir d) _ rfl rfl rfl rfl rfl rfl rfl rfl, rfl⟩

/-- `Drive(VAL)`. -/
theorem reach_driveVal : Reach c v [.driveVal] 1 (v.withDout v.val) := by
  intro s q hc hv
  subst hv
  exact ⟨_, runGo_driveVal q, ran_tick (q.withDout _) _ rfl rfl rfl rfl rfl rfl rfl rfl, rfl⟩

/-- `Drive(0x00)`. -/
theorem reach_driveZero : Reach c v [.driveZero] 1 (v.withDout 0) := by
  intro s q hc hv
  subst hv
  exact ⟨_, runGo_driveZero q, ran_tick (q.withDout _) _ rfl rfl rfl rfl rfl rfl rfl rfl, rfl⟩

/-- `Delay(k)`. -/
theorem reach_delay (k : DelayKind) : Reach c v [.delay k] 1 v := by
  intro s q hc hv
  subst hv
  exact ⟨_, runGo_delay q k, ran_tick q _ rfl rfl rfl rfl rfl rfl rfl rfl, rfl⟩

/-- An assignment to an operation-local register. -/
theorem runGo_assign {s : State} {rest : List Micro} {m : Micro} {f : Locals → Locals}
    (h : micro m [] s = assign f s) : runGo (m :: rest) s = runGo rest (s.withLoc (f s.loc)) := by
  simp [runGo, h, assign, State.withLoc]

theorem ran_loc {s : State} (q : Quiet s) (l : Locals) : Ran s (s.withLoc l) 0 :=
  ⟨q.withLoc l, rfl, rfl, rfl, rfl, rfl, rfl, rfl, rfl⟩

theorem reach_assign {m : Micro} (f : Locals → Locals) (v' : View) (hm : ∀ s, micro m [] s = assign f s)
    (hv : ∀ s : State, s.view = v → (s.withLoc (f s.loc)).view = v') : Reach c v [m] 0 v' := by
  intro s q _ h
  exact ⟨_, runGo_assign (hm s), ran_loc q _, hv s h⟩

theorem reach_setVal (b : Byte) : Reach c v [.setVal b] 0 (v.withVal b) :=
  reach_assign (fun l => { l with val := b }) _ (fun _ => rfl) (fun _ h => by subst h; rfl)

theorem reach_setValTmp : Reach c v [.setValTmp] 0 (v.withVal v.tmp) :=
  reach_assign (fun l => { l with val := l.tmp }) _ (fun _ => rfl) (fun _ h => by subst h; rfl)

theorem reach_setTgt (t : Target) : Reach c v [.setTgt t] 0 v :=
  reach_assign (fun l => { l with tgt := t }) _ (fun _ => rfl) (fun _ h => by subst h; rfl)

/-- `Select(t)` of a target operand (R30, R140). -/
theorem reach_selectSeq (w : c.wf = true) (t : Target) : Reach c v (selectSeq t) 1 (v.withCs t) := by
  intro s q hc hv
  have q' := q.withLoc { s.loc with tgt := t }
  obtain ⟨u, g, r, vu⟩ := reach_select w t (s.withLoc { s.loc with tgt := t }) q' hc hv
  have h1 : runGo (selectSeq t) s = runGo [.selectTgt] (s.withLoc { s.loc with tgt := t }) :=
    runGo_assign (f := fun l => { l with tgt := t }) rfl
  have h2 : runGo [.selectTgt] (s.withLoc { s.loc with tgt := t }) = runGo [.select t] (s.withLoc { s.loc with tgt := t }) := by
    simp only [runGo]; rfl
  exact ⟨u, h1.trans (h2.trans g), ((ran_loc q _).trans r).as' (by omega), vu⟩

theorem reach_setPixel (page : BitVec 3) (mask : Byte) (ctlr : Target) (col : BitVec 6) :
    Reach c v [.setPixel page mask ctlr col] 0 (v.withMask mask) :=
  reach_assign (fun l => { l with page := page, mask := mask, ctlr := ctlr, col := col }) _ (fun _ => rfl) (fun _ h => by subst h; rfl)

theorem reach_tmpRbv : Reach c v [.tmpRbv] 0 (v.withTmp v.rbv) :=
  reach_assign (fun l => { l with tmp := l.rbv }) _ (fun _ => rfl) (fun _ h => by subst h; rfl)

theorem reach_combine (on : Bool) : Reach c v [.combine on] 0 (v.withTmp (pixCombine on v.tmp v.mask)) :=
  reach_assign (fun l => { l with tmp := pixCombine on l.tmp l.mask }) _ (fun _ => rfl) (fun _ h => by subst h; rfl)

theorem reach_setPg (n : BitVec 4) : Reach c v [.setPg n] 0 v :=
  reach_assign (fun l => { l with pg := n }) _ (fun _ => rfl) (fun _ h => by subst h; rfl)

theorem reach_setCn (n : BitVec 7) : Reach c v [.setCn n] 0 v :=
  reach_assign (fun l => { l with cn := n }) _ (fun _ => rfl) (fun _ h => by subst h; rfl)

theorem reach_pollsZero : Reach c v [.pollsZero] 0 v := by
  intro s q _ h
  by_cases hl : s.cfg.pollLimit = none
  · exact ⟨s, by simp [runGo, micro, hl], Ran.refl q, h⟩
  · exact ⟨_, runGo_assign (f := fun l => { l with polls := 0 }) (by simp [micro, hl]), ran_loc q _, by subst h; rfl⟩

/-! ## Pulse events -/

/-- The record of the pulse event a view makes (R58). -/
def View.pulse (v : View) : Pulse := ⟨v.cs1, v.cs2, v.rs, v.rw, v.rst, v.dir, v.dout⟩

/-- The kind of that pulse event (R58). -/
def View.kind (v : View) : PulseKind := v.pulse.kind

/-- The hidden state of controller k. -/
def View.ctl (v : View) : Ctl → Controller
  | .one => v.c1
  | .two => v.c2

/-- A byte of display memory (R52). -/
def View.ram (v : View) (k : Ctl) (page : BitVec 3) (col : BitVec 6) : Byte :=
  (Memory.lookup v.mem (ramAddr k page col)).getD (Config.anyRam (v.ctl k).epoch (ramAddr k page col))

theorem view_ram (s : State) (k : Ctl) (page : BitVec 3) (col : BitVec 6) :
    s.view.ram k page col = s.ramByte k page col := by cases k <;> rfl

/-- Display memory after a pulse event (R52, R61). -/
def View.pulsedMem (v : View) (b : Byte × Byte) : Memory :=
  match v.kind with
  | .dataWrite =>
    let m := if v.cs1 && v.rst then Memory.write v.mem (ramAddr .one v.c1.xp v.c1.ya) b.1 else v.mem
    if v.cs2 && v.rst then Memory.write m (ramAddr .two v.c2.xp v.c2.ya) b.2 else m
  | _ => v.mem

/-- What a pulse event does: recorded, then each selected controller out of reset acts on its byte (R58). -/
def View.act (c : Config) (v : View) (b : Byte × Byte) : View :=
  { v with
    c1 := if v.cs1 && v.rst then pulsedCtl c v.kind b.1 (v.ram .one v.c1.xp v.c1.ya) v.c1 else v.c1
    c2 := if v.cs2 && v.rst then pulsedCtl c v.kind b.2 (v.ram .two v.c2.xp v.c2.ya) v.c2 else v.c2
    mem := v.pulsedMem b
    pulses := v.pulse :: v.pulses }

theorem view_quietPulse (e : EnvSlot) (s : State) : (quietPulse e s).view = s.view.act s.cfg (s.busBytes e) := by
  have hk : s.view.kind = s.pulseRecord.kind := rfl
  unfold View.act View.pulsedMem
  rw [hk]
  cases h' : s.pulseRecord.kind
  case statusRead => rw [quietPulse_statusRead e s h']; simp [pulsedCtl]; rfl
  case dataRead => rw [quietPulse_dataRead e s h']; rfl
  case commandWrite => rw [quietPulse_commandWrite e s h']; rfl
  case dataWrite => rw [quietPulse_dataWrite e s h']; rfl

/-- A read pulse event does not look at the byte (R62, R63). -/
theorem act_read {v : View} (h : v.rw = true) (b b' : Byte × Byte) : v.act c b = v.act c b' := by
  have hk : v.kind = .statusRead ∨ v.kind = .dataRead := by
    simp only [View.kind, View.pulse, Pulse.kind, h]; cases v.rs <;> simp
  unfold View.act View.pulsedMem
  rcases hk with hk | hk <;> simp [hk, pulsedCtl]

theorem quiet_quietPulse {s : State} (q : Quiet s) (e : EnvSlot) : Quiet (quietPulse e s) := by
  have hc : (quietPulse e s).cfg = s.cfg := by simp [quietPulse, deliver]; (repeat' split) <;> simp
  have hb : ∀ k, ((quietPulse e s).ctl k).busy = (s.ctl k).busy := by
    intro k; simp only [quietPulse, deliver_busy]; cases k <;> rfl
  refine ⟨hc ▸ q.wf, (quietPulse_protoFault ..).trans q.fault, ?_, ?_, ?_⟩
  · show calmSlots _
    rw [quietPulse_keeps_env]; exact q.calm
  · exact (hb .one).trans q.ready1
  · exact (hb .two).trans q.ready2

/-- `CtrlClear(m)` that lowers E: the pulse event, seen line by line (R58). -/
theorem go_clear_pulse {s : State} (q : Quiet s) (m : Byte) (hm : m &&& s.cfg.mReserved = 0) (he : s.flagE = true)
    (hE : flagIn m s.cfg.mE = true) :
    ∃ t, runGo [.ctrlClear m] s = some t ∧ Ran s t 1 ∧
      t.loc = s.loc ∧ t.view = { s.view.act s.cfg (s.busBytes s.slot) with
        cs1 := s.flagCS1 && !flagIn m s.cfg.mCS1, cs2 := s.flagCS2 && !flagIn m s.cfg.mCS2,
        rst := s.flagRST && !flagIn m s.cfg.mRST, rs := s.flagRS && !flagIn m s.cfg.mRS,
        rw := s.flagRW && !flagIn m s.cfg.mRW, e := false } := by
  have w := q.wf
  refine ⟨_, runGo_ctrlClear_pulse q m he hE, ?_, ?_, ?_⟩
  · refine ran_tick ((quiet_quietPulse q _).withCtrl _) _ ?_ ?_ ?_ ?_ ?_ ?_ ?_ ?_
    all_goals simp [quietPulse, deliver]
    all_goals (repeat' split) <;> simp
  · simp [quietPulse, deliver]; (repeat' split) <;> simp
  · have hcfg : (quietPulse s.slot s).cfg = s.cfg := by simp [quietPulse, deliver]; (repeat' split) <;> simp
    rw [view_ctrl, view_quietPulse, hcfg]
    simp [flagIn_and_not _ _ (Config.wf_oneHot_mCS1 w), flagIn_and_not _ _ (Config.wf_oneHot_mCS2 w),
      flagIn_and_not _ _ (Config.wf_oneHot_mRST w), flagIn_and_not _ _ (Config.wf_oneHot_mRS w),
      flagIn_and_not _ _ (Config.wf_oneHot_mRW w), flagIn_and_not _ _ (Config.wf_oneHot_mE w), hE,
      reserved_and_not _ _ hm, State.flagCS1, State.flagCS2, State.flagRST, State.flagRS, State.flagRW]
    rfl

/-- `CtrlClear(M_E)` with E high: the bytes are those the controllers find on the bus in its slot (R58). -/
theorem go_lowerE_bytes {s : State} (q : Quiet s) (he : s.flagE = true) :
    ∃ t, runGo [.ctrlClear s.cfg.mE] s = some t ∧ Ran s t 1 ∧ t.loc = s.loc ∧
      t.view = (s.view.act s.cfg (s.busBytes s.slot)).withE false := by
  have w := q.wf
  obtain ⟨t, ht, rt, lt, vt⟩ := go_clear_pulse q s.cfg.mE (mE_reserved _) he (flag_mE_mE w)
  refine ⟨t, ht, rt, lt, ?_⟩
  rw [vt]
  simp only [flag_mE_mCS1 w, flag_mE_mCS2 w, flag_mE_mRST w, flag_mE_mRS w, flag_mE_mRW w, Bool.not_false,
    Bool.and_true]
  rfl

/-- `CtrlClear(M_E)` with E high, the bytes as they come: DOUT's where the engine drives the bus (R58). -/
theorem go_lowerE {s : State} (q : Quiet s) (he : s.flagE = true) :
    ∃ b t, (s.dir = .output → b = (s.dout, s.dout)) ∧ runGo [.ctrlClear s.cfg.mE] s = some t ∧ Ran s t 1 ∧
      t.loc = s.loc ∧ t.view = (s.view.act s.cfg b).withE false :=
  have ⟨t, ht, rt, lt, vt⟩ := go_lowerE_bytes q he
  ⟨s.busBytes s.slot, t, busBytes_output, ht, rt, lt, vt⟩

/-- `CtrlClear(M_E)` with E high, the engine driving the bus or the bus in read mode. -/
theorem reach_lowerE (w : c.wf = true) (he : v.e = true) (hd : v.dir = .output ∨ v.rw = true) :
    Reach c v [.ctrlClear c.mE] 1 ((v.act c (v.dout, v.dout)).withE false) := by
  intro s q hc hv
  subst hc hv
  obtain ⟨b, t, hb, ht, rt, -, vt⟩ := go_lowerE q he
  refine ⟨t, ht, rt, ?_⟩
  have hact : s.view.act s.cfg b = s.view.act s.cfg (s.dout, s.dout) := by
    rcases hd with hd | hd
    · rw [hb hd]
    · exact act_read hd ..
  rw [vt, hact]
  rfl

theorem withE_same (he : v.e = false) : v.withE false = v := by cases v; simp_all [View.withE]

/-- The view after `CtrlClear(M_E)`: where E was high its pulse event is delivered (R58, R287). -/
def State.lowered (s : State) : View :=
  if s.flagE then (s.view.act s.cfg (s.busBytes s.slot)).withE false else s.view

theorem lowered_low {s : State} (he : s.flagE = false) : s.lowered = s.view := by simp [State.lowered, he]

@[simp] theorem lowered_cs1 (s : State) : s.lowered.cs1 = s.flagCS1 := by unfold State.lowered; split <;> rfl
@[simp] theorem lowered_cs2 (s : State) : s.lowered.cs2 = s.flagCS2 := by unfold State.lowered; split <;> rfl
@[simp] theorem lowered_rst (s : State) : s.lowered.rst = s.flagRST := by unfold State.lowered; split <;> rfl
@[simp] theorem lowered_rs (s : State) : s.lowered.rs = s.flagRS := by unfold State.lowered; split <;> rfl
@[simp] theorem lowered_rw (s : State) : s.lowered.rw = s.flagRW := by unfold State.lowered; split <;> rfl
@[simp] theorem lowered_reserved (s : State) : s.lowered.reserved = s.reservedBits := by
  unfold State.lowered; split <;> rfl
@[simp] theorem lowered_dir (s : State) : s.lowered.dir = s.dir := by unfold State.lowered; split <;> rfl
@[simp] theorem lowered_dout (s : State) : s.lowered.dout = s.dout := by unfold State.lowered; split <;> rfl
@[simp] theorem lowered_e (s : State) : s.lowered.e = false := by
  unfold State.lowered; split
  · rfl
  · rename_i h; exact (Bool.not_eq_true _).mp h

theorem lowered_pulses (s : State) : s.lowered.pulses = (if s.flagE then [s.pulseRecord] else []) ++ s.pulses := by
  unfold State.lowered; split <;> rfl

/-- The lowered view depends on the view, the coming slot and the draws only. -/
theorem lowered_congr {s t : State} (hv : t.view = s.view) (hc : t.cfg = s.cfg) (he : t.env = s.env)
    (hd : t.draws = s.draws) : t.lowered = s.lowered := by
  have h1 : t.pulseRecord = s.pulseRecord := congrArg (fun v : View => (⟨v.cs1, v.cs2, v.rs, v.rw, v.rst, v.dir, v.dout⟩ : Pulse)) hv
  have h2 : t.slot = s.slot := by unfold State.slot; rw [he]
  have h3 : t.flagE = s.flagE := congrArg View.e hv
  unfold State.lowered State.busBytes
  rw [h1, h2, h3, hv, hc, hd]

/-- `CtrlClear(M_E)`, whatever E is. -/
theorem go_clearE {s : State} (q : Quiet s) :
    ∃ t, runGo [.ctrlClear s.cfg.mE] s = some t ∧ Ran s t 1 ∧ t.view = s.lowered := by
  cases he : s.flagE
  · obtain ⟨t, g, r, h⟩ := reach_clearE (c := s.cfg) (v := s.view) q.wf he s q rfl rfl
    exact ⟨t, g, r, h.trans (lowered_low he).symm⟩
  · obtain ⟨t, g, r, -, h⟩ := go_lowerE_bytes q he
    exact ⟨t, g, r, by rw [h]; simp [State.lowered, he]⟩

/-- A pulse event that no controller acts on: a status read, or nobody selected (R58, R63). -/
theorem act_idle (h : v.kind = .statusRead ∨ (v.cs1 = false ∧ v.cs2 = false)) (b : Byte × Byte) :
    v.act c b = v.withPulses (v.pulse :: v.pulses) := by
  have hm : v.pulsedMem b = v.mem := by
    unfold View.pulsedMem
    rcases h with h | ⟨h1, h2⟩
    · rw [h]
    · simp only [h1, h2, Bool.false_and, Bool.false_eq_true, if_false]; split <;> rfl
  have e1 : ∀ x, (if (v.cs1 && v.rst) = true then pulsedCtl c v.kind b.1 x v.c1 else v.c1) = v.c1 := by
    intro x; rcases h with h | ⟨h1, h2⟩ <;> simp [*, pulsedCtl]
  have e2 : ∀ x, (if (v.cs2 && v.rst) = true then pulsedCtl c v.kind b.2 x v.c2 else v.c2) = v.c2 := by
    intro x; rcases h with h | ⟨h1, h2⟩ <;> simp [*, pulsedCtl]
  unfold View.act
  rw [hm, e1, e2]
  rfl

/-! ## Sampling -/

/-- `SMP <- Sample()`. -/
theorem go_sample {s : State} (q : Quiet s) :
    ∃ t, runGo [.sample] s = some t ∧ Ran s t 1 ∧ t.view = s.view ∧ t.loc.smp = s.sampleValue s.slot :=
  ⟨_, runGo_sample q, ran_tick ((q.withLoc _).drawn 1) _ rfl rfl rfl rfl rfl rfl rfl rfl, rfl, rfl⟩

end Sys2Proof.Machine
end

