-- ==== Sys2Proof/Laws/Waits.lean ====
section
/-! SUPPORT. WaitReady and WaitEach in a quiet state (R150, R152, R153): each goes through with one poll a
controller. -/

namespace Sys2Proof.Machine

variable {c : Config} {v : View}

/-- A controller that is the only one selected, out of reset, with the bus turned round and E, RW high and RS
low, shows whether it is busy (R63). -/
theorem sampleValue_status {s : State} (e : EnvSlot) (k : Ctl) (hd : s.dir = .input) (he : s.flagE = true)
    (hw : s.flagRW = true) (hs : s.flagRS = false) (hr : s.flagRST = true) (h1 : s.flagCS1 = decide (k = .one))
    (h2 : s.flagCS2 = decide (k = .two)) :
    s.sampleValue e = statusByte s.cfg.busyMask (s.ctl k).busy (e.busByte s.draws) := by
  cases k <;> simp [State.sampleValue, State.driver, hd, he, hw, hs, hr, h1, h2]

/-- The record of a poll's pulse event (R150). -/
def pollPulse (k : Ctl) (dout : Byte) : Pulse :=
  ⟨decide (k = .one), decide (k = .two), false, true, true, .input, dout⟩

/-- The test after a poll that did not show busy (R150). -/
theorem go_test {s : State} (q : Quiet s) (h : showsBusy s.cfg.busyMask s.loc.smp = false) :
    ∃ t, runGo [.test] s = some t ∧ Ran s t 0 ∧ t.view = s.view := by
  cases hl : s.cfg.pollLimit with
  | none => exact ⟨s, by simp [runGo, micro, pollTest, h, countPoll, hl], Ran.refl q, rfl⟩
  | some n =>
    exact ⟨s.withLoc { s.loc with polls := s.loc.polls + 1 },
      by simp [runGo, micro, pollTest, h, countPoll, hl, State.withLoc], ran_loc q _, rfl⟩

/-- CR.1 to CR.5 with E low (R122). -/
theorem reach_cfgRead (w : c.wf = true) (he : v.e = false) :
    Reach c v (cfgReadSeq c) 5 (((v.withDir .input).withRs false).withRw true) :=
  (reach_clearE w he).cons <| (reach_setDir .input).cons <| (reach_clearRS w).cons <| (reach_setRW w).cons <|
    reach_delay .settle

/-- One poll of a ready controller (R150): five primitives, one status read. -/
theorem reach_poll (w : c.wf = true) (k : Ctl) (hd : v.dir = .input) (he : v.e = false) (hrw : v.rw = true)
    (hrs : v.rs = false) (hr : v.rst = true) (h1 : v.cs1 = decide (k = .one)) (h2 : v.cs2 = decide (k = .two)) :
    Reach c v (pollBody c ++ [.test]) 5 (v.withPulses (pollPulse k v.dout :: v.pulses)) := by
  intro s q hc hv
  obtain ⟨s1, g1, r1, v1⟩ := ((reach_setE (v := v) w).cons (reach_delay .settle)) s q hc hv
  obtain ⟨s2, g2, r2, v2, hs⟩ := go_sample r1.quiet
  have hv2 := v2.trans v1
  obtain ⟨b, s3, -, g3, r3, l3, v3⟩ := go_lowerE r2.quiet (congrArg View.e hv2)
  have g4 := runGo_delay (rest := []) r3.quiet .settle
  have hb : showsBusy s3.cfg.busyMask s3.loc.smp = false := by
    rw [r3.cfg, r2.cfg, l3, hs, sampleValue_status _ k ((congrArg View.dir v1).trans hd) (congrArg View.e v1)
      ((congrArg View.rw v1).trans hrw) ((congrArg View.rs v1).trans hrs) ((congrArg View.rst v1).trans hr)
      ((congrArg View.cs1 v1).trans h1) ((congrArg View.cs2 v1).trans h2), showsBusy_statusByte r1.quiet.wf]
    cases k
    · exact r1.quiet.ready1
    · exact r1.quiet.ready2
  obtain ⟨s5, g5, r5, v5⟩ := go_test (r3.quiet.tick (.delay .settle)) hb
  have hc2 : s2.cfg = c := r2.cfg.trans (r1.cfg.trans hc)
  refine ⟨s5, ?_, (r1.trans (r2.trans (r3.trans ((ran_tick r3.quiet (.delay .settle) rfl rfl rfl rfl rfl rfl rfl
    rfl).trans r5)))), ?_⟩
  · rw [← hc2] at g1 ⊢
    refine (runGo_append (b := [.sample, .ctrlClear s2.cfg.mE, .delay .settle, .test]) g1).trans ?_
    refine (runGo_append (b := [.ctrlClear s2.cfg.mE, .delay .settle, .test]) g2).trans ?_
    refine (runGo_append (b := [.delay .settle, .test]) g3).trans ?_
    rw [runGo_delay r3.quiet, g5]
  · rw [v5]
    show s3.view = _
    have hk : (v.withE true).kind = .statusRead := by
      simp [View.kind, View.pulse, Pulse.kind, hrw, hrs]
    have hp : (v.withE true).pulse = pollPulse k v.dout := by
      cases k <;> simp [View.pulse, pollPulse, hd, hrw, hrs, hr, h1, h2]
    rw [v3, hv2, act_idle (Or.inl hk), hp]
    exact withE_same (v := v.withPulses _) he

/-- `WaitReady()` with controller k alone selected (R150, R151): eleven primitives, one status read. -/
theorem reach_waitReady (w : c.wf = true) (k : Ctl) (he : v.e = false) (hr : v.rst = true)
    (h1 : v.cs1 = decide (k = .one)) (h2 : v.cs2 = decide (k = .two)) :
    Reach c v (waitReadySeq c) 11
      ((((v.withRs false).withRw true).withPulses (pollPulse k v.dout :: v.pulses)).withDir .output) :=
  show Reach c v (cfgReadSeq c ++ ([.pollsZero] ++ ((pollBody c ++ [.test]) ++ [.setDir .output])))
      (5 + (0 + (5 + 1))) _ from
    (reach_cfgRead w he).append <| reach_pollsZero.append <|
      (reach_poll (v := ((v.withDir .input).withRs false).withRw true) w k rfl he rfl rfl hr h1 h2).append <|
      reach_setDir .output

/-- `WaitReady()` with controller k alone selected, whatever the lines are (R150, R151): an E that is high falls first
(R287). -/
theorem go_waitReady {s : State} (q : Quiet s) (k : Ctl) (hr : s.flagRST = true) (hk : s.selectsOnly k) :
    ∃ u, runGo (waitReadySeq s.cfg) s = some u ∧ Ran s u 11 ∧ u.view =
      (((s.lowered.withRs false).withRw true).withPulses (pollPulse k s.dout :: s.lowered.pulses)).withDir .output := by
  have w := q.wf
  obtain ⟨s1, g1, r1, v1⟩ := go_clearE q
  obtain ⟨s2, g2, r2, v2⟩ := ((reach_setDir (c := s.cfg) (v := s.lowered) .input).cons <| (reach_clearRS w).cons <|
    (reach_setRW w).cons <| (reach_delay .settle).append <| reach_pollsZero.append <|
    (reach_poll (v := ((s.lowered.withDir .input).withRs false).withRw true) w k rfl (lowered_e s) rfl rfl
      ((lowered_rst s).trans hr) ((lowered_cs1 s).trans hk.1) ((lowered_cs2 s).trans hk.2)).append <|
    reach_setDir .output) s1 r1.quiet r1.cfg v1
  refine ⟨s2, (runGo_append (a := [.ctrlClear s.cfg.mE]) g1).trans g2, (r1.trans r2).as' rfl, ?_⟩
  rw [v2, ← lowered_dout s]; rfl

/-- The pulse events of the waits of a target, newest first (R152). -/
def waitPulses (t : Target) (dout : Byte) : List Pulse :=
  (if t.has2 then [pollPulse .two dout] else []) ++ (if t.has1 then [pollPulse .one dout] else [])

/-- The lines after `WaitEach(t)` (R152). -/
def View.waited (v : View) (t : Target) : View :=
  match t with
  | .none => v
  | _ => ((((v.withCs (lastWaited t)).withRs false).withRw true).withPulses
            (waitPulses t v.dout ++ v.pulses)).withDir .output

theorem reach_waitOne (w : c.wf = true) (k : Ctl) (he : v.e = false) (hr : v.rst = true) :
    Reach c v (.select k.target :: waitReadySeq c) 12 (v.waited k.target) := by
  cases k
  · exact ((reach_select w .cs1).cons
      (reach_waitReady (v := v.withCs .cs1) w .one he hr rfl rfl)).as rfl rfl
  · exact ((reach_select w .cs2).cons
      (reach_waitReady (v := v.withCs .cs2) w .two he hr rfl rfl)).as rfl rfl

/-- `WaitEach(t)` (R152): twelve primitives a controller. -/
theorem reach_waitEach (w : c.wf = true) (t : Target) (he : v.e = false) (hr : v.rst = true) :
    Reach c v (waitEachSeq c t) (12 * t.count) (v.waited t) := by
  cases t
  · exact Reach.refl
  · exact (reach_waitOne w .one he hr).append Reach.refl
  · exact reach_waitOne w .two he hr
  · exact ((reach_waitOne w .one he hr).append
      (reach_waitOne (v := v.waited .cs1) w .two he hr)).as rfl rfl

end Sys2Proof.Machine
end

