-- ==== Sys2Proof/Laws/Transport.lean ====
section
/-! SUPPORT. The byte transfers in a quiet state (R165 to R171): each goes through, with the counts of R172, and
leaves the lines, the controllers and display memory as its lemma says. -/

namespace Sys2Proof.Machine

variable {c : Config} {v : View}

/-! ## Writes -/

/-- `Pulse()` (R10, R58): three primitives, one pulse event. -/
theorem reach_pulse (w : c.wf = true) (he : v.e = false) (hd : v.dir = .output ∨ v.rw = true) :
    Reach c v (pulseSeq c) 3 (v.act c (v.dout, v.dout)) :=
  ((reach_setE w).cons <| (reach_delay .settle).cons <|
    reach_lowerE (v := v.withE true) w rfl hd).as rfl (withE_same (v := v.act c (v.dout, v.dout)) he)

/-- The view at the first pulse of `WriteByte(x, t)`. -/
def View.offering (v : View) (t : Target) (x : Byte) : View :=
  ((v.withVal x).withDout x).withCs t

/-- The view after `WriteByte(x, t)` (R168), `b` being what the bus carried at its first pulse. -/
def View.writtenAs (c : Config) (v : View) (t : Target) (x : Byte) (b : Byte × Byte) : View :=
  let u := ((v.offering t x).act c b).waited t
  ((u.withDout 0).withPulses ({ u.pulse with byte := 0 } :: u.pulses)).withCs .none

/-- The view after `WriteByte(x, t)` with the engine driving the bus (R168). -/
abbrev View.written (c : Config) (v : View) (t : Target) (x : Byte) : View := v.writtenAs c t x (x, x)

theorem waited_closing (t : Target) (h : t = .none → v.cs1 = false ∧ v.cs2 = false) :
    (v.waited t).kind = .statusRead ∨ ((v.waited t).cs1 = false ∧ (v.waited t).cs2 = false) := by
  cases t
  · exact Or.inr (h rfl)
  all_goals exact Or.inl rfl

/-- In read mode the bytes on the bus make no difference (R62, R63). -/
theorem writtenAs_read (h : v.rw = true) (t : Target) (x : Byte) (b b' : Byte × Byte) :
    v.writtenAs c t x b = v.writtenAs c t x b' := by
  unfold View.writtenAs
  rw [act_read (v := v.offering t x) h b b']

/-- `WriteByte(x, t)` (R168, R172), whatever DIR and E are: an E that is high falls with the first pulse. -/
theorem go_writeByte {s : State} (q : Quiet s) (t : Target) {load : Micro} {x : Byte}
    (hl : Reach s.cfg s.view [load] 0 (s.view.withVal x)) (hr : s.flagRST = true) :
    ∃ b u, (s.dir = .output → b = (x, x)) ∧ runGo (writeByteSeq s.cfg load t) s = some u ∧
      Ran s u (11 + 12 * t.count) ∧ u.view = (s.view.withE false).writtenAs s.cfg t x b := by
  have w := q.wf
  generalize hc : s.cfg = c at *
  let o := (s.view.withE false).offering t x
  have h1 : Reach c s.view _ _ (o.withE true) := hl.cons <| reach_driveVal.cons <|
    (reach_selectSeq w t).append <| (reach_delay .settle).cons <| (reach_setE w).cons (reach_delay .settle)
  obtain ⟨s1, g1, r1, v1⟩ := h1 s q hc rfl
  have c1 : s1.cfg = c := r1.cfg.trans hc
  obtain ⟨b, s2, hb, g2, r2, -, v2⟩ := go_lowerE r1.quiet (congrArg View.e v1)
  rw [v1, c1] at v2
  rw [c1] at g2
  let u := (o.act c b).waited t
  have eu : u.e = false := by simp only [u]; cases t <;> rfl
  have h3 : Reach c (o.act c b) _ _ ((u.withDout 0).withE true) :=
    (reach_waitEach (v := o.act c b) w t rfl hr).append <| reach_driveZero.cons <|
      (reach_setE w).cons (reach_delay .settle)
  obtain ⟨s3, g3, r3, v3⟩ := h3 s2 r2.quiet (r2.cfg.trans c1) v2
  have c3 : s3.cfg = c := r3.cfg.trans (r2.cfg.trans c1)
  obtain ⟨b', s4, -, g4, r4, -, v4⟩ := go_lowerE r3.quiet (congrArg View.e v3)
  rw [v3, c3] at v4
  rw [c3] at g4
  have hk := waited_closing (v := o.act c b) t (by rintro rfl; exact ⟨rfl, rfl⟩)
  rw [act_idle (v := (u.withDout 0).withE true) hk] at v4
  obtain ⟨s5, g5, r5, v5⟩ := reach_select (v := s4.view) w .none s4 r4.quiet (r4.cfg.trans c3) rfl
  refine ⟨b, s5, fun hd => ?_, ?_, (r1.trans (r2.trans (r3.trans (r4.trans r5)))).as' (by omega), ?_⟩
  · rw [hb ((congrArg View.dir v1).trans hd), show s1.dout = x from congrArg View.dout v1]
  · have hseq : writeByteSeq c load t =
        (load :: .driveVal :: (selectSeq t ++ .delay .settle :: .ctrlSet c.mE :: [.delay .settle])) ++
          .ctrlClear c.mE :: (waitEachSeq c t ++ .driveZero :: .ctrlSet c.mE :: [.delay .settle]) ++
          .ctrlClear c.mE :: [.select .none] := by
      simp [writeByteSeq, pulseSeq, List.append_assoc]
    rw [hseq, List.append_assoc, runGo_append g1]
    show runGo ([.ctrlClear c.mE] ++ ((waitEachSeq c t ++ _) ++ _)) s1 = _
    rw [runGo_append g2, runGo_append g3]
    show runGo ([.ctrlClear c.mE] ++ _) s3 = _
    rw [runGo_append g4, g5]
  · rw [v5, v4]
    have h : (((u.withDout 0).withE true).withPulses (((u.withDout 0).withE true).pulse ::
        ((u.withDout 0).withE true).pulses)).withE false =
        (u.withDout 0).withPulses ((u.withDout 0).pulse :: u.pulses) :=
      withE_same (v := (u.withDout 0).withPulses ((u.withDout 0).pulse :: u.pulses)) eu
    rw [h]
    rfl

/-- `WriteByte(x, t)` with the engine driving the bus, or the bus in read mode (R168, R172). -/
theorem reach_writeByte (w : c.wf = true) (t : Target) {load : Micro} {x : Byte}
    (hl : ∀ u : View, u.tmp = v.tmp → Reach c u [load] 0 (u.withVal x)) (he : v.e = false)
    (hr : v.rst = true) (hd : v.dir = .output ∨ v.rw = true) :
    Reach c v (writeByteSeq c load t) (11 + 12 * t.count) (v.written c t x) := by
  intro s q hc hv
  subst hc hv
  obtain ⟨b, u, hb, g, r, vu⟩ := go_writeByte q t (hl _ rfl) hr
  rw [withE_same he] at vu
  refine ⟨u, g, r, vu.trans ?_⟩
  rcases hd with hd | hd
  · rw [hb hd]
  · exact writtenAs_read hd ..

/-- `WriteCommand(x, t)` (R170, R172), whatever the lines are: an E that is high falls first (R287). -/
theorem go_writeCommand {s : State} (q : Quiet s) (t : Target) (x : Byte) (hr : s.flagRST = true) :
    ∃ b u, (s.dir = .output → b = (x, x)) ∧ runGo (writeCommandSeq s.cfg x t) s = some u ∧
      Ran s u (14 + 12 * t.count) ∧ u.view = ((s.lowered.withRs false).withRw false).writtenAs s.cfg t x b := by
  have w := q.wf
  obtain ⟨s0, g0, r0, v0⟩ := go_clearE q
  obtain ⟨s1, g1, r1, v1⟩ := ((reach_selectSeq (c := s.cfg) (v := s.lowered) w t).append (reach_clearRSRW w)) s0 r0.quiet
    r0.cfg v0
  have c1 : s1.cfg = s.cfg := r1.cfg.trans r0.cfg
  obtain ⟨b, s2, hb, g2, r2, v2⟩ := go_writeByte r1.quiet t (load := .setVal x) (reach_setVal x)
    ((congrArg View.rst v1).trans ((lowered_rst s).trans hr))
  rw [c1] at g2 v2
  rw [v1] at v2
  refine ⟨b, s2, fun hd => hb ((congrArg View.dir v1).trans ((lowered_dir s).trans hd)), ?_,
    (r0.trans (r1.trans r2)).as' (by omega), v2.trans ?_⟩
  · have hseq : writeCommandSeq s.cfg x t = [.ctrlClear s.cfg.mE] ++ ((selectSeq t ++ [.ctrlClear (s.cfg.mRS ||| s.cfg.mRW)])
        ++ writeByteSeq s.cfg (.setVal x) t) := by simp [writeCommandSeq]
    rw [hseq, runGo_append g0, runGo_append g1, g2]
  · rw [withE_same (v := ((s.lowered.withCs t).withRs false).withRw false) (lowered_e s)]; rfl

/-- `WriteData(x, t)` (R171, R172), whatever the lines are: an E that is high falls first (R287). -/
theorem go_writeData {s : State} (q : Quiet s) (t : Target) (x : Byte) (hr : s.flagRST = true) :
    ∃ b u, (s.dir = .output → b = (x, x)) ∧ runGo (writeDataSeq s.cfg (.setVal x) t) s = some u ∧
      Ran s u (15 + 12 * t.count) ∧ u.view = ((s.lowered.withRs true).withRw false).writtenAs s.cfg t x b := by
  have w := q.wf
  obtain ⟨s0, g0, r0, v0⟩ := go_clearE q
  obtain ⟨s1, g1, r1, v1⟩ := ((reach_selectSeq (c := s.cfg) (v := s.lowered) w t).append <| (reach_setRS w).cons
    (reach_clearRW w)) s0 r0.quiet r0.cfg v0
  have c1 : s1.cfg = s.cfg := r1.cfg.trans r0.cfg
  obtain ⟨b, s2, hb, g2, r2, v2⟩ := go_writeByte r1.quiet t (load := .setVal x) (reach_setVal x)
    ((congrArg View.rst v1).trans ((lowered_rst s).trans hr))
  rw [c1] at g2 v2
  rw [v1] at v2
  refine ⟨b, s2, fun hd => hb ((congrArg View.dir v1).trans ((lowered_dir s).trans hd)), ?_,
    (r0.trans (r1.trans r2)).as' (by omega), v2.trans ?_⟩
  · have hseq : writeDataSeq s.cfg (.setVal x) t = [.ctrlClear s.cfg.mE] ++ ((selectSeq t ++ .ctrlSet s.cfg.mRS ::
        [.ctrlClear s.cfg.mRW]) ++ writeByteSeq s.cfg (.setVal x) t) := by simp [writeDataSeq]
    rw [hseq, runGo_append g0, runGo_append g1, g2]
  · rw [withE_same (v := ((s.lowered.withCs t).withRs true).withRw false) (lowered_e s)]; rfl

/-- `WriteCommand(x, t)` (R170, R172). -/
theorem reach_writeCommand (w : c.wf = true) (t : Target) (x : Byte) (he : v.e = false) (hr : v.rst = true)
    (hd : v.dir = .output) :
    Reach c v (writeCommandSeq c x t) (14 + 12 * t.count) (((v.withRs false).withRw false).written c t x) := by
  exact ((reach_clearE w (by exact he)).cons <| (reach_selectSeq w t).append <| (reach_clearRSRW w).cons <|
    reach_writeByte w t (fun u _ => reach_setVal x) (by exact he) (by exact hr) (Or.inl (by exact hd))).as (by omega) rfl

/-- `WriteData(x, t)` (R171, R172). -/
theorem reach_writeData (w : c.wf = true) (t : Target) {load : Micro} {x : Byte}
    (hl : ∀ u : View, u.tmp = v.tmp → Reach c u [load] 0 (u.withVal x)) (he : v.e = false)
    (hr : v.rst = true) (hd : v.dir = .output) :
    Reach c v (writeDataSeq c load t) (15 + 12 * t.count) (((v.withRs true).withRw false).written c t x) := by
  exact ((reach_clearE w (by exact he)).cons <| (reach_selectSeq w t).append <| (reach_setRS w).cons <| (reach_clearRW w).cons <|
    reach_writeByte w t (by exact fun u h => hl u h) (by exact he) (by exact hr) (Or.inl (by exact hd))).as (by omega) rfl

/-! ## Reads -/

/-- The view at the read pulse of `ReadByte(rs, t)` (R165). -/
def View.reading (v : View) (rs : Bool) (t : Target) : View :=
  (((v.withDir .input).withRs rs).withRw true).withCs t

/-- The view after `ReadByte(rs, t)`, `b` being its value (R165). -/
def View.readAs (c : Config) (v : View) (rs : Bool) (t : Target) (b : Byte) : View :=
  (((((v.reading rs t).act c (v.dout, v.dout)).withE false).withRbv b).withDir .output).waited t

/-- What `Sample()` returns in a data read of controller k alone: its output latch (R62). -/
theorem sampleValue_data {s : State} (e : EnvSlot) (k : Ctl) (hd : s.dir = .input) (he : s.flagE = true)
    (hw : s.flagRW = true) (hs : s.flagRS = true) (hr : s.flagRST = true) (h1 : s.flagCS1 = decide (k = .one))
    (h2 : s.flagCS2 = decide (k = .two)) : s.sampleValue e = (s.ctl k).ol := by
  cases k <;> simp [State.sampleValue, State.driver, hd, he, hw, hs, hr, h1, h2]

/-- What the value of `ReadByte(rs, t)` is: the latch of the one controller read (R62), a status byte that says
whether it is busy (R63), else any byte (R64). -/
def readValue (c : Config) (v : View) (rs : Bool) (t : Target) (b : Byte) : Prop :=
  ∀ k : Ctl, t = k.target → if rs then b = (v.ctl k).ol else showsBusy c.busyMask b = false

/-- `ReadByte(rs, t)` (R165, R172), whatever the lines are: an E that is high falls first (R287). -/
theorem go_readByte {s : State} (q : Quiet s) (rs : Bool) (t : Target) (hr : s.flagRST = true) :
    ∃ b u, readValue s.cfg s.lowered rs t b ∧ runGo (readByteSeq s.cfg rs t) s = some u ∧
      Ran s u ((if rs then 13 else 12) + 12 * t.count) ∧ u.view = s.lowered.readAs s.cfg rs t b := by
  have w := q.wf
  have hset : ∀ v : View, v.rs = false → Reach s.cfg v (if rs then [.ctrlSet s.cfg.mRS] else [])
      (if rs then 1 else 0) (v.withRs rs) := by
    intro v hv; cases rs
    · exact Reach.refl.as rfl (by cases v; simp_all [View.withRs])
    · exact reach_setRS w
  obtain ⟨s', g', rr, v'⟩ := go_clearE q
  obtain ⟨s1, g1, r1', v1⟩ := (((reach_setDir .input).cons <| (reach_clearRS w).cons <| (reach_setRW w).cons <|
    reach_delay .settle).append <| (hset _ (by rfl)).append <| (reach_selectSeq w t).append <| (reach_delay .settle).cons <|
    (reach_setE w).cons (reach_delay .settle)) s' rr.quiet rr.cfg v'
  have r1 := rr.trans r1'
  obtain ⟨s2, g2, r2, v2, hs⟩ := go_sample r1.quiet
  have hv2 := v2.trans v1
  have g3 : runGo [.latchRbv] s2 = some (s2.withLoc { s2.loc with rbv := s2.loc.smp }) := rfl
  have r3 := ran_loc r2.quiet { s2.loc with rbv := s2.loc.smp }
  have v3 : (s2.withLoc { s2.loc with rbv := s2.loc.smp }).view =
      ((s.lowered.reading rs t).withE true).withRbv s2.loc.smp := by
    have : (s2.withLoc { s2.loc with rbv := s2.loc.smp }).view = s2.view.withRbv s2.loc.smp := rfl
    rw [this, hv2]; rfl
  generalize hb : s2.loc.smp = b at *
  have c3 : (s2.withLoc { s2.loc with rbv := b }).cfg = s.cfg := r3.cfg.trans (r2.cfg.trans r1.cfg)
  obtain ⟨s4, g4, r4, v4⟩ := ((reach_lowerE (c := s.cfg) (v := ((s.lowered.reading rs t).withE true).withRbv b) w rfl
    (Or.inr rfl)).cons <| (reach_setDir .output).cons
    (reach_waitEach w t (by rfl) ((lowered_rst s).trans hr))) _ r3.quiet c3 v3
  refine ⟨b, s4, ?_, ?_, (r1.trans (r2.trans (r3.trans r4))).as' ?_, ?_⟩
  · intro k hk
    subst hk
    rw [hs]
    have hd1 : s1.dir = .input := congrArg View.dir v1
    have he1 : s1.flagE = true := congrArg View.e v1
    have hw1 : s1.flagRW = true := congrArg View.rw v1
    have hs1 : s1.flagRS = rs := congrArg View.rs v1
    have hr1 : s1.flagRST = true := (congrArg View.rst v1).trans ((lowered_rst s).trans hr)
    have k1 : s1.flagCS1 = decide (k = .one) := (congrArg View.cs1 v1).trans (by cases k <;> rfl)
    have k2 : s1.flagCS2 = decide (k = .two) := (congrArg View.cs2 v1).trans (by cases k <;> rfl)
    cases rs with
    | true =>
      rw [if_pos rfl, sampleValue_data _ k hd1 he1 hw1 hs1 hr1 k1 k2]
      cases k
      · exact congrArg (fun v => v.c1.ol) v1
      · exact congrArg (fun v => v.c2.ol) v1
    | false =>
      rw [if_neg (by simp), sampleValue_status _ k hd1 he1 hw1 hs1 hr1 k1 k2, ← r1.cfg,
        showsBusy_statusByte r1.quiet.wf]
      cases k
      · exact r1.quiet.ready1
      · exact r1.quiet.ready2
  · have hseq : readByteSeq s.cfg rs t = [.ctrlClear s.cfg.mE] ++ (((.setDir .input ::
        .ctrlClear s.cfg.mRS :: .ctrlSet s.cfg.mRW :: [.delay .settle]) ++ ((if rs then [.ctrlSet s.cfg.mRS] else [])
        ++ (selectSeq t ++ .delay .settle :: .ctrlSet s.cfg.mE :: [.delay .settle]))) ++
        .sample :: .latchRbv :: .ctrlClear s.cfg.mE :: .setDir .output :: waitEachSeq s.cfg t) := by
      simp [readByteSeq, readPulseSeq, cfgReadSeq]
    rw [hseq, runGo_append g', runGo_append g1]
    show runGo ([.sample] ++ _) s1 = _
    rw [runGo_append g2]
    show runGo ([.latchRbv] ++ _) s2 = _
    rw [runGo_append g3, g4]
  · cases rs <;> simp <;> omega
  · rw [v4]; rfl

end Sys2Proof.Machine
end

