-- ==== Sys2Proof/Laws/Written.lean ====
section
/-! SUPPORT. What a transfer leaves, field by field: the lines after it, and what it did to each controller and to
display memory. -/

namespace Sys2Proof.Machine

variable {c : Config} {v : View}

/-- The lines every transfer to a target other than NONE leaves: nobody selected, DIR = OUTPUT, E and RS low, RW
high, DOUT zero (R168, R280). -/
structure View.Rest (v : View) : Prop where
  cs1 : v.cs1 = false
  cs2 : v.cs2 = false
  rst : v.rst = true
  rs : v.rs = false
  rw : v.rw = true
  e : v.e = false
  dir : v.dir = .output
  dout : v.dout = 0

@[simp] theorem act_cs1 (b : Byte × Byte) : (v.act c b).cs1 = v.cs1 := rfl
@[simp] theorem act_cs2 (b : Byte × Byte) : (v.act c b).cs2 = v.cs2 := rfl
@[simp] theorem act_rst (b : Byte × Byte) : (v.act c b).rst = v.rst := rfl
@[simp] theorem act_rs (b : Byte × Byte) : (v.act c b).rs = v.rs := rfl
@[simp] theorem act_rw (b : Byte × Byte) : (v.act c b).rw = v.rw := rfl
@[simp] theorem act_e (b : Byte × Byte) : (v.act c b).e = v.e := rfl
@[simp] theorem act_reserved (b : Byte × Byte) : (v.act c b).reserved = v.reserved := rfl
@[simp] theorem act_dir (b : Byte × Byte) : (v.act c b).dir = v.dir := rfl
@[simp] theorem act_dout (b : Byte × Byte) : (v.act c b).dout = v.dout := rfl
@[simp] theorem act_val (b : Byte × Byte) : (v.act c b).val = v.val := rfl
@[simp] theorem act_rbv (b : Byte × Byte) : (v.act c b).rbv = v.rbv := rfl
@[simp] theorem act_tmp (b : Byte × Byte) : (v.act c b).tmp = v.tmp := rfl
@[simp] theorem act_mask (b : Byte × Byte) : (v.act c b).mask = v.mask := rfl
@[simp] theorem act_pulses (b : Byte × Byte) : (v.act c b).pulses = v.pulse :: v.pulses := rfl

@[simp] theorem waited_rst (t : Target) : (v.waited t).rst = v.rst := by cases t <;> rfl
@[simp] theorem waited_e (t : Target) : (v.waited t).e = v.e := by cases t <;> rfl
@[simp] theorem waited_reserved (t : Target) : (v.waited t).reserved = v.reserved := by cases t <;> rfl
@[simp] theorem waited_dout (t : Target) : (v.waited t).dout = v.dout := by cases t <;> rfl
@[simp] theorem waited_c1 (t : Target) : (v.waited t).c1 = v.c1 := by cases t <;> rfl
@[simp] theorem waited_c2 (t : Target) : (v.waited t).c2 = v.c2 := by cases t <;> rfl
@[simp] theorem waited_mem (t : Target) : (v.waited t).mem = v.mem := by cases t <;> rfl
@[simp] theorem waited_val (t : Target) : (v.waited t).val = v.val := by cases t <;> rfl
@[simp] theorem waited_rbv (t : Target) : (v.waited t).rbv = v.rbv := by cases t <;> rfl
@[simp] theorem waited_tmp (t : Target) : (v.waited t).tmp = v.tmp := by cases t <;> rfl
@[simp] theorem waited_mask (t : Target) : (v.waited t).mask = v.mask := by cases t <;> rfl
theorem waited_pulses (t : Target) : (v.waited t).pulses = waitPulses t v.dout ++ v.pulses := by cases t <;> rfl

@[simp] theorem written_rst (t : Target) (x : Byte) (b : Byte × Byte) : (v.writtenAs c t x b).rst = v.rst := by simp [View.writtenAs, View.offering]
@[simp] theorem written_e (t : Target) (x : Byte) (b : Byte × Byte) : (v.writtenAs c t x b).e = v.e := by simp [View.writtenAs, View.offering]
@[simp] theorem written_reserved (t : Target) (x : Byte) (b : Byte × Byte) : (v.writtenAs c t x b).reserved = v.reserved := by
  simp [View.writtenAs, View.offering]
@[simp] theorem written_rbv (t : Target) (x : Byte) (b : Byte × Byte) : (v.writtenAs c t x b).rbv = v.rbv := by simp [View.writtenAs, View.offering]
@[simp] theorem written_tmp (t : Target) (x : Byte) (b : Byte × Byte) : (v.writtenAs c t x b).tmp = v.tmp := by simp [View.writtenAs, View.offering]
@[simp] theorem written_mask (t : Target) (x : Byte) (b : Byte × Byte) : (v.writtenAs c t x b).mask = v.mask := by
  simp [View.writtenAs, View.offering]
@[simp] theorem written_cs1 (t : Target) (x : Byte) (b : Byte × Byte) : (v.writtenAs c t x b).cs1 = false := rfl
@[simp] theorem written_cs2 (t : Target) (x : Byte) (b : Byte × Byte) : (v.writtenAs c t x b).cs2 = false := rfl
@[simp] theorem written_dout (t : Target) (x : Byte) (b : Byte × Byte) : (v.writtenAs c t x b).dout = 0 := rfl
@[simp] theorem written_c1 (t : Target) (x : Byte) (b : Byte × Byte) :
    (v.writtenAs c t x b).c1 = ((v.offering t x).act c b).c1 := by simp [View.writtenAs]
@[simp] theorem written_c2 (t : Target) (x : Byte) (b : Byte × Byte) :
    (v.writtenAs c t x b).c2 = ((v.offering t x).act c b).c2 := by simp [View.writtenAs]
@[simp] theorem written_mem (t : Target) (x : Byte) (b : Byte × Byte) :
    (v.writtenAs c t x b).mem = ((v.offering t x).act c b).mem := by simp [View.writtenAs]

theorem written_dir (t : Target) (x : Byte) (b : Byte × Byte) (hd : v.dir = .output) : (v.writtenAs c t x b).dir = .output := by
  cases t <;> simp [View.writtenAs, View.offering, View.waited, hd]

theorem written_rs (t : Target) (x : Byte) (b : Byte × Byte) :
    (v.writtenAs c t x b).rs = if t = .none then v.rs else false := by cases t <;> rfl

theorem written_rw (t : Target) (x : Byte) (b : Byte × Byte) :
    (v.writtenAs c t x b).rw = if t = .none then v.rw else true := by cases t <;> rfl

theorem written_rest {t : Target} (h : t ≠ .none) (x : Byte) (b : Byte × Byte) (hr : v.rst = true) (he : v.e = false)
    (hd : v.dir = .output) : (v.writtenAs c t x b).Rest :=
  ⟨rfl, rfl, by simpa using hr, by rw [written_rs, if_neg h], by rw [written_rw, if_neg h], by simpa using he,
    written_dir t x b hd, rfl⟩

/-- The pulse events of `WriteByte(x, t)`, newest first, the first one of kind (rs, rw) (R168). -/
theorem written_pulses (t : Target) (x : Byte) (b : Byte × Byte) : (v.writtenAs c t x b).pulses =
    { (((v.offering t x).act c b).waited t).pulse with byte := 0 } ::
      (waitPulses t x ++ (v.offering t x).pulse :: v.pulses) := by
  simp [View.writtenAs, waited_pulses, View.offering]

/-- The byte of the pair that controller k finds on the bus (R58, U7). -/
def byteTo (b : Byte × Byte) : Ctl → Byte
  | .one => b.1
  | .two => b.2

@[simp] theorem byteTo_same (x : Byte) (k : Ctl) : byteTo (x, x) k = x := by cases k <;> rfl

/-- Is controller k selected? -/
def View.selects (v : View) : Ctl → Bool
  | .one => v.cs1
  | .two => v.cs2

/-- What `WriteByte` leaves in each controller: those of the target have acted on the byte they found (R168). -/
theorem writtenAs_ctl (t : Target) (x : Byte) (b : Byte × Byte) (hr : v.rst = true) (k : Ctl) :
    (v.writtenAs c t x b).ctl k =
      if t.has k then pulsedCtl c v.kind (byteTo b k) (v.ram k (v.ctl k).xp (v.ctl k).ya) (v.ctl k) else v.ctl k := by
  cases k
  · show (v.writtenAs c t x b).c1 = _
    rw [written_c1]
    show (if t.has1 && v.rst then pulsedCtl c v.kind b.1 (v.ram .one v.c1.xp v.c1.ya) v.c1 else v.c1) = _
    rw [hr, Bool.and_true]; rfl
  · show (v.writtenAs c t x b).c2 = _
    rw [written_c2]
    show (if t.has2 && v.rst then pulsedCtl c v.kind b.2 (v.ram .two v.c2.xp v.c2.ya) v.c2 else v.c2) = _
    rw [hr, Bool.and_true]; rfl

/-- What a pulse event leaves in display memory: in data write mode the byte each selected controller out of reset found,
at its position; otherwise nothing (R52, R61). -/
theorem act_ram (b : Byte × Byte) (k : Ctl) (p : BitVec 3) (l : BitVec 6) : (v.act c b).ram k p l =
    if v.kind = .dataWrite ∧ (v.selects k && v.rst) = true ∧ p = (v.ctl k).xp ∧ l = (v.ctl k).ya then byteTo b k
    else v.ram k p l := by
  have he : ((v.act c b).ctl k).epoch = (v.ctl k).epoch := by
    cases k
    all_goals
      show (if _ then _ else _ : Controller).epoch = _
      split
      · exact pulsedCtl_epoch ..
      · rfl
  unfold View.ram
  rw [he]
  show (Memory.lookup (v.pulsedMem b) _).getD _ = _
  unfold View.pulsedMem
  cases v.kind
  case dataWrite =>
    have w : ∀ (m : Memory) (k' : Ctl) (p' : BitVec 3) (l' : BitVec 6) (y : Byte),
        Memory.lookup (Memory.write m (ramAddr k' p' l') y) (ramAddr k p l) =
          if k = k' ∧ p = p' ∧ l = l' then some y else Memory.lookup m (ramAddr k p l) := by
      intro m k' p' l' y
      split
      · rename_i h; obtain ⟨rfl, rfl, rfl⟩ := h; exact lookup_write_same ..
      · rename_i h; exact lookup_write_other _ _ (fun h' => h (ramAddr_inj.mp h'))
    cases h1 : v.cs1 && v.rst <;> cases h2 : v.cs2 && v.rst <;> cases k <;>
      simp [w, View.ctl, View.selects, byteTo, h1, h2] <;> split <;> simp_all
  all_goals simp

/-- What `WriteByte` leaves in display memory: in data write mode the byte each controller of the target found, at its
position; otherwise nothing (R61, R168). -/
theorem writtenAs_ram (t : Target) (x : Byte) (b : Byte × Byte) (hr : v.rst = true) (k : Ctl) (p : BitVec 3)
    (l : BitVec 6) : (v.writtenAs c t x b).ram k p l =
      if v.kind = .dataWrite ∧ t.has k = true ∧ p = (v.ctl k).xp ∧ l = (v.ctl k).ya then byteTo b k else v.ram k p l := by
  have he : ((v.writtenAs c t x b).ctl k).epoch = (((v.offering t x).act c b).ctl k).epoch := by
    cases k
    · show (v.writtenAs c t x b).c1.epoch = _; rw [written_c1]; rfl
    · show (v.writtenAs c t x b).c2.epoch = _; rw [written_c2]; rfl
  have ha := act_ram (c := c) (v := v.offering t x) b k p l
  unfold View.ram at ha ⊢
  rw [he, written_mem, ha]
  have hs : ((v.offering t x).selects k && (v.offering t x).rst) = t.has k := by
    show ((v.offering t x).selects k && v.rst) = _
    rw [hr, Bool.and_true]; cases k <;> rfl
  rw [hs]
  cases k <;> rfl

/-- A command write by the engine (R60, R170). -/
theorem command_ctl (t : Target) (x : Byte) (hr : v.rst = true) (k : Ctl) :
    (((v.withRs false).withRw false).written c t x).ctl k =
      if t.has k then commandEffect c x (v.ctl k) else v.ctl k := by
  rw [writtenAs_ctl t x _ (by exact hr), byteTo_same]
  cases k <;> rfl

theorem command_mem (t : Target) (x : Byte) : (((v.withRs false).withRw false).written c t x).mem = v.mem := by
  rw [written_mem]; rfl

/-- A data write by the engine (R61, R171): the columns advance. -/
theorem data_ctl (t : Target) (x : Byte) (hr : v.rst = true) (k : Ctl) :
    (((v.withRs true).withRw false).written c t x).ctl k =
      if t.has k then { v.ctl k with ya := (v.ctl k).ya + 1 } else v.ctl k := by
  rw [writtenAs_ctl t x _ (by exact hr)]
  cases k <;> rfl

/-- A data write by the engine stores the byte at each addressed controller's position, and nowhere else (R61). -/
theorem data_ram (t : Target) (x : Byte) (hr : v.rst = true) (k : Ctl) (p : BitVec 3) (l : BitVec 6) :
    (((v.withRs true).withRw false).written c t x).ram k p l =
      if t.has k ∧ p = (v.ctl k).xp ∧ l = (v.ctl k).ya then x else v.ram k p l := by
  rw [writtenAs_ram t x _ (by exact hr), byteTo_same]
  have hk : ((v.withRs true).withRw false).kind = .dataWrite := rfl
  simp only [hk, true_and]
  cases k <;> rfl

/-! ## Reads -/

@[simp] theorem readAs_rst (rs : Bool) (t : Target) (b : Byte) : (v.readAs c rs t b).rst = v.rst := by
  simp [View.readAs, View.reading]
@[simp] theorem readAs_e (rs : Bool) (t : Target) (b : Byte) : (v.readAs c rs t b).e = false := by
  simp [View.readAs, View.reading]
@[simp] theorem readAs_reserved (rs : Bool) (t : Target) (b : Byte) : (v.readAs c rs t b).reserved = v.reserved := by
  simp [View.readAs, View.reading]
@[simp] theorem readAs_dout (rs : Bool) (t : Target) (b : Byte) : (v.readAs c rs t b).dout = v.dout := by
  simp [View.readAs, View.reading]
@[simp] theorem readAs_rbv (rs : Bool) (t : Target) (b : Byte) : (v.readAs c rs t b).rbv = b := by
  simp [View.readAs]
@[simp] theorem readAs_val (rs : Bool) (t : Target) (b : Byte) : (v.readAs c rs t b).val = v.val := by
  simp [View.readAs, View.reading]
@[simp] theorem readAs_tmp (rs : Bool) (t : Target) (b : Byte) : (v.readAs c rs t b).tmp = v.tmp := by
  simp [View.readAs, View.reading]
@[simp] theorem readAs_mask (rs : Bool) (t : Target) (b : Byte) : (v.readAs c rs t b).mask = v.mask := by
  simp [View.readAs, View.reading]
theorem readAs_dir (rs : Bool) (t : Target) (b : Byte) : (v.readAs c rs t b).dir = .output := by
  cases t <;> rfl
theorem readAs_mem (rs : Bool) (t : Target) (b : Byte) : (v.readAs c rs t b).mem = v.mem := by
  simp only [View.readAs, waited_mem]
  show View.pulsedMem _ _ = _
  unfold View.pulsedMem
  cases rs <;> rfl

theorem readAs_pulses (rs : Bool) (t : Target) (b : Byte) :
    (v.readAs c rs t b).pulses = waitPulses t v.dout ++ (v.reading rs t).pulse :: v.pulses := by
  simp [View.readAs, waited_pulses, View.reading]

/-- A data read reloads the latch with the byte at the position and advances the column; a status read changes
nothing (R62, R63). -/
theorem readAs_ctl (rs : Bool) (t : Target) (b : Byte) (hr : v.rst = true) (k : Ctl) :
    (v.readAs c rs t b).ctl k =
      if rs && t.has k then
        { v.ctl k with ol := v.ram k (v.ctl k).xp (v.ctl k).ya, ya := (v.ctl k).ya + 1 }
      else v.ctl k := by
  cases k
  · show (v.readAs c rs t b).c1 = _
    simp only [View.readAs, waited_c1]
    cases rs
    · show (if t.has1 && v.rst then v.c1 else v.c1) = _
      simp [View.ctl]
    · show (if t.has1 && v.rst then _ else _) = _
      rw [hr, Bool.and_true]; rfl
  · show (v.readAs c rs t b).c2 = _
    simp only [View.readAs, waited_c2]
    cases rs
    · show (if t.has2 && v.rst then v.c2 else v.c2) = _
      simp [View.ctl]
    · show (if t.has2 && v.rst then _ else _) = _
      rw [hr, Bool.and_true]; rfl

/-! ## Pulse events -/

theorem acting_append (l m : List Pulse) : acting (l ++ m) = acting l ++ acting m := List.filter_append ..

theorem acting_waits (t : Target) (b : Byte) (l : List Pulse) : acting (waitPulses t b ++ l) = acting l := by
  rw [acting_append]
  have : acting (waitPulses t b) = [] := by cases t <;> rfl
  rw [this, List.nil_append]

theorem waitPulses_length (t : Target) (b : Byte) : (waitPulses t b).length = t.count := by cases t <;> rfl

theorem acting_cons (p : Pulse) (l : List Pulse) :
    acting (p :: l) = if p.kind = .statusRead then acting l else p :: acting l := by
  unfold acting; rw [List.filter_cons]; cases p.kind <;> rfl

/-- `WriteByte(x, t)` to a controller makes one pulse event that acts, if the kind is not a status read (R168). -/
theorem written_acting {t : Target} (h : t ≠ .none) (x : Byte) (b : Byte × Byte) : acting (v.writtenAs c t x b).pulses =
    acting ((v.offering t x).pulse :: v.pulses) := by
  rw [written_pulses, acting_cons, if_pos (by cases t <;> first | contradiction | rfl), acting_waits]

/-- A command to a target is one pulse event that acts: the command write to exactly the target (R170). -/
theorem command_acting {t : Target} (h : t ≠ .none) (x : Byte) (b : Byte × Byte) :
    acting (((v.withRs false).withRw false).writtenAs c t x b).pulses =
      ⟨t.has1, t.has2, false, false, v.rst, v.dir, x⟩ :: acting v.pulses := by
  rw [written_acting h, acting_cons, if_neg (by intro h; cases h)]
  rfl

/-- A data byte to a target is one pulse event that acts: the data write to exactly the target (R171). -/
theorem data_acting {t : Target} (h : t ≠ .none) (x : Byte) (b : Byte × Byte) :
    acting (((v.withRs true).withRw false).writtenAs c t x b).pulses =
      ⟨t.has1, t.has2, true, false, v.rst, v.dir, x⟩ :: acting v.pulses := by
  rw [written_acting h, acting_cons, if_neg (by intro h; cases h)]
  rfl

theorem written_count (t : Target) (x : Byte) (b : Byte × Byte) :
    (v.writtenAs c t x b).pulses.length = v.pulses.length + 2 + t.count := by
  rw [written_pulses]; simp [waitPulses_length]; omega

theorem readAs_acting (t : Target) (b : Byte) : acting (v.readAs c true t b).pulses =
    (v.reading true t).pulse :: acting v.pulses := by
  rw [readAs_pulses, acting_waits, acting_cons, if_neg (by intro h; cases h)]

theorem readAs_count (rs : Bool) (t : Target) (b : Byte) :
    (v.readAs c rs t b).pulses.length = v.pulses.length + 1 + t.count := by
  rw [readAs_pulses]; simp [waitPulses_length]; omega

end Sys2Proof.Machine
end

