-- ==== Sys2Proof/Laws/Pixel.lean ====
section
/-! SUPPORT. ReadData and PIX in a quiet state (R167, R200 to R205). -/

namespace Sys2Proof.Machine

variable {c : Config} {v : View}

/-- `ReadData(t)` (R167): the first value is dropped, RBV is the second. -/
theorem go_readData {s : State} (q : Quiet s) (t : Target) (hr : s.flagRST = true) :
    ∃ b1 b2 u, readValue s.cfg (s.lowered.readAs s.cfg true t b1) true t b2 ∧
      runGo (readDataSeq s.cfg t) s = some u ∧ Ran s u (26 + 24 * t.count) ∧
      u.view = (s.lowered.readAs s.cfg true t b1).readAs s.cfg true t b2 := by
  obtain ⟨b1, u1, -, g1, r1, v1⟩ := go_readByte q true t hr
  have e1 : u1.flagE = false := (congrArg View.e v1).trans (readAs_e ..)
  have t1 : u1.flagRST = true := (congrArg View.rst v1).trans ((readAs_rst ..).trans ((lowered_rst s).trans hr))
  obtain ⟨b2, u2, h2, g2, r2, v2⟩ := go_readByte r1.quiet true t t1
  rw [lowered_low e1, r1.cfg, v1] at h2 v2
  rw [r1.cfg] at g2
  refine ⟨b1, b2, u2, h2, ?_, (r1.trans r2).as' (by simp; omega), v2⟩
  rw [readDataSeq, runGo_append g1, g2]

/-- The second of two data reads of one controller is the byte at its position (R65 (a), R167). -/
theorem readData_value {k : Ctl} {b1 b2 : Byte} (hr : v.rst = true)
    (h : readValue c (v.readAs c true k.target b1) true k.target b2) :
    b2 = v.ram k (v.ctl k).xp (v.ctl k).ya := by
  have hk : k.target.has k = true := by cases k <;> rfl
  have := h k rfl
  rw [if_pos rfl, readAs_ctl _ _ _ hr, hk] at this
  exact this

/-- The pulse events of PIX that act, newest first: column, page, two data reads, column, data (R204). -/
def pixelPulses (c : Config) (k : Ctl) (col : BitVec 6) (page : BitVec 3) (z : Byte) : List Pulse :=
  let p := fun (rs rw : Bool) (d : Dir) (b : Byte) => (⟨k.target.has1, k.target.has2, rs, rw, true, d, b⟩ : Pulse)
  [p true false .output z, p false false .output (setAddressCmd c col), p true true .input 0, p true true .input 0,
   p false false .output (setPageCmd c page), p false false .output (setAddressCmd c col)]

/-- The view after PIX of an in-range pixel (R200). -/
structure PixEnd (c : Config) (v u : View) (x y : Nat) (on : Bool) : Prop where
  rest : u.Rest
  reserved : u.reserved = v.reserved
  other : ∀ k, k ≠ pixCtl x → u.ctl k = v.ctl k
  ctl : u.ctl (pixCtl x) = { v.ctl (pixCtl x) with
    xp := pixPage y, ya := pixCol x + 1, ol := v.ram (pixCtl x) (pixPage y) (pixCol x + 1) }
  ram : ∀ k p l, u.ram k p l = if k = pixCtl x ∧ p = pixPage y ∧ l = pixCol x then
    pixCombine on (v.ram (pixCtl x) (pixPage y) (pixCol x)) (pixMask y on) else v.ram k p l
  pulses : u.pulses.length = v.pulses.length + 16
  acting : acting u.pulses = pixelPulses c (pixCtl x) (pixCol x) (pixPage y)
    (pixCombine on (v.ram (pixCtl x) (pixPage y) (pixCol x)) (pixMask y on)) ++ acting v.pulses

theorem ram_congr {u v : View} (hm : u.mem = v.mem) (h : ∀ k, (u.ctl k).epoch = (v.ctl k).epoch) (k : Ctl)
    (p : BitVec 3) (l : BitVec 6) : u.ram k p l = v.ram k p l := by
  simp only [View.ram, hm, h]

theorem target_ne_none (k : Ctl) : k.target ≠ .none := by cases k <;> decide

theorem count_target (k : Ctl) : k.target.count = 1 := by cases k <;> rfl

theorem target_has (k j : Ctl) : k.target.has j = decide (j = k) := by cases k <;> cases j <;> rfl

/-! The three parts of PIX, as views. -/

/-- The column sent to controller k (R204). -/
def View.sentCol (c : Config) (v : View) (k : Ctl) (col : BitVec 6) : View :=
  ((v.withRs false).withRw false).written c k.target (setAddressCmd c col)

/-- The page sent to controller k (R204). -/
def View.sentPage (c : Config) (v : View) (k : Ctl) (page : BitVec 3) : View :=
  ((v.withRs false).withRw false).written c k.target (setPageCmd c page)

/-- Controller k read twice (R167). -/
def View.readTwice (c : Config) (v : View) (k : Ctl) (b1 b2 : Byte) : View :=
  (v.readAs c true k.target b1).readAs c true k.target b2

/-- A data byte sent to controller k (R171). -/
def View.sentData (c : Config) (v : View) (k : Ctl) (z : Byte) : View :=
  ((v.withRs true).withRw false).written c k.target z

theorem sentCol_ctl (w : c.wf = true) (hr : v.rst = true) (k j : Ctl) (col : BitVec 6) :
    (v.sentCol c k col).ctl j = if j = k then { v.ctl j with ya := col } else v.ctl j := by
  have h := command_ctl (c := c) (v := v) k.target (setAddressCmd c col) hr j
  rw [commandEffect_setAddress w, target_has] at h
  simpa [View.sentCol] using h

theorem sentPage_ctl (w : c.wf = true) (r : c.refDecodes = true) (hr : v.rst = true) (k j : Ctl) (page : BitVec 3) :
    (v.sentPage c k page).ctl j = if j = k then { v.ctl j with xp := page } else v.ctl j := by
  have h := command_ctl (c := c) (v := v) k.target (setPageCmd c page) hr j
  rw [commandEffect_setPage w r, target_has] at h
  simpa [View.sentPage] using h

theorem readTwice_ctl (hr : v.rst = true) (k j : Ctl) (b1 b2 : Byte) :
    (v.readTwice c k b1 b2).ctl j = if j = k then
      { v.ctl j with ol := v.ram k (v.ctl k).xp ((v.ctl k).ya + 1), ya := (v.ctl k).ya + 1 + 1 } else v.ctl j := by
  have h1 : ∀ j, (v.readAs c true k.target b1).ctl j = if j = k then
      { v.ctl j with ol := v.ram j (v.ctl j).xp (v.ctl j).ya, ya := (v.ctl j).ya + 1 } else v.ctl j := by
    intro j
    have h := readAs_ctl (c := c) true k.target b1 hr j
    rw [Bool.true_and, target_has] at h
    simpa using h
  have hram : ∀ i p l, (v.readAs c true k.target b1).ram i p l = v.ram i p l :=
    ram_congr (readAs_mem ..) (fun i => by rw [h1]; split <;> rfl)
  have h := readAs_ctl (c := c) (v := v.readAs c true k.target b1) true k.target b2 (by simpa using hr) j
  rw [Bool.true_and, target_has] at h
  rw [View.readTwice, h, hram, h1]
  by_cases hj : j = k
  · subst hj; simp
  · simp [hj]

theorem readTwice_mem (k : Ctl) (b1 b2 : Byte) : (v.readTwice c k b1 b2).mem = v.mem :=
  (readAs_mem ..).trans (readAs_mem ..)

/-- The end of PIX, from its three parts (R200 to R205). -/
theorem pixel_end (w : c.wf = true) (r : c.refDecodes = true) (hr : v.rst = true) {k : Ctl} {col : BitVec 6}
    {page : BitVec 3} {b1 b2 z t t' : Byte} {v2 v3 v4 v5 : View} (h2 : v2 = (v.sentCol c k col).sentPage c k page)
    (h3 : v3 = v2.readTwice c k b1 b2) (h4 : v4 = ((v3.withTmp t).sentCol c k col).withTmp t')
    (h5 : v5 = v4.sentData c k z) :
    (∀ j, j ≠ k → v5.ctl j = v.ctl j) ∧
    v5.ctl k = { v.ctl k with xp := page, ya := col + 1, ol := v.ram k page (col + 1) } ∧
    (∀ j p l, v5.ram j p l = if j = k ∧ p = page ∧ l = col then z else v.ram j p l) := by
  have k2 : ∀ j, v2.ctl j = if j = k then { v.ctl j with ya := col, xp := page } else v.ctl j := by
    intro j
    rw [h2, sentPage_ctl w r (by simpa [View.sentCol] using hr), sentCol_ctl w hr]
    by_cases hj : j = k <;> simp [hj]
  have m2 : v2.mem = v.mem := by rw [h2]; exact (command_mem ..).trans (command_mem ..)
  have r2 : v2.rst = true := by rw [h2]; simpa [View.sentCol, View.sentPage] using hr
  have k3 : ∀ j, v3.ctl j = if j = k then
      { v.ctl j with ya := col + 1 + 1, xp := page, ol := v.ram k page (col + 1) } else v.ctl j := by
    intro j
    have hram : ∀ i p l, v2.ram i p l = v.ram i p l := ram_congr m2 (fun i => by rw [k2]; split <;> rfl)
    rw [h3, readTwice_ctl r2, hram, k2, k2]
    by_cases hj : j = k <;> simp [hj]
  have m3 : v3.mem = v.mem := by rw [h3, readTwice_mem, m2]
  have r3 : v3.rst = true := by rw [h3]; simpa [View.readTwice] using r2
  have k4 : ∀ j, v4.ctl j = if j = k then
      { v.ctl j with ya := col, xp := page, ol := v.ram k page (col + 1) } else v.ctl j := by
    intro j
    have h0 : ∀ (u : View) t, (u.withTmp t).ctl j = u.ctl j := by intro u t; cases j <;> rfl
    rw [h4, h0, sentCol_ctl (v := v3.withTmp t) w r3, h0, k3]
    by_cases hj : j = k <;> simp [hj]
  have m4 : v4.mem = v.mem := by rw [h4]; exact (command_mem (v := v3.withTmp t) ..).trans m3
  have r4 : v4.rst = true := by rw [h4]; simpa [View.sentCol] using r3
  have ram4 : ∀ j p l, v4.ram j p l = v.ram j p l := ram_congr m4 (fun j => by rw [k4]; split <;> rfl)
  refine ⟨fun j hj => ?_, ?_, fun j p l => ?_⟩
  · rw [h5, View.sentData, data_ctl _ _ r4, target_has, k4]; simp [hj]
  · rw [h5, View.sentData, data_ctl _ _ r4, target_has, k4]; simp
  · rw [h5, View.sentData, data_ram _ _ r4, target_has, ram4, k4]
    by_cases hj : j = k <;> simp [hj]

theorem pixel_pulses (hr : v.rst = true) (hd : v.dir = .output) {k : Ctl} {col : BitVec 6} {page : BitVec 3}
    {b1 b2 z t t' : Byte} {v2 v3 v4 v5 : View} (h2 : v2 = (v.sentCol c k col).sentPage c k page)
    (h3 : v3 = v2.readTwice c k b1 b2) (h4 : v4 = ((v3.withTmp t).sentCol c k col).withTmp t')
    (h5 : v5 = v4.sentData c k z) :
    v5.pulses.length = v.pulses.length + 16 ∧ acting v5.pulses = pixelPulses c k col page z ++ acting v.pulses := by
  have kt := target_ne_none k
  have hcmd : ∀ (u : View) (x : Byte), u.rst = true → u.dir = .output →
      acting (((u.withRs false).withRw false).written c k.target x).pulses =
        ⟨k.target.has1, k.target.has2, false, false, true, .output, x⟩ :: acting u.pulses := by
    intro u x h1 h2
    rw [command_acting kt, h1, h2]
  have hdat : ∀ (u : View) (x : Byte), u.rst = true → u.dir = .output →
      acting (((u.withRs true).withRw false).written c k.target x).pulses =
        ⟨k.target.has1, k.target.has2, true, false, true, .output, x⟩ :: acting u.pulses := by
    intro u x h1 h2
    rw [data_acting kt, h1, h2]
  have hrd : ∀ (u : View) (b : Byte), u.rst = true → u.dout = 0 → acting (u.readAs c true k.target b).pulses =
        ⟨k.target.has1, k.target.has2, true, true, true, .input, 0⟩ :: acting u.pulses := by
    intro u b h1 h2
    rw [readAs_acting]
    simp [View.pulse, View.reading, h1, h2]
  have r1 : (v.sentCol c k col).rst = true := by simpa [View.sentCol] using hr
  have d1 : (v.sentCol c k col).dir = .output := written_dir _ _ _ hd
  have r2 : v2.rst = true := by rw [h2]; simpa [View.sentPage] using r1
  have o2 : v2.dout = 0 := by rw [h2]; rfl
  have r3 : v3.rst = true := by rw [h3]; simpa [View.readTwice] using r2
  have d3 : v3.dir = .output := by rw [h3]; exact readAs_dir ..
  have r4 : v4.rst = true := by rw [h4]; simpa [View.sentCol] using r3
  have d4 : v4.dir = .output := by rw [h4]; exact written_dir _ _ _ d3
  constructor
  · have n1 : (v.sentCol c k col).pulses.length = v.pulses.length + 3 := by
      rw [View.sentCol, written_count, count_target]; rfl
    have n2 : v2.pulses.length = v.pulses.length + 6 := by
      rw [h2, View.sentPage, written_count, count_target]; simp [n1]
    have n3 : v3.pulses.length = v.pulses.length + 10 := by
      rw [h3, View.readTwice, readAs_count, readAs_count, count_target, n2]
    have n4 : v4.pulses.length = v.pulses.length + 13 := by
      rw [h4, View.withTmp_pulses, View.sentCol, written_count, count_target]; simp [n3]
    rw [h5, View.sentData, written_count, count_target]; simp [n4]
  · rw [h5, View.sentData, hdat _ _ r4 d4, h4, View.withTmp_pulses, View.sentCol, hcmd (v3.withTmp t) _ r3 d3,
      View.withTmp_pulses, h3, View.readTwice, hrd _ _ (by simpa using r2) (by simpa using o2), hrd _ _ r2 o2, h2,
      View.sentPage, hcmd _ _ r1 d1, View.sentCol, hcmd _ _ hr hd]
    rfl

/-- PIX of an in-range pixel (R200 to R205, R172): 155 primitives. -/
theorem go_pixel {s : State} (q : Quiet s) (r : s.cfg.refDecodes = true) (x y : Nat) (on : Bool)
    (he : s.flagE = false) (hr : s.flagRST = true) (hd : s.dir = .output) :
    ∃ u, runGo (pixelSeq s.cfg x y on) s = some u ∧ Ran s u 155 ∧ PixEnd s.cfg s.view u.view x y on := by
  have w := q.wf
  generalize hc : s.cfg = c at *
  generalize hk : pixCtl x = k
  generalize hcol : pixCol x = col
  generalize hpage : pixPage y = page
  generalize hmask : pixMask y on = mask
  let v0 := s.view.withMask mask
  have E0 : v0.e = false := he
  have R0 : v0.rst = true := hr
  let v1 := v0.sentCol c k col
  let v2 := v1.sentPage c k page
  have R1 : v1.rst = true := by simpa [v1, View.sentCol] using R0
  have E1 : v1.e = false := by simpa [v1, View.sentCol] using E0
  have D1 : v1.dir = .output := written_dir _ _ _ hd
  obtain ⟨s2, g2, r2, h2⟩ := ((reach_setPixel (c := c) (v := s.view) page mask k.target col).cons
    ((reach_writeCommand (v := v0) w k.target (setAddressCmd c col) E0 R0 hd).append
    (reach_writeCommand (v := v1) w k.target (setPageCmd c page) E1 R1 D1))) s q hc rfl
  have d2 : s2.view = v2 := h2
  have R2 : v2.rst = true := by simpa [v2, View.sentPage] using R1
  have E2 : v2.e = false := by simpa [v2, View.sentPage] using E1
  obtain ⟨b1, b2, s3, hb, g3, r3, h3⟩ := go_readData r2.quiet k.target ((congrArg View.rst d2).trans R2)
  rw [r2.cfg, hc] at g3 h3 hb
  rw [lowered_low ((congrArg View.e d2).trans E2), d2] at h3 hb
  have hval := readData_value R2 hb
  let v3 := v2.readTwice c k b1 b2
  have d3 : s3.view = v3 := h3
  have R3 : v3.rst = true := by simpa [v3, View.readTwice] using R2
  have E3 : v3.e = false := by simp [v3, View.readTwice]
  have D3 : v3.dir = .output := readAs_dir ..
  have M3 : v3.mask = mask := by simp [v3, View.readTwice, v2, View.sentPage, v1, View.sentCol, v0]
  let z := pixCombine on b2 mask
  let v4 := (v3.withTmp b2).sentCol c k col
  have R4 : v4.rst = true := by simpa [v4, View.sentCol] using R3
  have E4 : v4.e = false := by simpa [v4, View.sentCol] using E3
  have D4 : v4.dir = .output := written_dir _ _ _ D3
  have T4 : v4.tmp = b2 := by simp [v4, View.sentCol]
  have M4 : v4.mask = mask := by simpa [v4, View.sentCol] using M3
  have w4 : Reach c v3 [.tmpRbv] 0 (v3.withTmp b2) :=
    reach_tmpRbv.as rfl (by rw [show v3.rbv = b2 by simp [v3, View.readTwice]])
  have w5 : Reach c (v3.withTmp b2) (writeCommandSeq c (setAddressCmd c col) k.target) _ v4 :=
    reach_writeCommand w k.target _ E3 R3 D3
  have w6 : Reach c v4 [.combine on] 0 (v4.withTmp z) := (reach_combine on).as rfl (by rw [M4, T4])
  have w7 : Reach c (v4.withTmp z) (writeDataSeq c .setValTmp k.target) _ ((v4.withTmp z).sentData c k z) :=
    reach_writeData w k.target (fun u hu => (reach_setValTmp (v := u)).as rfl (by rw [hu]; rfl)) E4 R4 D4
  obtain ⟨s6, g6, r6, h6⟩ := (w4.cons (w5.append (w6.cons w7))) s3 r3.quiet (r3.cfg.trans (r2.cfg.trans hc)) d3
  refine ⟨s6, ?_, (r2.trans (r3.trans r6)).as' (by rw [count_target]), ?_⟩
  · have hseq : pixelSeq c x y on =
        (.setPixel page mask k.target col :: (writeCommandSeq c (setAddressCmd c col) k.target ++
          writeCommandSeq c (setPageCmd c page) k.target)) ++ (readDataSeq c k.target ++
        .tmpRbv :: (writeCommandSeq c (setAddressCmd c col) k.target ++
          .combine on :: writeDataSeq c .setValTmp k.target)) := by
      simp [pixelSeq, hk, hcol, hpage, hmask]
    rw [hseq, runGo_append g2, runGo_append g3, g6]
  · obtain ⟨e1, e2, e3⟩ := pixel_end (v := v0) (v2 := v2) (v3 := v3) (v4 := v4.withTmp z)
      (v5 := (v4.withTmp z).sentData c k z) (col := col) (page := page) w r R0 rfl rfl rfl rfl
    have hp := pixel_pulses (v := v0) (c := c) (v2 := v2) (v3 := v3) (v4 := v4.withTmp z)
      (v5 := (v4.withTmp z).sentData c k z) (col := col) (page := page) R0 hd rfl rfl rfl rfl
    have h0 : ∀ j, v0.ctl j = s.view.ctl j := by intro j; cases j <;> rfl
    have hr0 : ∀ j p l, v0.ram j p l = s.view.ram j p l := fun j p l => ram_congr rfl (fun j => by rw [h0]) j p l
    have ram2 : v2.ram k (v2.ctl k).xp (v2.ctl k).ya = s.view.ram k page col := by
      have c2 : ∀ j, v2.ctl j = if j = k then { s.view.ctl j with ya := col, xp := page } else s.view.ctl j := by
        intro j
        rw [sentPage_ctl w r R1, sentCol_ctl w R0, h0]
        by_cases hj : j = k <;> simp [hj]
      have m2 : v2.mem = s.view.mem := (command_mem (v := v1) ..).trans (command_mem (v := v0) ..)
      rw [ram_congr m2 (fun j => by rw [c2]; split <;> rfl), c2]
      simp
    rw [h6]
    refine ⟨written_rest (target_ne_none k) z _ R4 E4 D4, ?_, ?_, ?_, ?_, ?_, ?_⟩
    · simp [v4, v3, v2, v1, v0, View.sentCol, View.sentPage, View.readTwice, View.sentData]
    · intro j hj
      exact (e1 j (by rwa [← hk])).trans (h0 j)
    · rw [hk, hcol, hpage, ← h0, ← hr0]; exact e2
    · intro j p l
      have := e3 j p l
      rw [hk, hcol, hpage, hmask, ← ram2, ← hval, ← hr0]
      exact this
    · exact hp.1
    · rw [hk, hcol, hpage, hmask, ← ram2, ← hval]; exact hp.2

end Sys2Proof.Machine
end

