-- ==== Sys2Proof/Laws/Bulk.lean ====
section
/-! SUPPORT. CLR in a quiet state (R220): column by column, page by page. -/

namespace Sys2Proof.Machine

variable {c : Config} {v : View}

/-- What a transfer needs of the lines (R280) and out-of-reset controllers. -/
structure View.Able (v : View) : Prop where
  e : v.e = false
  rst : v.rst = true
  dir : v.dir = .output

theorem View.Rest.able (h : v.Rest) : v.Able := ⟨h.e, h.rst, h.dir⟩

theorem written_able {t : Target} (h : v.Able) (x : Byte) : (v.written c t x).Able :=
  ⟨by simpa using h.e, by simpa using h.rst, written_dir _ _ _ h.dir⟩

theorem both_has (k : Ctl) : Target.both.has k = true := by cases k <;> rfl

/-- A command to both controllers, with the engine driving the bus. -/
theorem command_toBoth (h : v.Able) (x : Byte) : acting (((v.withRs false).withRw false).written c .both x).pulses =
    toBoth false x :: acting v.pulses := by
  rw [command_acting (by decide), h.rst, h.dir]; rfl

/-- A data byte to both controllers, with the engine driving the bus. -/
theorem data_toBoth (h : v.Able) (x : Byte) : acting (((v.withRs true).withRw false).written c .both x).pulses =
    toBoth true x :: acting v.pulses := by
  rw [data_acting (by decide), h.rst, h.dir]; rfl

/-- CL.6: `n` zeros from column `k` on, to both controllers. -/
theorem reach_clearColumns (w : c.wf = true) : ∀ (n k : Nat) (v : View), v.Able → k + n ≤ 64 →
    (∀ j, (v.ctl j).ya = BitVec.ofNat 6 k) →
    ∃ u, Reach c v (clearColumnsSeq c n k) (39 * n) u ∧ u.Able ∧ (v.Rest ∨ n ≠ 0 → u.Rest) ∧ u.reserved = v.reserved ∧
      u.pulses.length = v.pulses.length + 4 * n ∧
      acting u.pulses = List.replicate n (toBoth true 0x00) ++ acting v.pulses ∧
      (∀ j, u.ctl j = { v.ctl j with ya := BitVec.ofNat 6 (k + n) }) ∧
      (∀ j p l, u.ram j p l = if p = (v.ctl j).xp ∧ k ≤ l.toNat ∧ l.toNat < k + n then 0 else v.ram j p l)
  | 0, k, v, h, _, hy =>
    ⟨v, Reach.refl, h, by simp, rfl, by simp, rfl, fun j => by simp [← hy j], fun j p l => by
      rw [if_neg]; omega⟩
  | n + 1, k, v, h, hk, hy => by
    let v1 := ((v.withRs true).withRw false).written c .both 0
    have d1 : ∀ j, v1.ctl j = { v.ctl j with ya := (v.ctl j).ya + 1 } := by
      intro j
      have := data_ctl (c := c) .both 0 h.rst j
      rwa [if_pos (both_has j)] at this
    have a1 : v1.Able := written_able (v := (v.withRs true).withRw false) ⟨h.e, h.rst, h.dir⟩ 0
    have y1 : ∀ j, (v1.ctl j).ya = BitVec.ofNat 6 (k + 1) := by
      intro j; rw [d1]; simp only [hy j]; rw [BitVec.ofNat_add]; rfl
    obtain ⟨u, hu, au, nu, ru, pu, qu, cu, mu⟩ := reach_clearColumns w n (k + 1) v1 a1 (by omega) y1
    refine ⟨u, ?_, au, fun _ => ?_, ?_, ?_, ?_, ?_, ?_⟩
    · have h1 : Reach c v (writeDataSeq c (.setVal 0x00) .both) (15 + 12 * 2) v1 :=
        reach_writeData w .both (fun u _ => reach_setVal 0) h.e h.rst h.dir
      exact (h1.append ((reach_setCn _).cons hu)).as (by omega) rfl
    · exact nu (Or.inl (written_rest (v := (v.withRs true).withRw false) (by decide) 0 _ h.rst h.e h.dir))
    · rw [ru]; simp [v1]
    · rw [pu]; simp only [v1]; rw [written_count]; simp [Target.count, Target.has1, Target.has2]; omega
    · rw [qu, data_toBoth h, List.replicate_succ']; simp
    · intro j
      rw [cu, d1, show k + 1 + n = k + (n + 1) by omega]
    · intro j p l
      have hr := data_ram (c := c) .both 0 h.rst j p l
      have hl : l = BitVec.ofNat 6 k ↔ l.toNat = k := by
        rw [← BitVec.toNat_inj, BitVec.toNat_ofNat, Nat.mod_eq_of_lt (by omega)]
      rw [mu, show v1.ram j p l = _ from hr, d1, both_has, hy]
      by_cases hp : p = (v.ctl j).xp
      · simp only [hp, true_and, hl]
        split_ifs <;> first | rfl | omega
      · simp [hp]

/-- CL.3 to CL.6: page `n` of both controllers. -/
theorem reach_clearPage (w : c.wf = true) (r : c.refDecodes = true) (h : v.Able) (n : Nat) (hn : n < 8) :
    ∃ u, Reach c v (clearPageSeq c n) 2572 u ∧ u.Able ∧ u.Rest ∧ u.reserved = v.reserved ∧
      u.pulses.length = v.pulses.length + 264 ∧
      acting u.pulses = (pagePulses c n).reverse ++ acting v.pulses ∧
      (∀ j, u.ctl j = { v.ctl j with xp := BitVec.ofNat 3 n, ya := 0 }) ∧
      (∀ j p l, u.ram j p l = if p = BitVec.ofNat 3 n then 0 else v.ram j p l) := by
  let v1 := ((v.withRs false).withRw false).written c .both (setPageCmd c (BitVec.ofNat 3 n))
  let v2 := ((v1.withRs false).withRw false).written c .both (setAddressCmd c 0)
  have a1 : v1.Able := written_able (v := (v.withRs false).withRw false) ⟨h.e, h.rst, h.dir⟩ _
  have a2 : v2.Able := written_able (v := (v1.withRs false).withRw false) ⟨a1.e, a1.rst, a1.dir⟩ _
  have k1 : ∀ j, v1.ctl j = { v.ctl j with xp := BitVec.ofNat 3 n } := by
    intro j
    have := command_ctl (c := c) .both (setPageCmd c (BitVec.ofNat 3 n)) h.rst j
    rwa [if_pos (both_has j), commandEffect_setPage w r] at this
  have k2 : ∀ j, v2.ctl j = { v.ctl j with xp := BitVec.ofNat 3 n, ya := 0 } := by
    intro j
    have := command_ctl (c := c) .both (setAddressCmd c 0) a1.rst j
    rwa [if_pos (both_has j), commandEffect_setAddress w, k1] at this
  have m2 : v2.mem = v.mem := (command_mem (v := v1) ..).trans (command_mem (v := v) ..)
  have ram2 : ∀ j p l, v2.ram j p l = v.ram j p l := ram_congr m2 (fun j => by rw [k2])
  obtain ⟨u, hu, au, nu, ru, pu, qu, cu, mu⟩ := reach_clearColumns w 64 0 v2 a2 (by omega) (fun j => by rw [k2]; rfl)
  have n1 : v1.pulses.length = v.pulses.length + 4 := by
    simp only [v1]; rw [written_count]; rfl
  have n2 : v2.pulses.length = v.pulses.length + 8 := by
    simp only [v2]; rw [written_count, View.withRw_pulses, View.withRs_pulses, n1]; rfl
  refine ⟨u, ?_, au, nu (Or.inr (by decide)), ?_, ?_, ?_, ?_, ?_⟩
  · have h1 : Reach c v (writeCommandSeq c (setPageCmd c (BitVec.ofNat 3 n)) .both) (14 + 12 * 2) v1 :=
      reach_writeCommand w .both _ h.e h.rst h.dir
    have h2 : Reach c v1 (writeCommandSeq c (setAddressCmd c 0) .both) (14 + 12 * 2) v2 :=
      reach_writeCommand w .both _ a1.e a1.rst a1.dir
    exact ((h1.append h2).append ((reach_setCn 0).cons hu)).as (by omega) rfl
  · rw [ru]; simp [v2, v1]
  · rw [pu, n2]
  · have hp : setPageCmd c (BitVec.ofNat 3 n) = c.cmdSetPage ||| BitVec.ofNat 8 n := by
      unfold setPageCmd; congr 1; apply BitVec.eq_of_toNat_eq; simp; omega
    have ha : setAddressCmd c 0 = c.cmdSetAddress := by simp [setAddressCmd]
    rw [qu, command_toBoth a1, command_toBoth h, hp, ha]
    simp only [pagePulses, List.reverse_cons, List.reverse_replicate, List.append_assoc, List.cons_append, List.nil_append]
  · intro j; rw [cu, k2]; rfl
  · intro j p l
    rw [mu, ram2, k2]
    have := l.isLt
    by_cases hp : p = BitVec.ofNat 3 n
    · rw [if_pos ⟨hp, by omega, by omega⟩, if_pos hp]
    · rw [if_neg (fun h => hp h.1), if_neg hp]

/-- CL.2 to CL.7: `n` pages from page `p0` on. -/
theorem reach_clearPages (w : c.wf = true) (r : c.refDecodes = true) : ∀ (n p0 : Nat) (v : View), v.Able →
    p0 + n ≤ 8 →
    ∃ u, Reach c v (clearPagesSeq c n p0) (2572 * n) u ∧ u.Able ∧ (v.Rest ∨ n ≠ 0 → u.Rest) ∧
      u.reserved = v.reserved ∧ u.pulses.length = v.pulses.length + 264 * n ∧
      acting u.pulses = ((List.range' p0 n).flatMap (pagePulses c)).reverse ++ acting v.pulses ∧
      (∀ j, u.ctl j = if n = 0 then v.ctl j else { v.ctl j with xp := BitVec.ofNat 3 (p0 + n - 1), ya := 0 }) ∧
      (∀ j p l, u.ram j p l = if p0 ≤ p.toNat ∧ p.toNat < p0 + n then 0 else v.ram j p l)
  | 0, p0, v, h, _ =>
    ⟨v, Reach.refl, h, by simp, rfl, by simp, rfl, fun j => by simp, fun j p l => by rw [if_neg]; omega⟩
  | n + 1, p0, v, h, hk => by
    obtain ⟨v1, h1, a1, e1, s1, p1, q1, k1, m1⟩ := reach_clearPage w r h p0 (by omega)
    obtain ⟨u, hu, au, nu, ru, pu, qu, cu, mu⟩ := reach_clearPages w r n (p0 + 1) v1 a1 (by omega)
    refine ⟨u, ?_, au, fun _ => nu (Or.inl e1), ru.trans s1, by rw [pu, p1]; omega, ?_, fun j => ?_, fun j p l => ?_⟩
    · exact (h1.append ((reach_setPg _).cons hu)).as (by omega) rfl
    · rw [qu, q1]; simp [List.range'_succ]
    · rw [cu, k1]
      by_cases hn : n = 0
      · subst hn; simp
      · rw [if_neg hn, if_neg (by omega), show p0 + 1 + n - 1 = p0 + (n + 1) - 1 by omega]
    · have hl : p = BitVec.ofNat 3 p0 ↔ p.toNat = p0 := by
        rw [← BitVec.toNat_inj, BitVec.toNat_ofNat, Nat.mod_eq_of_lt (by omega)]
      rw [mu, m1]
      simp only [hl]
      split_ifs <;> first | rfl | omega

/-- CLR (R220, R172): 20576 primitives, 2112 pulse events, every display byte 0. -/
theorem reach_clearScreen (w : c.wf = true) (r : c.refDecodes = true) (h : v.Able) :
    ∃ u, Reach c v (clearSeq c) 20576 u ∧ u.Rest ∧ u.reserved = v.reserved ∧
      u.pulses.length = v.pulses.length + 2112 ∧
      acting u.pulses = ((List.range 8).flatMap (pagePulses c)).reverse ++ acting v.pulses ∧ (∀ j, u.ctl j = { v.ctl j with xp := 7, ya := 0 }) ∧
      (∀ j p l, u.ram j p l = 0) := by
  obtain ⟨u, hu, -, nu, ru, pu, qu, cu, mu⟩ := reach_clearPages w r 8 0 v h (by omega)
  refine ⟨u, ((reach_setPg 0).cons hu).as rfl rfl, nu (Or.inr (by decide)), ru, pu, by rw [qu, List.range_eq_range'], fun j => ?_, fun j p l => ?_⟩
  · rw [cu, if_neg (by decide)]; rfl
  · rw [mu, if_pos]
    have := p.isLt
    omega

end Sys2Proof.Machine
end

