-- ==== Sys2Proof/Laws/Handshake.lean ====
section
/-! SUPPORT. The handshake (R71, R284): the watch follows every step of a sequence, in any environment without an
EngineReset. -/

namespace Sys2Proof.Machine

/-- The watch `w` is right about `s`: the lines as they are, no controller busy that it calls ready, and if the
last sample was controller c's status byte and showed it ready, c is ready. -/
structure Follows (w : Watch) (s : State) : Prop where
  cs1 : s.flagCS1 = w.cs1
  cs2 : s.flagCS2 = w.cs2
  rst : s.flagRST = w.rst
  rs : s.flagRS = w.rs
  rw : s.flagRW = w.rw
  e : s.flagE = w.e
  dir : s.dir = w.dir
  busy1 : s.c1.busy = true → w.busy1 = true
  busy2 : s.c2.busy = true → w.busy2 = true
  seen1 : w.seen1 = true → showsBusy s.cfg.busyMask s.loc.smp = false → s.c1.busy = false
  seen2 : w.seen2 = true → showsBusy s.cfg.busyMask s.loc.smp = false → s.c2.busy = false

theorem Follows.of_watch (s : State) : Follows s.watch s :=
  ⟨rfl, rfl, rfl, rfl, rfl, rfl, rfl, id, id, nofun, nofun⟩

/-- A state with the same lines and sample, and no controller newly busy, is followed too. -/
theorem Follows.congr {w : Watch} {s t : State} (f : Follows w s) (hc : t.ctrl = s.ctrl) (hk : t.cfg = s.cfg)
    (hd : t.dir = s.dir) (hs : t.loc.smp = s.loc.smp) (h1 : t.c1.busy = true → s.c1.busy = true)
    (h2 : t.c2.busy = true → s.c2.busy = true) : Follows w t := by
  have flag : ∀ m : Config → Byte, flagIn t.ctrl (m t.cfg) = flagIn s.ctrl (m s.cfg) := by intro m; rw [hc, hk]
  refine ⟨(flag Config.mCS1).trans f.cs1, (flag Config.mCS2).trans f.cs2, (flag Config.mRST).trans f.rst,
    (flag Config.mRS).trans f.rs, (flag Config.mRW).trans f.rw, (flag Config.mE).trans f.e, hd.trans f.dir,
    fun h => f.busy1 (h1 h), fun h => f.busy2 (h2 h), ?_, ?_⟩
  · intro h hb
    rw [hk, hs] at hb
    have := f.seen1 h hb
    cases ht : t.c1.busy
    · rfl
    · rw [h1 ht] at this; cases this
  · intro h hb
    rw [hk, hs] at hb
    have := f.seen2 h hb
    cases ht : t.c2.busy
    · rfl
    · rw [h2 ht] at this; cases this

theorem readyStep_busy (k j : Ctl) (s : State) (h : ((readyStep k s).ctl j).busy = true) : (s.ctl j).busy = true := by
  cases k <;> cases j <;> simp_all [readyStep]

theorem envMoves_busy (e : EnvSlot) (j : Ctl) (s : State) (h : ((envMoves e s).ctl j).busy = true) :
    (s.ctl j).busy = true := by
  unfold envMoves at h
  dsimp only at h
  split at h <;> split at h
  · exact readyStep_busy _ _ _ (readyStep_busy _ _ _ h)
  · exact readyStep_busy _ _ _ h
  · exact readyStep_busy _ _ _ h
  · exact h

theorem Follows.envMoves {w : Watch} {s : State} (f : Follows w s) (e : EnvSlot) (l : List EnvSlot) :
    Follows w (envMoves e { s with env := l }) :=
  f.congr (by simp) (by simp) (by simp) (by simp) (envMoves_busy e .one _) (envMoves_busy e .two _)

theorem mayGoBusy_other {e : EnvSlot} {k j : Ctl} {s : State} (h : j ≠ k) :
    ((mayGoBusy e k s).ctl j).busy = (s.ctl j).busy := by
  unfold mayGoBusy; split
  · cases k <;> cases j <;> first | contradiction | rfl
  · rfl

theorem receive_other {e : EnvSlot} {p : Pulse} {k j : Ctl} {b : Byte} {s : State} (h : j ≠ k) :
    ((receive e p k b s).ctl j).busy = (s.ctl j).busy := by
  unfold receive
  split
  · rfl
  split
  · rfl
  split
  · cases j <;> rfl
  · rw [mayGoBusy_other h, actOn_busy]

theorem receive_fault {e : EnvSlot} {p : Pulse} {k : Ctl} {b : Byte} {s : State} (h : (s.ctl k).busy = false) :
    (receive e p k b s).protoFault = s.protoFault := by
  unfold receive
  split
  · rfl
  split
  · rfl
  split
  · rename_i h'; rw [h] at h'; cases h'
  · simp

/-- The fall of E as the watch has it (R58, R71). -/
theorem pulseEvent_follows {w w' : Watch} {s : State} (f : Follows w s) (e : EnvSlot) (hf : s.protoFault = none)
    (h : w.pulse = some w') : Follows w' (pulseEvent e s) ∧ (pulseEvent e s).protoFault = none := by
  let s0 : State := { s with pulses := s.pulseRecord :: s.pulses, draws := s.draws + 2 }
  have hp : pulseEvent e s = receive e s.pulseRecord .two (s.pulseRecord.busByte (e.busByte2 (s.draws + 1)))
      (receive e s.pulseRecord .one (s.pulseRecord.busByte (e.busByte s.draws)) s0) := rfl
  have hkind : (s.pulseRecord.kind = .statusRead) ↔ (w.rw && !w.rs) = true := by
    have h1 : s.pulseRecord.rw = w.rw := f.rw
    have h2 : s.pulseRecord.rs = w.rs := f.rs
    simp only [Pulse.kind, h1, h2]
    cases w.rw <;> cases w.rs <;> simp
  have hrst : s.pulseRecord.rst = w.rst := f.rst
  unfold Watch.pulse at h
  by_cases hq : ((w.rw && !w.rs) || !w.rst) = true
  · rw [if_pos hq] at h
    cases h
    have hidle : s.pulseRecord.rst = false ∨ s.pulseRecord.kind = .statusRead := by
      simp only [Bool.or_eq_true, Bool.not_eq_true'] at hq
      rcases hq with hq | hq
      · exact Or.inr (hkind.mpr hq)
      · exact Or.inl (hrst.trans hq)
    rw [hp, receive_ignored (Or.inr hidle), receive_ignored (Or.inr hidle)]
    exact ⟨f.congr rfl rfl rfl rfl id id, hf⟩
  · rw [if_neg hq] at h
    by_cases hd : (!w.rw && w.dir == .input) = true
    · rw [if_pos hd] at h; cases h
    rw [if_neg hd] at h
    by_cases hb : ((w.cs1 && w.busy1) || (w.cs2 && w.busy2)) = true
    · rw [if_pos hb] at h; cases h
    · rw [if_neg hb] at h
      cases h
      have s1 : s.pulseRecord.selects .one = w.cs1 := f.cs1
      have s2 : s.pulseRecord.selects .two = w.cs2 := f.cs2
      have b1 : w.cs1 = true → s.c1.busy = false := by
        intro h1; cases hx : s.c1.busy
        · rfl
        · exact absurd (by simp [h1, f.busy1 hx]) hb
      have b2 : w.cs2 = true → s.c2.busy = false := by
        intro h1; cases hx : s.c2.busy
        · rfl
        · exact absurd (by simp [h1, f.busy2 hx]) hb
      generalize hx : s.pulseRecord.busByte (e.busByte s.draws) = x1 at hp
      generalize hy : s.pulseRecord.busByte (e.busByte2 (s.draws + 1)) = x2 at hp
      let sa := receive e s.pulseRecord .one x1 s0
      have a1 : w.cs1 = false → sa = s0 := fun h1 => receive_ignored (Or.inl (s1.trans h1))
      have a2 : w.cs2 = false → pulseEvent e s = sa := fun h2 => by
        rw [hp]; exact receive_ignored (Or.inl (s2.trans h2))
      have o2 : sa.c2.busy = s.c2.busy := receive_other (j := .two) (by decide)
      have o1 : (pulseEvent e s).c1.busy = sa.c1.busy := by rw [hp]; exact receive_other (j := .one) (by decide)
      have f1 : sa.protoFault = none := by
        by_cases h1 : w.cs1 = true
        · exact (receive_fault (k := .one) (s := s0) (b1 h1)).trans hf
        · rw [a1 (by simpa using h1)]; exact hf
      have f2 : (pulseEvent e s).protoFault = none := by
        by_cases h2 : w.cs2 = true
        · rw [hp]; exact (receive_fault (k := .two) (o2.trans (b2 h2))).trans f1
        · rw [a2 (by simpa using h2)]; exact f1
      have k1 : w.cs1 = false → (pulseEvent e s).c1.busy = s.c1.busy := fun h1 => by rw [o1, a1 h1]
      have k2 : w.cs2 = false → (pulseEvent e s).c2.busy = s.c2.busy := fun h2 => by rw [a2 h2, o2]
      have g : ∀ m : Config → Byte, flagIn (pulseEvent e s).ctrl (m (pulseEvent e s).cfg) = flagIn s.ctrl (m s.cfg) := by
        intro m; simp
      refine ⟨⟨(g Config.mCS1).trans f.cs1, (g Config.mCS2).trans f.cs2, (g Config.mRST).trans f.rst,
        (g Config.mRS).trans f.rs, (g Config.mRW).trans f.rw, (g Config.mE).trans f.e, by simpa using f.dir, ?_, ?_,
        ?_, ?_⟩, f2⟩
      · intro h
        cases h1 : w.cs1
        · rw [k1 h1] at h; simp [f.busy1 h]
        · simp
      · intro h
        cases h1 : w.cs2
        · rw [k2 h1] at h; simp [f.busy2 h]
        · simp
      · intro h hs
        simp only [Bool.and_eq_true, Bool.not_eq_true'] at h
        rw [k1 h.2]
        exact f.seen1 h.1 (by simpa using hs)
      · intro h hs
        simp only [Bool.and_eq_true, Bool.not_eq_true'] at h
        rw [k2 h.2]
        exact f.seen2 h.1 (by simpa using hs)

/-! ## Each step of a sequence -/

/-- Where the watch is right, and nothing but the environment's own moves can interfere (R284). -/
structure Going (w : Watch) (s : State) : Prop where
  follows : Follows w s
  fault : s.protoFault = none
  noReset : s.noReset = true
  wf : s.cfg.wf = true
  tgt : s.loc.tgt = w.tgt

theorem noReset_head {s : State} (h : s.noReset = true) : s.slot.reset = false := by
  unfold State.noReset at h
  unfold State.slot
  cases he : s.env with
  | nil => rfl
  | cons e l => rw [he] at h; simp at h; simp [h.1]

theorem noReset_tail {s : State} (h : s.noReset = true) : (s.env.tail).all (fun e => !e.reset) = true := by
  unfold State.noReset at h
  cases he : s.env with
  | nil => simp
  | cons e l => rw [he] at h; simp only [List.all_cons, Bool.and_eq_true] at h; exact h.2

/-- No step but the assignment to TGT changes the watch's TGT. -/
theorem Watch.after_tgt {w w' : Watch} {c : Config} {m : Micro} (h : w.after c m = some w')
    (hm : ∀ t, m ≠ .setTgt t) : w'.tgt = w.tgt := by
  have pulse : ∀ v, w.pulse = some v → v.tgt = w.tgt := by
    intro v hv
    unfold Watch.pulse at hv
    repeat' split at hv
    all_goals cases hv
    all_goals rfl
  cases m
  case setTgt t => exact absurd rfl (hm t)
  case ctrlClear m =>
    obtain ⟨v, hv, rfl⟩ := Option.map_eq_some_iff.mp h
    split at hv
    · exact pulse v hv
    · cases hv; rfl
  case ctrlSet m => simp only [Watch.after] at h; split at h <;> cases h; rfl
  case test => simp only [Watch.after] at h; split at h <;> cases h; rfl
  all_goals cases h; rfl

/-- A primitive after the environment's moves. -/
theorem primitive_going {w w' : Watch} {s : State} (g : Going w s) (p : EnvSlot → State → State) (rest : List Micro)
    (hw : w'.tgt = w.tgt)
    (hp : ∀ u : State, u.cfg = s.cfg → Follows w u → u.protoFault = none →
      Follows w' (p s.slot u) ∧ (p s.slot u).protoFault = none ∧ (p s.slot u).cfg = u.cfg ∧ (p s.slot u).env = u.env ∧
        (p s.slot u).loc.tgt = u.loc.tgt) :
    ∃ t, primitive p rest s = .go t ∧ Going w' t ∧ t.cfg = s.cfg := by
  obtain ⟨h1, h2, h3, h4, h5⟩ := hp (envMoves s.slot { s with env := s.env.tail }) (by simp) (g.follows.envMoves _ _)
    (by simpa using g.fault)
  have hcfg : (p s.slot (envMoves s.slot { s with env := s.env.tail })).cfg = s.cfg := h3.trans (by simp)
  refine ⟨p s.slot (envMoves s.slot { s with env := s.env.tail }), ?_, ⟨h1, h2, ?_, ?_, ?_⟩, hcfg⟩
  · unfold primitive
    simp [noReset_head g.noReset, h2]
  · unfold State.noReset; rw [h4]; simpa using noReset_tail g.noReset
  · rw [hcfg]; exact g.wf
  · rw [h5, hw, ← g.tgt]; simp

/-- An update of CTRL that changes no E and releases no reset. -/
theorem updateCtrl_follows {w w' : Watch} {u : State} (e : EnvSlot) (v : Byte) (f : Follows w u)
    (hf : u.protoFault = none)
    (hE : (u.flagE && !flagIn v u.cfg.mE) = false) (hR : (!u.flagRST && flagIn v u.cfg.mRST) = false)
    (h1 : flagIn v u.cfg.mCS1 = w'.cs1) (h2 : flagIn v u.cfg.mCS2 = w'.cs2) (h3 : flagIn v u.cfg.mRST = w'.rst)
    (h4 : flagIn v u.cfg.mRS = w'.rs) (h5 : flagIn v u.cfg.mRW = w'.rw) (h6 : flagIn v u.cfg.mE = w'.e)
    (h7 : w'.dir = w.dir) (h8 : w'.busy1 = w.busy1) (h9 : w'.busy2 = w.busy2) (h10 : w'.seen1 = w.seen1)
    (h11 : w'.seen2 = w.seen2) :
    Follows w' (updateCtrl e v u) ∧ (updateCtrl e v u).protoFault = none := by
  have hu : updateCtrl e v u = { u with ctrl := v } := by
    unfold updateCtrl; simp [hE, hR]
  rw [hu]
  exact ⟨⟨h1, h2, h3, h4, h5, h6, f.dir.trans h7.symm, h8 ▸ f.busy1, h9 ▸ f.busy2, h10 ▸ f.seen1, h11 ▸ f.seen2⟩, hf⟩

/-- The fall of E, and the lines a mask clears with it. -/
theorem clear_pulse_follows {w w1 : Watch} {u : State} (wf : u.cfg.wf = true) (e : EnvSlot) (m : Byte)
    (f : Follows w u) (hf : u.protoFault = none) (he : w.e = true) (hm : flagIn m u.cfg.mE = true)
    (hp : w.pulse = some w1) :
    Follows (w1.clear u.cfg m) (updateCtrl e (u.ctrl &&& ~~~m) u) ∧
      (updateCtrl e (u.ctrl &&& ~~~m) u).protoFault = none := by
  obtain ⟨f1, hf1⟩ := pulseEvent_follows f e hf hp
  have hu : updateCtrl e (u.ctrl &&& ~~~m) u = { pulseEvent e u with ctrl := u.ctrl &&& ~~~m } := by
    unfold updateCtrl
    have h1 : (u.flagE && !flagIn (u.ctrl &&& ~~~m) u.cfg.mE) = true := by
      rw [flagIn_and_not _ _ (Config.wf_oneHot_mE wf), f.e]
      simp [he, hm]
    have h2 : (!u.flagRST && flagIn (u.ctrl &&& ~~~m) u.cfg.mRST) = false := by
      rw [flagIn_and_not _ _ (Config.wf_oneHot_mRST wf)]
      show (!u.flagRST && (u.flagRST && _)) = false
      cases u.flagRST <;> simp
    simp [h1, h2]
  rw [hu]
  have hc : (pulseEvent e u).ctrl = u.ctrl := by simp
  have hk : (pulseEvent e u).cfg = u.cfg := by simp
  refine ⟨⟨?_, ?_, ?_, ?_, ?_, ?_, f1.dir, f1.busy1, f1.busy2, f1.seen1, f1.seen2⟩, hf1⟩
  · show flagIn (u.ctrl &&& ~~~m) (pulseEvent e u).cfg.mCS1 = _
    rw [hk, flagIn_and_not _ _ (Config.wf_oneHot_mCS1 wf), ← hc, ← hk]; exact congrArg (· && _) f1.cs1
  · show flagIn (u.ctrl &&& ~~~m) (pulseEvent e u).cfg.mCS2 = _
    rw [hk, flagIn_and_not _ _ (Config.wf_oneHot_mCS2 wf), ← hc, ← hk]; exact congrArg (· && _) f1.cs2
  · show flagIn (u.ctrl &&& ~~~m) (pulseEvent e u).cfg.mRST = _
    rw [hk, flagIn_and_not _ _ (Config.wf_oneHot_mRST wf), ← hc, ← hk]; exact congrArg (· && _) f1.rst
  · show flagIn (u.ctrl &&& ~~~m) (pulseEvent e u).cfg.mRS = _
    rw [hk, flagIn_and_not _ _ (Config.wf_oneHot_mRS wf), ← hc, ← hk]; exact congrArg (· && _) f1.rs
  · show flagIn (u.ctrl &&& ~~~m) (pulseEvent e u).cfg.mRW = _
    rw [hk, flagIn_and_not _ _ (Config.wf_oneHot_mRW wf), ← hc, ← hk]; exact congrArg (· && _) f1.rw
  · show flagIn (u.ctrl &&& ~~~m) (pulseEvent e u).cfg.mE = _
    rw [hk, flagIn_and_not _ _ (Config.wf_oneHot_mE wf), ← hc, ← hk]; exact congrArg (· && _) f1.e

theorem ctrlClear_follows {w w' : Watch} {u : State} (wf : u.cfg.wf = true) (e : EnvSlot) (m : Byte)
    (f : Follows w u) (hf : u.protoFault = none) (h : w.after u.cfg (.ctrlClear m) = some w') :
    Follows w' (updateCtrl e (u.ctrl &&& ~~~m) u) ∧ (updateCtrl e (u.ctrl &&& ~~~m) u).protoFault = none := by
  by_cases hp : (w.e && flagIn m u.cfg.mE) = true
  · simp only [Watch.after, hp, if_true] at h
    obtain ⟨w1, h1, rfl⟩ := Option.map_eq_some_iff.mp h
    simp only [Bool.and_eq_true] at hp
    exact clear_pulse_follows wf e m f hf hp.1 hp.2 h1
  · simp only [Watch.after, hp] at h
    cases h
    have g : ∀ {k : Byte}, Config.oneHot k = true → flagIn (u.ctrl &&& ~~~m) k = (flagIn u.ctrl k && !flagIn m k) :=
      fun hk => flagIn_and_not _ _ hk
    refine updateCtrl_follows e _ f hf ?_ ?_ ?_ ?_ ?_ ?_ ?_ ?_ rfl rfl rfl rfl rfl
    · rw [g (Config.wf_oneHot_mE wf)]
      show (u.flagE && !(u.flagE && _)) = false
      rw [f.e]; revert hp; cases w.e <;> cases flagIn m u.cfg.mE <;> simp
    · rw [g (Config.wf_oneHot_mRST wf)]
      show (!u.flagRST && (u.flagRST && _)) = false
      cases u.flagRST <;> simp
    · rw [g (Config.wf_oneHot_mCS1 wf)]; exact congrArg (· && _) f.cs1
    · rw [g (Config.wf_oneHot_mCS2 wf)]; exact congrArg (· && _) f.cs2
    · rw [g (Config.wf_oneHot_mRST wf)]; exact congrArg (· && _) f.rst
    · rw [g (Config.wf_oneHot_mRS wf)]; exact congrArg (· && _) f.rs
    · rw [g (Config.wf_oneHot_mRW wf)]; exact congrArg (· && _) f.rw
    · rw [g (Config.wf_oneHot_mE wf)]; exact congrArg (· && _) f.e

theorem ctrlSet_follows {w w' : Watch} {u : State} (e : EnvSlot) (m : Byte)
    (f : Follows w u) (hf : u.protoFault = none) (h : w.after u.cfg (.ctrlSet m) = some w') :
    Follows w' (updateCtrl e (u.ctrl ||| m) u) ∧ (updateCtrl e (u.ctrl ||| m) u).protoFault = none := by
  by_cases hp : (flagIn m u.cfg.mRST && !w.rst) = true
  · simp only [Watch.after, hp, if_true] at h; cases h
  · simp only [Watch.after, hp] at h
    cases h
    refine updateCtrl_follows e _ f hf ?_ ?_ ?_ ?_ ?_ ?_ ?_ ?_ rfl rfl rfl rfl rfl
    · rw [flagIn_or]
      show (u.flagE && !(u.flagE || _)) = false
      cases u.flagE <;> simp
    · rw [flagIn_or]
      show (!u.flagRST && (u.flagRST || _)) = false
      rw [f.rst]; revert hp; cases w.rst <;> cases flagIn m u.cfg.mRST <;> simp
    · rw [flagIn_or]; exact congrArg (· || _) f.cs1
    · rw [flagIn_or]; exact congrArg (· || _) f.cs2
    · rw [flagIn_or]; exact congrArg (· || _) f.rst
    · rw [flagIn_or]; exact congrArg (· || _) f.rs
    · rw [flagIn_or]; exact congrArg (· || _) f.rw
    · rw [flagIn_or]; exact congrArg (· || _) f.e

theorem select_follows {w : Watch} {u : State} (wf : u.cfg.wf = true) (e : EnvSlot) (t : Target)
    (f : Follows w u) (hf : u.protoFault = none) :
    Follows { w with cs1 := t.has1, cs2 := t.has2 } (updateCtrl e (selectCtrl u.cfg t u.ctrl) u) ∧
      (updateCtrl e (selectCtrl u.cfg t u.ctrl) u).protoFault = none := by
  refine updateCtrl_follows e _ f hf ?_ ?_ (flag_select_mCS1 wf t _) (flag_select_mCS2 wf t _) ?_ ?_ ?_ ?_
    rfl rfl rfl rfl rfl
  · rw [flag_select_mE wf]; show (u.flagE && !u.flagE) = false; cases u.flagE <;> rfl
  · rw [flag_select_mRST wf]; show (!u.flagRST && u.flagRST) = false; cases u.flagRST <;> rfl
  · rw [flag_select_mRST wf]; exact f.rst
  · rw [flag_select_mRS wf]; exact f.rs
  · rw [flag_select_mRW wf]; exact f.rw
  · rw [flag_select_mE wf]; exact f.e

theorem sample_follows {w w' : Watch} {u : State} (wf : u.cfg.wf = true) (e : EnvSlot) (f : Follows w u)
    (h : w.after u.cfg .sample = some w') : Follows w' (sample e u) := by
  cases h
  have key : ∀ k : Ctl, (w.dir == .input && w.e && w.rw && !w.rs) = true → w.cs1 = decide (k = .one) →
      w.cs2 = decide (k = .two) → w.rst = true → showsBusy u.cfg.busyMask (u.sampleValue e) = false →
      (u.ctl k).busy = false := by
    intro k hst h1 h2 hr hb
    simp only [Bool.and_eq_true, Bool.not_eq_true', beq_iff_eq] at hst
    obtain ⟨⟨⟨hd, he⟩, hw⟩, hs⟩ := hst
    rw [sampleValue_status e k (f.dir.trans hd) (f.e.trans he) (f.rw.trans hw) (f.rs.trans hs) (f.rst.trans hr)
      (f.cs1.trans h1) (f.cs2.trans h2), showsBusy_statusByte wf] at hb
    exact hb
  refine ⟨f.cs1, f.cs2, f.rst, f.rs, f.rw, f.e, f.dir, f.busy1, f.busy2, ?_, ?_⟩
  · intro hs hb
    dsimp only at hs
    rw [Bool.and_eq_true] at hs
    simp only [Watch.only1, Bool.and_eq_true, Bool.not_eq_true'] at hs
    exact key .one (by simpa using hs.1) hs.2.1.1 hs.2.1.2 hs.2.2 hb
  · intro hs hb
    dsimp only at hs
    rw [Bool.and_eq_true] at hs
    simp only [Watch.only2, Bool.and_eq_true, Bool.not_eq_true'] at hs
    exact key .two (by simpa using hs.1) hs.2.1.2 hs.2.1.1 hs.2.2 hb

/-- A step of a sequence other than a test, under the watch: it goes on with the watch still right. -/
theorem micro_goes {w w' : Watch} {s : State} (g : Going w s) {m : Micro} (hm : m ≠ .test) (rest : List Micro)
    (h : w.after s.cfg m = some w') : ∃ t, micro m rest s = .go t ∧ Going w' t ∧ t.cfg = s.cfg := by
  have loc : ∀ (f : Locals → Locals), (∀ l, (f l).smp = l.smp ∧ (f l).tgt = l.tgt) → w.after s.cfg m = some w →
      (micro m rest s = assign f s) → ∃ t, micro m rest s = .go t ∧ Going w' t ∧ t.cfg = s.cfg := by
    intro f hf ha he
    rw [ha] at h; cases h
    exact ⟨{ s with loc := f s.loc }, he, ⟨g.follows.congr rfl rfl rfl (hf _).1 id id, g.fault, g.noReset, g.wf, (hf _).2.trans g.tgt⟩, rfl⟩
  have ht := Watch.after_tgt h
  cases m
  case ctrlSet m =>
    refine (primitive_going g (ctrlSet m) rest (ht nofun) fun u hc f hf => ?_)
    obtain ⟨a, b⟩ := ctrlSet_follows s.slot m f hf (hc ▸ h)
    exact ⟨a.congr rfl rfl rfl rfl id id, b, by simp [ctrlSet], by simp [ctrlSet], by simp [ctrlSet]⟩
  case ctrlClear m =>
    refine (primitive_going g (ctrlClear m) rest (ht nofun) fun u hc f hf => ?_)
    obtain ⟨a, b⟩ := ctrlClear_follows (hc ▸ g.wf) s.slot m f hf (hc ▸ h)
    exact ⟨a.congr rfl rfl rfl rfl id id, b, by simp [ctrlClear], by simp [ctrlClear], by simp [ctrlClear]⟩
  case select t =>
    refine (primitive_going g (select t) rest (ht nofun) fun u hc f hf => ?_)
    cases h
    obtain ⟨a, b⟩ := select_follows (hc ▸ g.wf) s.slot t f hf
    exact ⟨a.congr rfl rfl rfl rfl id id, b, by simp [select], by simp [select], by simp [select]⟩
  case selectTgt =>
    refine (primitive_going g (select s.loc.tgt) rest (ht nofun) fun u hc f hf => ?_)
    cases h
    rw [g.tgt]
    obtain ⟨a, b⟩ := select_follows (hc ▸ g.wf) s.slot w.tgt f hf
    exact ⟨a.congr rfl rfl rfl rfl id id, b, by simp [select], by simp [select], by simp [select]⟩
  case setDir d =>
    refine (primitive_going g (setDir d) rest (ht nofun) fun u hc f hf => ?_)
    cases h
    exact ⟨⟨f.cs1, f.cs2, f.rst, f.rs, f.rw, f.e, rfl, f.busy1, f.busy2, f.seen1, f.seen2⟩, hf, rfl, rfl, rfl⟩
  case driveVal =>
    refine (primitive_going g (drive s.loc.val) rest (ht nofun) fun u hc f hf => ?_)
    cases h
    exact ⟨f.congr rfl rfl rfl rfl id id, hf, rfl, rfl, rfl⟩
  case driveZero =>
    refine (primitive_going g (drive 0x00) rest (ht nofun) fun u hc f hf => ?_)
    cases h
    exact ⟨f.congr rfl rfl rfl rfl id id, hf, rfl, rfl, rfl⟩
  case delay k =>
    refine (primitive_going g (delay k) rest (ht nofun) fun u hc f hf => ?_)
    cases h
    exact ⟨f.congr rfl rfl rfl rfl id id, hf, rfl, rfl, rfl⟩
  case sample =>
    refine (primitive_going g sample rest (ht nofun) fun u hc f hf => ?_)
    exact ⟨sample_follows (hc ▸ g.wf) s.slot f (hc ▸ h), hf, rfl, rfl, rfl⟩
  case test => exact absurd rfl hm
  case setVal v => exact loc (fun l => { l with val := v }) (fun _ => ⟨rfl, rfl⟩) rfl rfl
  case setValTmp => exact loc (fun l => { l with val := l.tmp }) (fun _ => ⟨rfl, rfl⟩) rfl rfl
  case setTgt t =>
    cases h
    have f := g.follows
    exact ⟨_, rfl, ⟨⟨f.cs1, f.cs2, f.rst, f.rs, f.rw, f.e, f.dir, f.busy1, f.busy2, f.seen1, f.seen2⟩, g.fault, g.noReset,
      g.wf, rfl⟩, rfl⟩
  case latchRbv => exact loc (fun l => { l with rbv := l.smp }) (fun _ => ⟨rfl, rfl⟩) rfl rfl
  case pollsZero =>
    by_cases hl : s.cfg.pollLimit = none
    · exact loc (fun l => l) (fun _ => ⟨rfl, rfl⟩) rfl (by simp [micro, hl, assign])
    · exact loc (fun l => { l with polls := 0 }) (fun _ => ⟨rfl, rfl⟩) rfl (by simp [micro, hl])
  case setPixel page mask ctlr col =>
    exact loc (fun l => { l with page := page, mask := mask, ctlr := ctlr, col := col }) (fun _ => ⟨rfl, rfl⟩) rfl rfl
  case tmpRbv => exact loc (fun l => { l with tmp := l.rbv }) (fun _ => ⟨rfl, rfl⟩) rfl rfl
  case combine on => exact loc (fun l => { l with tmp := pixCombine on l.tmp l.mask }) (fun _ => ⟨rfl, rfl⟩) rfl rfl
  case setPg n => exact loc (fun l => { l with pg := n }) (fun _ => ⟨rfl, rfl⟩) rfl rfl
  case setCn n => exact loc (fun l => { l with cn := n }) (fun _ => ⟨rfl, rfl⟩) rfl rfl
  case setResult =>
    cases h
    exact ⟨_, rfl, ⟨g.follows.congr rfl rfl rfl rfl id id, g.fault, g.noReset, g.wf, g.tgt⟩, rfl⟩

theorem countPoll_going {w : Watch} {s : State} (g : Going w s) : Going w (countPoll s) := by
  unfold countPoll
  split
  · exact g
  · exact ⟨g.follows.congr rfl rfl rfl rfl id id, g.fault, g.noReset, g.wf, g.tgt⟩

/-- The test of a poll that did not show busy, under the watch: whoever was read is ready (R63, R150). -/
theorem test_going {w w' : Watch} {s : State} (g : Going w s) (h : w.after s.cfg .test = some w')
    (hb : showsBusy s.cfg.busyMask s.loc.smp = false) : Going w' s := by
  have f := g.follows
  simp only [Watch.after] at h
  split at h
  · cases h
    refine ⟨⟨f.cs1, f.cs2, f.rst, f.rs, f.rw, f.e, f.dir, ?_, ?_, f.seen1, f.seen2⟩, g.fault, g.noReset, g.wf, g.tgt⟩
    · intro hy
      cases hs : w.seen1
      · simp [f.busy1 hy]
      · rw [f.seen1 hs hb] at hy; cases hy
    · intro hy
      cases hs : w.seen2
      · simp [f.busy2 hy]
      · rw [f.seen2 hs hb] at hy; cases hy
  · cases h

/-- One step of a sequence under the watch, the waits unbounded (R154): it goes on with the watch still right, or it is
the test of a poll that showed busy. -/
theorem micro_follows {w w' : Watch} {s : State} (g : Going w s) (hl : s.cfg.pollLimit = none) (m : Micro)
    (rest : List Micro) (h : w.after s.cfg m = some w') :
    (∃ t, micro m rest s = .go t ∧ Going w' t ∧ t.cfg = s.cfg) ∨
      (m = .test ∧ micro m rest s = loopPoll rest s) := by
  by_cases hm : m = .test
  · subst hm
    by_cases hb : showsBusy s.cfg.busyMask s.loc.smp = true
    · exact Or.inr ⟨rfl, by simp [micro, pollTest, countPoll, hl, hb]⟩
    · exact Or.inl ⟨s, by simp [micro, pollTest, countPoll, hl, hb], test_going g h (by simpa using hb), rfl⟩
  · exact Or.inl (micro_goes g hm rest h)

/-! ## The watch is monotone in what may be busy -/

/-- The same watch, with fewer controllers possibly busy. -/
structure Watch.Below (a b : Watch) : Prop where
  eq : { a with busy1 := b.busy1, busy2 := b.busy2 } = b
  busy1 : a.busy1 = true → b.busy1 = true
  busy2 : a.busy2 = true → b.busy2 = true

theorem Watch.after_test {w w' : Watch} {c : Config} : w.after c .test = some w' ↔
    (w.dir == .input && !w.e && !w.rs && w.rw && w.seen1 == w.only1 && w.seen2 == w.only2) = true ∧
      { w with busy1 := w.busy1 && !w.seen1, busy2 := w.busy2 && !w.seen2 } = w' := by
  simp [Watch.after]

theorem Watch.Below.after {a b b' : Watch} {c : Config} (l : a.Below b) {m : Micro} (h : b.after c m = some b') :
    ∃ a', a.after c m = some a' ∧ a'.Below b' := by
  obtain ⟨x1, x2, x3, x4, x5, x6, x7, y1, y2, x8, x9, x10⟩ := a
  obtain ⟨w1, w2, w3, w4, w5, w6, w7, z1, z2, w8, w9, w10⟩ := b
  obtain ⟨hb, l1, l2⟩ := l
  simp only [Watch.mk.injEq, and_true, true_and] at hb
  obtain ⟨rfl, rfl, rfl, rfl, rfl, rfl, rfl, rfl, rfl, rfl⟩ := hb
  dsimp only at l1 l2
  cases m
  case ctrlSet m =>
    simp only [Watch.after] at h ⊢
    split at h
    · cases h
    · rename_i hh
      cases h
      exact ⟨_, if_neg hh, ⟨rfl, l1, l2⟩⟩
  case ctrlClear m =>
    simp only [Watch.after] at h ⊢
    split at h
    · rename_i hh
      rw [if_pos hh]
      obtain ⟨w1, hw, rfl⟩ := Option.map_eq_some_iff.mp h
      simp only [Watch.pulse] at hw ⊢
      split at hw
      · rename_i hq
        cases hw
        exact ⟨_, by rw [if_pos hq]; rfl, ⟨rfl, l1, l2⟩⟩
      · rename_i hq
        rw [if_neg hq]
        split at hw
        · cases hw
        rename_i hd
        rw [if_neg hd]
        split at hw
        · cases hw
        · rename_i hz
          cases hw
          have hy : ¬((x1 && y1) || (x2 && y2)) = true := by
            revert hz l1 l2; cases x1 <;> cases x2 <;> cases y1 <;> cases y2 <;> cases z1 <;> cases z2 <;> simp
          refine ⟨_, by rw [if_neg hy]; rfl, ⟨rfl, ?_, ?_⟩⟩
          · intro hb; revert hb; simp only [Watch.clear, Bool.or_eq_true]; exact Or.imp_left l1
          · intro hb; revert hb; simp only [Watch.clear, Bool.or_eq_true]; exact Or.imp_left l2
    · rename_i hh
      rw [if_neg hh]
      cases h
      exact ⟨_, rfl, ⟨rfl, l1, l2⟩⟩
  case test =>
    obtain ⟨hh, rfl⟩ := Watch.after_test.mp h
    refine ⟨_, Watch.after_test.mpr ⟨hh, rfl⟩, ⟨rfl, ?_, ?_⟩⟩
    · intro hb; revert hb; simp only [Bool.and_eq_true]; exact And.imp_left l1
    · intro hb; revert hb; simp only [Bool.and_eq_true]; exact And.imp_left l2
  all_goals (cases h; exact ⟨_, rfl, ⟨rfl, l1, l2⟩⟩)

theorem Watch.Below.track {a b b' : Watch} {c : Config} (l : a.Below b) {p : List Micro} (h : b.track c p = some b') :
    ∃ a', a.track c p = some a' ∧ a'.Below b' := by
  induction p generalizing a b with
  | nil => cases h; exact ⟨a, rfl, l⟩
  | cons m rest ih =>
    simp only [Watch.track] at h
    obtain ⟨b1, h1, h2⟩ := Option.bind_eq_some_iff.mp h
    obtain ⟨a1, k1, l1⟩ := l.after h1
    obtain ⟨a2, k2, l2⟩ := ih l1 h2
    exact ⟨a2, by simp only [Watch.track, k1]; exact k2, l2⟩

theorem Watch.Below.settled {a b : Watch} (l : a.Below b) (h : b.settled = true) : a.settled = true := by
  obtain ⟨x1, x2, x3, x4, x5, x6, x7, y1, y2, x8, x9, x10⟩ := a
  obtain ⟨w1, w2, w3, w4, w5, w6, w7, z1, z2, w8, w9, w10⟩ := b
  obtain ⟨hb, l1, l2⟩ := l
  simp only [Watch.mk.injEq, and_true, true_and] at hb
  obtain ⟨rfl, rfl, rfl, rfl, rfl, rfl, rfl, rfl, rfl, rfl⟩ := hb
  dsimp only at l1 l2
  simp only [Watch.settled, Bool.and_eq_true, Bool.not_eq_true'] at h ⊢
  refine ⟨⟨h.1.1, ?_⟩, ?_⟩
  · cases hy : y1
    · rfl
    · rw [l1 hy] at h; simp at h
  · cases hy : y2
    · rfl
    · rw [l2 hy] at h; simp at h

/-! ## Runs -/

/-- One poll under the watch, from where the sequencer loops (R150). -/
theorem track_poll {c : Config} (wf : c.wf = true) (w : Watch) (rest : List Micro) (hd : w.dir = .input)
    (he : w.e = false) (hs : w.rs = false) (hw : w.rw = true) :
    w.track c (pollBody c ++ rest) = { w with seen1 := w.only1, seen2 := w.only2 }.track c rest := by
  obtain ⟨x1, x2, x3, x4, x5, x6, x7, y1, y2, x8, x9, x10⟩ := w
  subst hd he hs hw
  simp [pollBody, Watch.track, Watch.after, Watch.set, Watch.pulse, Watch.clear, Watch.only1, Watch.only2,
    flag_mE_mCS1 wf, flag_mE_mCS2 wf, flag_mE_mRST wf, flag_mE_mRS wf, flag_mE_mRW wf, flag_mE_mE wf]

/-- A watched sequence never sends a byte to a busy controller; where it stops before its end, what is left of it is
watched too. -/
theorem runSeq_follows {p : List Micro} {w w' : Watch} {s : State} (g : Going w s) (hl : s.cfg.pollLimit = none)
    (h : w.track s.cfg p = some w') (hw : w'.settled = true) :
    (runSeq p s).protoFault = none ∧ (runSeq p s).covered = true ∧ (runSeq p s).noReset = true := by
  induction p generalizing w s with
  | nil =>
    cases h
    have f := g.follows
    refine ⟨g.fault, ?_, g.noReset⟩
    simp only [Watch.settled, Bool.and_eq_true, Bool.not_eq_true', beq_iff_eq] at hw
    have hc : s.watch.settled = true := by
      simp only [Watch.settled, State.watch, f.e, f.dir, hw.1.1.1, hw.1.1.2, Bool.and_eq_true]
      refine ⟨⟨by decide, ?_⟩, ?_⟩
      · cases hy : s.c1.busy
        · rfl
        · rw [f.busy1 hy] at hw; simp at hw
      · cases hy : s.c2.busy
        · rfl
        · rw [f.busy2 hy] at hw; simp at hw
    exact hc
  | cons m rest ih =>
    simp only [Watch.track] at h
    obtain ⟨w1, h1, h2⟩ := Option.bind_eq_some_iff.mp h
    unfold runSeq
    rcases micro_follows g hl m rest h1 with ⟨t, ht, gt, hcfg⟩ | ⟨rfl, ht⟩
    · rw [ht]
      exact ih gt (by rw [hcfg]; exact hl) (by rw [hcfg]; exact h2)
    · rw [ht]
      refine ⟨g.fault, ?_, g.noReset⟩
      have f := g.follows
      have h1' := h1
      simp only [Watch.after] at h1'
      split at h1'
      · rename_i hc
        simp only [Bool.and_eq_true, Bool.not_eq_true', beq_iff_eq] at hc
        obtain ⟨⟨⟨⟨⟨hd, he⟩, hrs⟩, hrw⟩, k1⟩, k2⟩ := hc
        let u : State := { s with seq := pollBody s.cfg ++ .test :: rest }
        show State.covered u = true
        have ht2 : w.track s.cfg (.test :: rest) = some w' := by simp only [Watch.track, h1]; exact h2
        let a : Watch := { s.watch with seen1 := s.watch.only1, seen2 := s.watch.only2 }
        have hl : a.Below w := by
          refine ⟨?_, f.busy1, f.busy2⟩
          have ht := g.tgt
          obtain ⟨x1, x2, x3, x4, x5, x6, x7, y1, y2, x8, x9, x10⟩ := w
          simp only [Watch.only1, Watch.only2] at k1 k2
          simp only [a, State.watch, Watch.only1, Watch.only2, f.cs1, f.cs2, f.rst, f.rs, f.rw, f.e, f.dir, k1, k2, ht]
        obtain ⟨a', e1, l1⟩ := hl.track ht2
        have : u.watch.track u.cfg u.seq = some a' := by
          show s.watch.track s.cfg (pollBody s.cfg ++ .test :: rest) = _
          rw [track_poll g.wf s.watch _ (f.dir.trans hd) (f.e.trans he) (f.rs.trans hrs) (f.rw.trans hrw)]
          exact e1
        unfold State.covered
        rw [this]
        exact l1.settled hw
      · cases h1'

end Sys2Proof.Machine
end

