-- ==== Sys2Proof/Laws/Covers.lean ====
section
/-! SUPPORT. Which sequences are covered (R284): from rest with both controllers ready, every transfer sends its
bytes to ready controllers only and ends at rest with both ready again. -/

namespace Sys2Proof.Machine

variable {c : Config} {w : Watch}

/-! ## The watch, line by line -/

def Watch.withE (w : Watch) (b : Bool) : Watch := { w with e := b }
def Watch.withRs (w : Watch) (b : Bool) : Watch := { w with rs := b }
def Watch.withRw (w : Watch) (b : Bool) : Watch := { w with rw := b }
def Watch.withCs (w : Watch) (t : Target) : Watch := { w with cs1 := t.has1, cs2 := t.has2 }
def Watch.aimed (w : Watch) (t : Target) : Watch := { w with cs1 := t.has1, cs2 := t.has2, tgt := t }
def Watch.withDir (w : Watch) (d : Dir) : Watch := { w with dir := d }
def Watch.withSeen (w : Watch) (a b : Bool) : Watch := { w with seen1 := a, seen2 := b }
def Watch.withBusy (w : Watch) (a b : Bool) : Watch := { w with busy1 := a, busy2 := b }

/-- A step after which the watch is `w'`. -/
theorem track_cons {w w' : Watch} {m : Micro} {p : List Micro} (h : w.after c m = some w') :
    w.track c (m :: p) = w'.track c p := by simp only [Watch.track, h, Option.bind_some]

theorem after_setE (wf : c.wf = true) : w.after c (.ctrlSet c.mE) = some (w.withE true) := by
  simp [Watch.after, Watch.set, Watch.withE, flag_mE_mCS1 wf, flag_mE_mCS2 wf, flag_mE_mRST wf, flag_mE_mRS wf,
    flag_mE_mRW wf, flag_mE_mE wf]

theorem after_setRS (wf : c.wf = true) : w.after c (.ctrlSet c.mRS) = some (w.withRs true) := by
  simp [Watch.after, Watch.set, Watch.withRs, flag_mRS_mCS1 wf, flag_mRS_mCS2 wf, flag_mRS_mRST wf, flag_mRS_mRS wf,
    flag_mRS_mRW wf, flag_mRS_mE wf]

theorem after_setRW (wf : c.wf = true) : w.after c (.ctrlSet c.mRW) = some (w.withRw true) := by
  simp [Watch.after, Watch.set, Watch.withRw, flag_mRW_mCS1 wf, flag_mRW_mCS2 wf, flag_mRW_mRST wf, flag_mRW_mRS wf,
    flag_mRW_mRW wf, flag_mRW_mE wf]

theorem after_clearRS (wf : c.wf = true) : w.after c (.ctrlClear c.mRS) = some (w.withRs false) := by
  simp [Watch.after, Watch.clear, Watch.withRs, flag_mRS_mCS1 wf, flag_mRS_mCS2 wf, flag_mRS_mRST wf, flag_mRS_mRS wf,
    flag_mRS_mRW wf, flag_mRS_mE wf]

theorem after_clearRW (wf : c.wf = true) : w.after c (.ctrlClear c.mRW) = some (w.withRw false) := by
  simp [Watch.after, Watch.clear, Watch.withRw, flag_mRW_mCS1 wf, flag_mRW_mCS2 wf, flag_mRW_mRST wf, flag_mRW_mRS wf,
    flag_mRW_mRW wf, flag_mRW_mE wf]

theorem after_clearRSRW (wf : c.wf = true) :
    w.after c (.ctrlClear (c.mRS ||| c.mRW)) = some ((w.withRs false).withRw false) := by
  simp [Watch.after, Watch.clear, Watch.withRs, Watch.withRw, flagIn_or, flag_mRW_mCS1 wf, flag_mRW_mCS2 wf,
    flag_mRW_mRST wf, flag_mRW_mRS wf, flag_mRW_mRW wf, flag_mRW_mE wf, flag_mRS_mCS1 wf, flag_mRS_mCS2 wf,
    flag_mRS_mRST wf, flag_mRS_mRS wf, flag_mRS_mRW wf, flag_mRS_mE wf]

theorem clear_mE (wf : c.wf = true) : w.clear c c.mE = w.withE false := by
  simp [Watch.clear, Watch.withE, flag_mE_mCS1 wf, flag_mE_mCS2 wf, flag_mE_mRST wf, flag_mE_mRS wf,
    flag_mE_mRW wf, flag_mE_mE wf]

theorem withE_eq (h : w.e = false) : w.withE false = w := by cases w; simp_all [Watch.withE]

/-- `CtrlClear(M_E)` with E low. -/
theorem after_clearE (wf : c.wf = true) (h : w.e = false) : w.after c (.ctrlClear c.mE) = some w := by
  simp [Watch.after, h, clear_mE wf, withE_eq h]

/-- `CtrlClear(M_E)` with E high. -/
theorem after_lowerE (wf : c.wf = true) (h : w.e = true) {w' : Watch} (hp : w.pulse = some w') :
    w.after c (.ctrlClear c.mE) = some (w'.withE false) := by
  simp [Watch.after, h, flag_mE_mE wf, hp, clear_mE wf]

/-- A status read, or a pulse event nobody out of reset is selected for. -/
theorem pulse_idle (h : (w.rw = true ∧ w.rs = false) ∨ w.rst = false) : w.pulse = some w := by
  unfold Watch.pulse; rw [if_pos]; rcases h with ⟨h1, h2⟩ | h <;> simp [*]

theorem pulse_none (h1 : w.cs1 = false) (h2 : w.cs2 = false) (hd : w.dir = .output) : w.pulse = some w := by
  unfold Watch.pulse; split
  · rfl
  · simp [h1, h2, hd]; cases w; simp_all

/-- A pulse event with both controllers ready. -/
theorem pulse_ready (h1 : w.busy1 = false) (h2 : w.busy2 = false) (hd : w.dir = .output ∨ w.rw = true) : ∃ a b s1 s2,
    w.pulse = some ((w.withBusy a b).withSeen s1 s2) ∧ (a = true → w.cs1 = true) ∧ (b = true → w.cs2 = true) ∧
      (w.rst = false → a = false ∧ b = false) := by
  unfold Watch.pulse
  split
  · refine ⟨false, false, w.seen1, w.seen2, ?_, by simp, by simp, by simp⟩
    cases w; simp_all [Watch.withBusy, Watch.withSeen]
  · rename_i hr
    rw [if_neg (by rcases hd with hd | hd <;> simp [hd]), if_neg (by simp [h1, h2])]
    refine ⟨w.busy1 || w.cs1, w.busy2 || w.cs2, w.seen1 && !w.cs1, w.seen2 && !w.cs2, rfl, by simp [h1], by simp [h2],
      fun h => ?_⟩
    simp [h] at hr

/-- `Select(t)` of a target operand. -/
theorem track_selectSeq (t : Target) (rest : List Micro) :
    w.track c (selectSeq t ++ rest) = (w.aimed t).track c rest := rfl

/-! ## Covered sequences -/

/-- From a settled watch the sequence goes through, to a settled watch. -/
def Covers (c : Config) (p : List Micro) : Prop :=
  ∀ w : Watch, w.settled = true → ∃ w', w.track c p = some w' ∧ w'.settled = true

theorem track_append (p q : List Micro) (w : Watch) :
    w.track c (p ++ q) = (w.track c p).bind fun w' => w'.track c q := by
  induction p generalizing w with
  | nil => rfl
  | cons m rest ih =>
    simp only [List.cons_append, Watch.track]
    cases w.after c m with
    | none => rfl
    | some w1 => exact ih w1

theorem Covers.nil : Covers c [] := fun w h => ⟨w, rfl, h⟩

theorem Covers.append {p q : List Micro} (hp : Covers c p) (hq : Covers c q) : Covers c (p ++ q) := by
  intro w h
  obtain ⟨w1, h1, s1⟩ := hp w h
  obtain ⟨w2, h2, s2⟩ := hq w1 s1
  exact ⟨w2, by rw [track_append, h1]; exact h2, s2⟩

/-- A step that leaves a settled watch settled. -/
theorem Covers.cons {m : Micro} {p : List Micro}
    (hm : ∀ w : Watch, w.settled = true → ∃ w', w.after c m = some w' ∧ w'.settled = true) (hp : Covers c p) :
    Covers c (m :: p) := by
  intro w h
  obtain ⟨w1, h1, s1⟩ := hm w h
  obtain ⟨w2, h2, s2⟩ := hp w1 s1
  exact ⟨w2, by rw [track_cons h1]; exact h2, s2⟩

theorem settled_iff (w : Watch) : w.settled = true ↔
    w.e = false ∧ w.dir = .output ∧ w.busy1 = false ∧ w.busy2 = false := by
  simp only [Watch.settled, Bool.and_eq_true, Bool.not_eq_true', beq_iff_eq, and_assoc]

/-- `WaitReady()` with E low: the poll of R150, whatever is selected. -/
theorem track_waitReady (wf : c.wf = true) (he : w.e = false) (rest : List Micro) :
    w.track c (waitReadySeq c ++ rest) =
      (((((w.withRs false).withRw true).withSeen w.only1 w.only2).withBusy (w.busy1 && !w.only1)
        (w.busy2 && !w.only2)).withDir .output).track c rest := by
  let w1 := ((w.withDir .input).withRs false).withRw true
  have e1 : w1.e = false := he
  let w2 := w1.withSeen w.only1 w.only2
  have hs : (w1.withE true).after c .sample = some ((w2).withE true) := by
    simp only [Watch.after]; rfl
  have ht : w2.after c .test = some (w2.withBusy (w.busy1 && !w.only1) (w.busy2 && !w.only2)) := by
    refine Watch.after_test.mpr ⟨?_, rfl⟩
    show (Dir.input == Dir.input && !w.e && !false && true && w.only1 == w.only1 && w.only2 == w.only2) = true
    simp [he]
  have hl : (w2.withE true).after c (.ctrlClear c.mE) = some w2 := by
    rw [after_lowerE wf rfl (pulse_idle (Or.inl ⟨rfl, rfl⟩))]
    exact congrArg some (withE_eq (w := w2) he)
  show w.track c (.ctrlClear c.mE :: .setDir .input :: .ctrlClear c.mRS :: .ctrlSet c.mRW :: .delay .settle ::
    .pollsZero :: .ctrlSet c.mE :: .delay .settle :: .sample :: .ctrlClear c.mE :: .delay .settle :: .test ::
    .setDir .output :: rest) = _
  rw [track_cons (after_clearE wf he), track_cons (w' := w.withDir .input) rfl, track_cons (after_clearRS wf),
    track_cons (after_setRW wf), track_cons (w' := w1) rfl, track_cons (w' := w1) rfl, track_cons (after_setE wf),
    track_cons (w' := w1.withE true) rfl, track_cons hs, track_cons hl, track_cons (w' := w2) rfl, track_cons ht,
    track_cons (w' := (w2.withBusy (w.busy1 && !w.only1) (w.busy2 && !w.only2)).withDir .output) rfl]
  rfl

theorem covers_waitReady (wf : c.wf = true) : Covers c (waitReadySeq c) := by
  intro w h
  rw [settled_iff] at h
  have := track_waitReady wf h.1 []
  rw [List.append_nil] at this
  refine ⟨_, this, (settled_iff _).mpr ⟨h.1, rfl, ?_, ?_⟩⟩
  · show (w.busy1 && _) = false; simp [h.2.2.1]
  · show (w.busy2 && _) = false; simp [h.2.2.2]

/-- `WaitEach(t)` with E low, DIR = OUTPUT: it goes through, to E low and DIR = OUTPUT; a controller of the target out
of reset is ready after it, and none is busy that was not (R152). -/
theorem track_waitEach (wf : c.wf = true) (t : Target) (he : w.e = false) (hd : w.dir = .output) :
    ∃ w' : Watch, w.track c (waitEachSeq c t) = some w' ∧ w'.e = false ∧ w'.dir = .output ∧ w'.rst = w.rst ∧
      w'.busy1 = (w.busy1 && !(t.has1 && w.rst)) ∧ w'.busy2 = (w.busy2 && !(t.has2 && w.rst)) ∧
      (t = .none → w' = w) ∧ (t ≠ .none → w'.rs = false ∧ w'.rw = true) := by
  have one : ∀ (u : Watch) (k : Ctl), u.e = false → ∃ u' : Watch, (∀ rest, u.track c (.select k.target :: (waitReadySeq c ++ rest)) =
      u'.track c rest) ∧ u'.e = false ∧ u'.dir = .output ∧ u'.rst = u.rst ∧
      u'.busy1 = (u.busy1 && !(k.target.has1 && u.rst)) ∧ u'.busy2 = (u.busy2 && !(k.target.has2 && u.rst)) ∧
      u'.rs = false ∧ u'.rw = true := by
    intro u k hu
    refine ⟨_, fun rest => (track_cons (w' := u.withCs k.target) rfl).trans (track_waitReady (w := u.withCs k.target) wf hu rest), hu, rfl, rfl,
      ?_, ?_, rfl, rfl⟩
    · show (u.busy1 && !(k.target.has1 && !k.target.has2 && u.rst)) = _
      cases k <;> rfl
    · show (u.busy2 && !(k.target.has2 && !k.target.has1 && u.rst)) = _
      cases k <;> rfl
  cases t with
  | none => exact ⟨w, rfl, he, hd, rfl, by simp [Target.has1], by simp [Target.has2], fun _ => rfl, fun h => absurd rfl h⟩
  | cs1 =>
    obtain ⟨u, h, h1, h2, h3, h4, h5, h6, h7⟩ := one w .one he
    exact ⟨u, h [], h1, h2, h3, h4, h5, nofun, fun _ => ⟨h6, h7⟩⟩
  | cs2 =>
    obtain ⟨u, h, h1, h2, h3, h4, h5, h6, h7⟩ := one w .two he
    refine ⟨u, ?_, h1, h2, h3, h4, h5, nofun, fun _ => ⟨h6, h7⟩⟩
    have := h []; rw [List.append_nil] at this; exact this
  | both =>
    obtain ⟨u, h, h1, h2, h3, h4, h5, h6, h7⟩ := one w .one he
    obtain ⟨v, k, k1, k2, k3, k4, k5, k6, k7⟩ := one u .two h1
    refine ⟨v, ?_, k1, k2, k3.trans h3, ?_, ?_, nofun, fun _ => ⟨k6, k7⟩⟩
    · have := k []; rw [List.append_nil] at this
      exact (h (.select .cs2 :: waitReadySeq c)).trans this
    · rw [k4, h4, h3]; simp [Ctl.target, Target.has1]
    · rw [k5, h5, h3]; simp [Ctl.target, Target.has2]

/-- `WriteByte(VAL, t)` (R168). -/
theorem covers_writeByte (wf : c.wf = true) {load : Micro} (hl : ∀ w : Watch, w.after c load = some w) (t : Target) :
    Covers c (writeByteSeq c load t) := by
  intro w h
  rw [settled_iff] at h
  obtain ⟨he, hd, h1, h2⟩ := h
  let w1 := (w.aimed t).withE true
  obtain ⟨a, b, s1, s2, hp, ha, hb, hr⟩ := pulse_ready (w := w1) h1 h2 (.inl hd)
  let w2 := (((w1.withBusy a b).withSeen s1 s2).withE false)
  obtain ⟨w3, h3, e3, d3, r3, b31, b32, n3, l3⟩ := track_waitEach (w := w2) wf t rfl hd
  have hp3 : (w3.withE true).pulse = some (w3.withE true) := by
    cases t with
    | none => rw [n3 rfl]; exact pulse_none rfl rfl hd
    | cs1 => exact pulse_idle (Or.inl ⟨(l3 nofun).2, (l3 nofun).1⟩)
    | cs2 => exact pulse_idle (Or.inl ⟨(l3 nofun).2, (l3 nofun).1⟩)
    | both => exact pulse_idle (Or.inl ⟨(l3 nofun).2, (l3 nofun).1⟩)
  refine ⟨w3.withCs .none, ?_, (settled_iff _).mpr ⟨e3, d3, ?_, ?_⟩⟩
  · have hseq : writeByteSeq c load t = load :: .driveVal :: (selectSeq t ++ .delay .settle :: .ctrlSet c.mE ::
        .delay .settle :: .ctrlClear c.mE :: (waitEachSeq c t ++ .driveZero :: .ctrlSet c.mE :: .delay .settle ::
        .ctrlClear c.mE :: [.select .none])) := by
      simp [writeByteSeq, pulseSeq]
    rw [hseq, track_cons (hl w), track_cons (w' := w) rfl, track_selectSeq, track_cons (w' := w.aimed t) rfl, track_cons (after_setE wf), track_cons (w' := w1) rfl,
      track_cons (after_lowerE wf rfl hp), track_append, h3, Option.bind_some, track_cons (w' := w3) rfl,
      track_cons (after_setE wf), track_cons (w' := w3.withE true) rfl, track_cons (after_lowerE wf rfl hp3),
      track_cons (w' := w3.withCs .none) ?_]
    · rfl
    · exact congrArg (fun u : Watch => some (u.withCs .none)) (withE_eq (w := w3) e3)
  · show w3.busy1 = false
    rw [b31]
    show (a && !(t.has1 && w.rst)) = false
    cases hA : a
    · rfl
    · have hc : t.has1 = true := ha hA
      cases hR : w.rst
      · rw [(hr hR).1] at hA; cases hA
      · rw [hc]; rfl
  · show w3.busy2 = false
    rw [b32]
    show (b && !(t.has2 && w.rst)) = false
    cases hB : b
    · rfl
    · have hc : t.has2 = true := hb hB
      cases hR : w.rst
      · rw [(hr hR).2] at hB; cases hB
      · rw [hc]; rfl

theorem keeps_settled {m : Micro} (hm : ∀ w : Watch, w.e = false → ∃ w', w.after c m = some w' ∧
    w'.e = false ∧ w'.dir = w.dir ∧ w'.busy1 = w.busy1 ∧ w'.busy2 = w.busy2) (w : Watch) (h : w.settled = true) :
    ∃ w', w.after c m = some w' ∧ w'.settled = true := by
  rw [settled_iff] at h
  obtain ⟨w', h', e, d, b1, b2⟩ := hm w h.1
  exact ⟨w', h', (settled_iff _).mpr ⟨e, d.trans h.2.1, b1.trans h.2.2.1, b2.trans h.2.2.2⟩⟩

theorem settled_select (t : Target) (w : Watch) (h : w.settled = true) :
    ∃ w', w.after c (.select t) = some w' ∧ w'.settled = true :=
  keeps_settled (fun w h => ⟨w.withCs t, rfl, h, rfl, rfl, rfl⟩) w h

theorem covers_selectSeq (t : Target) : Covers c (selectSeq t) := fun w h => ⟨w.aimed t, rfl, h⟩

theorem covers_select (t : Target) : Covers c [.select t] := .cons (settled_select t) .nil

/-- `WriteCommand(cmd, t)` (R170). -/
theorem covers_writeCommand (wf : c.wf = true) (cmd : Byte) (t : Target) : Covers c (writeCommandSeq c cmd t) :=
  .cons (keeps_settled fun w h => ⟨w, after_clearE wf h, h, rfl, rfl, rfl⟩) <|
    .append (covers_selectSeq t) <|
    .cons (keeps_settled fun _ h => ⟨_, after_clearRSRW wf, h, rfl, rfl, rfl⟩) <|
    covers_writeByte wf (fun _ => rfl) t

/-- `WriteData(VAL, t)` (R171). -/
theorem covers_writeData (wf : c.wf = true) {load : Micro} (hl : ∀ w : Watch, w.after c load = some w) (t : Target) :
    Covers c (writeDataSeq c load t) :=
  .cons (keeps_settled fun w h => ⟨w, after_clearE wf h, h, rfl, rfl, rfl⟩) <|
    .append (covers_selectSeq t) <|
    .cons (keeps_settled fun _ h => ⟨_, after_setRS wf, h, rfl, rfl, rfl⟩) <|
    .cons (keeps_settled fun _ h => ⟨_, after_clearRW wf, h, rfl, rfl, rfl⟩) <|
    covers_writeByte wf hl t

/-- `ReadByte(rs, t)` (R165). -/
theorem covers_readByte (wf : c.wf = true) (rs : Bool) (t : Target) : Covers c (readByteSeq c rs t) := by
  intro w h
  rw [settled_iff] at h
  obtain ⟨he, hd, h1, h2⟩ := h
  let w0 := ((w.withDir .input).withRs false).withRw true
  let w1 := ((w0.withRs rs).aimed t).withE true
  obtain ⟨u1, u2, hs⟩ : ∃ u1 u2, w1.after c .sample = some (w1.withSeen u1 u2) := ⟨_, _, rfl⟩
  obtain ⟨a, b, s1, s2, hp, ha, hb, hr⟩ := pulse_ready (w := w1.withSeen u1 u2) h1 h2 (.inr rfl)
  let w2 := (((((w1.withSeen u1 u2).withBusy a b).withSeen s1 s2).withE false).withDir .output)
  obtain ⟨w3, h3, e3, d3, r3, b31, b32, -, -⟩ := track_waitEach (w := w2) wf t rfl rfl
  refine ⟨w3, ?_, (settled_iff _).mpr ⟨e3, d3, ?_, ?_⟩⟩
  · have hseq : readByteSeq c rs t = .ctrlClear c.mE :: .setDir .input :: .ctrlClear c.mRS ::
        .ctrlSet c.mRW :: .delay .settle :: ((if rs then [.ctrlSet c.mRS] else []) ++ (selectSeq t ++ .delay .settle ::
        .ctrlSet c.mE :: .delay .settle :: .sample :: .latchRbv :: .ctrlClear c.mE :: .setDir .output ::
        waitEachSeq c t)) := by
      simp [readByteSeq, readPulseSeq, cfgReadSeq]
    have hset : w0.track c (if rs then [.ctrlSet c.mRS] else []) = some (w0.withRs rs) := by
      cases rs
      · rfl
      · exact track_cons (p := []) (after_setRS wf)
    rw [hseq, track_cons (after_clearE wf he), track_cons (w' := w.withDir .input) rfl,
      track_cons (after_clearRS wf), track_cons (after_setRW wf), track_cons (w' := w0) rfl, track_append, hset,
      Option.bind_some, track_selectSeq, track_cons (w' := (w0.withRs rs).aimed t) rfl,
      track_cons (after_setE wf), track_cons (w' := w1) rfl, track_cons hs, track_cons (w' := w1.withSeen u1 u2) rfl,
      track_cons (after_lowerE wf rfl hp), track_cons (w' := w2) rfl, h3]
  · rw [b31]
    show (a && !(t.has1 && w.rst)) = false
    cases hA : a
    · rfl
    · have hc : t.has1 = true := ha hA
      cases hR : w.rst
      · rw [(hr hR).1] at hA; cases hA
      · rw [hc]; rfl
  · rw [b32]
    show (b && !(t.has2 && w.rst)) = false
    cases hB : b
    · rfl
    · have hc : t.has2 = true := hb hB
      cases hR : w.rst
      · rw [(hr hR).2] at hB; cases hB
      · rw [hc]; rfl

theorem covers_idle {m : Micro} {p : List Micro} (hm : ∀ w : Watch, w.after c m = some w) (hp : Covers c p) :
    Covers c (m :: p) :=
  .cons (fun w h => ⟨w, hm w, h⟩) hp

theorem covers_clearColumns (wf : c.wf = true) : ∀ n k, Covers c (clearColumnsSeq c n k)
  | 0, _ => .nil
  | n + 1, k => (covers_writeData wf (fun _ => rfl) .both).append (covers_idle (fun _ => rfl) (covers_clearColumns wf n (k + 1)))

theorem covers_clearPages (wf : c.wf = true) : ∀ n p, Covers c (clearPagesSeq c n p)
  | 0, _ => .nil
  | n + 1, p =>
    (((covers_writeCommand wf _ .both).append (covers_writeCommand wf _ .both)).append
      (covers_idle (fun _ => rfl) (covers_clearColumns wf _ 0))).append
      (covers_idle (fun _ => rfl) (covers_clearPages wf n (p + 1)))

/-- PX.2 to PX.8 (R200). -/
theorem covers_pixel (wf : c.wf = true) (x y : Nat) (on : Bool) : Covers c (pixelSeq c x y on) :=
  ((((covers_idle (fun _ => rfl) (covers_writeCommand wf _ _)).append (covers_writeCommand wf _ _)).append
    ((covers_readByte wf true _).append (covers_readByte wf true _))).append
    (covers_idle (fun _ => rfl) (covers_writeCommand wf _ _))).append
    (covers_idle (fun _ => rfl) (covers_writeData wf (fun _ => rfl) _))

/-! ## Operations -/

/-- The sequences of the operations that keep the handshake from rest: all but SETC, CLRC and CFGRD, which set lines
themselves, and INIT, which resets the controllers. -/
theorem watch_settled {s : State} (hd : s.atRest) (h : s.allReady = true) : s.watch.settled = true := by
  simp only [State.allReady, Bool.and_eq_true, Bool.not_eq_true'] at h
  exact (settled_iff _).mpr ⟨hd.2, hd.1, h.1, h.2⟩

/-- A covered sequence started from rest with both controllers ready, in any environment without an EngineReset. -/
theorem runSeq_covered {s : State} {p : List Micro} (hp : Covers s.cfg p) (wf : s.cfg.wf = true)
    (hl : s.cfg.pollLimit = none) (hf : s.protoFault = none) (hr : s.noReset = true) (hd : s.atRest)
    (h : s.allReady = true) :
    (runSeq p s).protoFault = none ∧ (runSeq p s).covered = true ∧ (runSeq p s).noReset = true := by
  obtain ⟨w', h1, h2⟩ := hp _ (watch_settled hd h)
  exact runSeq_follows ⟨Follows.of_watch s, hf, hr, wf, rfl⟩ hl h1 h2

/-- An operation in progress goes on covered (R284). -/
theorem resume_covered {s : State} (wf : s.cfg.wf = true) (hl : s.cfg.pollLimit = none) (hf : s.protoFault = none)
    (hr : s.noReset = true) (h : s.covered = true) :
    (resume s).protoFault = none ∧ (resume s).covered = true ∧ (resume s).noReset = true := by
  unfold State.covered at h
  split at h
  · cases h
  · rename_i w' hw
    exact runSeq_follows ⟨Follows.of_watch s, hf, hr, wf, rfl⟩ hl hw h

end Sys2Proof.Machine
end

