-- ==== Sys2Proof/Laws/Decode.lean ====
section
/-! SUPPORT. The fields of a packed request word, and the rows of the operation map (R90, R92, R93). -/

namespace Sys2Proof

/-- A word by its fields, bit 7 apart. -/
theorem packWord_fields (w : Word24) (hz : w.getLsbD 7 = false) :
    packWord (fieldB w) (fieldA w) (fieldF w) (fieldT w) (fieldOp w) = w := by
  apply BitVec.eq_of_getLsbD_eq
  intro i hi
  simp only [packWord, fieldB, fieldA, fieldF, fieldT, fieldOp, BitVec.getLsbD_append, BitVec.getLsbD_extractLsb',
    BitVec.getLsbD_ofBool]
  have : i < 24 := hi
  have hz' : w[7] = false := hz
  interval_cases i <;> simp [hz']

@[simp] theorem fieldOp_packWord (b a : Byte) (f : Bool) (t : BitVec 2) (op : BitVec 4) :
    fieldOp (packWord b a f t op) = op := by
  apply BitVec.eq_of_getLsbD_eq
  intro i hi
  have : i < 4 := hi
  simp only [packWord, fieldOp, BitVec.getLsbD_append, BitVec.getLsbD_extractLsb', BitVec.getLsbD_ofBool]
  interval_cases i <;> simp

@[simp] theorem fieldT_packWord (b a : Byte) (f : Bool) (t : BitVec 2) (op : BitVec 4) :
    fieldT (packWord b a f t op) = t := by
  apply BitVec.eq_of_getLsbD_eq
  intro i hi
  have : i < 2 := hi
  simp only [packWord, fieldT, BitVec.getLsbD_append, BitVec.getLsbD_extractLsb', BitVec.getLsbD_ofBool]
  interval_cases i <;> simp

@[simp] theorem fieldF_packWord (b a : Byte) (f : Bool) (t : BitVec 2) (op : BitVec 4) :
    fieldF (packWord b a f t op) = f := by
  simp only [packWord, fieldF, BitVec.getLsbD_append, BitVec.getLsbD_extractLsb', BitVec.getLsbD_ofBool]
  simp

@[simp] theorem fieldA_packWord (b a : Byte) (f : Bool) (t : BitVec 2) (op : BitVec 4) :
    fieldA (packWord b a f t op) = a := by
  apply BitVec.eq_of_getLsbD_eq
  intro i hi
  have : i < 8 := hi
  simp only [packWord, fieldA, BitVec.getLsbD_append, BitVec.getLsbD_extractLsb', BitVec.getLsbD_ofBool]
  interval_cases i <;> simp

@[simp] theorem fieldB_packWord (b a : Byte) (f : Bool) (t : BitVec 2) (op : BitVec 4) :
    fieldB (packWord b a f t op) = b := by
  apply BitVec.eq_of_getLsbD_eq
  intro i hi
  have : i < 8 := hi
  simp only [packWord, fieldB, BitVec.getLsbD_append, BitVec.getLsbD_extractLsb', BitVec.getLsbD_ofBool]
  interval_cases i <;> simp

@[simp] theorem bit7_packWord (b a : Byte) (f : Bool) (t : BitVec 2) (op : BitVec 4) :
    (packWord b a f t op).getLsbD 7 = false := by
  simp only [packWord, BitVec.getLsbD_append, BitVec.getLsbD_extractLsb', BitVec.getLsbD_ofBool]
  simp

/-- Masking a packed word masks its fields. -/
theorem packWord_and (b a b' a' : Byte) (f f' : Bool) (t t' : BitVec 2) (op op' : BitVec 4) :
    packWord b a f t op &&& packWord b' a' f' t' op' =
      packWord (b &&& b') (a &&& a') (f && f') (t &&& t') (op &&& op') := by
  apply BitVec.eq_of_getLsbD_eq
  intro i hi
  have : i < 24 := hi
  simp only [packWord, BitVec.getLsbD_append, BitVec.getLsbD_extractLsb', BitVec.getLsbD_and, BitVec.getLsbD_ofBool]
  interval_cases i <;> simp

/-- Two packed words are equal exactly where their fields are. -/
theorem packWord_inj {b a b' a' : Byte} {f f' : Bool} {t t' : BitVec 2} {op op' : BitVec 4} :
    packWord b a f t op = packWord b' a' f' t' op' ↔ b = b' ∧ a = a' ∧ f = f' ∧ t = t' ∧ op = op' := by
  constructor
  · intro h
    exact ⟨by simpa using congrArg fieldB h, by simpa using congrArg fieldA h, by simpa using congrArg fieldF h,
      by simpa using congrArg fieldT h, by simpa using congrArg fieldOp h⟩
  · rintro ⟨rfl, rfl, rfl, rfl, rfl⟩; rfl

@[simp] theorem ofBits_bits (t : Target) : Target.ofBits t.bits = t := by cases t <;> rfl

@[simp] theorem bits_ofBits (b : BitVec 2) : (Target.ofBits b).bits = b := by
  revert b; decide

/-- An OP names at most the row whose OP column it is (R93). -/
theorem rowOfOp_some {op : BitVec 4} {r : OpRow} (h : rowOfOp op = some r) : r ∈ opRows ∧ r.op = op := by
  have h1 := List.mem_of_find?_eq_some h
  have h2 := List.find?_some h
  exact ⟨h1, by simpa using h2⟩

/-- A word decodes exactly where it matches the row its OP names (R101). -/
theorem decodeWord_ok {w : Word24} {i : Instr} : decodeWord w = .ok i ↔
    ∃ r, rowOfOp (fieldOp w) = some r ∧ w &&& r.mask = r.pat ∧ operandsOf r.op w = some i := by
  unfold decodeWord
  cases h : rowOfOp (fieldOp w) with
  | none => simp
  | some r =>
    simp only [Option.some.injEq, exists_eq_left']
    by_cases hm : w &&& r.mask = r.pat
    · rw [if_pos hm]
      cases ho : operandsOf r.op w <;> simp [hm]
    · rw [if_neg hm]; simp [hm]

/-- A word that matches a row, field by field: the mask is a packed word and bit 7. -/
theorem row_bits {w : Word24} {mb ma : Byte} {mf : Bool} {mt : BitVec 2} {op : BitVec 4}
    (h : w &&& (packWord mb ma mf mt 0xF ||| 0x000080) = packWord 0 0 false 0 op) :
    w.getLsbD 7 = false ∧ fieldB w &&& mb = 0 ∧ fieldA w &&& ma = 0 ∧ (fieldF w && mf) = false ∧ fieldT w &&& mt = 0 ∧
      fieldOp w = op := by
  have h7 : w.getLsbD 7 = false := by
    have := congrArg (BitVec.getLsbD · 7) h
    simp only [BitVec.getLsbD_and, BitVec.getLsbD_or, bit7_packWord] at this
    simpa using this
  have h0 : w &&& 0x000080 = 0 := by
    apply BitVec.eq_of_getLsbD_eq
    intro i hi
    have : i < 24 := hi
    have h7' : w[7] = false := h7
    interval_cases i <;> simp [h7']
  rw [BitVec.and_or_distrib_left, h0, show ∀ v : Word24, v ||| 0 = v from fun v => BitVec.or_zero] at h
  conv at h => lhs; lhs; rw [← packWord_fields w h7]
  rw [packWord_and, packWord_inj] at h
  have hop : ∀ o : BitVec 4, o &&& 0xF = o := by decide
  rw [hop] at h
  exact ⟨h7, h.1, h.2.1, h.2.2.1, h.2.2.2.1, h.2.2.2.2⟩

/-- The reserved OPs (R95). -/
theorem rowOfOp_none : ∀ op : BitVec 4, rowOfOp op = none ↔ op = 0 ∨ op = 0xF := by decide

/-- A request is a word that decodes, of an operation the host may issue (R96, R101). -/
theorem decodeRequest_ok {b : Bool} {w : Word24} {i : Instr} : decodeRequest b w = .ok i ↔
    decodeWord w = .ok i ∧ (i.isPublic || b) = true := by
  unfold decodeRequest
  cases h : decodeWord w with
  | error e => simp
  | ok j =>
    by_cases hp : (j.isPublic || b) = true
    · simp only [if_pos hp]; constructor
      · intro h'; cases h'; exact ⟨rfl, hp⟩
      · rintro ⟨h', -⟩; exact h'
    · simp only [if_neg hp]; constructor
      · intro h'; cases h'
      · rintro ⟨h', h''⟩; cases h'; exact absurd h'' hp

theorem toNat_append_add {n m : Nat} (x : BitVec n) (y : BitVec m) : (x ++ y).toNat = x.toNat * 2 ^ m + y.toNat := by
  rw [BitVec.toNat_append, ← Nat.shiftLeft_add_eq_or_of_lt y.isLt, Nat.shiftLeft_eq]

/-- The number of a packed word (R99). -/
theorem packWord_toNat (b a : Byte) (f : Bool) (t : BitVec 2) (op : BitVec 4) : (packWord b a f t op).toNat =
    b.toNat * 65536 + a.toNat * 256 + f.toNat * 64 + t.toNat * 16 + op.toNat := by
  unfold packWord
  rw [toNat_append_add, toNat_append_add, toNat_append_add, toNat_append_add, toNat_append_add]
  simp; omega

end Sys2Proof
end

