-- ==== Sys2Proof/Laws/Engine.lean ====
section
/-! SUPPORT. Engine steps (R20): each reads neither the steps the sequencer holds nor the host's list, and run one after
another they make the run of the sequence, IDLE being 0 between two of them (R37). -/

namespace Sys2Proof.Machine

variable {q : List Micro} {l : List HostMove}

theorem aside_advance (rest : List Micro) (s : State) : advance rest (s.aside q l) = (advance rest s).hosted l := by
  unfold advance
  split
  · rw [aside_countPoll]
    show (if showsBusy s.cfg.busyMask s.loc.smp then if s.cfg.pollLimit = some (countPoll s).loc.polls then _ else _ else _) =
      State.hosted l (if showsBusy s.cfg.busyMask s.loc.smp then if s.cfg.pollLimit = some (countPoll s).loc.polls then _ else _ else _)
    split
    · split <;> rfl
    · rfl
  · rfl

theorem aside_engineMove (p : List Micro) (s : State) : engineMove p (s.aside q l) = (engineMove p s).hosted l := by
  induction p generalizing s with
  | nil => rfl
  | cons m rest ih =>
    unfold engineMove
    rw [aside_micro]
    cases micro m rest s with
    | stop t => rfl
    | go t =>
      show (if isPrimitive m then advance rest (t.aside q l) else engineMove rest (t.aside q l)) = _
      rw [aside_advance, ih]
      dsimp only
      split <;> rfl

/-- No engine step of an operation changes the host's list (R37). -/
theorem engineMove_hosted (p : List Micro) (s : State) : (engineMove p s).hosted s.host = engineMove p s :=
  (aside_engineMove (q := s.seq) (l := s.host) p s).symm

/-- The engine step of an operation in progress whose remaining steps are `p`. -/
theorem engineStep_seq {s : State} (hf : s.protoFault = none) (hi : s.idle = false) (p : List Micro) :
    engineStep { s with seq := p } = .next (engineMove p s) := by
  have h : engineMove p { s with seq := p } = engineMove p s :=
    (aside_engineMove (q := p) (l := s.host) p s).trans (engineMove_hosted p s)
  rw [← h]
  unfold engineStep
  simp only [hf]
  exact if_neg (by show ¬s.idle = true; rw [hi]; simp)

/-- `n + 1` engine steps lead from `s` to `t`, and after each but the last the operation is in progress. -/
def Steps (s t : State) : Prop :=
  ∃ n, engineRun (n + 1) s = .next t ∧
    ∀ j, 1 ≤ j → j ≤ n → ∃ v, engineRun j s = .next v ∧ v.idle = false ∧ v.protoFault = none

theorem Steps.one {s t : State} (h : engineStep s = .next t) : Steps s t :=
  ⟨0, by simp [engineRun, h], fun j h1 h2 => by omega⟩

theorem Steps.cons {s u t : State} (h : engineStep s = .next u) (hi : u.idle = false) (hf : u.protoFault = none)
    (k : Steps u t) : Steps s t := by
  obtain ⟨n, hn, hv⟩ := k
  refine ⟨n + 1, ?_, ?_⟩
  · rw [engineRun, h]; exact hn
  · intro j h1 h2
    obtain ⟨i, rfl⟩ : ∃ i, j = i + 1 := ⟨j - 1, by omega⟩
    rw [engineRun, h]
    rcases Nat.eq_zero_or_pos i with rfl | hp
    · exact ⟨u, rfl, hi, hf⟩
    · exact hv i hp (by omega)

/-- States with the same engine step have the same engine steps. -/
theorem Steps.congr {s s' t : State} (h : engineStep s = engineStep s') (k : Steps s' t) : Steps s t := by
  obtain ⟨n, hn, hv⟩ := k
  have e : ∀ j, engineRun (j + 1) s = engineRun (j + 1) s' := fun j => by rw [engineRun, engineRun, h]
  refine ⟨n, (e n).trans hn, fun j h1 h2 => ?_⟩
  obtain ⟨i, rfl⟩ : ∃ i, j = i + 1 := ⟨j - 1, by omega⟩
  obtain ⟨v, hv⟩ := hv _ h1 h2
  exact ⟨v, (e i).trans hv.1, hv.2⟩

theorem micro_go_fault {m : Micro} {rest : List Micro} {s t : State} (h : micro m rest s = .go t)
    (hf : s.protoFault = none) : t.protoFault = none := by
  revert h
  refine micro_cases (P := fun f => f = .go t → t.protoFault = none) (fun _ _ _ h => nomatch h) ?_ (fun _ _ _ h => nomatch h)
    ?_ ?_ ?_ (fun _ _ _ h => nomatch h) (fun _ _ h => nomatch h) (fun _ _ _ h => nomatch h)
  · intro p _ hp h; cases h; exact hp
  · intro f _ _ h; cases h; exact hf
  · intro _ h; cases h; exact hf
  · intro _ _ h; cases h; exact (countPoll_kept s).fault.trans hf

/-- The engine steps of an operation in progress make the run of its remaining steps (R20, R32). -/
theorem steps_runSeq (p : List Micro) {s : State} (hi : s.idle = false) (hf : s.protoFault = none) :
    Steps { s with seq := p } (runSeq p s) := by
  induction p generalizing s with
  | nil => exact .one (engineStep_seq hf hi [])
  | cons m rest ih =>
    have hs := engineStep_seq hf hi (m :: rest)
    unfold engineMove at hs
    unfold runSeq
    cases hm : micro m rest s with
    | stop t => rw [hm] at hs; exact .one hs
    | go t =>
      rw [hm] at hs
      have hi' : t.idle = false := (micro_passed hm).idle.trans hi
      have hf' := micro_go_fault hm hf
      dsimp only at hs ⊢
      split at hs
      · unfold advance at hs
        split at hs
        · rename_i after
          split at hs
          · rename_i hb
            split at hs
            · exact .cons hs hi' hf' (ih hi' hf')
            · rename_i hp
              have hc := (countPoll_kept t).cfg
              have : runSeq (.test :: after) t = { countPoll t with seq := pollBody t.cfg ++ .test :: after } := by
                simp only [runSeq, micro, pollTest, hb, if_true, if_neg hp, loopPoll, hc]
              rw [this]; exact .one hs
          · rename_i hb
            have hg : micro .test after t = .go (countPoll t) := by simp [micro, pollTest, hb]
            have hic : (countPoll t).idle = false := (countPoll_passed t).idle.trans hi'
            have hfc : (countPoll t).protoFault = none := (countPoll_kept t).fault.trans hf'
            have e : engineStep { countPoll t with seq := after } = engineStep { t with seq := .test :: after } := by
              rw [engineStep_seq hfc hic, engineStep_seq hf' hi', engineMove, hg]
              rfl
            exact .cons hs hic hfc ((ih hi' hf').congr e)
        · exact .cons hs hi' hf' (ih hi' hf')
      · exact (ih hi' hf').congr (hs.trans (engineStep_seq hf' hi' rest).symm)

end Sys2Proof.Machine
end

