-- ==== Sys2Proof/Laws/Programs.lean ====
section
/-! SUPPORT. Every operation as its sequence, and one lemma for each sequence that says which micro steps stand in it:
what a property of all steps of an operation has to be shown for (R12, R222). -/

namespace Sys2Proof.Machine

/-- Every operation is accepted and runs its sequence. -/
theorem exec_prog (i : Instr) (s : State) : exec i s = .next (runSeq (progOf s.cfg i) (accept i s)) := by
  cases i <;> rfl

/-- `t` is where a run of the sequence `p` from `u` ends, or where one engine step of it ends (R20). -/
def Runs (p : List Micro) (u t : State) : Prop := t = runSeq p u ∨ t = engineMove p u

/-- A step of an operation, the first, a later one or an engine step, runs a sequence whose steps stand in the
operation's: from the accepted state, or from where it is in progress (R32). -/
theorem runsOperation_run {i : Instr} {s t : State} (h : runsOperation i s t) :
    ∃ (p : List Micro) (u : State), Runs p u t ∧ (∀ m ∈ p, m ∈ progOf s.cfg i) ∧ (u = s ∨ u = accept i s) := by
  rcases h with h | ⟨⟨hi, -, done, hd⟩, h | h⟩
  · rw [exec_prog] at h
    exact ⟨_, _, .inl (Host.Outcome.next.inj h).symm, fun _ hm => hm, .inr rfl⟩
  · unfold step at h
    split at h
    · cases h
    · rw [if_neg (by simp [hi])] at h
      exact ⟨_, _, .inl (Host.Outcome.next.inj h).symm, fun m hm => by rw [hd]; exact List.mem_append_right _ hm, .inl rfl⟩
  · unfold engineStep at h
    split at h
    · cases h
    · rw [if_neg (by simp [hi])] at h
      exact ⟨_, _, .inr (Host.Outcome.next.inj h).symm, fun m hm => by rw [hd]; exact List.mem_append_right _ hm, .inl rfl⟩

/-- A primitive whose slot holds no EngineReset, going on or ending in the protocol-fault state. -/
theorem primitive_holds {P : State → Prop} {p : EnvSlot → State → State} {rest : List Micro} {s : State}
    (n : s.noResetNow = true) (h : P (p s.slot s.arrive)) (hs : ∀ u q, P u → P { u with seq := q }) :
    (primitive p rest s).holds P := by
  cases hf : (p s.slot s.arrive).protoFault with
  | none => rw [primitive_arrive n hf]; exact h
  | some x => rw [primitive_fault n (by rw [hf]; rfl)]; exact hs _ _ h

/-! ## Which steps stand in a sequence -/

/-- What a property of micro steps has to hold of for the sub-sequences: the line moves of R150, R165, R168, R170 and
R171, and the steps of a wait. -/
structure InSequences (c : Config) (Q : Micro → Prop) : Prop where
  setE : Q (.ctrlSet c.mE)
  setRS : Q (.ctrlSet c.mRS)
  setRW : Q (.ctrlSet c.mRW)
  clearE : Q (.ctrlClear c.mE)
  clearRS : Q (.ctrlClear c.mRS)
  clearRW : Q (.ctrlClear c.mRW)
  clearRSRW : Q (.ctrlClear (c.mRS ||| c.mRW))
  select : ∀ t, Q (.select t)
  selectTgt : Q .selectTgt
  setDir : ∀ d, Q (.setDir d)
  delay : ∀ k, Q (.delay k)
  sample : Q .sample
  test : Q .test
  pollsZero : Q .pollsZero

variable {c : Config} {Q : Micro → Prop}

theorem all_append {p q : List Micro} (hp : ∀ m ∈ p, Q m) (hq : ∀ m ∈ q, Q m) : ∀ m ∈ p ++ q, Q m :=
  fun m h => (List.mem_append.mp h).elim (hp m) (hq m)

theorem all_cons {m : Micro} {p : List Micro} (hm : Q m) (hp : ∀ m ∈ p, Q m) : ∀ x ∈ m :: p, Q x := fun x h => by
  rcases List.mem_cons.mp h with rfl | h
  · exact hm
  · exact hp x h

theorem all_selectSeq (h : InSequences c Q) (ht : ∀ t, Q (.setTgt t)) (t : Target) : ∀ m ∈ selectSeq t, Q m := by
  unfold selectSeq; simpa using ⟨ht t, h.selectTgt⟩

theorem all_nil : ∀ m ∈ ([] : List Micro), Q m := fun _ h => nomatch h

theorem all_cfgRead (h : InSequences c Q) : ∀ m ∈ cfgReadSeq c, Q m :=
  all_cons h.clearE <| all_cons (h.setDir _) <| all_cons h.clearRS <| all_cons h.setRW <| all_cons (h.delay _) all_nil

theorem all_waitReady (h : InSequences c Q) : ∀ m ∈ waitReadySeq c, Q m :=
  all_append (p := cfgReadSeq c ++ .pollsZero :: pollBody c)
    (all_append (all_cfgRead h) (all_cons h.pollsZero <| all_cons h.setE <| all_cons (h.delay _) <| all_cons h.sample <|
      all_cons h.clearE <| all_cons (h.delay _) all_nil)) (all_cons h.test <| all_cons (h.setDir _) all_nil)

theorem all_waitEach (h : InSequences c Q) (t : Target) : ∀ m ∈ waitEachSeq c t, Q m := by
  unfold waitEachSeq
  refine all_append ?_ ?_ <;> split
  · exact all_cons (h.select _) (all_waitReady h)
  · exact all_nil
  · exact all_cons (h.select _) (all_waitReady h)
  · exact all_nil

theorem all_pulse (h : InSequences c Q) : ∀ m ∈ pulseSeq c, Q m :=
  all_cons h.setE <| all_cons (h.delay _) <| all_cons h.clearE all_nil

theorem all_readByte (h : InSequences c Q) (ht : ∀ t, Q (.setTgt t)) (hl : Q .latchRbv) (rs : Bool) (t : Target) :
    ∀ m ∈ readByteSeq c rs t, Q m := by
  refine all_append (all_append (all_append (all_append (all_cfgRead h) ?_) (all_selectSeq h ht t)) ?_) (all_waitEach h t)
  · split
    · exact all_cons h.setRS all_nil
    · exact all_nil
  · exact all_cons (h.delay _) <| all_cons h.setE <| all_cons (h.delay _) <|
      all_cons h.sample <| all_cons hl <| all_cons h.clearE <| all_cons (h.setDir _) all_nil

theorem all_readData (h : InSequences c Q) (ht : ∀ t, Q (.setTgt t)) (hl : Q .latchRbv) (t : Target) :
    ∀ m ∈ readDataSeq c t, Q m :=
  all_append (all_readByte h ht hl true t) (all_readByte h ht hl true t)

theorem all_writeByte (h : InSequences c Q) (ht : ∀ t, Q (.setTgt t)) (hv : Q .driveVal) (hz : Q .driveZero)
    {load : Micro} (hl : Q load) (t : Target) : ∀ m ∈ writeByteSeq c load t, Q m := by
  refine all_append (p := _ ++ _ ++ .driveZero :: pulseSeq c) ?_ (all_cons (h.select _) all_nil)
  refine all_append (all_append (p := [load, .driveVal] ++ selectSeq t ++ .delay .settle :: pulseSeq c)
    (all_append (all_append (all_cons hl <| all_cons hv all_nil) (all_selectSeq h ht t))
      (all_cons (h.delay _) (all_pulse h))) (all_waitEach h t)) (all_cons hz (all_pulse h))

theorem all_writeCommand (h : InSequences c Q) (ht : ∀ t, Q (.setTgt t)) (hv : Q .driveVal) (hz : Q .driveZero)
    (hl : ∀ v, Q (.setVal v)) (v : Byte) (t : Target) : ∀ m ∈ writeCommandSeq c v t, Q m :=
  all_cons h.clearE <| all_append (all_selectSeq h ht t) <| all_cons h.clearRSRW (all_writeByte h ht hv hz (hl v) t)

theorem all_writeData (h : InSequences c Q) (ht : ∀ t, Q (.setTgt t)) (hv : Q .driveVal) (hz : Q .driveZero)
    {load : Micro} (hl : Q load) (t : Target) : ∀ m ∈ writeDataSeq c load t, Q m :=
  all_cons h.clearE <| all_append (all_selectSeq h ht t) <| all_cons h.setRS <| all_cons h.clearRW
    (all_writeByte h ht hv hz hl t)

theorem all_pixel (h : InSequences c Q) (ht : ∀ t, Q (.setTgt t)) (hv : Q .driveVal) (hz : Q .driveZero)
    (hl : ∀ v, Q (.setVal v)) (hr : Q .latchRbv) (hp : ∀ a b d e, Q (.setPixel a b d e)) (hm : Q .tmpRbv)
    (hc : ∀ on, Q (.combine on)) (hw : Q .setValTmp) (x y : Nat) (on : Bool) : ∀ m ∈ pixelSeq c x y on, Q m := by
  have hw' := fun v => all_writeCommand h ht hv hz hl v (pixCtl x).target
  exact all_append (all_append (all_append (all_append (all_cons (hp _ _ _ _) (hw' _)) (hw' _))
    (all_readData h ht hr _)) (all_cons hm (hw' _))) (all_cons (hc on) (all_writeData h ht hv hz hw _))

theorem all_clearColumns (h : InSequences c Q) (ht : ∀ t, Q (.setTgt t)) (hv : Q .driveVal) (hz : Q .driveZero)
    (hl : ∀ v, Q (.setVal v)) (hn : ∀ n, Q (.setCn n)) : ∀ n k, ∀ m ∈ clearColumnsSeq c n k, Q m
  | 0, _ => all_nil
  | n + 1, k => all_append (all_writeData h ht hv hz (hl _) .both) (all_cons (hn _) (all_clearColumns h ht hv hz hl hn n (k + 1)))

theorem all_clearPages (h : InSequences c Q) (ht : ∀ t, Q (.setTgt t)) (hv : Q .driveVal) (hz : Q .driveZero)
    (hl : ∀ v, Q (.setVal v)) (hn : ∀ n, Q (.setCn n)) (hp : ∀ n, Q (.setPg n)) : ∀ n p, ∀ m ∈ clearPagesSeq c n p, Q m
  | 0, _ => all_nil
  | n + 1, p =>
    all_append (all_append (all_append (all_writeCommand h ht hv hz hl _ .both) (all_writeCommand h ht hv hz hl _ .both))
      (all_cons (hn _) (all_clearColumns h ht hv hz hl hn _ _)))
      (all_cons (hp _) (all_clearPages h ht hv hz hl hn hp n (p + 1)))

theorem all_clear (h : InSequences c Q) (ht : ∀ t, Q (.setTgt t)) (hv : Q .driveVal) (hz : Q .driveZero)
    (hl : ∀ v, Q (.setVal v)) (hn : ∀ n, Q (.setCn n)) (hp : ∀ n, Q (.setPg n)) : ∀ m ∈ clearSeq c, Q m :=
  all_cons (hp _) (all_clearPages h ht hv hz hl hn hp _ _)

theorem all_init (h : InSequences c Q) (ht : ∀ t, Q (.setTgt t)) (hv : Q .driveVal) (hz : Q .driveZero)
    (hl : ∀ v, Q (.setVal v)) (hc : Q (.ctrlClear (c.mCS1 ||| c.mCS2 ||| c.mRST ||| c.mE))) (hs : Q (.ctrlSet c.mRST)) :
    ∀ m ∈ initSeq c, Q m := by
  have hw := fun v => all_writeCommand h ht hv hz hl v .both
  refine all_append (all_append (all_append (all_append (all_append (all_append ?_ (hw _)) (hw _)) (hw _)) (hw _)) (hw _))
    (all_cons (h.select _) all_nil)
  exact all_cons h.setE <| all_cons (h.delay _) <| all_cons hc <| all_cons (h.delay _) <| all_cons hs <|
    all_cons (h.delay _) all_nil

/-- Every operation but SETC, CLRC and INIT, for a property of every step of the sub-sequences and of every
assignment. -/
theorem all_prog (h : InSequences c Q) (hv : Q .driveVal) (hz : Q .driveZero) (ht : ∀ t, Q (.setTgt t))
    (hl : ∀ v, Q (.setVal v)) (hr : Q .latchRbv) (hp : ∀ a b d e, Q (.setPixel a b d e)) (hm : Q .tmpRbv)
    (hc : ∀ on, Q (.combine on)) (hw : Q .setValTmp) (hn : ∀ n, Q (.setCn n)) (hg : ∀ n, Q (.setPg n))
    (hx : Q .setResult) (i : Instr) (h1 : i ≠ .init) (h2 : ∀ m, i ≠ .setc m) (h3 : ∀ m, i ≠ .clrc m) :
    ∀ m ∈ progOf c i, Q m := by
  cases i
  case init => exact absurd rfl h1
  case setc m => exact absurd rfl (h2 m)
  case clrc m => exact absurd rfl (h3 m)
  case clr => exact all_clear h ht hv hz hl hn hg
  case pix x y on =>
    show ∀ m ∈ (if pixInRange x y then pixelSeq c x y on else []), Q m
    split
    · exact all_pixel h ht hv hz hl hr hp hm hc hw x y on
    · exact all_nil
  case cfgrd => exact all_cfgRead h
  case cfgwr => exact all_cons (h.setDir _) all_nil
  case sel t => exact all_selectSeq h ht t
  case wait => exact all_waitReady h
  case rdb t rs => exact all_append (all_readByte h ht hr rs t) (all_cons hx all_nil)
  case rdd t => exact all_append (all_readData h ht hr t) (all_cons hx all_nil)
  case wrb v t => exact all_writeByte h ht hv hz (hl v) t
  case wrc v t => exact all_writeCommand h ht hv hz hl v t
  case wrd v t => exact all_writeData h ht hv hz (hl v) t

/-! ## What a whole sequence keeps -/

/-- A property that every primitive and every assignment keeps, every step of a sequence keeps, in an environment
without an EngineReset. -/
theorem micro_keeps {P : State → Prop} (hseq : ∀ u q, P u → P { u with seq := q })
   (hst : ∀ u v q l n, P u → P { u with status := statusIdle v, seq := q, loc := l, draws := n })
   (harr : ∀ u, P u → P u.arrive)
   {m : Micro} {rest : List Micro} {s : State}
   (hp : ∀ e u, P u → match m with
      | .ctrlSet v => P (ctrlSet v e u) | .ctrlClear v => P (ctrlClear v e u) | .select t => P (select t e u)
      | .selectTgt => ∀ t, P (select t e u)
      | .sample => P (sample e u)
      | .driveVal => P (drive s.loc.val e u) | .driveZero => P (drive 0 e u) | .delay k => P (delay k e u)
      | .setDir d => P (setDir d e u)
      | .test => P (countPoll u) ∧ P (setDir .output e u)
      | m => ∀ f, (micro m [] u) = .go f → P f)
   (hn : s.noReset = true) (h : P s) : (micro m rest s).holds (fun t => t.noReset = true ∧ P t) := by
  have prim : ∀ (p : EnvSlot → State → State) r (u : State), u.noReset = true → P u → (∀ e w, P w → P (p e w)) → (∀ e w, (p e w).env = w.env) → (primitive p r u).holds (fun t => t.noReset = true ∧ P t) := by
    intro p r u hu hP h1 h2
    refine primitive_holds (P := fun t => t.noReset = true ∧ P t) (noReset_now hu) ⟨?_, h1 _ _ (harr _ hP)⟩ (fun w q hw => ⟨hw.1, hseq _ _ hw.2⟩)
    unfold State.noReset; rw [h2]; exact (kept_arrive u).noReset hu
  cases m
  case ctrlSet v => exact prim _ _ _ hn h (fun e w => hp e w) (by intros; simp [ctrlSet, record])
  case ctrlClear v => exact prim _ _ _ hn h (fun e w => hp e w) (by intros; simp [ctrlClear, record])
  case select t => exact prim _ _ _ hn h (fun e w => hp e w) (by intros; simp [select, record])
  case selectTgt => exact prim _ _ _ hn h (fun e w hw => hp e w hw _) (by intros; simp [select, record])
  case setDir t => exact prim _ _ _ hn h (fun e w => hp e w) (by intros; rfl)
  case driveVal => exact prim _ _ _ hn h (fun e w => hp e w) (by intros; rfl)
  case driveZero => exact prim _ _ _ hn h (fun e w => hp e w) (by intros; rfl)
  case sample => exact prim _ _ _ hn h (fun e w => hp e w) (by intros; rfl)
  case delay => exact prim _ _ _ hn h (fun e w => hp e w) (by intros; rfl)
  case test =>
    simp only [micro, pollTest]
    have hc := (hp s.slot s h).1
    have hcn : (countPoll s).noReset = true := (countPoll_kept s).noReset hn
    split
    · split
      · unfold failWait
        have := prim (setDir .output) [] (countPoll s) hcn hc (fun e w hw => (hp e w hw).2) (fun _ _ => rfl)
        split
        · rename_i x hx; rw [hx] at this; exact this
        · rename_i x hx; rw [hx] at this
          exact ⟨this.1, hst x _ _ _ _ this.2⟩
      · exact ⟨hcn, hseq _ _ hc⟩
    · exact ⟨hcn, hc⟩
  case pollsZero =>
    have h1 := hp s.slot s h
    simp only [micro] at h1 ⊢
    split
    · exact ⟨hn, h⟩
    · rename_i hh; exact ⟨hn, h1 _ (by rw [if_neg hh]; rfl)⟩
  all_goals exact ⟨hn, hp s.slot s h _ rfl⟩

/-- … and so does the whole sequence, and each engine step of it. -/
theorem prog_keeps {P : State → Prop} (hseq : ∀ u q, P u → P { u with seq := q })
   (hst : ∀ u v q l n, P u → P { u with status := statusIdle v, seq := q, loc := l, draws := n })  (harr : ∀ u, P u → P u.arrive) {Q : Micro → Prop}
   (hp : ∀ m x e u, Q m → P u → match m with
      | .ctrlSet v => P (ctrlSet v e u) | .ctrlClear v => P (ctrlClear v e u) | .select t => P (select t e u)
      | .selectTgt => ∀ t, P (select t e u)
      | .sample => P (sample e u)
      | .driveVal => P (drive x e u) | .driveZero => P (drive 0 e u) | .delay k => P (delay k e u)
      | .setDir d => P (setDir d e u)
      | .test => P (countPoll u) ∧ P (setDir .output e u)
      | m => ∀ f, (micro m [] u) = .go f → P f) {prog s t} (hr : Runs prog s t) (hq : ∀ m ∈ prog, Q m) (hn : s.noReset = true) (h : P s) : P t := by
  have hm : ∀ m rest s, Q m → (∀ k ∈ rest, Q k) → s.noReset = true ∧ P s →
      (micro m rest s).holds (fun t => t.noReset = true ∧ P t) := fun m rest s hm _ hs =>
    micro_keeps hseq hst harr (fun e u hu => by have := hp m s.loc.val e u hm hu; cases m <;> exact this) hs.1 hs.2
  have hc : ∀ s, s.noReset = true ∧ P s → (complete s).noReset = true ∧ P (complete s) :=
    fun s hs => ⟨hs.1, hst s _ _ _ _ hs.2⟩
  rcases hr with rfl | rfl
  · exact (runSeq_keeps (P := fun t => t.noReset = true ∧ P t) (Q := Q) hm hc prog s hq ⟨hn, h⟩).2
  · refine (engineMove_keeps (P := fun t => t.noReset = true ∧ P t) (Q := Q) hm hc ?_ prog s hq ⟨hn, h⟩).2
    intro rest u hq hu
    refine advance_keeps (P := fun t => t.noReset = true ∧ P t) (fun v q hv => ⟨hv.1, hseq v q hv.2⟩) (fun a ha => ?_) hu
    exact ⟨(countPoll_kept u).noReset hu.1, (hp .test 0 u.slot u (hq _ (by simp [ha])) hu.2).1⟩

end Sys2Proof.Machine
end

