-- ==== Sys2Proof/Laws/Lines.lean ====
section
/-! SUPPORT. The discipline of the bus (R24, R25, R280): how the four lines of `Lines` move with each micro step, that
every operation is disciplined from any lines, and where each operation leaves them. -/

namespace Sys2Proof.Machine

/-! ## How the lines move -/

@[simp] theorem arrive_lines (s : State) : s.arrive.lines = s.lines := by simp [State.lines]

theorem lines_ctrl {s t : State} {v : Byte} (hc : t.cfg = s.cfg) (hd : t.dir = s.dir) (h : t.ctrl = v) :
    t.lines = ⟨s.dir, flagIn v s.cfg.mE, flagIn v s.cfg.mRS, flagIn v s.cfg.mRW⟩ := by
  subst h; simp only [State.lines, State.flagE, State.flagRS, State.flagRW, hc, hd]

theorem ctrlSet_lines (m : Byte) (e : EnvSlot) (s : State) :
    (ctrlSet m e s).lines = s.lines.after s.cfg (.ctrlSet m) := by
  rw [lines_ctrl (s := s) (v := s.ctrl ||| m) (by simp [ctrlSet, record]) (by simp [ctrlSet, record])
    (by simp [ctrlSet, record]), flagIn_or, flagIn_or, flagIn_or]
  rfl

theorem ctrlClear_lines {s : State} (w : s.cfg.wf = true) (m : Byte) (e : EnvSlot) :
    (ctrlClear m e s).lines = s.lines.after s.cfg (.ctrlClear m) := by
  rw [lines_ctrl (s := s) (v := s.ctrl &&& ~~~m) (by simp [ctrlClear, record]) (by simp [ctrlClear, record])
    (by simp [ctrlClear, record]), flagIn_and_not _ _ (Config.wf_oneHot_mE w),
    flagIn_and_not _ _ (Config.wf_oneHot_mRS w), flagIn_and_not _ _ (Config.wf_oneHot_mRW w)]
  rfl

theorem select_lines {s : State} (w : s.cfg.wf = true) (t : Target) (e : EnvSlot) :
    (select t e s).lines = s.lines := by
  rw [lines_ctrl (s := s) (v := selectCtrl s.cfg t s.ctrl) (by simp [select, record]) (by simp [select, record])
    (by simp [select, record]), flag_select_mE w, flag_select_mRS w, flag_select_mRW w]
  rfl

theorem countPoll_lines (s : State) : (countPoll s).lines = s.lines := by
  have hk := countPoll_kept s
  have hs := countPoll_same s
  simp only [State.lines, State.flagE, State.flagRS, State.flagRW, hk.cfg, hs.1, hs.2.1]

/-- A step that goes on moves the lines as `Lines.after` says. -/
theorem micro_go_lines {m : Micro} {rest : List Micro} {s t : State} (w : s.cfg.wf = true)
    (h : micro m rest s = .go t) : t.lines = s.lines.after s.cfg m ∧ t.cfg = s.cfg := by
  have prim : ∀ p : EnvSlot → State → State, (∀ e u, u.cfg = s.cfg → u.lines = s.lines → (p e u).lines = s.lines.after s.cfg m ∧
      (p e u).cfg = s.cfg) → primitive p rest s = .go t → t.lines = s.lines.after s.cfg m ∧ t.cfg = s.cfg := by
    intro p hp h
    refine primitive_cases (P := fun f => f = .go t → _) (s := s) (p := p) (rest := rest) (fun _ h => nomatch h)
      (fun _ _ h => nomatch h) (fun _ _ h => ?_) h
    cases h; exact hp _ _ (arrive_cfg s) (arrive_lines s)
  cases m <;> simp only [micro, assign] at h
  case ctrlSet v => exact prim _ (fun e u hc hl => ⟨by rw [ctrlSet_lines, hl, hc], by simp [ctrlSet, record, hc]⟩) h
  case ctrlClear v => exact prim _ (fun e u hc hl => ⟨by rw [ctrlClear_lines (by rw [hc]; exact w), hl, hc], by simp [ctrlClear, record, hc]⟩) h
  case select t => exact prim _ (fun e u hc hl => ⟨by rw [select_lines (by rw [hc]; exact w), hl]; rfl, by simp [select, record, hc]⟩) h
  case selectTgt => exact prim _ (fun e u hc hl => ⟨by rw [select_lines (by rw [hc]; exact w), hl]; rfl, by simp [select, record, hc]⟩) h
  case setDir d =>
    refine prim (setDir d) (fun e u hc hl => ⟨?_, hc⟩) h
    have : (setDir d e u).lines = { u.lines with dir := d } := rfl
    rw [this, hl]; rfl
  case driveVal => exact prim (drive s.loc.val) (fun e u hc hl => ⟨hl, hc⟩) h
  case driveZero => exact prim (drive 0x00) (fun e u hc hl => ⟨hl, hc⟩) h
  case sample => exact prim sample (fun e u hc hl => ⟨hl, hc⟩) h
  case delay k => exact prim (delay k) (fun e u hc hl => ⟨hl, hc⟩) h
  case test =>
    have hk := countPoll_kept s
    have hl := countPoll_lines s
    unfold pollTest at h
    dsimp only at h
    split at h
    · split at h
      · unfold failWait at h; split at h <;> cases h
      · cases h
    · cases h; exact ⟨hl, hk.cfg⟩
  case pollsZero => split at h <;> (cases h; exact ⟨rfl, rfl⟩)
  all_goals (cases h; exact ⟨rfl, rfl⟩)

/-! ## Every operation is disciplined -/

/-- The lines after a sequence. -/
def Lines.afterAll (c : Config) (l : Lines) (p : List Micro) : Lines := p.foldl (fun l m => l.after c m) l

theorem disciplined_append (c : Config) (p q : List Micro) (l : Lines) :
    disciplined c l (p ++ q) = (disciplined c l p && disciplined c (l.afterAll c p) q) := by
  induction p generalizing l with
  | nil => simp [disciplined, Lines.afterAll]
  | cons m r ih => simp [disciplined, ih, Lines.afterAll, Bool.and_assoc]

/-- Disciplined from any lines, and leaving a rest state at rest (R280). -/
structure Orderly (c : Config) (p : List Micro) : Prop where
  disciplined : ∀ l, disciplined c l p = true
  rest : ∀ l : Lines, l.dir = .output → l.e = false → (l.afterAll c p).dir = .output ∧ (l.afterAll c p).e = false

variable {c : Config}

theorem Orderly.nil : Orderly c [] := ⟨fun _ => rfl, fun _ h1 h2 => ⟨h1, h2⟩⟩

theorem afterAll_append (p q : List Micro) (l : Lines) : l.afterAll c (p ++ q) = (l.afterAll c p).afterAll c q := by
  simp [Lines.afterAll]

theorem Orderly.append {p q : List Micro} (hp : Orderly c p) (hq : Orderly c q) : Orderly c (p ++ q) where
  disciplined l := by rw [disciplined_append, hp.disciplined, hq.disciplined]; rfl
  rest l h1 h2 := by
    rw [afterAll_append]
    obtain ⟨h3, h4⟩ := hp.rest l h1 h2
    exact hq.rest _ h3 h4

/-- A step that moves no line of `Lines`, and is neither a sample nor a test. -/
theorem Orderly.cons {m : Micro} {p : List Micro} (ha : ∀ l : Lines, l.admits m = true)
    (hr : ∀ l : Lines, l.dir = .output → l.e = false → (l.after c m).dir = .output ∧ (l.after c m).e = false)
    (hp : Orderly c p) : Orderly c (m :: p) where
  disciplined l := by simp only [Machine.disciplined, ha, hp.disciplined]; rfl
  rest l h1 h2 := by
    obtain ⟨h3, h4⟩ := hr l h1 h2
    exact hp.rest _ h3 h4

theorem Orderly.idle {m : Micro} {p : List Micro} (ha : ∀ l : Lines, l.admits m = true)
    (hr : ∀ l : Lines, l.after c m = l) (hp : Orderly c p) : Orderly c (m :: p) :=
  .cons ha (fun l h1 h2 => by rw [hr l]; exact ⟨h1, h2⟩) hp

theorem Orderly.clear {m : Byte} {p : List Micro} (hp : Orderly c p) : Orderly c (.ctrlClear m :: p) :=
  .cons (fun _ => rfl) (fun l h1 h2 => ⟨h1, by simp [Lines.after, h2]⟩) hp

theorem Orderly.set {m : Byte} {p : List Micro} (hm : flagIn m c.mE = false) (hp : Orderly c p) :
    Orderly c (.ctrlSet m :: p) :=
  .cons (fun _ => rfl) (fun l h1 h2 => ⟨h1, by simp [Lines.after, h2, hm]⟩) hp

theorem orderly_selectSeq (t : Target) : Orderly c (selectSeq t) :=
  .idle (fun _ => rfl) (fun _ => rfl) (.idle (fun _ => rfl) (fun _ => rfl) .nil)

theorem orderly_waitReady (w : c.wf = true) : Orderly c (waitReadySeq c) where
  disciplined l := by
    simp [waitReadySeq, cfgReadSeq, pollBody, cfgWriteSeq, disciplined, Lines.admits, Lines.after, flag_mE_mE w,
      flag_mE_mRS w, flag_mE_mRW w, flag_mRS_mE w, flag_mRS_mRS w, flag_mRS_mRW w, flag_mRW_mE w, flag_mRW_mRS w,
      flag_mRW_mRW w]
  rest l _ _ := by
    simp [waitReadySeq, cfgReadSeq, pollBody, cfgWriteSeq, Lines.afterAll, Lines.after, flag_mE_mE w]

theorem orderly_waitEach (w : c.wf = true) (t : Target) : Orderly c (waitEachSeq c t) := by
  unfold waitEachSeq
  refine .append ?_ ?_ <;> split
  · exact .idle (fun _ => rfl) (fun _ => rfl) (orderly_waitReady w)
  · exact .nil
  · exact .idle (fun _ => rfl) (fun _ => rfl) (orderly_waitReady w)
  · exact .nil

theorem orderly_pulse (w : c.wf = true) {p : List Micro} (hp : Orderly c p) : Orderly c (pulseSeq c ++ p) where
  disciplined l := by
    rw [disciplined_append, hp.disciplined]
    simp [pulseSeq, disciplined, Lines.admits]
  rest l h1 h2 := by
    rw [afterAll_append]
    refine hp.rest _ ?_ ?_
    · simpa [pulseSeq, Lines.afterAll, Lines.after] using h1
    · simp [pulseSeq, Lines.afterAll, Lines.after, flag_mE_mE w]

theorem orderly_readPulse (w : c.wf = true) (rs : Bool) (t : Target) : Orderly c (readPulseSeq c rs t) where
  disciplined l := by
    cases rs <;> simp [readPulseSeq, selectSeq, cfgReadSeq, disciplined, Lines.admits, Lines.after, flag_mE_mE w, flag_mE_mRW w,
      flag_mRS_mRW w, flag_mRW_mRW w]
  rest l _ _ := by
    cases rs <;> simp [readPulseSeq, selectSeq, cfgReadSeq, Lines.afterAll, Lines.after, flag_mE_mE w]

theorem orderly_readByte (w : c.wf = true) (rs : Bool) (t : Target) : Orderly c (readByteSeq c rs t) :=
  (orderly_readPulse w rs t).append (orderly_waitEach w t)

theorem orderly_readData (w : c.wf = true) (t : Target) : Orderly c (readDataSeq c t) :=
  (orderly_readByte w true t).append (orderly_readByte w true t)

theorem orderly_writeByte (w : c.wf = true) {load : Micro} (ha : ∀ l : Lines, l.admits load = true)
    (hr : ∀ l : Lines, l.after c load = l) (t : Target) : Orderly c (writeByteSeq c load t) := by
  have h1 : Orderly c (pulseSeq c ++ [.select .none]) :=
    orderly_pulse w (.idle (fun _ => rfl) (fun _ => rfl) .nil)
  have h2 : Orderly c (waitEachSeq c t ++ .driveZero :: (pulseSeq c ++ [.select .none])) :=
    (orderly_waitEach w t).append (.idle (fun _ => rfl) (fun _ => rfl) h1)
  have h3 := orderly_pulse w h2
  have h4 : Orderly c (load :: .driveVal :: (selectSeq t ++ .delay .settle ::
      (pulseSeq c ++ (waitEachSeq c t ++ .driveZero :: (pulseSeq c ++ [.select .none]))))) :=
    .idle ha hr <| .idle (fun _ => rfl) (fun _ => rfl) <| (orderly_selectSeq t).append <|
      .idle (fun _ => rfl) (fun _ => rfl) h3
  have e : writeByteSeq c load t = load :: .driveVal :: (selectSeq t ++ .delay .settle ::
      (pulseSeq c ++ (waitEachSeq c t ++ .driveZero :: (pulseSeq c ++ [.select .none])))) := by
    simp [writeByteSeq]
  rw [e]; exact h4

theorem orderly_writeCommand (w : c.wf = true) (v : Byte) (t : Target) : Orderly c (writeCommandSeq c v t) :=
  .clear <| (orderly_selectSeq t).append <| .clear <|
    orderly_writeByte w (fun _ => rfl) (fun _ => rfl) t

theorem orderly_writeData (w : c.wf = true) {load : Micro} (ha : ∀ l : Lines, l.admits load = true)
    (hr : ∀ l : Lines, l.after c load = l) (t : Target) : Orderly c (writeDataSeq c load t) :=
  .clear <| (orderly_selectSeq t).append <| .set (flag_mRS_mE w) <| .clear <| orderly_writeByte w ha hr t

theorem orderly_pixel (w : c.wf = true) (x y : Nat) (on : Bool) : Orderly c (pixelSeq c x y on) :=
  ((((Orderly.idle (fun _ => rfl) (fun _ => rfl) (orderly_writeCommand w _ _)).append (orderly_writeCommand w _ _)).append
    (orderly_readData w _)).append (.idle (fun _ => rfl) (fun _ => rfl) (orderly_writeCommand w _ _))).append
    (.idle (fun _ => rfl) (fun _ => rfl) (orderly_writeData w (fun _ => rfl) (fun _ => rfl) _))

theorem orderly_clearColumns (w : c.wf = true) : ∀ n k, Orderly c (clearColumnsSeq c n k)
  | 0, _ => .nil
  | n + 1, k => (orderly_writeData w (fun _ => rfl) (fun _ => rfl) .both).append
      (.idle (fun _ => rfl) (fun _ => rfl) (orderly_clearColumns w n (k + 1)))

theorem orderly_clearPages (w : c.wf = true) : ∀ n p, Orderly c (clearPagesSeq c n p)
  | 0, _ => .nil
  | n + 1, p =>
    (((orderly_writeCommand w _ .both).append (orderly_writeCommand w _ .both)).append
      (.idle (fun _ => rfl) (fun _ => rfl) (orderly_clearColumns w _ 0))).append
      (.idle (fun _ => rfl) (fun _ => rfl) (orderly_clearPages w n (p + 1)))

theorem orderly_init (w : c.wf = true) : Orderly c (initSeq c) := by
  have hw : ∀ v, Orderly c (writeCommandSeq c v .both) := fun v => orderly_writeCommand w v .both
  refine Orderly.append (.append (.append (.append (.append (.append ?_ (hw _)) (hw _)) (hw _)) (hw _)) (hw _))
    (.idle (fun _ => rfl) (fun _ => rfl) .nil)
  refine ⟨fun l => by simp [disciplined, Lines.admits], fun l h1 h2 => ?_⟩
  have he : flagIn (c.mCS1 ||| c.mCS2 ||| c.mRST ||| c.mE) c.mE = true := by simp [flagIn_or, flag_mE_mE w]
  simp [Lines.afterAll, Lines.after, h1, he, flag_mRST_mE w]

/-- Every operation but SETC, CLRC and CFGRD (R280). -/
theorem orderly_prog (w : c.wf = true) (i : Instr) (h1 : ∀ m, i ≠ .setc m) (h2 : ∀ m, i ≠ .clrc m) (h3 : i ≠ .cfgrd) :
    Orderly c (progOf c i) := by
  have hx : Orderly c [.setResult] := .idle (fun _ => rfl) (fun _ => rfl) .nil
  cases i
  case init => exact orderly_init w
  case clr => exact .idle (fun _ => rfl) (fun _ => rfl) (orderly_clearPages w _ _)
  case pix x y on =>
    show Orderly c (if pixInRange x y then pixelSeq c x y on else [])
    split
    · exact orderly_pixel w x y on
    · exact .nil
  case setc m => exact absurd rfl (h1 m)
  case clrc m => exact absurd rfl (h2 m)
  case cfgrd => exact absurd rfl h3
  case cfgwr => exact ⟨fun _ => rfl, fun l _ h => ⟨rfl, h⟩⟩
  case sel t => exact orderly_selectSeq t
  case wait => exact orderly_waitReady w
  case rdb t rs => exact (orderly_readByte w rs t).append hx
  case rdd t => exact (orderly_readData w t).append hx
  case wrb v t => exact orderly_writeByte w (fun _ => rfl) (fun _ => rfl) t
  case wrc v t => exact orderly_writeCommand w v t
  case wrd v t => exact orderly_writeData w (fun _ => rfl) (fun _ => rfl) t

/-- … and the discipline holds of those three as well. -/
theorem disciplined_prog (w : c.wf = true) (i : Instr) (l : Lines) : disciplined c l (progOf c i) = true := by
  cases i
  case setc m => simp [progOf, disciplined, Lines.admits]
  case clrc m => simp [progOf, disciplined, Lines.admits]
  case cfgrd => simp [progOf, cfgReadSeq, disciplined, Lines.admits]
  all_goals exact (orderly_prog w _ (by nofun) (by nofun) (by nofun)).disciplined l

end Sys2Proof.Machine
end

