-- ==== Sys2Proof/Laws/InProgress.lean ====
section
/-! SUPPORT. The operation in progress: in every sequence the test of a poll stands right after the poll it closes
(R150), so that a sequencer standing at WT.6 still holds a remainder of its operation's sequence (R32). -/

namespace Sys2Proof.Machine

variable {c : Config}

/-- Every test of the sequence stands right after a poll (R150). -/
def Polled (c : Config) (p : List Micro) : Prop := ∀ a b, p = a ++ .test :: b → ∃ d, a = d ++ pollBody c

theorem Polled.append {p q : List Micro} (hp : Polled c p) (hq : Polled c q) : Polled c (p ++ q) := by
  intro a b h
  rcases List.append_eq_append_iff.mp h with ⟨r, rfl, e⟩ | ⟨r, rfl, e⟩
  · obtain ⟨d, rfl⟩ := hq r b e
    exact ⟨p ++ d, by rw [List.append_assoc]⟩
  · cases r with
    | nil =>
      obtain ⟨d, hd⟩ := hq [] b e.symm
      cases d <;> simp [pollBody] at hd
    | cons m r =>
      cases e
      exact hp a r rfl

/-- A sequence without a test. -/
theorem Polled.plain {p : List Micro} (h : ∀ m ∈ p, m ≠ .test) : Polled c p :=
  fun a b e => absurd rfl (h .test (by rw [e]; simp))

/-- One poll and its test. -/
theorem polled_poll : Polled c (pollBody c ++ [.test]) := by
  intro a b h
  refine ⟨[], ?_⟩
  simp only [pollBody, List.cons_append, List.nil_append] at h
  rcases a with _ | ⟨m1, _ | ⟨m2, _ | ⟨m3, _ | ⟨m4, _ | ⟨m5, _ | ⟨m6, a⟩⟩⟩⟩⟩⟩ <;>
    simp only [List.cons_append, List.nil_append, List.cons.injEq, reduceCtorEq, false_and, and_false] at h
  · obtain ⟨rfl, rfl, rfl, rfl, rfl, -⟩ := h; rfl
  · have := congrArg List.length h.2.2.2.2.2.2
    simp at this

theorem polled_waitReady : Polled c (waitReadySeq c) := by
  have h : waitReadySeq c = (cfgReadSeq c ++ [.pollsZero]) ++ (pollBody c ++ [.test]) ++ cfgWriteSeq := by
    simp [waitReadySeq]
  rw [h]
  exact (Polled.append (.plain (by simp [cfgReadSeq])) polled_poll).append (.plain (by simp [cfgWriteSeq]))

theorem polled_waitEach (t : Target) : Polled c (waitEachSeq c t) := by
  unfold waitEachSeq
  refine .append ?_ ?_ <;> split
  · exact .append (p := [.select .cs1]) (.plain (by simp)) polled_waitReady
  · exact .plain (by simp)
  · exact .append (p := [.select .cs2]) (.plain (by simp)) polled_waitReady
  · exact .plain (by simp)

theorem polled_cons {m : Micro} {p : List Micro} (h : m ≠ .test) (hp : Polled c p) : Polled c (m :: p) :=
  .append (p := [m]) (.plain (by simpa using h)) hp

theorem polled_readByte (rs : Bool) (t : Target) : Polled c (readByteSeq c rs t) :=
  .append (.plain (by cases rs <;> simp [readPulseSeq, selectSeq, cfgReadSeq])) (polled_waitEach t)

theorem polled_readData (t : Target) : Polled c (readDataSeq c t) :=
  (polled_readByte true t).append (polled_readByte true t)

theorem polled_writeByte {load : Micro} (h : load ≠ .test) (t : Target) : Polled c (writeByteSeq c load t) := by
  have e : writeByteSeq c load t = (load :: .driveVal :: .setTgt t :: .selectTgt :: .delay .settle :: pulseSeq c) ++
      waitEachSeq c t ++ (.driveZero :: (pulseSeq c ++ [.select .none])) := by simp [writeByteSeq, selectSeq]
  rw [e]
  exact (Polled.append (.plain (by simp [pulseSeq, h])) (polled_waitEach t)).append (.plain (by simp [pulseSeq]))

theorem polled_writeCommand (v : Byte) (t : Target) : Polled c (writeCommandSeq c v t) :=
  .append (.plain (by simp [selectSeq])) (polled_cons (by nofun) (polled_writeByte (by nofun) t))

theorem polled_writeData {load : Micro} (h : load ≠ .test) (t : Target) : Polled c (writeDataSeq c load t) :=
  .append (.plain (by simp [selectSeq])) (polled_cons (by nofun) (polled_cons (by nofun) (polled_writeByte h t)))

theorem polled_pixel (x y : Nat) (on : Bool) : Polled c (pixelSeq c x y on) :=
  ((((polled_cons (by nofun) (polled_writeCommand _ _)).append (polled_writeCommand _ _)).append
    (polled_readData _)).append (polled_cons (by nofun) (polled_writeCommand _ _))).append
    (polled_cons (by nofun) (polled_writeData (by nofun) _))

theorem polled_clearColumns : ∀ n k, Polled c (clearColumnsSeq c n k)
  | 0, _ => .plain (by simp [clearColumnsSeq])
  | n + 1, k => (polled_writeData (by nofun) .both).append (polled_cons (by nofun) (polled_clearColumns n (k + 1)))

theorem polled_clearPages : ∀ n p, Polled c (clearPagesSeq c n p)
  | 0, _ => .plain (by simp [clearPagesSeq])
  | n + 1, p => (((polled_writeCommand _ .both).append (polled_writeCommand _ .both)).append
      (polled_cons (by nofun) (polled_clearColumns _ 0))).append (polled_cons (by nofun) (polled_clearPages n (p + 1)))

theorem polled_init : Polled c (initSeq c) :=
  .append (.append (.append (.append (.append (.append (.plain (by simp)) (polled_writeCommand _ _))
    (polled_writeCommand _ _)) (polled_writeCommand _ _)) (polled_writeCommand _ _)) (polled_writeCommand _ _))
    (.plain (by simp))

/-- Every operation (R150). -/
theorem polled_prog (i : Instr) : Polled c (progOf c i) := by
  cases i
  case init => exact polled_init
  case clr => exact polled_cons (by nofun) (polled_clearPages _ _)
  case pix x y on =>
    show Polled c (if pixInRange x y then pixelSeq c x y on else [])
    split
    · exact polled_pixel x y on
    · exact .plain (by simp)
  case setc m => exact .plain (by simp [progOf])
  case clrc m => exact .plain (by simp [progOf])
  case cfgrd => exact .plain (by simp [progOf, cfgReadSeq])
  case cfgwr => exact .plain (by simp [progOf, cfgWriteSeq])
  case sel t => exact .plain (by simp [progOf, selectSeq])
  case wait => exact polled_waitReady
  case rdb t rs => exact .append (polled_readByte rs t) (.plain (by simp))
  case rdd t => exact .append (polled_readData t) (.plain (by simp))
  case wrb v t => exact polled_writeByte (by nofun) t
  case wrc v t => exact polled_writeCommand v t
  case wrd v t => exact polled_writeData (by nofun) t

/-- A remainder that begins with a test is the remainder after a poll, and with that poll before it, it is a remainder
again (R32, R150). -/
theorem remainder_poll {i : Instr} {done rest : List Micro} (h : progOf c i = done ++ .test :: rest) :
    ∃ d, progOf c i = d ++ (pollBody c ++ .test :: rest) := by
  obtain ⟨d, rfl⟩ := polled_prog i done rest h
  exact ⟨d, by rw [h, List.append_assoc]⟩

end Sys2Proof.Machine
end

