-- ==== Sys2Proof/Laws/Init.lean ====
section
/-! SUPPORT. The release of the display reset (R72), and INIT in a quiet state (R221). -/

namespace Sys2Proof.Machine

/-- What the release of controller k's reset keeps: its display memory, where the environment keeps it; whether it
was sent an unmodelled command; and the other controller. -/
theorem releaseReset_ram (e : EnvSlot) (k : Ctl) (s : State) (j : Ctl) (h : j = k → e.ramLostOf k = false)
    (p : BitVec 3) (l : BitVec 6) : (releaseReset e k s).ramByte j p l = s.ramByte j p l := by
  have hl := ramAddr_lt j p l
  have hp := p.isLt
  have hc := l.isLt
  by_cases hk : j = k
  · subst hk
    simp only [releaseReset, h rfl]
    cases j <;> rfl
  · have hctl : (releaseReset e k s).ctl j = s.ctl j := by cases k <;> cases j <;> first | contradiction | rfl
    have hmem : (releaseReset e k s).mem = if e.ramLostOf k then Memory.forget s.mem k else s.mem := by
      cases k <;> rfl
    unfold State.ramByte
    rw [hctl, hmem]
    split
    · rw [lookup_forget_other]
      cases k <;> cases j <;> first | contradiction | (simp only [ramAddr, ramBase]; omega)
    · rfl

theorem releaseReset_busy (e : EnvSlot) (k : Ctl) (s : State) (j : Ctl) :
    ((releaseReset e k s).ctl j).busy = if j = k then e.busyOf k else (s.ctl j).busy := by
  cases k <;> cases j <;> rfl

theorem releaseReset_unmodelled (e : EnvSlot) (k : Ctl) (s : State) (j : Ctl) :
    ((releaseReset e k s).ctl j).unmodelled = (s.ctl j).unmodelled := by
  cases k <;> cases j <;> rfl

/-- `CtrlSet(M_RST)` with RST low: both controllers are released (R72). -/
theorem go_release {s : State} (q : Quiet s) (h : s.flagRST = false) :
    ∃ t, runGo [.ctrlSet s.cfg.mRST] s = some t ∧ Ran s t 1 ∧
      (∀ k p l, s.slot.ramLostOf k = false → t.ramByte k p l = s.ramByte k p l) ∧
      (∀ k, (t.ctl k).unmodelled = (s.ctl k).unmodelled) ∧
      t.view = { s.view with rst := true, c1 := t.c1, c2 := t.c2, mem := t.mem } := by
  have w := q.wf
  have hc := calm_head q.calm
  let s0 := s.withEnv s.env.tail
  let r := releaseReset s.slot .two (releaseReset s.slot .one (s0.withCtrl (s.ctrl ||| s.cfg.mRST)))
  have hu : updateCtrl s.slot (s.ctrl ||| s.cfg.mRST) s0 = r := by
    unfold updateCtrl
    have h1 : (flagIn s.ctrl s.cfg.mE && !flagIn (s.ctrl ||| s.cfg.mRST) s.cfg.mE) = false := by
      rw [flagIn_or]; cases flagIn s.ctrl s.cfg.mE <;> simp
    have h2 : (!flagIn s.ctrl s.cfg.mRST && flagIn (s.ctrl ||| s.cfg.mRST) s.cfg.mRST) = true := by
      rw [flagIn_or, flag_mRST_mRST w]; simp only [State.flagRST] at h; simp [h]
    have e1 : s0.flagE = flagIn s.ctrl s.cfg.mE := rfl
    have e2 : s0.flagRST = flagIn s.ctrl s.cfg.mRST := rfl
    have e3 : s0.cfg = s.cfg := rfl
    simp only [e1, e2, e3, h1, h2]
    rfl
  have hf : (record (.ctrlSet s.cfg.mRST) r).protoFault = none := by
    show r.protoFault = none
    simp only [r, releaseReset_protoFault]; exact q.fault
  have hp := primitive_quiet (rest := ([] : List Micro)) q (ctrlSet s.cfg.mRST) (by
    change (record (.ctrlSet s.cfg.mRST) (updateCtrl s.slot (s.ctrl ||| s.cfg.mRST) s0)).protoFault = none
    rw [hu]; exact hf)
  have hgo : runGo [.ctrlSet s.cfg.mRST] s = some (record (.ctrlSet s.cfg.mRST) r) := by
    simp only [runGo, micro, hp]
    change some (record (.ctrlSet s.cfg.mRST) (updateCtrl s.slot (s.ctrl ||| s.cfg.mRST) s0)) = _
    rw [hu]
  have hrec : record (.ctrlSet s.cfg.mRST) r = { r with trace := .ctrlSet s.cfg.mRST :: r.trace } := rfl
  have hb : ∀ k, (r.ctl k).busy = false := by
    intro k
    simp only [r, releaseReset_busy]
    cases k
    · exact hc.2.1
    · exact hc.2.2
  refine ⟨_, hgo, ?_, ?_, ?_, ?_⟩
  · refine ⟨⟨?_, hf, ?_, hb .one, hb .two⟩, ?_, ?_, ?_, ?_, ?_, ?_, ?_, ?_⟩
    · show r.cfg.wf = true
      exact w
    · show calmSlots r.env
      exact calmSlots_tail q.calm
    all_goals first | rfl | exact tail_is_drop _
  · intro k p l hk
    show r.ramByte k p l = _
    rw [releaseReset_ram _ _ _ _ (by rintro rfl; exact hk), releaseReset_ram _ _ _ _ (by rintro rfl; exact hk)]
    cases k <;> rfl
  · intro k
    show (r.ctl k).unmodelled = _
    simp only [r, releaseReset_unmodelled]
    cases k <;> rfl
  · have hv : (record (.ctrlSet s.cfg.mRST) r).view = { s.view with
        cs1 := flagIn (s.ctrl ||| s.cfg.mRST) s.cfg.mCS1, cs2 := flagIn (s.ctrl ||| s.cfg.mRST) s.cfg.mCS2,
        rst := flagIn (s.ctrl ||| s.cfg.mRST) s.cfg.mRST, rs := flagIn (s.ctrl ||| s.cfg.mRST) s.cfg.mRS,
        rw := flagIn (s.ctrl ||| s.cfg.mRST) s.cfg.mRW, e := flagIn (s.ctrl ||| s.cfg.mRST) s.cfg.mE,
        reserved := (s.ctrl ||| s.cfg.mRST) &&& s.cfg.mReserved, c1 := r.c1, c2 := r.c2, mem := r.mem } := rfl
    rw [hv]
    simp only [flagIn_or, flag_mRST_mCS1 w, flag_mRST_mCS2 w, flag_mRST_mRST w, flag_mRST_mRS w, flag_mRST_mRW w,
      flag_mRST_mE w, reserved_or _ _ (mRST_reserved _), Bool.or_false, Bool.or_true]
    rfl

/-! ## INIT -/

variable {c : Config} {v : View}

theorem command_ctlAs (x : Byte) (b : Byte × Byte) (hr : v.rst = true) (k : Ctl) :
    (((v.withRs false).withRw false).writtenAs c .both x b).ctl k =
      commandEffect c (match k with | .one => b.1 | .two => b.2) (v.ctl k) := by
  cases k
  · show (((v.withRs false).withRw false).writtenAs c .both x b).c1 = _
    rw [written_c1]
    show (if true && v.rst then commandEffect c b.1 v.c1 else v.c1) = _
    rw [hr]; rfl
  · show (((v.withRs false).withRw false).writtenAs c .both x b).c2 = _
    rw [written_c2]
    show (if true && v.rst then commandEffect c b.2 v.c2 else v.c2) = _
    rw [hr]; rfl

theorem command_memAs (t : Target) (x : Byte) (b : Byte × Byte) :
    (((v.withRs false).withRw false).writtenAs c t x b).mem = v.mem := by
  rw [written_mem]; rfl

/-- IN.8 to IN.12. -/
def initTail (c : Config) : List Micro :=
  writeCommandSeq c c.cmdDisplayOn .both ++ (writeCommandSeq c (c.cmdStartLine ||| 0) .both ++
    (writeCommandSeq c (setAddressCmd c 0) .both ++ (writeCommandSeq c (setPageCmd c 0) .both ++ [.select .none])))

theorem init_tail (w : c.wf = true) (r : c.refDecodes = true) (h : v.Able) (s : State) (q : Quiet s) (hc : s.cfg = c)
    (hv : s.view = v) :
    ∃ u, runGo (initTail c) s = some u ∧ Ran s u 153 ∧ u.view.Rest ∧ u.view.reserved = s.view.reserved ∧
      u.pulses.length = s.pulses.length + 16 ∧
      acting u.pulses = [toBoth false (setPageCmd c 0), toBoth false (setAddressCmd c 0),
        toBoth false (c.cmdStartLine ||| 0), toBoth false c.cmdDisplayOn] ++ acting s.pulses ∧
      (∀ k, (u.ctl k).xp = 0 ∧ (u.ctl k).ya = 0 ∧ (u.ctl k).zl = 0 ∧ (u.ctl k).don = true) ∧
      (∀ k p l, u.view.ram k p l = s.view.ram k p l) := by
  let f := fun (v : View) (x : Byte) => ((v.withRs false).withRw false).written c .both x
  have fable : ∀ v x, v.Able → (f v x).Able := fun v x h =>
    written_able (v := (v.withRs false).withRw false) ⟨h.e, h.rst, h.dir⟩ x
  have freach : ∀ v x, v.Able → Reach c v (writeCommandSeq c x .both) (14 + 12 * 2) (f v x) := fun v x h =>
    reach_writeCommand w .both x h.e h.rst h.dir
  have fctl : ∀ v x k, v.Able → (f v x).ctl k = commandEffect c x (v.ctl k) := by
    intro v x k h
    have := command_ctl (c := c) .both x h.rst k
    rwa [if_pos (both_has k)] at this
  have fram : ∀ v x k p l, v.Able → (f v x).ram k p l = v.ram k p l := fun v x k p l h =>
    ram_congr (command_mem ..) (fun j => by rw [fctl _ _ _ h, commandEffect_epoch]) k p l
  have fcount : ∀ v x, (f v x).pulses.length = v.pulses.length + 4 := by
    intro v x; simp only [f]; rw [written_count]; rfl
  have fres : ∀ v x, (f v x).reserved = v.reserved := by intro v x; simp [f]
  let v1 := f v c.cmdDisplayOn
  let v2 := f v1 (c.cmdStartLine ||| 0)
  let v3 := f v2 (setAddressCmd c 0)
  let v4 := f v3 (setPageCmd c 0)
  have a1 : v1.Able := fable _ _ h
  have a2 : v2.Able := fable _ _ a1
  have a3 : v3.Able := fable _ _ a2
  obtain ⟨u, g, ru, vu⟩ := ((freach _ _ h).append <| (freach _ _ a1).append <| (freach _ _ a2).append <|
    (freach v3 (setPageCmd c 0) a3).append (reach_select w .none)) s q hc hv
  have vu' : u.view = v4 := vu
  have hu : ∀ k, u.ctl k = v4.ctl k := by
    intro k; rw [← vu']; cases k <;> rfl
  refine ⟨u, g, ru.as' rfl, ?_, ?_, ?_, ?_, fun k => ?_, fun k p l => ?_⟩
  · rw [vu']; exact written_rest (v := (v3.withRs false).withRw false) (by decide) _ _ a3.rst a3.e a3.dir
  · rw [vu', hv]; simp only [v4, v3, v2, v1, fres]
  · have : u.pulses = v4.pulses := congrArg View.pulses vu'
    have hs : s.pulses = v.pulses := congrArg View.pulses hv
    rw [this, hs]; simp only [v4, v3, v2, v1, fcount]
  · have : u.pulses = v4.pulses := congrArg View.pulses vu'
    have hs : s.pulses = v.pulses := congrArg View.pulses hv
    rw [this, hs, command_toBoth a3, command_toBoth a2, command_toBoth a1, command_toBoth h]; rfl
  · rw [hu]
    simp only [v4, v3, v2, v1]
    rw [fctl _ _ _ a3, fctl _ _ _ a2, fctl _ _ _ a1, fctl _ _ _ h, commandEffect_displayOn r, commandEffect_startLine r,
      commandEffect_setAddress w, commandEffect_setPage w r]
    exact ⟨rfl, rfl, rfl, rfl⟩
  · rw [vu', hv]
    simp only [v4, v3, v2, v1]
    rw [fram _ _ _ _ _ a3, fram _ _ _ _ _ a2, fram _ _ _ _ _ a1, fram _ _ _ _ _ h]

/-- INIT (R221, R172): 197 primitives, 21 pulse events, the five commands among them; display memory, where the
environment keeps it (R72), but for what the entry pulse writes (R287). -/
theorem go_init {s : State} (q : Quiet s) (r : s.cfg.refDecodes = true) :
    ∃ u, runGo (initSeq s.cfg) s = some u ∧ Ran s u 197 ∧ u.view.Rest ∧ u.view.reserved = s.view.reserved ∧
      u.pulses.length = s.pulses.length + 21 ∧
      acting u.pulses = [toBoth false (setPageCmd s.cfg 0), toBoth false (setAddressCmd s.cfg 0),
        toBoth false (s.cfg.cmdStartLine ||| 0), toBoth false s.cfg.cmdDisplayOn,
        { toBoth false s.cfg.cmdDisplayOff with dir := s.dir }] ++ acting (s.pulseRecord :: s.pulses) ∧
      (∀ k, (u.ctl k).xp = 0 ∧ (u.ctl k).ya = 0 ∧ (u.ctl k).zl = 0 ∧ (u.ctl k).don = true) ∧
      (s.ramKept = true → ∃ b, (s.dir = .output → b = (s.dout, s.dout)) ∧ ∀ k p l, u.ramByte k p l =
        if s.view.kind = .dataWrite ∧ (s.view.selects k && s.flagRST) = true ∧ p = (s.ctl k).xp ∧ l = (s.ctl k).ya
        then byteTo b k else s.ramByte k p l) := by
  have w := q.wf
  generalize hc : s.cfg = c at *
  -- IN.1, IN.2
  obtain ⟨s1, g1, r1, v1⟩ := ((reach_setE (v := s.view) w).cons (reach_delay .power)) s q hc rfl
  -- IN.3: the pulse event
  let m := c.mCS1 ||| c.mCS2 ||| c.mRST ||| c.mE
  have c1 : s1.cfg = c := r1.cfg.trans hc
  have hm : m &&& c.mReserved = 0 :=
    reserved_or_masks (reserved_or_masks (reserved_or_masks (mCS1_reserved c) (mCS2_reserved c)) (mRST_reserved c))
      (mE_reserved c)
  have hE : flagIn m c.mE = true := by simp [m, flagIn_or, flag_mE_mE w]
  obtain ⟨s2, g2, r2, -, v2⟩ := go_clear_pulse r1.quiet m (by rw [c1]; exact hm) (congrArg View.e v1)
    (by rw [c1]; exact hE)
  have hCS1 : flagIn m c.mCS1 = true := by simp [m, flagIn_or, flag_mCS1_mCS1 w]
  have hCS2 : flagIn m c.mCS2 = true := by simp [m, flagIn_or, flag_mCS2_mCS2 w]
  have hRST : flagIn m c.mRST = true := by simp [m, flagIn_or, flag_mRST_mRST w]
  have hRS : flagIn m c.mRS = false := by
    simp [m, flagIn_or, flag_mCS1_mRS w, flag_mCS2_mRS w, flag_mRST_mRS w, flag_mE_mRS w]
  have hRW : flagIn m c.mRW = false := by
    simp [m, flagIn_or, flag_mCS1_mRW w, flag_mCS2_mRW w, flag_mRST_mRW w, flag_mE_mRW w]
  rw [c1, hCS1, hCS2, hRST, hRS, hRW] at v2
  have p2 : s2.pulses = s.pulseRecord :: s.pulses := by
    have h : s2.pulses = _ := congrArg View.pulses v2
    rw [h]
    show s1.view.pulse :: s1.view.pulses = _
    rw [v1]; rfl
  -- IN.4
  obtain ⟨s3, g3, r3, v3⟩ := reach_delay (c := c) (v := s2.view) .resetAssert s2 r2.quiet (r2.cfg.trans c1) rfl
  have c3 : s3.cfg = c := r3.cfg.trans (r2.cfg.trans c1)
  -- IN.5: the release
  have rst3 : s3.flagRST = false := (congrArg View.rst (v3.trans v2)).trans (by simp)
  obtain ⟨s4, g4, r4, ram4, un4, v4⟩ := go_release r3.quiet rst3
  rw [c3] at g4
  have c4 : s4.cfg = c := r4.cfg.trans c3
  -- IN.6
  obtain ⟨s5, g5, r5, v5⟩ := reach_delay (c := c) (v := s4.view) .resetRecover s4 r4.quiet c4 rfl
  have c5 : s5.cfg = c := r5.cfg.trans c4
  have e5 : s5.flagE = false := (congrArg View.e (v5.trans v4)).trans (congrArg View.e (v3.trans v2))
  have t5 : s5.flagRST = true := congrArg View.rst (v5.trans v4)
  -- IN.7
  obtain ⟨b, s6, -, g6, r6, v6⟩ := go_writeCommand r5.quiet .both c.cmdDisplayOff t5
  rw [c5, lowered_low e5] at v6
  rw [c5] at g6
  have c6 : s6.cfg = c := r6.cfg.trans c5
  have R5 : s5.view.rst = true := t5
  have E5 : s5.view.e = false := e5
  have A6 : s6.view.Able := ⟨by rw [v6]; simpa using E5, by rw [v6]; simpa using R5, by rw [v6]; rfl⟩
  have hinit : initSeq c = ([.ctrlSet c.mE, .delay .power] : List Micro) ++ .ctrlClear m :: .delay .resetAssert ::
      .ctrlSet c.mRST :: .delay .resetRecover :: (writeCommandSeq c c.cmdDisplayOff .both ++
      initTail c) := by simp [initSeq, initTail, m]
  obtain ⟨u, gu, ru, eu, su, pu, au, ku, mu⟩ := init_tail w r A6 s6 r6.quiet c6 rfl
  refine ⟨u, ?_, (r1.trans (r2.trans (r3.trans (r4.trans (r5.trans (r6.trans ru)))))).as' rfl, eu, ?_, ?_, ?_, ?_, ?_⟩
  · rw [hinit, runGo_append g1]
    refine (runGo_append (a := [.ctrlClear m]) g2).trans ?_
    refine (runGo_append (a := [.delay .resetAssert]) g3).trans ?_
    refine (runGo_append (a := [.ctrlSet c.mRST]) g4).trans ?_
    refine (runGo_append (a := [.delay .resetRecover]) g5).trans ?_
    exact (runGo_append (b := initTail c) g6).trans gu
  · rw [su, v6, written_reserved, View.withRw_reserved, View.withRs_reserved, v5, v4, v3, v2]
    show s1.view.reserved = _
    rw [v1]; rfl
  · have n5 : s5.pulses = s2.pulses := by
      have h5 : s5.pulses = s4.pulses := congrArg View.pulses v5
      have h4 : s4.pulses = s3.pulses := congrArg View.pulses v4
      have h3 : s3.pulses = s2.pulses := congrArg View.pulses v3
      rw [h5, h4, h3]
    have n6 : s6.pulses.length = s5.pulses.length + 4 := by
      have h : s6.pulses = _ := congrArg View.pulses v6
      rw [h, written_count]; rfl
    rw [pu, n6, n5, p2]; rfl
  · have d5 : s5.dir = s.dir := by
      have h5 : s5.dir = s4.dir := congrArg View.dir v5
      have h4 : s4.dir = s3.dir := congrArg View.dir v4
      have h3 : s3.dir = s2.dir := congrArg View.dir v3
      have h2 : s2.dir = s1.dir := congrArg View.dir v2
      rw [h5, h4, h3, h2]; exact congrArg View.dir v1
    have n5 : s5.pulses = s2.pulses := by
      have h5 : s5.pulses = s4.pulses := congrArg View.pulses v5
      have h4 : s4.pulses = s3.pulses := congrArg View.pulses v4
      have h3 : s3.pulses = s2.pulses := congrArg View.pulses v3
      rw [h5, h4, h3]
    have n6 : acting s6.pulses = { toBoth false c.cmdDisplayOff with dir := s.dir } :: acting s5.pulses := by
      have h : s6.pulses = _ := congrArg View.pulses v6
      rw [h, command_acting (by decide), R5, show s5.view.dir = s.dir from d5]; rfl
    rw [au, n6, n5, p2]; rfl
  · intro k; exact ku k
  · intro hk
    refine ⟨s1.busBytes s1.slot, fun hd => ?_, fun k p l => ?_⟩
    · rw [busBytes_output ((congrArg View.dir v1).trans hd), show s1.dout = s.dout from congrArg View.dout v1]
    have h1 : s2.view.ram k p l = (s1.view.act c (s1.busBytes s1.slot)).ram k p l := by rw [v2]; cases k <;> rfl
    have h2 : s2.ramByte k p l =
        if s.view.kind = .dataWrite ∧ (s.view.selects k && s.flagRST) = true ∧ p = (s.ctl k).xp ∧ l = (s.ctl k).ya
        then byteTo (s1.busBytes s1.slot) k else s.ramByte k p l := by
      rw [← view_ram, h1, act_ram, v1]
      cases k <;> rfl
    have h3 : s3.ramByte k p l = s2.ramByte k p l := by rw [← view_ram, v3, view_ram]
    have hlost : s3.slot.ramLostOf k = false := by
      have : s3.env = s.env.drop 4 := by
        rw [r3.env, r2.env, r1.env, List.drop_drop, List.drop_drop]
      have hmem : s3.slot = {} ∨ s3.slot ∈ s.env := by
        unfold State.slot
        rw [this]
        cases hd : s.env.drop 4 with
        | nil => exact Or.inl rfl
        | cons a l => exact Or.inr (List.mem_of_mem_drop (by rw [hd]; simp : a ∈ s.env.drop 4))
      rcases hmem with h | h
      · rw [h]; cases k <;> rfl
      · have := List.all_eq_true.mp hk _ h
        simp only [Bool.and_eq_true, Bool.not_eq_true'] at this
        cases k
        · exact this.1
        · exact this.2
    have h4 : s4.ramByte k p l = s3.ramByte k p l := ram4 k p l hlost
    have h5 : s5.ramByte k p l = s4.ramByte k p l := by rw [← view_ram, v5, view_ram]
    have h6 : s6.ramByte k p l = s5.ramByte k p l := by
      rw [← view_ram, ← view_ram, v6]
      exact ram_congr (command_memAs ..) (fun j => by rw [command_ctlAs _ _ R5, commandEffect_epoch]) k p l
    rw [← view_ram, mu, view_ram, h6, h5, h4, h3, h2]

end Sys2Proof.Machine
end

