-- ==== Sys2Proof/Laws/Locals.lean ====
section
/-! SUPPORT. The operation-local registers (R30): every sequence writes each of them before it reads it, so what they hold at
the start of an operation makes no difference to it. -/

namespace Sys2Proof.Machine

/-- Which of the operation-local registers that a sequence can read are written. -/
structure Fed where
  val : Bool
  tgt : Bool
  smp : Bool
  rbv : Bool
  polls : Bool
  tmp : Bool
  mask : Bool
  deriving DecidableEq, Repr

/-- None is written. -/
def Fed.nothing : Fed := ⟨false, false, false, false, false, false, false⟩

/-- … after one step of a sequence; no answer where the step reads one that is not written. -/
def Fed.after (w : Fed) : Micro → Option Fed
  | .driveVal => if w.val then some w else Option.none
  | .selectTgt => if w.tgt then some w else Option.none
  | .sample => some { w with smp := true }
  | .test => if w.smp && w.polls then some w else Option.none
  | .setVal _ => some { w with val := true }
  | .setValTmp => if w.tmp then some { w with val := true } else Option.none
  | .setTgt _ => some { w with tgt := true }
  | .latchRbv => if w.smp then some { w with rbv := true } else Option.none
  | .pollsZero => some { w with polls := true }
  | .setPixel _ _ _ _ => some { w with mask := true }
  | .tmpRbv => if w.rbv then some { w with tmp := true } else Option.none
  | .combine _ => if w.tmp && w.mask then some w else Option.none
  | .setResult => if w.rbv then some w else Option.none
  | _ => some w

/-- … and after a sequence. -/
def Fed.track : Fed → List Micro → Option Fed
  | w, [] => some w
  | w, m :: rest => (w.after m).bind fun w' => w'.track rest

/-! ## Every operation feeds what it reads -/

/-- What is written in `a` is written in `b`. -/
structure Fed.Below (a b : Fed) : Prop where
  val : a.val = true → b.val = true
  tgt : a.tgt = true → b.tgt = true
  smp : a.smp = true → b.smp = true
  rbv : a.rbv = true → b.rbv = true
  polls : a.polls = true → b.polls = true
  tmp : a.tmp = true → b.tmp = true
  mask : a.mask = true → b.mask = true

theorem Fed.Below.refl (w : Fed) : w.Below w := ⟨id, id, id, id, id, id, id⟩

theorem Fed.Below.trans {a b d : Fed} (h : a.Below b) (k : b.Below d) : a.Below d :=
  ⟨k.val ∘ h.val, k.tgt ∘ h.tgt, k.smp ∘ h.smp, k.rbv ∘ h.rbv, k.polls ∘ h.polls, k.tmp ∘ h.tmp, k.mask ∘ h.mask⟩

/-- Whatever is written that `n` asks for, the sequence reads nothing unwritten and leaves written what was, and `g`. -/
def Feeds (n : Fed) (p : List Micro) (g : Fed) : Prop :=
  ∀ w : Fed, n.Below w → ∃ w', w.track p = some w' ∧ w.Below w' ∧ g.Below w'

theorem Fed.track_append (p q : List Micro) (w : Fed) : w.track (p ++ q) = (w.track p).bind fun w' => w'.track q := by
  induction p generalizing w with
  | nil => rfl
  | cons m rest ih =>
    simp only [List.cons_append, Fed.track]
    cases w.after m with
    | none => rfl
    | some v => exact ih v

theorem Feeds.append {n n' g g' : Fed} {p q : List Micro} (hp : Feeds n p g) (hq : Feeds n' q g')
    (hn : ∀ w : Fed, n.Below w → g.Below w → n'.Below w) : Feeds n (p ++ q) g' := by
  intro w h
  obtain ⟨v, e1, l1, k1⟩ := hp w h
  obtain ⟨u, e2, l2, k2⟩ := hq v (hn v (h.trans l1) k1)
  exact ⟨u, by rw [Fed.track_append, e1]; exact e2, l1.trans l2, k2⟩

theorem Feeds.anyway {n g n' : Fed} {p : List Micro} (h : Feeds n p g) (hn : n.Below n') : Feeds n' p g :=
  fun w hw => h w (hn.trans hw)

theorem Feeds.less {n g g' : Fed} {p : List Micro} (h : Feeds n p g) (hg : g'.Below g) : Feeds n p g' := fun w hw => by
  obtain ⟨v, e, l, k⟩ := h w hw
  exact ⟨v, e, l, hg.trans k⟩

theorem nothing_below (w : Fed) : Fed.nothing.Below w := ⟨nofun, nofun, nofun, nofun, nofun, nofun, nofun⟩

/-- Two parts that each need nothing but what was there. -/
theorem Feeds.seq {n g g' : Fed} {p q : List Micro} (hp : Feeds n p g) (hq : Feeds n q g') : Feeds n (p ++ q) g' :=
  hp.append hq fun _ h _ => h

theorem Feeds.nil (n : Fed) : Feeds n [] n := fun w h => ⟨w, rfl, .refl w, h⟩

/-- A step that reads no local. -/
theorem Feeds.cons {n g : Fed} {m : Micro} {p : List Micro}
    (hm : ∀ w : Fed, ∃ w', w.after m = some w' ∧ w.Below w') (hp : Feeds n p g) : Feeds n (m :: p) g := by
  intro w h
  obtain ⟨v, e1, l1⟩ := hm w
  obtain ⟨u, e2, l2, k⟩ := hp v (h.trans l1)
  exact ⟨u, by simp only [Fed.track, e1]; exact e2, l1.trans l2, k⟩

variable {c : Config} {n : Fed}

/-- The locals a wait writes. -/
theorem feeds_waitReady : Feeds n (waitReadySeq c) n := by
  intro w h
  refine ⟨{ w with smp := true, polls := true }, rfl, ⟨id, id, fun _ => rfl, id, fun _ => rfl, id, id⟩, ?_⟩
  exact h.trans ⟨id, id, fun _ => rfl, id, fun _ => rfl, id, id⟩

theorem feeds_waitEach (t : Target) : Feeds n (waitEachSeq c t) n := by
  have one : ∀ k, Feeds n (.select k :: waitReadySeq c) n := fun k => .cons (fun w => ⟨w, rfl, .refl w⟩) feeds_waitReady
  unfold waitEachSeq
  refine .seq (g := n) ?_ ?_ <;> split
  · exact one _
  · exact .nil n
  · exact one _
  · exact .nil n

theorem feeds_readByte (rs : Bool) (t : Target) : Feeds n (readByteSeq c rs t) { n with rbv := true } := by
  have h : Feeds n (readPulseSeq c rs t) { n with rbv := true } := by
    intro w h
    refine ⟨{ w with tgt := true, smp := true, rbv := true }, by cases rs <;> rfl,
      ⟨id, fun _ => rfl, fun _ => rfl, fun _ => rfl, id, id, id⟩, ?_⟩
    exact ⟨h.val, fun _ => rfl, fun _ => rfl, fun _ => rfl, h.polls, h.tmp, h.mask⟩
  exact h.append (feeds_waitEach t) fun _ _ k => k

theorem feeds_readData (t : Target) : Feeds n (readDataSeq c t) { n with rbv := true } :=
  (feeds_readByte true t).seq (feeds_readByte true t)

theorem feeds_writeByte {load : Micro} (hl : ∀ w : Fed, n.Below w → w.after load = some { w with val := true }) (t : Target) :
    Feeds n (writeByteSeq c load t) n := by
  have e : writeByteSeq c load t = (load :: .driveVal :: .setTgt t :: .selectTgt :: .delay .settle :: pulseSeq c) ++
      (waitEachSeq c t ++ (.driveZero :: (pulseSeq c ++ [.select .none]))) := by simp [writeByteSeq, selectSeq]
  rw [e]
  have h : Feeds n (load :: .driveVal :: .setTgt t :: .selectTgt :: .delay .settle :: pulseSeq c) n := by
    intro w h
    refine ⟨{ w with val := true, tgt := true }, by simp only [Fed.track, hl w h]; rfl,
      ⟨fun _ => rfl, fun _ => rfl, id, id, id, id, id⟩, ?_⟩
    exact ⟨fun _ => rfl, fun _ => rfl, h.smp, h.rbv, h.polls, h.tmp, h.mask⟩
  have k : Feeds n (.driveZero :: (pulseSeq c ++ [.select .none])) n := fun w h => ⟨w, rfl, .refl w, h⟩
  exact h.seq ((feeds_waitEach t).seq k)

theorem feeds_writeCommand (v : Byte) (t : Target) : Feeds n (writeCommandSeq c v t) n := by
  have h : Feeds n (.ctrlClear c.mE :: .setTgt t :: .selectTgt :: [.ctrlClear (c.mRS ||| c.mRW)]) n := fun w h =>
    ⟨{ w with tgt := true }, rfl, ⟨id, fun _ => rfl, id, id, id, id, id⟩, h.trans ⟨id, fun _ => rfl, id, id, id, id, id⟩⟩
  exact h.seq (feeds_writeByte (load := .setVal v) (fun _ _ => rfl) t)

theorem feeds_writeData {load : Micro} (hl : ∀ w : Fed, n.Below w → w.after load = some { w with val := true }) (t : Target) :
    Feeds n (writeDataSeq c load t) n := by
  have h : Feeds n (.ctrlClear c.mE :: .setTgt t :: .selectTgt :: .ctrlSet c.mRS :: [.ctrlClear c.mRW]) n := fun w h =>
    ⟨{ w with tgt := true }, rfl, ⟨id, fun _ => rfl, id, id, id, id, id⟩, h.trans ⟨id, fun _ => rfl, id, id, id, id, id⟩⟩
  exact h.seq (feeds_writeByte hl t)

theorem feeds_pixel (x y : Nat) (on : Bool) : Feeds n (pixelSeq c x y on) n := by
  let t := (pixCtl x).target
  let m : Fed := { n with mask := true }
  let r : Fed := { m with rbv := true }
  let k : Fed := { r with tmp := true }
  have h1 : Feeds n [.setPixel (pixPage y) (pixMask y on) t (pixCol x)] m := fun w h =>
    ⟨{ w with mask := true }, rfl, ⟨id, id, id, id, id, id, fun _ => rfl⟩,
      ⟨h.val, h.tgt, h.smp, h.rbv, h.polls, h.tmp, fun _ => rfl⟩⟩
  have h2 : Feeds r [.tmpRbv] k := fun w h =>
    ⟨{ w with tmp := true }, by simp [Fed.track, Fed.after, h.rbv rfl], ⟨id, id, id, id, id, fun _ => rfl, id⟩,
      ⟨h.val, h.tgt, h.smp, h.rbv, h.polls, fun _ => rfl, h.mask⟩⟩
  have h3 : Feeds k [.combine on] k := fun w h =>
    ⟨w, by simp [Fed.track, Fed.after, h.tmp rfl, h.mask rfl], .refl w, h⟩
  have h4 : Feeds k (writeDataSeq c .setValTmp t) k :=
    feeds_writeData (fun w h => by simp [Fed.after, h.tmp rfl]) t
  have hw : ∀ {n : Fed} v, Feeds n (writeCommandSeq c v t) n := fun v => feeds_writeCommand v t
  have e : pixelSeq c x y on = [.setPixel (pixPage y) (pixMask y on) t (pixCol x)] ++
      (writeCommandSeq c (setAddressCmd c (pixCol x)) t ++ (writeCommandSeq c (setPageCmd c (pixPage y)) t ++
      (readDataSeq c t ++ ([.tmpRbv] ++ (writeCommandSeq c (setAddressCmd c (pixCol x)) t ++
      ([.combine on] ++ writeDataSeq c .setValTmp t)))))) := by simp [pixelSeq, t]
  have id' : ∀ {a : Fed} (w : Fed), a.Below w → a.Below w → a.Below w := fun _ h _ => h
  have tail : Feeds m (readDataSeq c t ++ ([.tmpRbv] ++ (writeCommandSeq c (setAddressCmd c (pixCol x)) t ++
      ([.combine on] ++ writeDataSeq c .setValTmp t)))) k :=
    (feeds_readData t).append (h2.append ((hw _).append (h3.append h4 id') id') fun _ _ h => h) fun _ _ h => h
  rw [e]
  refine (h1.append ((hw _).append ((hw _).append tail id') id') fun _ _ h => h).less ?_
  exact ⟨id, id, id, fun _ => rfl, id, fun _ => rfl, fun _ => rfl⟩

theorem feeds_clearColumns : ∀ k j, Feeds n (clearColumnsSeq c k j) n
  | 0, _ => .nil n
  | k + 1, j => (feeds_writeData (load := .setVal 0x00) (fun _ _ => rfl) .both).seq
      (.cons (fun w => ⟨w, rfl, .refl w⟩) (feeds_clearColumns k (j + 1)))

theorem feeds_clearPages : ∀ k p, Feeds n (clearPagesSeq c k p) n
  | 0, _ => .nil n
  | k + 1, p => (((feeds_writeCommand _ .both).seq (feeds_writeCommand _ .both)).seq
      (.cons (fun w => ⟨w, rfl, .refl w⟩) (feeds_clearColumns _ 0))).seq
      (.cons (fun w => ⟨w, rfl, .refl w⟩) (feeds_clearPages k (p + 1)))

theorem feeds_init : Feeds n (initSeq c) n := by
  have hw : ∀ v, Feeds n (writeCommandSeq c v .both) n := fun v => feeds_writeCommand v .both
  refine Feeds.seq (.seq (.seq (.seq (.seq (.seq (g := n) (fun w h => ⟨w, rfl, .refl w, h⟩) (hw _)) (hw _)) (hw _)) (hw _))
    (hw _)) (fun w h => ⟨w, rfl, .refl w, h⟩)

/-- Every operation writes each local before it reads it (R30). -/
theorem feeds_prog (i : Instr) : ∃ w, Fed.nothing.track (progOf c i) = some w := by
  have of : ∀ {p : List Micro} {g : Fed}, Feeds Fed.nothing p g → ∃ w, Fed.nothing.track p = some w := fun h => by
    obtain ⟨w, e, -⟩ := h Fed.nothing (.refl _)
    exact ⟨w, e⟩
  have res : ∀ {p : List Micro}, Feeds Fed.nothing p { Fed.nothing with rbv := true } →
      ∃ w, Fed.nothing.track (p ++ [.setResult]) = some w := fun h => by
    obtain ⟨w, e, -, k⟩ := h Fed.nothing (.refl _)
    exact ⟨w, by rw [Fed.track_append, e]; simp [Fed.track, Fed.after, k.rbv rfl]⟩
  cases i
  case init => exact of (feeds_init (n := Fed.nothing))
  case clr => exact of (.cons (fun w => ⟨w, rfl, .refl w⟩) (feeds_clearPages _ _))
  case pix x y on =>
    show ∃ w, Fed.nothing.track (if pixInRange x y then pixelSeq c x y on else []) = some w
    split
    · exact of (feeds_pixel x y on)
    · exact ⟨_, rfl⟩
  case rdb t rs => exact res (feeds_readByte rs t)
  case rdd t => exact res (feeds_readData t)
  case wrb v t => exact of (feeds_writeByte (load := .setVal v) (fun _ _ => rfl) t)
  case wrc v t => exact of (feeds_writeCommand v t)
  case wrd v t => exact of (feeds_writeData (load := .setVal v) (fun _ _ => rfl) t)
  all_goals exact ⟨_, rfl⟩

/-! ## Runs from other locals -/

/-- Other operation-local registers. -/
def State.localsOf (l : Locals) (s : State) : State := { s with loc := l }

/-- `l` holds what `k` holds in every local that is written; POLLS counts only where POLL_LIMIT is finite (R30). -/
structure Fed.Agree (w : Fed) (c : Config) (k l : Locals) : Prop where
  val : w.val = true → l.val = k.val
  tgt : w.tgt = true → l.tgt = k.tgt
  smp : w.smp = true → l.smp = k.smp
  rbv : w.rbv = true → l.rbv = k.rbv
  polls : w.polls = true → c.pollLimit ≠ none → l.polls = k.polls
  tmp : w.tmp = true → l.tmp = k.tmp
  mask : w.mask = true → l.mask = k.mask

/-- The two states differ in their locals only, and those the steps still to be executed read before they write them are
the same. -/
def LocalsApart (s t : State) : Prop :=
  ∃ (w v : Fed) (l : Locals), t = s.localsOf l ∧ w.Agree s.cfg s.loc l ∧ w.track s.seq = some v

variable {l : Locals} {s : State} {w w' : Fed}

theorem localsOf_arrive (s : State) (l : Locals) : (s.localsOf l).arrive = s.arrive.localsOf l :=
  (around_arrive (q := s.seq) (l := s.host) (k := l) s).trans (by
    have h1 : s.arrive.seq = s.seq := by simp
    have h2 : s.arrive.host = s.host := by simp
    unfold State.around State.localsOf; rw [← h1, ← h2])

theorem localsOf_updateCtrl (e : EnvSlot) (v : Byte) (s : State) (l : Locals) :
    updateCtrl e v (s.localsOf l) = (updateCtrl e v s).localsOf l :=
  (around_updateCtrl (q := s.seq) (l := s.host) (k := l) e v s).trans (by
    have h1 : (updateCtrl e v s).seq = s.seq := by simp
    have h2 : (updateCtrl e v s).host = s.host := by simp
    unfold State.around State.localsOf; rw [← h1, ← h2])

theorem localsOf_engineReset (e : EnvSlot) (s : State) (l : Locals) :
    engineReset e (s.localsOf l) = engineReset e s :=
  (around_engineReset (q := s.seq) (l := s.host) (k := l) e s).trans (by
    have h : (engineReset e s).host = s.host := by simp [engineReset]
    unfold State.hosted; rw [← h])

/-- What a step of a sequence does from other locals: the same where an EngineReset strikes or a wait fails, else the same
but for the locals, which still agree where they are written; `b` is STATUS before it. -/
inductive Apart (b : Byte) (w' : Fed) (m : Micro) (rest : List Micro) : Flow → Flow → Prop where
  | same (t : State) : Apart b w' m rest (.stop t) (.stop t)
  | left (t : State) (k : Locals) (h : w'.Agree t.cfg t.loc k) (hb : t.status = b)
      (hs : t.seq = rest ∨ t.seq = [] ∨ (m = .test ∧ t.seq = pollBody t.cfg ++ .test :: rest)) :
      Apart b w' m rest (.stop t) (.stop (t.localsOf k))
  | on (t : State) (k : Locals) (h : w'.Agree t.cfg t.loc k) (hb : t.status = b) :
      Apart b w' m rest (.go t) (.go (t.localsOf k))

/-- A primitive from other locals; `k` is what they are after it. -/
theorem primitive_apart {p p' : EnvSlot → State → State} {m : Micro} {rest : List Micro} {k : Locals}
    (h : p' s.slot (s.arrive.localsOf l) = (p s.slot s.arrive).localsOf k)
    (ha : w'.Agree (p s.slot s.arrive).cfg (p s.slot s.arrive).loc k) (hb : (p s.slot s.arrive).status = s.status) :
    Apart s.status w' m rest (primitive p rest s) (primitive p' rest (s.localsOf l)) := by
  have e : primitive p' rest (s.localsOf l) = if s.slot.reset = true then .stop (engineReset s.slot s.arrive)
      else if (p s.slot s.arrive).protoFault.isSome = true then .stop ({ p s.slot s.arrive with seq := rest }.localsOf k)
      else .go ((p s.slot s.arrive).localsOf k) := by
    have h1 : envMoves s.slot { s.localsOf l with env := s.env.tail } = s.arrive.localsOf l := localsOf_arrive s l
    unfold primitive
    show (if s.slot.reset = true then Flow.stop (engineReset s.slot (envMoves s.slot { s.localsOf l with env := s.env.tail }))
      else if (p' s.slot (envMoves s.slot { s.localsOf l with env := s.env.tail })).protoFault.isSome = true then
        Flow.stop { p' s.slot (envMoves s.slot { s.localsOf l with env := s.env.tail }) with seq := rest }
      else Flow.go (p' s.slot (envMoves s.slot { s.localsOf l with env := s.env.tail }))) = _
    rw [h1, h, localsOf_engineReset]
    rfl
  rw [e]
  unfold primitive
  show Apart s.status w' m rest (if s.slot.reset = true then .stop (engineReset s.slot s.arrive)
    else if (p s.slot s.arrive).protoFault.isSome = true then .stop { p s.slot s.arrive with seq := rest }
    else .go (p s.slot s.arrive)) _
  split
  · exact .same _
  · split
    · exact .left _ k ha hb (.inl rfl)
    · exact .on _ k ha hb

theorem Fed.Agree.as {c d : Config} {k j : Locals} (h : w.Agree c k l) (hc : d = c) (hk : j = k) : w.Agree d j l := by
  subst hc hk; exact h

theorem countPoll_localsOf (s : State) (l : Locals) : countPoll (s.localsOf l) =
    (countPoll s).localsOf (match s.cfg.pollLimit with | .none => l | some _ => { l with polls := l.polls + 1 }) := by
  unfold countPoll State.localsOf
  cases h : s.cfg.pollLimit <;> simp [h]

/-- One step of a sequence from other locals, those it reads being the same (R30). -/
theorem micro_apart (A : w.Agree s.cfg s.loc l) {m : Micro} (h : w.after m = some w') (rest : List Micro) :
    Apart s.status w' m rest (micro m rest s) (micro m rest (s.localsOf l)) := by
  have keep : ∀ (p : EnvSlot → State → State), (∀ e u, p e (u.localsOf l) = (p e u).localsOf l) →
      (∀ e u, (p e u).cfg = u.cfg ∧ (p e u).loc = u.loc ∧ (p e u).status = u.status) → w.after m = some w →
      micro m rest s = primitive p rest s → micro m rest (s.localsOf l) = primitive p rest (s.localsOf l) →
      Apart s.status w' m rest (micro m rest s) (micro m rest (s.localsOf l)) := by
    intro p h1 h2 h3 h4 h5
    rw [h3] at h; cases h
    rw [h4, h5]
    exact primitive_apart (h1 _ _) (A.as ((h2 _ _).1.trans (arrive_cfg s)) ((h2 _ _).2.1.trans (arrive_loc s)))
      ((h2 _ _).2.2.trans (arrive_status s))
  have loc : ∀ f : Locals → Locals, (w'.Agree s.cfg (f s.loc) (f l)) → micro m rest s = assign f s →
      micro m rest (s.localsOf l) = assign f (s.localsOf l) →
      Apart s.status w' m rest (micro m rest s) (micro m rest (s.localsOf l)) := by
    intro f h1 h2 h3
    rw [h2, h3]
    exact .on { s with loc := f s.loc } (f l) h1 rfl
  have ctrl : ∀ (x : Prim) (g : State → Byte), (∀ u, g (u.localsOf l) = g u) → ∀ e u,
      record x (updateCtrl e (g (u.localsOf l)) (u.localsOf l)) = (record x (updateCtrl e (g u) u)).localsOf l := by
    intro x g hg e u
    rw [hg, localsOf_updateCtrl]; rfl
  cases m
  case ctrlSet v =>
    exact keep (ctrlSet v) (ctrl (.ctrlSet v) (fun u => u.ctrl ||| v) fun _ => rfl) (by simp [ctrlSet, record]) rfl rfl rfl
  case ctrlClear v =>
    exact keep (ctrlClear v) (ctrl (.ctrlClear v) (fun u => u.ctrl &&& ~~~v) fun _ => rfl) (by simp [ctrlClear, record]) rfl rfl rfl
  case select t =>
    exact keep (select t) (ctrl (.select t) (fun u => selectCtrl u.cfg t u.ctrl) fun _ => rfl) (by simp [select, record]) rfl rfl rfl
  case selectTgt =>
    simp only [Fed.after] at h
    split at h
    · rename_i ht
      exact keep (select s.loc.tgt) (ctrl (.select s.loc.tgt) (fun u => selectCtrl u.cfg s.loc.tgt u.ctrl) fun _ => rfl)
        (by simp [select, record]) (by simp [Fed.after, ht]) rfl (by simp [micro, State.localsOf, A.tgt ht])
    · cases h
  case setDir d => exact keep (setDir d) (fun _ _ => rfl) (fun _ _ => ⟨rfl, rfl, rfl⟩) rfl rfl rfl
  case driveVal =>
    simp only [Fed.after] at h
    split at h
    · rename_i ht
      exact keep (drive s.loc.val) (fun _ _ => rfl) (fun _ _ => ⟨rfl, rfl, rfl⟩) (by simp [Fed.after, ht]) rfl
        (by simp [micro, State.localsOf, A.val ht])
    · cases h
  case driveZero => exact keep (drive 0x00) (fun _ _ => rfl) (fun _ _ => ⟨rfl, rfl, rfl⟩) rfl rfl rfl
  case delay d => exact keep (delay d) (fun _ _ => rfl) (fun _ _ => ⟨rfl, rfl, rfl⟩) rfl rfl rfl
  case sample =>
    cases h
    refine primitive_apart (p := sample) (p' := sample) (k := { l with smp := s.arrive.sampleValue s.slot }) rfl ?_
      (arrive_status s)
    have B := A.as (arrive_cfg s) (arrive_loc s)
    exact ⟨B.val, B.tgt, fun _ => rfl, B.rbv, B.polls, B.tmp, B.mask⟩
  case test =>
    simp only [Fed.after] at h
    split at h
    · rename_i ht
      cases h
      simp only [Bool.and_eq_true] at ht
      generalize hk : (match s.cfg.pollLimit with | .none => l | some _ => { l with polls := l.polls + 1 }) = k
      have hc : countPoll (s.localsOf l) = (countPoll s).localsOf k := by rw [countPoll_localsOf, hk]
      have B : w.Agree (countPoll s).cfg (countPoll s).loc k := by
        subst hk
        unfold countPoll
        cases hl : s.cfg.pollLimit with
        | none => exact A
        | some n =>
          exact ⟨A.val, A.tgt, A.smp, A.rbv, fun h1 h2 => congrArg (· + 1) (A.polls h1 (by simp [hl])), A.tmp, A.mask⟩
      have hcfg := (countPoll_kept s).cfg
      have hs := (countPoll_kept s).status
      have hsmp : (s.localsOf l).loc.smp = s.loc.smp := A.smp ht.1
      have hcond : (s.cfg.pollLimit = some k.polls) = (s.cfg.pollLimit = some (countPoll s).loc.polls) := by
        cases hl : s.cfg.pollLimit with
        | none => simp
        | some n => rw [B.polls ht.2 (by rw [hcfg, hl]; simp)]
      simp only [micro, pollTest, hc]
      show Apart _ _ _ _ _ (if showsBusy s.cfg.busyMask (s.localsOf l).loc.smp then
        if s.cfg.pollLimit = some k.polls then failWait ((countPoll s).localsOf k) else loopPoll rest ((countPoll s).localsOf k)
        else .go ((countPoll s).localsOf k))
      rw [hsmp]
      simp only [hcond]
      split
      · split
        · have P : Apart s.status w (.setDir .output) [] (primitive (setDir .output) [] (countPoll s)) (primitive (setDir .output) []
              ((countPoll s).localsOf k)) :=
            hs ▸ primitive_apart (p := setDir .output) (p' := setDir .output) rfl (B.as (arrive_cfg _) (arrive_loc _))
              (arrive_status (countPoll s))
          unfold failWait
          generalize primitive (setDir .output) [] (countPoll s) = f at P
          generalize primitive (setDir .output) [] ((countPoll s).localsOf k) = g at P
          cases P with
          | same t => exact .same t
          | left t j hj hb hs =>
            refine .left t j hj hb (.inr ?_)
            rcases hs with h | h | ⟨h, -⟩
            · exact .inl h
            · exact .inl h
            · cases h
          | on t j hj _ => exact .same _
        · exact .left { countPoll s with seq := _ } k B hs (.inr (.inr ⟨rfl, rfl⟩))
      · exact .on _ k B hs
    · cases h
  case setVal v => cases h; exact loc (fun l => { l with val := v }) ⟨fun _ => rfl, A.tgt, A.smp, A.rbv, A.polls, A.tmp, A.mask⟩ rfl rfl
  case setValTmp =>
    simp only [Fed.after] at h
    split at h
    · rename_i ht
      cases h
      exact loc (fun l => { l with val := l.tmp }) ⟨fun _ => A.tmp ht, A.tgt, A.smp, A.rbv, A.polls, A.tmp, A.mask⟩ rfl rfl
    · cases h
  case setTgt t => cases h; exact loc (fun l => { l with tgt := t }) ⟨A.val, fun _ => rfl, A.smp, A.rbv, A.polls, A.tmp, A.mask⟩ rfl rfl
  case latchRbv =>
    simp only [Fed.after] at h
    split at h
    · rename_i ht
      cases h
      exact loc (fun l => { l with rbv := l.smp }) ⟨A.val, A.tgt, A.smp, fun _ => A.smp ht, A.polls, A.tmp, A.mask⟩ rfl rfl
    · cases h
  case pollsZero =>
    cases h
    by_cases hl : s.cfg.pollLimit = .none
    · exact loc (fun l => l) ⟨A.val, A.tgt, A.smp, A.rbv, fun _ h => absurd hl h, A.tmp, A.mask⟩
        (by simp [micro, hl, assign]) (by simp [micro, hl, assign, State.localsOf])
    · exact loc (fun l => { l with polls := 0 }) ⟨A.val, A.tgt, A.smp, A.rbv, fun _ _ => rfl, A.tmp, A.mask⟩
        (by simp [micro, hl]) (by simp [micro, hl, State.localsOf])
  case setPixel page mask ctlr col =>
    cases h
    exact loc (fun l => { l with page := page, mask := mask, ctlr := ctlr, col := col })
      ⟨A.val, A.tgt, A.smp, A.rbv, A.polls, A.tmp, fun _ => rfl⟩ rfl rfl
  case tmpRbv =>
    simp only [Fed.after] at h
    split at h
    · rename_i ht
      cases h
      exact loc (fun l => { l with tmp := l.rbv }) ⟨A.val, A.tgt, A.smp, A.rbv, A.polls, fun _ => A.rbv ht, A.mask⟩ rfl rfl
    · cases h
  case combine on =>
    simp only [Fed.after] at h
    split at h
    · rename_i ht
      cases h
      simp only [Bool.and_eq_true] at ht
      exact loc (fun l => { l with tmp := pixCombine on l.tmp l.mask })
        ⟨A.val, A.tgt, A.smp, A.rbv, A.polls, fun _ => by rw [A.tmp ht.1, A.mask ht.2], A.mask⟩ rfl rfl
    · cases h
  case setPg x => cases h; exact loc (fun l => { l with pg := x }) ⟨A.val, A.tgt, A.smp, A.rbv, A.polls, A.tmp, A.mask⟩ rfl rfl
  case setCn x => cases h; exact loc (fun l => { l with cn := x }) ⟨A.val, A.tgt, A.smp, A.rbv, A.polls, A.tmp, A.mask⟩ rfl rfl
  case setResult =>
    simp only [Fed.after] at h
    split at h
    · rename_i ht
      cases h
      have e : micro .setResult rest (s.localsOf l) = .go ({ s with result := s.loc.rbv }.localsOf l) := by
        show Flow.go { s.localsOf l with result := l.rbv } = _
        rw [A.rbv ht]; rfl
      rw [e]
      exact .on { s with result := s.loc.rbv } l A rfl
    · cases h

/-- A run from other locals, those it reads being the same: it ends in the same state, or in progress, apart in its locals
only (R30). -/
theorem runSeq_apart {p : List Micro} {v : Fed} (A : w.Agree s.cfg s.loc l) (h : w.track p = some v) :
    runSeq p (s.localsOf l) = runSeq p s ∨
      ((runSeq p s).status = s.status ∧ LocalsApart (runSeq p s) (runSeq p (s.localsOf l))) := by
  induction p generalizing w s l with
  | nil => exact .inl rfl
  | cons m rest ih =>
    simp only [Fed.track] at h
    obtain ⟨u, hu, hv⟩ := Option.bind_eq_some_iff.mp h
    have M := micro_apart A hu rest
    unfold runSeq
    generalize s.status = b at M ⊢
    generalize micro m rest s = f at M
    generalize micro m rest (s.localsOf l) = g at M
    cases M with
    | same t => exact .inl rfl
    | on t k hk hb => exact hb ▸ ih hk hv
    | left t k hk hb hs =>
      refine .inr ⟨hb, u, ?_⟩
      rcases hs with hs | hs | ⟨rfl, hs⟩
      · exact ⟨v, k, rfl, hk, by rw [hs]; exact hv⟩
      · exact ⟨u, k, rfl, hk, by rw [hs]; rfl⟩
      · refine ⟨v, k, rfl, hk, ?_⟩
        simp only [Fed.after] at hu
        split at hu
        · rename_i ht
          cases hu
          have e : ∀ d : Config, w.track (pollBody d ++ .test :: rest) = { w with smp := true }.track (.test :: rest) :=
            fun _ => rfl
          have hw : { w with smp := true } = w := by
            simp only [Bool.and_eq_true] at ht
            cases w; simp_all
          rw [hs, e, hw]
          simp only [Fed.track, Fed.after, ht, if_true, Option.bind_some]
          exact hv
        · cases hu

/-- A step of an operation in progress, from other locals. -/
theorem step_apart {s t s' : State} (h : LocalsApart s t) (hi : s.idle = false) (hs : step s = .next s') :
    ∃ t', step t = .next t' ∧ (t' = s' ∨ (s'.idle = false ∧ LocalsApart s' t')) := by
  obtain ⟨w, v, l, rfl, A, ht⟩ := h
  unfold step at hs ⊢
  split at hs
  · cases hs
  · rename_i hf
    rw [if_neg (by simp [hi])] at hs
    cases hs
    have hf' : (s.localsOf l).protoFault = .none := hf
    have hi' : ¬(s.localsOf l).idle = true := by rw [show (s.localsOf l).idle = s.idle from rfl, hi]; simp
    rw [hf', if_neg hi']
    exact ⟨_, rfl, (runSeq_apart A ht).imp_right fun h => ⟨(congrArg (·.getLsbD 0) h.1).trans hi, h.2⟩⟩

end Sys2Proof.Machine
end

