-- ==== Sys2Proof/Laws/Pulses.lean ====
section
/-! SUPPORT. Everything a pulse event can do, busy controllers included, and everything an EngineReset can do
(R58 to R63, R71, R270). -/

namespace Sys2Proof.Machine

theorem commandEffect_withBusy (c : Config) (b : Byte) (x : Controller) (q : Bool) :
    commandEffect c b { x with busy := q } = { commandEffect c b x with busy := q } := by
  unfold commandEffect; repeat' (first | rfl | split)

theorem pulsedCtl_withBusy (c : Config) (k : PulseKind) (b r : Byte) (x : Controller) (q : Bool) :
    pulsedCtl c k b r { x with busy := q } = { pulsedCtl c k b r x with busy := q } := by
  cases k <;> simp [pulsedCtl, commandEffect_withBusy]

/-! ## One controller -/

/-- A controller that the event does not reach. -/
theorem receive_unreached {e : EnvSlot} {p : Pulse} {k : Ctl} {b : Byte} {s : State} (h : p.reaches k = false) :
    receive e p k b s = s := by
  refine receive_ignored ?_
  simp only [Pulse.reaches, Bool.and_eq_false_iff, bne_eq_false_iff_eq] at h
  rcases h with (h | h) | h
  · exact Or.inl h
  · exact Or.inr (Or.inl h)
  · exact Or.inr (Or.inr h)

/-- A busy controller that the event reaches (R71). -/
theorem receive_met {e : EnvSlot} {p : Pulse} {k : Ctl} {b : Byte} {s : State} (h : p.reaches k = true)
    (hb : (s.ctl k).busy = true) : receive e p k b s = protocolFault k p.kind s := by
  simp only [Pulse.reaches, Bool.and_eq_true, bne_iff_ne, ne_eq] at h
  exact receive_busy h.1.1 h.1.2 h.2 hb

/-- What a controller makes of a pulse event, in any state. -/
theorem receive_any (e : EnvSlot) (p : Pulse) (k : Ctl) (b : Byte) (s : State) :
    (∀ j, (receive e p k b s).ctl j = if j = k ∧ (p.reaches k && !(s.ctl k).busy) = true then
      { pulsedCtl s.cfg p.kind b (s.ramByte k (s.ctl k).xp (s.ctl k).ya) (s.ctl k) with busy := e.busyOf k }
      else s.ctl j) ∧
    (∀ j q l, (receive e p k b s).ramByte j q l = if (p.reaches k && !(s.ctl k).busy) = true ∧ p.kind = .dataWrite ∧
      j = k ∧ q = (s.ctl k).xp ∧ l = (s.ctl k).ya then b else s.ramByte j q l) ∧
    (receive e p k b s).protoFault =
      if (p.reaches k && (s.ctl k).busy) = true then some (s.protoFault.getD (k, p.kind)) else s.protoFault := by
  cases h : p.reaches k
  · rw [receive_unreached h]; simp
  · cases hb : (s.ctl k).busy
    · refine ⟨fun j => ?_, fun j q l => ?_, ?_⟩
      · rw [receive_ctl (fun _ => hb), h]; simp
      · rw [receive_ram (fun _ => hb), h]; simp
      · rw [receive_noFault (fun _ => hb)]; simp
    · rw [receive_met h hb]
      refine ⟨fun j => by cases j <;> simp [protocolFault], fun j q l => ?_, rfl⟩
      have : (protocolFault k p.kind s).ramByte j q l = s.ramByte j q l := by cases j <;> rfl
      rw [this]; simp

/-! ## The pulse event -/

/-- A pulse event in any state with no protocol fault yet (R58 to R63, R71). -/
theorem pulseEvent_any (e : EnvSlot) {s : State} (hf : s.protoFault = none) :
    (∀ k, (pulseEvent e s).ctl k = if (s.pulseRecord.reaches k && !(s.ctl k).busy) = true then
      { pulsedCtl s.cfg s.pulseRecord.kind (s.pulseByte e k) (s.ramByte k (s.ctl k).xp (s.ctl k).ya) (s.ctl k) with
        busy := e.busyOf k } else s.ctl k) ∧
    (∀ k q l, (pulseEvent e s).ramByte k q l = if (s.pulseRecord.reaches k && !(s.ctl k).busy) = true ∧
      s.pulseRecord.kind = .dataWrite ∧ q = (s.ctl k).xp ∧ l = (s.ctl k).ya then s.pulseByte e k
      else s.ramByte k q l) ∧
    (pulseEvent e s).protoFault =
      if (s.pulseRecord.reaches .one && s.c1.busy) = true then some (.one, s.pulseRecord.kind)
      else if (s.pulseRecord.reaches .two && s.c2.busy) = true then some (.two, s.pulseRecord.kind)
      else none := by
  let s0 : State := { s with pulses := s.pulseRecord :: s.pulses, draws := s.draws + 2 }
  let s1 := receive e s.pulseRecord .one (s.pulseByte e .one) s0
  have hp : pulseEvent e s = receive e s.pulseRecord .two (s.pulseByte e .two) s1 := rfl
  have c0 : ∀ k, s0.ctl k = s.ctl k := fun k => by cases k <;> rfl
  have m0 : ∀ k q l, s0.ramByte k q l = s.ramByte k q l := fun k q l => by cases k <;> rfl
  obtain ⟨a1, a2, a3⟩ := receive_any e s.pulseRecord .one (s.pulseByte e .one) s0
  obtain ⟨b1, b2, b3⟩ := receive_any e s.pulseRecord .two (s.pulseByte e .two) s1
  have k2 : s1.ctl .two = s.ctl .two := by rw [a1, if_neg (by simp)]; exact c0 _
  have r2 : ∀ q l, s1.ramByte .two q l = s.ramByte .two q l := fun q l => by rw [a2, if_neg (by simp)]; exact m0 _ _ _
  have cfg1 : s1.cfg = s.cfg := receive_cfg' ..
  refine ⟨fun k => ?_, fun k q l => ?_, ?_⟩
  · cases k
    · rw [hp, b1, if_neg (by simp), a1, c0, m0]; simp [s0]
    · rw [hp, b1, k2, r2, cfg1]; simp
  · cases k
    · rw [hp, b2, if_neg (by simp), a2, c0, m0]; simp
    · rw [hp, b2, k2, r2]; simp
  · rw [hp, b3, k2, a3, c0]
    have : s0.protoFault = none := hf
    rw [this]
    simp only [ctl_one, ctl_two]
    by_cases g1 : (s.pulseRecord.reaches .one && s.c1.busy) = true <;>
      by_cases g2 : (s.pulseRecord.reaches .two && s.c2.busy) = true <;> simp [g1, g2]

/-- The pulse event reaches the controllers it is offered to (R58, R63, R72). -/
theorem reaches_offers (s : State) (k : Ctl) : s.pulseRecord.reaches k = s.offers k := by
  have h1 : s.pulseRecord.selects k = s.selected k := by cases k <;> rfl
  have h2 : s.pulseRecord.rst = s.flagRST := rfl
  have h3 : s.pulseRecord.rs = s.flagRS := rfl
  have h4 : s.pulseRecord.rw = s.flagRW := rfl
  simp only [Pulse.reaches, State.offers, h1, h2, Pulse.kind, h3, h4]
  cases s.flagRW <;> cases s.flagRS <;> simp

theorem kind_dataWrite (s : State) : s.pulseRecord.kind = .dataWrite ↔ s.flagRS = true ∧ s.flagRW = false := by
  have h3 : s.pulseRecord.rs = s.flagRS := rfl
  have h4 : s.pulseRecord.rw = s.flagRW := rfl
  simp only [Pulse.kind, h3, h4]
  cases s.flagRW <;> cases s.flagRS <;> simp

theorem arrive_pulseByte (s : State) (k : Ctl) : s.arrive.pulseByte s.slot k = s.pulseByte s.slot k := by
  cases k <;> simp [State.pulseByte]

/-- The pulse event of `s` made after the environment's moves of its slot (R58, R63, R71). -/
theorem pulseEvent_arrive {s : State} (hf : s.protoFault = none) :
    (∀ k, (pulseEvent s.slot s.arrive).ctl k = if s.meetsBusy k then s.ctl k
      else if s.offers k then
        { pulsedCtl s.cfg s.pulseRecord.kind (s.pulseByte s.slot k) (s.ramByte k (s.ctl k).xp (s.ctl k).ya) (s.ctl k) with
          busy := s.slot.busyOf k }
      else { s.ctl k with busy := (s.ctl k).busy && !s.slot.readyOf k }) ∧
    (∀ k q l, (pulseEvent s.slot s.arrive).ramByte k q l = if (s.offers k && !s.meetsBusy k) = true ∧
      s.pulseRecord.kind = .dataWrite ∧ q = (s.ctl k).xp ∧ l = (s.ctl k).ya then s.pulseByte s.slot k
      else s.ramByte k q l) ∧
    (pulseEvent s.slot s.arrive).protoFault = s.metFault := by
  obtain ⟨h1, h2, h3⟩ := pulseEvent_any s.slot (s := s.arrive) (by simpa using hf)
  simp only [arrive_pulseRecord, reaches_offers, arrive_ctl, arrive_ram, arrive_cfg, arrive_pulseByte] at h1 h2 h3
  have b1 : s.arrive.c1.busy = ((s.ctl .one).busy && !s.slot.readyOf .one) := congrArg Controller.busy (arrive_ctl s .one)
  have b2 : s.arrive.c2.busy = ((s.ctl .two).busy && !s.slot.readyOf .two) := congrArg Controller.busy (arrive_ctl s .two)
  refine ⟨fun k => ?_, fun k q l => ?_, ?_⟩
  · rw [h1]
    simp only [State.meetsBusy, pulsedCtl_withBusy]
    cases ho : s.offers k <;> cases hb : (s.ctl k).busy <;> cases hr : s.slot.readyOf k <;> simp
    rw [← hb]
  · have : (s.offers k && !((s.ctl k).busy && !s.slot.readyOf k)) = (s.offers k && !s.meetsBusy k) := by
      simp only [State.meetsBusy]
      cases s.offers k <;> cases (s.ctl k).busy <;> cases s.slot.readyOf k <;> rfl
    rw [h2, this]
  · rw [h3, b1, b2]; simp only [State.metFault, State.meetsBusy, Bool.and_assoc]

theorem metFault_isSome (s : State) : s.metFault.isSome = s.hitsBusy := by
  simp only [State.metFault, State.hitsBusy]
  cases s.meetsBusy .one <;> cases s.meetsBusy .two <;> rfl

/-! ## EngineReset (R270, R271) -/

/-- What an EngineReset that strikes in place of a primitive leaves beside the engine's registers (R270, R271). -/
structure Struck (s t : State) : Prop where
  ctrl : t.ctrl = 0x00
  dout : t.dout = 0x00
  dir : t.dir = .output
  status : t.status = 0x01
  result : t.result = 0x00
  seq : t.seq = []
  cfg : t.cfg = s.cfg
  host : t.host = s.host
  trace : t.trace = s.trace
  env : t.env = s.env.tail
  pulses : t.pulses = if s.flagE then s.pulseRecord :: s.pulses else s.pulses
  fault : t.protoFault = if s.flagE then s.metFault else none
  ctl : ∀ k, t.ctl k = if s.flagE then (pulseEvent s.slot s.arrive).ctl k else s.arrive.ctl k
  ram : ∀ k q l, t.ramByte k q l = if s.flagE then (pulseEvent s.slot s.arrive).ramByte k q l else s.ramByte k q l

theorem engineReset_struck {s : State} (hf : s.protoFault = none) : Struck s (engineReset s.slot s.arrive) := by
  have hR := zero_keeps_RST s.arrive
  have hE : (s.arrive.flagE && !flagIn 0x00 s.arrive.cfg.mE) = s.flagE := by simp [flagIn_zero]
  cases he : s.flagE
  · have hu : updateCtrl s.slot 0x00 s.arrive = { s.arrive with ctrl := 0x00 } := updateCtrl_quiet (hE.trans he) hR
    unfold engineReset
    rw [hu]
    constructor <;> try (simp [he]; done)
    · simpa [he] using hf
    · intro k; rw [he]; cases k <;> rfl
    · intro k q l; rw [he]
      simp only [Bool.false_eq_true, if_false]
      rw [← arrive_ram s k q l]; cases k <;> rfl
  · have hu : updateCtrl s.slot 0x00 s.arrive = { pulseEvent s.slot s.arrive with ctrl := 0x00 } :=
      updateCtrl_falls (hE.trans he) hR
    unfold engineReset
    rw [hu]
    constructor <;> try (simp [he]; done)
    · rw [he]; exact (pulseEvent_arrive hf).2.2
    · intro k; rw [he]; cases k <;> rfl
    · intro k q l; rw [he]; cases k <;> rfl

/-- `CtrlClear(M_E)` as the first primitive of an operation, unless it meets a busy controller (R71): everything it does
(R287 (a)). -/
theorem clearE_cleared (i : Instr) {s : State} (w : s.cfg.wf = true) (h : (s.flagE && s.hitsBusy) = false) :
    Cleared s.slot s.cfg.mE (accept i s).arrive (ctrlClear s.cfg.mE s.slot (accept i s).arrive) := by
  have hc : (accept i s).arrive.cfg = s.cfg := arrive_cfg _
  have hp : (accept i s).arrive.pulseRecord = s.pulseRecord := arrive_pulseRecord (accept i s)
  refine ctrlClear_effect (by rw [hc]; exact w) fun he k hk => ?_
  rw [show (accept i s).arrive.flagE = s.flagE from arrive_flagE _, Bool.and_eq_true] at he
  rw [hp, reaches_offers] at hk
  rw [he.1, Bool.true_and, State.hitsBusy, Bool.or_eq_false_iff] at h
  have hb : s.meetsBusy k = false := by cases k; exact h.1; exact h.2
  rw [show (accept i s).arrive.ctl k = _ from arrive_ctl (accept i s) k, ctl_accept]
  show ((s.ctl k).busy && !s.slot.readyOf k) = false
  simpa [State.meetsBusy, hk] using hb

end Sys2Proof.Machine
end

