-- ==== Sys2Proof/Laws/Patience.lean ====
section
/-! SUPPORT. A run whose controllers take their time, beside the same run with controllers ready at once (R172): step
by step the two are alike but for the busy flags and the extra polls. -/

namespace Sys2Proof.Machine

/-- Which of SMP, RBV and RESULT are the same in two runs. -/
structure Same where
  smp : Bool
  rbv : Bool
  result : Bool
  deriving DecidableEq, Repr

/-- … after one step of a sequence: a sample is the same where one controller's latch answers it (R62, R63). A TMP that
is not the same stops the account. -/
def Same.after (w : Watch) (q : Same) : Micro → Option Same
  | .sample => some { q with smp := w.dir == .input && w.e && w.rw && w.rs && (w.only1 || w.only2) }
  | .test => some { q with smp := false }
  | .latchRbv => some { q with rbv := q.smp }
  | .tmpRbv => if q.rbv then some q else none
  | .setResult => some { q with result := q.rbv }
  | _ => some q

/-- … and after a sequence. -/
def Same.track (c : Config) : Watch → Same → List Micro → Option Same
  | _, q, [] => some q
  | w, q, m :: rest => (w.after c m).bind fun w' => (q.after w m).bind fun q' => Same.track c w' q' rest

variable {c : Config} {q q' : Same} {k : Nat} {a b : State}

/-! ## Two runs, `k` extra polls apart -/

/-- `a` ran with controllers ready at once and nothing left of its environment, `b` made `k` extra polls (R172). -/
structure Alike (q : Same) (k : Nat) (a b : State) : Prop where
  cfg : b.cfg = a.cfg
  ctrl : b.ctrl = a.ctrl
  dout : b.dout = a.dout
  dir : b.dir = a.dir
  status : b.status = a.status
  req : b.req = a.req
  host : b.host = a.host
  val : b.loc.val = a.loc.val
  tmp : b.loc.tmp = a.loc.tmp
  mask : b.loc.mask = a.loc.mask
  tgt : b.loc.tgt = a.loc.tgt
  smp : q.smp = true → b.loc.smp = a.loc.smp
  rbv : q.rbv = true → b.loc.rbv = a.loc.rbv
  result : q.result = true → b.result = a.result
  draws : k = 0 → b.draws = a.draws
  ctl : ∀ j, b.ctl j = { a.ctl j with busy := (b.ctl j).busy }
  ready : ∀ j, (a.ctl j).busy = false
  ram : sameRam a b
  acting : acting b.pulses = acting a.pulses
  pulses : b.pulses.length = a.pulses.length + k
  trace : b.trace.length = a.trace.length + 5 * k
  env : a.env = []
  fault : a.protoFault = none
  busy : a.idle = false

theorem Alike.flag (A : Alike q k a b) (m : Config → Byte) : flagIn b.ctrl (m b.cfg) = flagIn a.ctrl (m a.cfg) := by
  rw [A.cfg, A.ctrl]

theorem Alike.pulseRecord (A : Alike q k a b) : b.pulseRecord = a.pulseRecord := by
  simp only [State.pulseRecord, State.flagCS1, State.flagCS2, State.flagRST, State.flagRS, State.flagRW, A.cfg, A.ctrl,
    A.dir, A.dout]

/-- A change of the same registers in both. -/
theorem Alike.congr {a' b' : State} (A : Alike q k a b) (h1 : b'.cfg = a'.cfg) (h2 : b'.ctrl = a'.ctrl)
    (h3 : b'.dout = a'.dout) (h4 : b'.dir = a'.dir) (h5 : a'.status = a.status) (h6 : b'.status = b.status)
    (h7 : b'.req = a'.req) (h8 : b'.host = a'.host) (h9 : b'.loc.val = a'.loc.val) (h10 : b'.loc.tmp = a'.loc.tmp)
    (h11 : b'.loc.mask = a'.loc.mask) (h25 : b'.loc.tgt = a'.loc.tgt) (h12 : q'.smp = true → b'.loc.smp = a'.loc.smp)
    (h13 : q'.rbv = true → b'.loc.rbv = a'.loc.rbv) (h14 : q'.result = true → b'.result = a'.result)
    (h15 : ∃ n, a'.draws = a.draws + n ∧ b'.draws = b.draws + n) (h16 : ∀ j, a'.ctl j = a.ctl j)
    (h17 : ∀ j, b'.ctl j = b.ctl j) (h18 : a'.mem = a.mem) (h19 : b'.mem = b.mem) (h20 : a'.pulses = a.pulses)
    (h21 : b'.pulses = b.pulses) (h22 : ∃ n, a'.trace.length = a.trace.length + n ∧ b'.trace.length = b.trace.length + n)
    (h23 : a'.env = []) (h24 : a'.protoFault = none) : Alike q' k a' b' where
  cfg := h1
  ctrl := h2
  dout := h3
  dir := h4
  status := by rw [h5, h6]; exact A.status
  req := h7
  host := h8
  val := h9
  tmp := h10
  mask := h11
  tgt := h25
  smp := h12
  rbv := h13
  result := h14
  draws h := by obtain ⟨n, e1, e2⟩ := h15; rw [e1, e2, A.draws h]
  ctl j := by rw [h16, h17]; exact A.ctl j
  ready j := by rw [h16]; exact A.ready j
  ram j p l := by
    have ha : a'.ramByte j p l = a.ramByte j p l := by simp only [State.ramByte, h16, h18]
    have hb : b'.ramByte j p l = b.ramByte j p l := by simp only [State.ramByte, h17, h19]
    rw [ha, hb]; exact A.ram j p l
  acting := by rw [h20, h21]; exact A.acting
  pulses := by rw [h20, h21]; exact A.pulses
  trace := by obtain ⟨n, e1, e2⟩ := h22; rw [e1, e2, A.trace]; omega
  env := h23
  fault := h24
  busy := by unfold State.idle; rw [h5]; exact A.busy

/-- The environment's moves of both. -/
theorem Alike.arrive (A : Alike q k a b) : Alike q k a.arrive b.arrive where
  cfg := by simpa using A.cfg
  ctrl := by simpa using A.ctrl
  dout := by simpa using A.dout
  dir := by simpa using A.dir
  status := by simpa using A.status
  req := by simpa using A.req
  host := by simpa using A.host
  val := by simpa using A.val
  tmp := by simpa using A.tmp
  mask := by simpa using A.mask
  tgt := by simpa using A.tgt
  smp := by simpa using A.smp
  rbv := by simpa using A.rbv
  result := by simpa using A.result
  draws := by simpa using A.draws
  ctl j := by rw [arrive_ctl, arrive_ctl, A.ctl j]
  ready j := by rw [arrive_ctl, A.ready j]; rfl
  ram j p l := by simpa using A.ram j p l
  acting := by simpa using A.acting
  pulses := by simpa using A.pulses
  trace := by simpa using A.trace
  env := by rw [arrive_env, A.env]; rfl
  fault := by simpa using A.fault
  busy := by unfold State.idle; rw [arrive_status]; exact A.busy

/-- The pulse event in both: it reaches ready controllers only, and the engine drives what is written (R58 to R63). -/
theorem Alike.pulseEvent (A : Alike q k a b) (eb : EnvSlot) (hb : ∀ j, b.pulseRecord.reaches j = true → (b.ctl j).busy = false)
    (hd : ∀ j, b.pulseRecord.reaches j = true → b.dir = .output ∨ b.flagRW = true) :
    Alike q k (pulseEvent {} a) (pulseEvent eb b) := by
  obtain ⟨a1, a2, a3⟩ := pulseEvent_effect (e := {}) (s := a) (fun j _ => A.ready j)
  obtain ⟨b1, b2, -⟩ := pulseEvent_effect (e := eb) (s := b) hb
  have hp := A.pulseRecord
  have byte : ∀ j, b.pulseRecord.reaches j = true → b.pulseRecord.kind = .dataRead ∨ b.pulseRecord.kind = .statusRead ∨
      b.pulseByte eb j = a.pulseByte {} j := by
    intro j hj
    rcases hd j hj with h | h
    · right; right
      rw [pulseByte_output _ h, pulseByte_output _ (A.dir ▸ h), A.dout]
    · have : b.pulseRecord.rw = true := h
      simp only [Pulse.kind, this]
      cases b.pulseRecord.rs <;> simp
  have pulsed : ∀ j x y, b.pulseRecord.reaches j = true → x = b.pulseByte eb j → y = a.pulseByte {} j → ∀ r z,
      pulsedCtl b.cfg b.pulseRecord.kind x r z = pulsedCtl b.cfg b.pulseRecord.kind y r z := by
    intro j x y hj hx hy r z
    rcases byte j hj with h | h | h
    · rw [h]; rfl
    · rw [h]; rfl
    · rw [hx, hy, h]
  constructor
  case ctl =>
    intro j
    rw [a1, b1, hp]
    have hp' := hp ▸ pulsed j
    split
    · rename_i hr
      rw [hp' _ _ hr rfl rfl, A.cfg, A.ram, A.ctl j, pulsedCtl_withBusy]
    · exact A.ctl j
  case ready =>
    intro j
    rw [a1]; split
    · cases j <;> rfl
    · exact A.ready j
  case ram =>
    intro j p l
    rw [a2, b2, hp, A.ctl j]
    by_cases h : a.pulseRecord.reaches j = true ∧ a.pulseRecord.kind = .dataWrite ∧ p = (a.ctl j).xp ∧ l = (a.ctl j).ya
    · rw [if_pos h, if_pos h]
      rcases byte j (hp ▸ h.1) with h' | h' | h'
      · rw [hp, h.2.1] at h'; cases h'
      · rw [hp, h.2.1] at h'; cases h'
      · exact h'
    · rw [if_neg h, if_neg h]; exact A.ram j p l
  case acting => simp only [pulseEvent_pulses, acting_cons, hp, A.acting]
  case pulses => simp only [pulseEvent_pulses, List.length_cons, A.pulses]; omega
  case draws =>
    intro h
    have : ∀ e s, (Machine.pulseEvent e s).draws = s.draws + 2 := by intro e s; simp [Machine.pulseEvent]
    rw [this, this, A.draws h]
  case fault => rw [a3]; exact A.fault
  case busy => unfold State.idle; rw [pulseEvent_status]; exact A.busy
  case cfg => simpa using A.cfg
  case ctrl => simpa using A.ctrl
  case dout => simpa using A.dout
  case dir => simpa using A.dir
  case status => simpa using A.status
  case req => simpa using A.req
  case host => simpa using A.host
  case val => simpa using A.val
  case tmp => simpa using A.tmp
  case mask => simpa using A.mask
  case tgt => simpa using A.tgt
  case smp => simpa using A.smp
  case rbv => simpa using A.rbv
  case result => simpa using A.result
  case trace => simpa using A.trace
  case env => simpa using A.env

/-- An update of CTRL in both that releases no reset. -/
theorem Alike.updateCtrl (A : Alike q k a b) (eb : EnvSlot) (v : Byte)
    (hR : (!b.flagRST && flagIn v b.cfg.mRST) = false)
    (hp : (b.flagE && !flagIn v b.cfg.mE) = true → ∀ j, b.pulseRecord.reaches j = true →
      (b.ctl j).busy = false ∧ (b.dir = .output ∨ b.flagRW = true)) :
    Alike q k (updateCtrl {} v a) (updateCtrl eb v b) := by
  have fE : b.flagE = a.flagE := A.flag Config.mE
  have fR : b.flagRST = a.flagRST := A.flag Config.mRST
  have hR' : (!a.flagRST && flagIn v a.cfg.mRST) = false := by rw [← fR, ← A.cfg]; exact hR
  have set : ∀ {x y : State}, Alike q k x y → Alike q k { x with ctrl := v } { y with ctrl := v } := fun B =>
    B.congr B.cfg rfl B.dout B.dir rfl rfl B.req B.host B.val B.tmp B.mask B.tgt B.smp B.rbv B.result ⟨0, rfl, rfl⟩
      (fun j => by cases j <;> rfl) (fun j => by cases j <;> rfl) rfl rfl rfl rfl ⟨0, rfl, rfl⟩ B.env B.fault
  cases h : (b.flagE && !flagIn v b.cfg.mE)
  · rw [updateCtrl_quiet h hR, updateCtrl_quiet (by rw [← fE, ← A.cfg]; exact h) hR']
    exact set A
  · rw [updateCtrl_falls h hR, updateCtrl_falls (by rw [← fE, ← A.cfg]; exact h) hR']
    exact set (A.pulseEvent eb (fun j hj => (hp h j hj).1) (fun j hj => (hp h j hj).2))

theorem Alike.record (A : Alike q k a b) (x y : Prim) : Alike q k (Machine.record x a) (Machine.record y b) :=
  A.congr A.cfg A.ctrl A.dout A.dir rfl rfl A.req A.host A.val A.tmp A.mask A.tgt A.smp A.rbv A.result ⟨0, rfl, rfl⟩
    (fun j => by cases j <;> rfl) (fun j => by cases j <;> rfl) rfl rfl rfl rfl ⟨1, rfl, rfl⟩ A.env A.fault

/-- What a watch that goes on says of a pulse event: it reaches ready controllers only, and the engine drives what is
written. -/
theorem Watch.pulse_reaches {w w' : Watch} {s : State} (f : Follows w s) (h : w.pulse = some w') (j : Ctl)
    (hj : s.pulseRecord.reaches j = true) : (s.ctl j).busy = false ∧ (s.dir = .output ∨ s.flagRW = true) := by
  have h1 : s.pulseRecord.rw = w.rw := f.rw
  have h2 : s.pulseRecord.rs = w.rs := f.rs
  have h3 : s.pulseRecord.rst = w.rst := f.rst
  have hk : s.pulseRecord.kind = .statusRead ↔ (w.rw && !w.rs) = true := by
    simp only [Pulse.kind, h1, h2]; cases w.rw <;> cases w.rs <;> simp
  simp only [Pulse.reaches, Bool.and_eq_true, bne_iff_ne, ne_eq] at hj
  obtain ⟨⟨hsel, hrst⟩, hkind⟩ := hj
  unfold Watch.pulse at h
  rw [if_neg (by simpa [h3 ▸ hrst] using mt hk.mpr hkind)] at h
  split at h
  · cases h
  rename_i hd
  split at h
  · cases h
  rename_i hb
  constructor
  · simp only [Bool.or_eq_true, Bool.and_eq_true, not_or, not_and] at hb
    cases j
    · have hs : w.cs1 = true := (f.cs1.symm.trans hsel)
      cases hy : s.c1.busy
      · exact hy
      · exact absurd (f.busy1 hy) (hb.1 hs)
    · have hs : w.cs2 = true := (f.cs2.symm.trans hsel)
      cases hy : s.c2.busy
      · exact hy
      · exact absurd (f.busy2 hy) (hb.2 hs)
  · rw [f.dir, f.rw]
    cases hd' : w.dir
    · simp
    · right; revert hd; rw [hd']; cases w.rw <;> simp

/-! ## One step of a sequence in both -/

/-- A primitive that goes on in `b` goes on in `a`. -/
theorem Alike.primitive {pa pb : EnvSlot → State → State} {rest : List Micro} {w : Watch} {b' : State}
    (A : Alike q k a b) (G : Going w b) (hb : primitive pb rest b = .go b')
    (hab : Alike q' k (pa {} a.arrive) (pb b.slot b.arrive)) :
    ∃ a', primitive pa rest a = .go a' ∧ Alike q' k a' b' := by
  have hs : a.slot = {} := by unfold State.slot; rw [A.env]; rfl
  refine ⟨pa a.slot a.arrive, primitive_arrive (by simp [State.noResetNow, hs]) (by rw [hs]; exact hab.fault), ?_⟩
  have e : b' = pb b.slot b.arrive := by
    cases hf : (pb b.slot b.arrive).protoFault with
    | none => rw [primitive_arrive (noReset_now G.noReset) hf] at hb; cases hb; rfl
    | some x => rw [primitive_fault (noReset_now G.noReset) (by rw [hf]; rfl)] at hb; cases hb
  rw [e, hs]; exact hab

theorem Alike.sample {w : Watch} (A : Alike q k a b) (f : Follows w b) (e : EnvSlot)
    (h : q.after w .sample = some q') : Alike q' k (sample {} a) (sample e b) := by
  cases h
  refine A.congr A.cfg A.ctrl A.dout A.dir rfl rfl A.req A.host A.val A.tmp A.mask A.tgt (fun h => ?_) A.rbv A.result
    ⟨1, rfl, rfl⟩ (fun j => by cases j <;> rfl) (fun j => by cases j <;> rfl) rfl rfl rfl rfl ⟨1, rfl, rfl⟩ A.env A.fault
  show b.sampleValue e = a.sampleValue {}
  simp only [Watch.only1, Watch.only2, Bool.and_eq_true, beq_iff_eq] at h
  obtain ⟨⟨⟨⟨hd, he⟩, hw⟩, hs⟩, ho⟩ := h
  have key : ∀ j : Ctl, w.cs1 = decide (j = .one) → w.cs2 = decide (j = .two) → w.rst = true →
      b.sampleValue e = a.sampleValue {} := by
    intro j h1 h2 hr
    rw [sampleValue_data e j (f.dir.trans hd) (f.e.trans he) (f.rw.trans hw) (f.rs.trans hs) (f.rst.trans hr)
        (f.cs1.trans h1) (f.cs2.trans h2),
      sampleValue_data {} j (A.dir ▸ f.dir.trans hd) ((A.flag Config.mE).symm.trans (f.e.trans he))
        ((A.flag Config.mRW).symm.trans (f.rw.trans hw)) ((A.flag Config.mRS).symm.trans (f.rs.trans hs))
        ((A.flag Config.mRST).symm.trans (f.rst.trans hr)) ((A.flag Config.mCS1).symm.trans (f.cs1.trans h1))
        ((A.flag Config.mCS2).symm.trans (f.cs2.trans h2)), A.ctl j]
  cases h1 : w.cs1 <;> cases h2 : w.cs2 <;> cases h3 : w.rst <;> simp [h1, h2, h3] at ho
  · exact key .two (by simp [h1]) (by simp [h2]) h3
  · exact key .one (by simp [h1]) (by simp [h2]) h3

/-- A step of a sequence other than a test. -/
theorem micro_alike {w w' : Watch} (A : Alike q k a b) (G : Going w b) {m : Micro} (hm : m ≠ .test) (rest : List Micro)
    (h : w.after b.cfg m = some w') (hq : q.after w m = some q') :
    ∃ a' b', micro m rest a = .go a' ∧ micro m rest b = .go b' ∧ Alike q' k a' b' ∧ Going w' b' := by
  obtain ⟨b', hb, gb, -⟩ := micro_goes G hm rest h
  have fa : Follows w b.arrive := G.follows.envMoves _ _
  have prim : ∀ (pa pb : EnvSlot → State → State), micro m rest a = primitive pa rest a →
      micro m rest b = primitive pb rest b → Alike q' k (pa {} a.arrive) (pb b.slot b.arrive) →
      ∃ a' b', micro m rest a = .go a' ∧ micro m rest b = .go b' ∧ Alike q' k a' b' ∧ Going w' b' := by
    intro pa pb ha hb' hab
    obtain ⟨a', ha', A'⟩ := A.primitive G (hb'.symm.trans hb) hab
    exact ⟨a', b', ha.trans ha', hb, A', gb⟩
  have loc : ∀ f : Locals → Locals, micro m rest a = assign f a → micro m rest b = assign f b →
      (∀ x y : Locals, y.val = x.val → y.tmp = x.tmp → y.mask = x.mask → y.tgt = x.tgt → (q.smp = true → y.smp = x.smp) →
        (q.rbv = true → y.rbv = x.rbv) → (f y).val = (f x).val ∧ (f y).tmp = (f x).tmp ∧ (f y).mask = (f x).mask ∧ (f y).tgt = (f x).tgt ∧
        (q'.smp = true → (f y).smp = (f x).smp) ∧ (q'.rbv = true → (f y).rbv = (f x).rbv)) →
      (q'.result = q.result) → ∃ a' b', micro m rest a = .go a' ∧ micro m rest b = .go b' ∧ Alike q' k a' b' ∧ Going w' b' := by
    intro f ha hb' hf hr
    obtain ⟨f1, f2, f3, f6, f4, f5⟩ := hf a.loc b.loc A.val A.tmp A.mask A.tgt A.smp A.rbv
    have e : b' = { b with loc := f b.loc } := by rw [hb'] at hb; cases hb; rfl
    refine ⟨{ a with loc := f a.loc }, b', ha, hb, ?_, gb⟩
    rw [e]
    exact A.congr A.cfg A.ctrl A.dout A.dir rfl rfl A.req A.host f1 f2 f3 f6 f4 f5 (fun h => A.result (hr ▸ h))
      ⟨0, rfl, rfl⟩ (fun j => by cases j <;> rfl) (fun j => by cases j <;> rfl) rfl rfl rfl rfl ⟨0, rfl, rfl⟩ A.env A.fault
  have B := A.arrive
  cases m
  case ctrlSet m =>
    cases hq
    refine prim _ _ rfl rfl ?_
    have hc : a.arrive.ctrl = b.arrive.ctrl := B.ctrl.symm
    have := (B.updateCtrl b.slot (b.arrive.ctrl ||| m) ?_ ?_).record (.ctrlSet m) (.ctrlSet m)
    · unfold Machine.ctrlSet; rw [hc]; exact this
    · simp only [Watch.after] at h
      split at h
      · cases h
      rename_i hh
      rw [flagIn_or]
      show (!b.arrive.flagRST && (b.arrive.flagRST || _)) = false
      rw [fa.rst, arrive_cfg]; revert hh; cases w.rst <;> simp
    · intro hE; rw [set_keeps_E] at hE; cases hE
  case ctrlClear m =>
    cases hq
    refine prim _ _ rfl rfl ?_
    have hc : a.arrive.ctrl = b.arrive.ctrl := B.ctrl.symm
    have wf : b.arrive.cfg.wf = true := by rw [arrive_cfg]; exact G.wf
    have := (B.updateCtrl b.slot (b.arrive.ctrl &&& ~~~m) (clear_keeps_RST _ wf m) ?_).record (.ctrlClear m) (.ctrlClear m)
    · unfold Machine.ctrlClear; rw [hc]; exact this
    · intro hE
      rw [clear_falls _ wf, fa.e, arrive_cfg] at hE
      simp only [Watch.after, hE, if_true] at h
      obtain ⟨w1, h1, -⟩ := Option.map_eq_some_iff.mp h
      exact fun j hj => Watch.pulse_reaches fa h1 j hj
  case select t =>
    cases hq
    refine prim _ _ rfl rfl ?_
    have hc : a.arrive.ctrl = b.arrive.ctrl := B.ctrl.symm
    have wf : b.arrive.cfg.wf = true := by rw [arrive_cfg]; exact G.wf
    have := (B.updateCtrl b.slot (selectCtrl b.arrive.cfg t b.arrive.ctrl) ?_ ?_).record (.select t) (.select t)
    · unfold Machine.select; rw [hc, ← B.cfg]; exact this
    · rw [flag_select_mRST wf]; show (!b.arrive.flagRST && b.arrive.flagRST) = false; cases b.arrive.flagRST <;> rfl
    · intro hE
      rw [flag_select_mE wf] at hE
      change (b.arrive.flagE && !b.arrive.flagE) = true at hE
      revert hE; cases b.arrive.flagE <;> simp
  case selectTgt =>
    cases hq
    refine prim _ _ rfl rfl ?_
    have hc : a.arrive.ctrl = b.arrive.ctrl := B.ctrl.symm
    have wf : b.arrive.cfg.wf = true := by rw [arrive_cfg]; exact G.wf
    have := (B.updateCtrl b.slot (selectCtrl b.arrive.cfg b.loc.tgt b.arrive.ctrl) ?_ ?_).record (.select b.loc.tgt) (.select b.loc.tgt)
    · unfold Machine.select; rw [hc, ← B.cfg, ← A.tgt]; exact this
    · rw [flag_select_mRST wf]; show (!b.arrive.flagRST && b.arrive.flagRST) = false; cases b.arrive.flagRST <;> rfl
    · intro hE
      rw [flag_select_mE wf] at hE
      change (b.arrive.flagE && !b.arrive.flagE) = true at hE
      revert hE; cases b.arrive.flagE <;> simp
  case setDir d =>
    cases hq
    exact prim _ _ rfl rfl (B.congr B.cfg B.ctrl B.dout rfl rfl rfl B.req B.host B.val B.tmp B.mask B.tgt B.smp B.rbv B.result
      ⟨0, rfl, rfl⟩ (fun j => by cases j <;> rfl) (fun j => by cases j <;> rfl) rfl rfl rfl rfl ⟨1, rfl, rfl⟩ B.env B.fault)
  case driveVal =>
    cases hq
    exact prim _ _ rfl rfl (B.congr B.cfg B.ctrl A.val B.dir rfl rfl B.req B.host B.val B.tmp B.mask B.tgt B.smp B.rbv B.result
      ⟨0, rfl, rfl⟩ (fun j => by cases j <;> rfl) (fun j => by cases j <;> rfl) rfl rfl rfl rfl ⟨1, rfl, rfl⟩ B.env B.fault)
  case driveZero =>
    cases hq
    exact prim _ _ rfl rfl (B.congr B.cfg B.ctrl rfl B.dir rfl rfl B.req B.host B.val B.tmp B.mask B.tgt B.smp B.rbv B.result
      ⟨0, rfl, rfl⟩ (fun j => by cases j <;> rfl) (fun j => by cases j <;> rfl) rfl rfl rfl rfl ⟨1, rfl, rfl⟩ B.env B.fault)
  case delay d =>
    cases hq
    exact prim _ _ rfl rfl (B.record _ _)
  case sample => exact prim _ _ rfl rfl (B.sample fa _ hq)
  case test => exact absurd rfl hm
  case setVal v =>
    cases hq
    exact loc (fun l => { l with val := v }) rfl rfl (fun x y h1 h2 h3 h6 h4 h5 => ⟨rfl, h2, h3, h6, h4, h5⟩) rfl
  case setValTmp =>
    cases hq
    exact loc (fun l => { l with val := l.tmp }) rfl rfl (fun x y h1 h2 h3 h6 h4 h5 => ⟨h2, h2, h3, h6, h4, h5⟩) rfl
  case setTgt t =>
    cases hq
    exact loc (fun l => { l with tgt := t }) rfl rfl (fun x y h1 h2 h3 h6 h4 h5 => ⟨h1, h2, h3, rfl, h4, h5⟩) rfl
  case latchRbv =>
    cases hq
    exact loc (fun l => { l with rbv := l.smp }) rfl rfl (fun x y h1 h2 h3 h6 h4 h5 => ⟨h1, h2, h3, h6, h4, h4⟩) rfl
  case pollsZero =>
    cases hq
    by_cases hl : b.cfg.pollLimit = none
    · have hl' : a.cfg.pollLimit = none := A.cfg ▸ hl
      exact loc (fun l => l) (by simp [micro, hl', assign]) (by simp [micro, hl, assign])
        (fun x y h1 h2 h3 h6 h4 h5 => ⟨h1, h2, h3, h6, h4, h5⟩) rfl
    · have hl' : a.cfg.pollLimit ≠ none := A.cfg ▸ hl
      exact loc (fun l => { l with polls := 0 }) (by simp [micro, hl']) (by simp [micro, hl])
        (fun x y h1 h2 h3 h6 h4 h5 => ⟨h1, h2, h3, h6, h4, h5⟩) rfl
  case setPixel page mask ctlr col =>
    cases hq
    exact loc (fun l => { l with page := page, mask := mask, ctlr := ctlr, col := col }) rfl rfl
      (fun x y h1 h2 h3 h6 h4 h5 => ⟨h1, h2, rfl, h6, h4, h5⟩) rfl
  case tmpRbv =>
    simp only [Same.after] at hq
    split at hq
    · rename_i hr
      cases hq
      exact loc (fun l => { l with tmp := l.rbv }) rfl rfl (fun x y h1 h2 h3 h6 h4 h5 => ⟨h1, h5 hr, h3, h6, h4, h5⟩) rfl
    · cases hq
  case combine on =>
    cases hq
    exact loc (fun l => { l with tmp := pixCombine on l.tmp l.mask }) rfl rfl
      (fun x y h1 h2 h3 h6 h4 h5 => ⟨h1, by rw [h2, h3], h3, h6, h4, h5⟩) rfl
  case setPg n =>
    cases hq
    exact loc (fun l => { l with pg := n }) rfl rfl (fun x y h1 h2 h3 h6 h4 h5 => ⟨h1, h2, h3, h6, h4, h5⟩) rfl
  case setCn n =>
    cases hq
    exact loc (fun l => { l with cn := n }) rfl rfl (fun x y h1 h2 h3 h6 h4 h5 => ⟨h1, h2, h3, h6, h4, h5⟩) rfl
  case setResult =>
    cases hq
    have e : b' = { b with result := b.loc.rbv } := by cases hb; rfl
    refine ⟨{ a with result := a.loc.rbv }, b', rfl, hb, ?_, gb⟩
    rw [e]
    exact A.congr A.cfg A.ctrl A.dout A.dir rfl rfl A.req A.host A.val A.tmp A.mask A.tgt A.smp A.rbv A.rbv
      ⟨0, rfl, rfl⟩ (fun j => by cases j <;> rfl) (fun j => by cases j <;> rfl) rfl rfl rfl rfl ⟨0, rfl, rfl⟩ A.env A.fault

/-! ## The test of a poll -/

theorem Alike.countPoll (A : Alike q k a b) (h : q' = { q with smp := false }) : Alike q' k (countPoll a) (countPoll b) := by
  subst h
  have l : ∀ s : State, (Machine.countPoll s).loc = { s.loc with polls := (Machine.countPoll s).loc.polls } := by
    intro s; rw [countPoll_loc]
  have hk := fun s => countPoll_kept s
  have hs := fun s => countPoll_same s
  have hc : ∀ (s : State) j, (Machine.countPoll s).ctl j = s.ctl j := by
    intro s j; unfold Machine.countPoll; split <;> cases j <;> rfl
  have hm : ∀ s : State, (Machine.countPoll s).mem = s.mem ∧ (Machine.countPoll s).draws = s.draws ∧
      (Machine.countPoll s).env = s.env := by
    intro s; unfold Machine.countPoll; split <;> simp
  refine A.congr ?_ ?_ ?_ ?_ (hk a).status (hk b).status ?_ ?_ ?_ ?_ ?_ ?_ nofun ?_ ?_ ⟨0, (hm a).2.1, (hm b).2.1⟩ (hc a)
    (hc b) (hm a).1 (hm b).1 (hs a).2.2.2 (hs b).2.2.2
    ⟨0, congrArg List.length (hs a).2.2.1, congrArg List.length (hs b).2.2.1⟩ ((hm a).2.2.trans A.env)
    ((hk a).fault.trans A.fault)
  · rw [(hk a).cfg, (hk b).cfg, A.cfg]
  · rw [(hs a).1, (hs b).1, A.ctrl]
  · rw [(hk a).dout, (hk b).dout, A.dout]
  · rw [(hs a).2.1, (hs b).2.1, A.dir]
  · rw [(hk a).req, (hk b).req, A.req]
  · rw [(hk a).host, (hk b).host, A.host]
  · rw [l a, l b]; exact A.val
  · rw [l a, l b]; exact A.tmp
  · rw [l a, l b]; exact A.mask
  · rw [l a, l b]; exact A.tgt
  · rw [l a, l b]; exact A.rbv
  · rw [(hk a).result, (hk b).result]; exact A.result

theorem statusUnresp_unresp : ∀ (v : Byte) (x y : Bool), (statusIdle (statusUnresp v x y)).getLsbD 2 = true ∧
    (statusIdle (statusUnresp v x y)).getLsbD 0 = true := by
  intro v x y
  simp only [statusIdle, statusUnresp]
  cases x <;> cases y <;> revert v <;> decide

/-- The wait has failed: the engine is idle with UNRESP set (R243). -/
def Failed (c : Config) (t : State) : Prop := t.idle = true ∧ t.unresp = true ∧ c.pollLimit ≠ none

/-- The test of a poll that showed busy: the sequencer stands at WT.6, or the wait fails (R150, R155, R243). -/
theorem test_busy {s : State} (n : s.noReset = true) (hf : s.protoFault = none)
    (hb : showsBusy s.cfg.busyMask s.loc.smp = true) (rest : List Micro) :
    runSeq (.test :: rest) s = { countPoll s with seq := pollBody s.cfg ++ .test :: rest } ∨
      Failed s.cfg (runSeq (.test :: rest) s) := by
  have hc := (countPoll_kept s).cfg
  by_cases hp : s.cfg.pollLimit = some (countPoll s).loc.polls
  · right
    obtain ⟨x, X⟩ := went_setDir (noReset_now ((countPoll_kept s).noReset n)) ((countPoll_kept s).fault.trans hf) .output
    have hx : primitive (setDir .output) [] (countPoll s) = .go x := by
      have := X.go
      unfold runGo at this
      split at this
      · rename_i y hy; simp only [runGo, Option.some.injEq] at this; subst this; exact hy
      · cases this
    rw [runSeq_stop (t := raiseUnresponsive x) (by simp [micro, pollTest, hb, hp, failWait, hx])]
    exact ⟨(statusUnresp_unresp ..).2, (statusUnresp_unresp ..).1, by rw [hp]; simp⟩
  · left
    refine runSeq_stop ?_
    simp only [micro, pollTest, hb, if_true, if_neg hp, loopPoll, hc]

theorem runSeq_test {s : State} (hb : showsBusy s.cfg.busyMask s.loc.smp = false) (rest : List Micro) :
    runSeq (.test :: rest) s = runSeq rest (countPoll s) :=
  runSeq_cons (by simp [micro, pollTest, hb])

/-! ## Runs -/

/-- Both runs have completed, `k` extra polls apart, and no controller is left busy. -/
def Ended (q : Same) (k : Nat) (u t : State) : Prop :=
  ∃ (a b : State) (w : Watch), u = complete a ∧ t = complete b ∧ Alike q k a b ∧ Going w b ∧ w.busy1 = false ∧ w.busy2 = false

/-- `b` stands at WT.6, where the other run has gone on with what follows the wait, and ended in `u`. -/
def Standing (c : Config) (q : Same) (k : Nat) (u b : State) : Prop :=
  ∃ (a : State) (q0 : Same) (w w1 w2 : Watch) (rest : List Micro), b.cfg = c ∧ b.seq = pollBody b.cfg ++ .test :: rest ∧
    Alike q0 k a b ∧ Going w b ∧ w.after b.cfg .test = some w1 ∧ w1.track b.cfg rest = some w2 ∧
    w2.busy1 = false ∧ w2.busy2 = false ∧ q0.smp = false ∧ q0.track b.cfg w1 rest = some q ∧ u = runSeq rest a

/-- A sequence run in both (R172). -/
theorem run_alike {p : List Micro} {w w2 : Watch} {q2 : Same} (A : Alike q k a b) (G : Going w b)
    (h : w.track b.cfg p = some w2) (h1 : w2.busy1 = false) (h2 : w2.busy2 = false) (hq : q.track b.cfg w p = some q2)
    (hu : (runSeq p a).idle = true) (hn : b.cfg.pollLimit = none ∨ (runSeq p a).unresp = false) :
    Ended q2 k (runSeq p a) (runSeq p b) ∨ Standing b.cfg q2 k (runSeq p a) (runSeq p b) ∨ Failed b.cfg (runSeq p b) := by
  induction p generalizing w q a b with
  | nil =>
    cases h; cases hq
    exact .inl ⟨a, b, _, rfl, rfl, A, G, h1, h2⟩
  | cons m rest ih =>
    simp only [Watch.track] at h
    simp only [Same.track] at hq
    obtain ⟨w1, hw1, hw2⟩ := Option.bind_eq_some_iff.mp h
    rw [hw1, Option.bind_some] at hq
    obtain ⟨q1, hq1, hq2⟩ := Option.bind_eq_some_iff.mp hq
    by_cases hm : m = .test
    · subst hm
      cases hq1
      have B := A.countPoll (q' := { q with smp := false }) rfl
      have hc := (countPoll_kept b).cfg
      have na : a.noReset = true := by unfold State.noReset; rw [A.env]; rfl
      cases ha : showsBusy a.cfg.busyMask a.loc.smp
      · rw [runSeq_test ha] at hu hn ⊢
        cases hb : showsBusy b.cfg.busyMask b.loc.smp
        · rw [runSeq_test hb]
          have := ih B (countPoll_going (test_going G hw1 hb)) (by rw [hc]; exact hw2) (by rw [hc]; exact hq2) hu
            (by rw [hc]; exact hn)
          rwa [hc] at this
        · rcases test_busy G.noReset G.fault hb rest with e | e
          · right; left
            rw [e]
            refine ⟨countPoll a, { q with smp := false }, w, w1, w2, rest, hc, ?_, ?_, ?_, ?_, ?_, h1, h2, rfl, ?_, rfl⟩
            · show _ = pollBody (countPoll b).cfg ++ _; rw [hc]
            · exact B.congr B.cfg B.ctrl B.dout B.dir rfl rfl B.req B.host B.val B.tmp B.mask B.tgt B.smp B.rbv B.result
                ⟨0, rfl, rfl⟩ (fun j => rfl) (fun j => by cases j <;> rfl) rfl rfl rfl rfl ⟨0, rfl, rfl⟩ B.env B.fault
            · have g := countPoll_going G
              exact ⟨g.follows.congr rfl rfl rfl rfl id id, g.fault, g.noReset, g.wf, g.tgt⟩
            · show w.after (countPoll b).cfg .test = _; rw [hc]; exact hw1
            · show w1.track (countPoll b).cfg rest = _; rw [hc]; exact hw2
            · show Same.track (countPoll b).cfg _ _ rest = _; rw [hc]; exact hq2
          · exact .inr (.inr e)
      · exfalso
        rcases test_busy na A.fault ha rest with e | e
        · rw [e] at hu
          have : (countPoll a).idle = true := hu
          rw [(countPoll_passed a).idle, A.busy] at this
          cases this
        · rcases hn with hn | hn
          · exact e.2.2 (A.cfg ▸ hn)
          · rw [e.2.1] at hn; cases hn
    · obtain ⟨a', b', ha, hb, A', G'⟩ := micro_alike A G hm rest hw1 hq1
      rw [runSeq_cons ha] at hu hn ⊢
      rw [runSeq_cons hb]
      have hc : b'.cfg = b.cfg := (micro_passed hb).cfg
      have := ih A' G' (by rw [hc]; exact hw2) (by rw [hc]; exact hq2) hu (by rw [hc]; exact hn)
      rwa [hc] at this

/-- One more poll. -/
theorem Standing.step {u : State} (S : Standing c q k u b) (hu : u.idle = true)
    (hn : c.pollLimit = none ∨ u.unresp = false) : ∃ t, Machine.step b = .next t ∧
      (Ended q (k + 1) u t ∨ Standing c q (k + 1) u t ∨ Failed c t) := by
  obtain ⟨a, q0, w, w1, w2, rest, rfl, hs, A, G, ht, hr, h1, h2, hq0, hq, rfl⟩ := S
  have hb : b.idle = false := by unfold State.idle; rw [A.status]; exact A.busy
  have hstep : Machine.step b = .next (runSeq (pollBody b.cfg ++ .test :: rest) b) := by
    unfold Machine.step resume; rw [G.fault, hb, hs]; rfl
  obtain ⟨hl, hw⟩ := Watch.after_test.mp ht
  simp only [Bool.and_eq_true, Bool.not_eq_true', beq_iff_eq] at hl
  obtain ⟨⟨⟨⟨⟨ld, le⟩, lrs⟩, lrw⟩, l1⟩, l2⟩ := hl
  have f := G.follows
  obtain ⟨x, v, K, xc, xd, xt, xp, xl, xs, e1, e2, e3⟩ := runSeq_poll (rest := rest) ⟨G.wf, G.noReset, G.fault⟩
    (f.dir.trans ld) (f.e.trans le) (f.rs.trans lrs) (f.rw.trans lrw)
  have hx : x.loc.smp = v := by rw [xl]
  have A' : Alike q0 (k + 1) a x :=
    { cfg := K.cfg.trans A.cfg, ctrl := xc.trans A.ctrl, dout := K.dout.trans A.dout
      dir := xd.trans (ld.symm.trans (f.dir.symm.trans A.dir)), status := K.status.trans A.status, req := K.req.trans A.req
      host := K.host.trans A.host, val := by rw [xl]; exact A.val, tmp := by rw [xl]; exact A.tmp
      mask := by rw [xl]; exact A.mask, tgt := by rw [xl]; exact A.tgt, smp := by rw [hq0]; nofun, rbv := by rw [xl]; exact A.rbv
      result := by rw [K.result]; exact A.result, draws := nofun, ctl := fun j => by rw [K.ctl j, A.ctl j]
      ready := A.ready, ram := fun j p l => (K.ram j p l).trans (A.ram j p l)
      acting := by rw [xp, acting_cons, if_pos (show Pulse.kind _ = .statusRead from rfl)]; exact A.acting
      pulses := by rw [xp, List.length_cons, A.pulses]; omega
      trace := by rw [xt, List.length_append, A.trace]; simp; omega
      env := A.env, fault := A.fault, busy := A.busy }
  have F := flags_of K.cfg xc
  have only : ∀ j : Ctl, (w.cs1 = decide (j = .one) ∧ w.cs2 = decide (j = .two) ∧ w.rst = true) →
      showsBusy x.cfg.busyMask x.loc.smp = false → (x.ctl j).busy = false := by
    intro j ⟨o1, o2, o3⟩ hv
    rw [K.cfg, hx] at hv
    cases hy : (x.ctl j).busy
    · rfl
    · rw [(xs j ⟨f.cs1.trans o1, f.cs2.trans o2⟩ (f.rst.trans o3)).1 hy] at hv; cases hv
  have G' : Going w x := by
    refine ⟨⟨F.1.trans f.cs1, F.2.1.trans f.cs2, F.2.2.1.trans f.rst, F.2.2.2.1.trans f.rs, F.2.2.2.2.1.trans f.rw,
      F.2.2.2.2.2.1.trans f.e, xd.trans ld.symm, fun h => f.busy1 (K.ready .one h), fun h => f.busy2 (K.ready .two h),
      fun h => only .one ?_, fun h => only .two ?_⟩, K.fault.trans G.fault, K.noReset G.noReset, by rw [K.cfg]; exact G.wf, ?_⟩
    · rw [l1] at h
      simp only [Watch.only1, Bool.and_eq_true, Bool.not_eq_true'] at h
      simp [h]
    · rw [l2] at h
      simp only [Watch.only2, Bool.and_eq_true, Bool.not_eq_true'] at h
      simp [h]
    · rw [xl]; exact G.tgt
  have hcx := K.cfg
  refine ⟨_, hstep, ?_⟩
  · cases hv : showsBusy b.cfg.busyMask v
    · rw [e1 hv]
      have g1 : Going w1 x := test_going G' (by rw [hcx]; exact ht) (by rw [hcx, hx]; exact hv)
      have := run_alike A' g1 (by rw [hcx]; exact hr) h1 h2 (by rw [hcx]; exact hq) hu (by rw [hcx]; exact hn)
      rwa [hcx] at this
    · by_cases hp : b.cfg.pollLimit = some (b.loc.polls + 1)
      · obtain ⟨y, Y, ey⟩ := e3 hv hp
        rw [ey]
        exact .inr (.inr ⟨(statusUnresp_unresp ..).2, (statusUnresp_unresp ..).1, by rw [hp]; simp⟩)
      · rw [e2 hv hp]
        refine .inr (.inl ⟨a, q0, w, w1, w2, rest, hcx, ?_, ?_, ?_, ?_, ?_, h1, h2, hq0, ?_, rfl⟩)
        · show _ = pollBody x.cfg ++ _; rw [hcx]
        · exact A'.congr A'.cfg A'.ctrl A'.dout A'.dir rfl rfl A'.req A'.host A'.val A'.tmp A'.mask A'.tgt A'.smp A'.rbv A'.result
            ⟨0, rfl, rfl⟩ (fun j => rfl) (fun j => by cases j <;> rfl) rfl rfl rfl rfl ⟨0, rfl, rfl⟩ A'.env A'.fault
        · exact ⟨G'.follows.congr rfl rfl rfl rfl id id, G'.fault, G'.noReset, G'.wf, G'.tgt⟩
        · show w.after x.cfg .test = _; rw [hcx]; exact ht
        · show w1.track x.cfg rest = _; rw [hcx]; exact hr
        · show Same.track x.cfg _ _ rest = _; rw [hcx]; exact hq

theorem Ended.idle {u t : State} (E : Ended q k u t) : t.idle = true := by
  obtain ⟨a, b, w, -, rfl, -⟩ := E
  show (statusIdle b.status).getLsbD 0 = true
  generalize b.status = x; revert x; decide

theorem Standing.idle {u : State} (S : Standing c q k u b) : b.idle = false := by
  obtain ⟨a, q0, w, w1, w2, rest, -, -, A, -⟩ := S
  unfold State.idle; rw [A.status]; exact A.busy

/-- From where `b` stands, `n` more steps to the end of the operation. -/
theorem Standing.run {u t : State} {n : Nat} (S : Standing c q k u b) (hu : u.idle = true)
    (hn : c.pollLimit = none ∨ (u.unresp = false ∧ t.unresp = false))
    (hj : ∀ j, j < n → ∃ v, Host.Core.run Sys2Proof.core j b = .next v ∧ v.idle = false)
    (ht : Host.Core.run Sys2Proof.core n b = .next t) (hi : t.idle = true) : Ended q (k + n) u t := by
  induction n generalizing k b with
  | zero =>
    cases ht
    rw [S.idle] at hi; cases hi
  | succ n ih =>
    obtain ⟨v, hv, h⟩ := S.step hu (hn.imp_right And.left)
    have hstep : Sys2Proof.core.step b = .next v := hv
    have run : ∀ j, Host.Core.run Sys2Proof.core (j + 1) b = Host.Core.run Sys2Proof.core j v := by
      intro j; simp only [Host.Core.run, hstep]
    rw [run] at ht
    have last : v.idle = true → n = 0 ∧ v = t := by
      intro h0
      cases n with
      | zero => cases ht; exact ⟨rfl, rfl⟩
      | succ n =>
        obtain ⟨x, hx, hxi⟩ := hj 1 (by omega)
        rw [run 0] at hx
        cases hx
        rw [h0] at hxi; cases hxi
    rcases h with E | S' | F
    · obtain ⟨rfl, rfl⟩ := last E.idle
      exact E
    · have hj' : ∀ j, j < n → ∃ x, Host.Core.run Sys2Proof.core j v = .next x ∧ x.idle = false := by
        intro j hjn
        obtain ⟨x, hx, hxi⟩ := hj (j + 1) (by omega)
        exact ⟨x, (run j).symm.trans hx, hxi⟩
      have := ih S' hj' ht
      rwa [show k + 1 + n = k + (n + 1) by omega] at this
    · obtain ⟨-, rfl⟩ := last F.1
      rcases hn with hn | hn
      · exact absurd hn F.2.2
      · have := F.2.1; rw [hn.2] at this; cases this

/-- An operation's sequence in both, from the beginning to its end `n` extra polls later. -/
theorem run_over {p : List Micro} {w w2 : Watch} {q2 : Same} {t : State} {n : Nat} (A : Alike q k a b) (G : Going w b)
    (h : w.track b.cfg p = some w2) (h1 : w2.busy1 = false) (h2 : w2.busy2 = false) (hq : q.track b.cfg w p = some q2)
    (hu : (runSeq p a).idle = true)
    (hn : b.cfg.pollLimit = none ∨ ((runSeq p a).unresp = false ∧ t.unresp = false))
    (hj : ∀ j, j < n → ∃ v, Host.Core.run Sys2Proof.core j (runSeq p b) = .next v ∧ v.idle = false)
    (ht : Host.Core.run Sys2Proof.core n (runSeq p b) = .next t) (hi : t.idle = true) :
    Ended q2 (k + n) (runSeq p a) t := by
  have last : (runSeq p b).idle = true → n = 0 ∧ runSeq p b = t := by
    intro h0
    cases n with
    | zero => cases ht; exact ⟨rfl, rfl⟩
    | succ n =>
      obtain ⟨x, hx, hxi⟩ := hj 0 (by omega)
      cases hx
      rw [h0] at hxi; cases hxi
  rcases run_alike A G h h1 h2 hq hu (hn.imp_right And.left) with E | S | F
  · obtain ⟨rfl, rfl⟩ := last E.idle
    exact E
  · exact S.run hu hn hj ht hi
  · obtain ⟨-, rfl⟩ := last F.1
    rcases hn with hn | hn
    · exact absurd hn F.2.2
    · have := F.2.1; rw [hn.2] at this; cases this

/-! ## What stays the same along a sequence -/

theorem Same.track_append (p r : List Micro) (w : Watch) (q : Same) : q.track c w (p ++ r) =
    (w.track c p).bind fun w' => (q.track c w p).bind fun q' => q'.track c w' r := by
  induction p generalizing w q with
  | nil => rfl
  | cons m rest ih =>
    simp only [List.cons_append, Same.track, Watch.track]
    cases w.after c m with
    | none => rfl
    | some w1 =>
      simp only [Option.bind_some]
      cases q.after w m with
      | none => cases w1.track c rest <;> rfl
      | some q1 => exact ih w1 q1

/-- A sequence that neither copies RBV nor writes RESULT. -/
theorem Same.plain {p : List Micro} {w w' : Watch} (h : w.track c p = some w') (q : Same)
    (hp : ∀ m ∈ p, m ≠ .tmpRbv ∧ m ≠ .setResult) : ∃ q', q.track c w p = some q' ∧ q'.result = q.result ∧
      ((∀ m ∈ p, m ≠ .latchRbv) → q'.rbv = q.rbv) := by
  induction p generalizing w q with
  | nil => exact ⟨q, rfl, rfl, fun _ => rfl⟩
  | cons m rest ih =>
    simp only [Watch.track] at h
    obtain ⟨w1, h1, h2⟩ := Option.bind_eq_some_iff.mp h
    obtain ⟨q1, e1, e2, e3⟩ : ∃ q1, q.after w m = some q1 ∧ q1.result = q.result ∧ (m ≠ .latchRbv → q1.rbv = q.rbv) := by
      have := hp m (by simp)
      cases m
      case tmpRbv => exact absurd rfl this.1
      case setResult => exact absurd rfl this.2
      case latchRbv => exact ⟨_, rfl, rfl, fun h => absurd rfl h⟩
      all_goals exact ⟨_, rfl, rfl, fun _ => rfl⟩
    obtain ⟨q2, f1, f2, f3⟩ := ih h2 q1 (fun m hm => hp m (by simp [hm]))
    refine ⟨q2, ?_, f2.trans e2, fun hl => (f3 fun m hm => hl m (by simp [hm])).trans (e3 (hl m (by simp)))⟩
    simp only [Same.track, h1, e1, Option.bind_some]
    exact f1

/-- What the account asks of a step. -/
def Plain (m : Micro) : Prop := m ≠ .tmpRbv ∧ m ≠ .setResult

theorem plain_steps : InSequences c Plain := by constructor <;> simp [Plain]

/-- A step that does not assert the display reset. -/
def KeepsRST (c : Config) (m : Micro) : Prop := ∀ v, m = .ctrlClear v → flagIn v c.mRST = false

theorem keepsRST_steps (wf : c.wf = true) : InSequences c (KeepsRST c) := by
  constructor <;> simp [KeepsRST, flagIn_or, flag_mE_mRST wf, flag_mRS_mRST wf, flag_mRW_mRST wf]

theorem track_rst {p : List Micro} {w w' : Watch} (hp : ∀ m ∈ p, KeepsRST c m) (h : w.track c p = some w')
    (hr : w.rst = true) : w'.rst = true := by
  induction p generalizing w with
  | nil => cases h; exact hr
  | cons m rest ih =>
    simp only [Watch.track] at h
    obtain ⟨w1, h1, h2⟩ := Option.bind_eq_some_iff.mp h
    refine ih (fun m hm => hp m (by simp [hm])) h2 ?_
    have hm := hp m (by simp)
    cases m
    case ctrlSet v =>
      simp only [Watch.after] at h1
      split at h1 <;> cases h1
      simp [Watch.set, hr]
    case ctrlClear v =>
      simp only [Watch.after] at h1
      obtain ⟨w2, g1, rfl⟩ := Option.map_eq_some_iff.mp h1
      have : w2.rst = true := by
        split at g1
        · unfold Watch.pulse at g1
          split at g1
          · cases g1; exact hr
          split at g1
          · cases g1
          split at g1 <;> cases g1
          exact hr
        · cases g1; exact hr
      simp [Watch.clear, this, hm v rfl]
    case test =>
      obtain ⟨-, rfl⟩ := Watch.after_test.mp h1
      exact hr
    all_goals (cases h1; exact hr)

/-- From a settled watch with the display out of reset, the sequence goes through to another such watch, and of RBV and
RESULT it leaves the same what `f` says. -/
def Steady (c : Config) (p : List Micro) (f : Same → Same → Prop) : Prop :=
  ∀ (w : Watch) (q : Same), w.settled = true → w.rst = true → ∃ w' q', w.track c p = some w' ∧ w'.settled = true ∧
    w'.rst = true ∧ q.track c w p = some q' ∧ f q q'

theorem Steady.append {p r : List Micro} {f g h : Same → Same → Prop} (hp : Steady c p f) (hr : Steady c r g)
    (hh : ∀ x y z, f x y → g y z → h x z) : Steady c (p ++ r) h := by
  intro w q hw hrst
  obtain ⟨w1, q1, a1, a2, a3, a4, a5⟩ := hp w q hw hrst
  obtain ⟨w2, q2, b1, b2, b3, b4, b5⟩ := hr w1 q1 a2 a3
  refine ⟨w2, q2, ?_, b2, b3, ?_, hh _ _ _ a5 b5⟩
  · rw [track_append, a1]; exact b1
  · rw [Same.track_append, a1, a4]; exact b4

/-- RESULT is as it was. -/
def Same.kept (x y : Same) : Prop := y.result = x.result

/-- RESULT is as it was, and RBV is the same in both. -/
def Same.read (x y : Same) : Prop := y.result = x.result ∧ y.rbv = true

theorem Steady.plain {p : List Micro} (h : Covers c p) (h1 : ∀ m ∈ p, Plain m) (h2 : ∀ m ∈ p, KeepsRST c m) :
    Steady c p Same.kept := by
  intro w q hw hr
  obtain ⟨w', a1, a2⟩ := h w hw
  obtain ⟨q', b1, b2, -⟩ := Same.plain a1 q h1
  exact ⟨w', q', a1, a2, track_rst h2 a1 hr, b1, b2⟩

/-- A data read of one controller (R62, R165). -/
theorem Steady.readByte (wf : c.wf = true) (k : Ctl) : Steady c (readByteSeq c true k.target) Same.read := by
  intro w q hw hrst
  have hkeep : ∀ m ∈ readByteSeq c true k.target, KeepsRST c m :=
    all_readByte (keepsRST_steps wf) (by simp [KeepsRST]) (by simp [KeepsRST]) _ _
  have hplain : ∀ m ∈ readByteSeq c true k.target, Plain m :=
    all_readByte plain_steps (by simp [Plain]) (by simp [Plain]) _ _
  obtain ⟨w', a1, a2⟩ := covers_readByte wf true k.target w hw
  rw [settled_iff] at hw
  let w0 := ((w.withDir .input).withRs false).withRw true
  let w1 := ((w0.withRs true).aimed k.target).withE true
  let pre : List Micro := .ctrlClear c.mE :: .setDir .input :: .ctrlClear c.mRS ::
    .ctrlSet c.mRW :: .delay .settle :: .ctrlSet c.mRS :: (selectSeq k.target ++ .delay .settle :: .ctrlSet c.mE ::
    [.delay .settle])
  let post : List Micro := .ctrlClear c.mE :: .setDir .output :: waitEachSeq c k.target
  have hseq : readByteSeq c true k.target = pre ++ (.sample :: .latchRbv :: post) := by
    simp [readByteSeq, readPulseSeq, cfgReadSeq, pre, post]
  have hpre : w.track c pre = some w1 := by
    rw [track_cons (after_clearE wf hw.1), track_cons (w' := w.withDir .input) rfl,
      track_cons (after_clearRS wf), track_cons (after_setRW wf), track_cons (w' := w0) rfl, track_cons (after_setRS wf),
      track_selectSeq, track_cons (w' := (w0.withRs true).aimed k.target) rfl,
      track_cons (after_setE wf), track_cons (w' := w1) rfl]
    rfl
  obtain ⟨q1, b1, b2, -⟩ := Same.plain hpre q (fun m hm => hplain m (by rw [hseq]; simp [hm]))
  have hpost : ∃ w2, w1.after c .sample = some w2 ∧ w2.track c post = some w' := by
    rw [hseq, track_append, hpre] at a1
    exact ⟨_, rfl, a1⟩
  obtain ⟨w2, hs, hp⟩ := hpost
  obtain ⟨q2, d1, d2, d3⟩ := Same.plain hp { q1 with smp := true, rbv := true }
    (fun m hm => hplain m (by rw [hseq]; simp [hm]))
  have hsame : q1.after w1 .sample = some { q1 with smp := true } := by
    have : (w1.dir == .input && w1.e && w1.rw && w1.rs && (w1.only1 || w1.only2)) = true := by
      show (true && true && true && true && ((k.target.has1 && !k.target.has2 && w.rst) || (k.target.has2 && !k.target.has1 && w.rst))) = true
      rw [hrst]; cases k <;> rfl
    simp only [Same.after, this]
  refine ⟨w', q2, ?_, a2, track_rst hkeep a1 hrst, ?_, d2.trans b2, ?_⟩
  · exact a1
  · rw [hseq, Same.track_append, hpre, b1]
    simp only [Option.bind_some, Same.track, hs, hsame]
    have : w2.after c .latchRbv = some w2 := rfl
    simp only [this, Option.bind_some, Same.after]
    exact d1
  · refine d3 ?_
    refine all_cons (by simp) (all_cons (by simp) ?_)
    exact all_waitEach (Q := fun m => m ≠ .latchRbv) (by constructor <;> simp) _

/-! ## Every operation but INIT -/

/-- The sequence of an operation other than SETC, CLRC and INIT, from a settled watch with the display out of reset: it
goes through, no controller is left busy, and RESULT is the same unless it comes from a byte no single latch answers. -/
theorem prog_track (wf : c.wf = true) {i : Instr} (h1 : i ≠ .init) (h2 : ∀ m, i ≠ .setc m) (h3 : ∀ m, i ≠ .clrc m)
    {w : Watch} (hw : w.settled = true) (hr : w.rst = true) : ∃ w' q', w.track c (progOf c i) = some w' ∧
      w'.busy1 = false ∧ w'.busy2 = false ∧ Same.track c w ⟨true, true, true⟩ (progOf c i) = some q' ∧
      ((∀ t rs, i = .rdb t rs → rs = true ∧ ∃ k : Ctl, t = k.target) ∧ (∀ t, i = .rdd t → ∃ k : Ctl, t = k.target) →
        q'.result = true) := by
  have settled : ∀ f, Steady c (progOf c i) f → (∀ q', f ⟨true, true, true⟩ q' → q'.result = true) →
      ∃ w' q', w.track c (progOf c i) = some w' ∧ w'.busy1 = false ∧ w'.busy2 = false ∧
        Same.track c w ⟨true, true, true⟩ (progOf c i) = some q' ∧ q'.result = true := by
    intro f hf hq
    obtain ⟨w', q', a1, a2, a3, a4, a5⟩ := hf w _ hw hr
    have := (settled_iff _).mp a2
    exact ⟨w', q', a1, this.2.2.1, this.2.2.2, a4, hq _ a5⟩
  have fin : ∀ {Q : Prop}, (∃ w' q', w.track c (progOf c i) = some w' ∧ w'.busy1 = false ∧ w'.busy2 = false ∧
      Same.track c w ⟨true, true, true⟩ (progOf c i) = some q' ∧ q'.result = true) →
      ∃ w' q', w.track c (progOf c i) = some w' ∧ w'.busy1 = false ∧ w'.busy2 = false ∧
      Same.track c w ⟨true, true, true⟩ (progOf c i) = some q' ∧ (Q → q'.result = true) := by
    rintro Q ⟨w', q', a1, a2, a3, a4, a5⟩
    exact ⟨w', q', a1, a2, a3, a4, fun _ => a5⟩
  have rst : ∀ m ∈ progOf c i, KeepsRST c m :=
    all_prog (keepsRST_steps wf) (by simp [KeepsRST]) (by simp [KeepsRST]) (by simp [KeepsRST]) (by simp [KeepsRST])
      (by simp [KeepsRST]) (by simp [KeepsRST]) (by simp [KeepsRST]) (by simp [KeepsRST]) (by simp [KeepsRST])
      (by simp [KeepsRST]) (by simp [KeepsRST]) (by simp [KeepsRST]) i h1 h2 h3
  have easy : Covers c (progOf c i) → (∀ m ∈ progOf c i, Plain m) → ∀ {Q : Prop}, ∃ w' q', w.track c (progOf c i) = some w' ∧
      w'.busy1 = false ∧ w'.busy2 = false ∧ Same.track c w ⟨true, true, true⟩ (progOf c i) = some q' ∧
      (Q → q'.result = true) := fun hc hp => fin (settled _ (.plain hc hp rst) (fun _ h => h))
  -- a read into RESULT
  have read : ∀ p, progOf c i = p ++ [.setResult] → Covers c p → (∀ m ∈ p, Plain m) → ∀ {Q : Prop},
      (Q → Steady c p Same.read) → ∃ w' q', w.track c (progOf c i) = some w' ∧
        w'.busy1 = false ∧ w'.busy2 = false ∧ Same.track c w ⟨true, true, true⟩ (progOf c i) = some q' ∧
        (Q → q'.result = true) := by
    intro p he hc hp Q hq
    obtain ⟨w1, a1, a2⟩ := hc w hw
    obtain ⟨q1, b1, -, -⟩ := Same.plain a1 ⟨true, true, true⟩ hp
    have hs := (settled_iff _).mp a2
    refine ⟨w1, { q1 with result := q1.rbv }, ?_, hs.2.2.1, hs.2.2.2, ?_, fun h => ?_⟩
    · rw [he, track_append, a1]; rfl
    · rw [he, Same.track_append, a1, b1]; rfl
    · obtain ⟨w', q', c1, -, -, c4, c5⟩ := hq h w ⟨true, true, true⟩ hw hr
      rw [b1] at c4; cases c4
      exact c5.2
  have wr := fun (load : Micro) (hl : Plain load) t => all_writeByte (c := c) plain_steps (by simp [Plain]) (by simp [Plain])
    (by simp [Plain]) hl t
  have wc := all_writeCommand (c := c) plain_steps (by simp [Plain]) (by simp [Plain]) (by simp [Plain]) (by simp [Plain])
  have wd := fun (load : Micro) (hl : Plain load) t => all_writeData (c := c) plain_steps (by simp [Plain])
    (by simp [Plain]) (by simp [Plain]) hl t
  have kr := keepsRST_steps wf
  cases i
  case init => exact absurd rfl h1
  case setc m => exact absurd rfl (h2 m)
  case clrc m => exact absurd rfl (h3 m)
  case clr =>
    exact easy (covers_idle (fun _ => rfl) (covers_clearPages wf _ _))
      (all_clear plain_steps (by simp [Plain]) (by simp [Plain]) (by simp [Plain]) (by simp [Plain]) (by simp [Plain])
        (by simp [Plain]))
  case pix x y on =>
    by_cases hin : pixInRange x y = true
    · have he : progOf c (.pix x y on) = pixelSeq c x y on := by simp [progOf, hin]
      have kw := fun v => all_writeCommand kr (by simp [KeepsRST]) (by simp [KeepsRST]) (by simp [KeepsRST])
        (by simp [KeepsRST]) v (pixCtl x).target
      have s1 : Steady c (.setPixel (pixPage y) (pixMask y on) (pixCtl x).target (pixCol x) ::
          writeCommandSeq c (setAddressCmd c (pixCol x)) (pixCtl x).target ++
          writeCommandSeq c (setPageCmd c (pixPage y)) (pixCtl x).target) Same.kept :=
        .plain ((covers_idle (fun _ => rfl) (covers_writeCommand wf _ _)).append (covers_writeCommand wf _ _))
          (all_append (all_cons (by simp [Plain]) (wc _ _)) (wc _ _))
          (all_append (all_cons (by simp [KeepsRST]) (kw _)) (kw _))
      have s2 : Steady c (readDataSeq c (pixCtl x).target) Same.read :=
        (Steady.readByte wf _).append (Steady.readByte wf _) (fun x y z h1 h2 => ⟨h2.1.trans h1.1, h2.2⟩)
      have s3 : Steady c (writeCommandSeq c (setAddressCmd c (pixCol x)) (pixCtl x).target ++
          .combine on :: writeDataSeq c .setValTmp (pixCtl x).target) Same.kept :=
        .plain ((covers_writeCommand wf _ _).append (covers_idle (fun _ => rfl) (covers_writeData wf (fun _ => rfl) _)))
          (all_append (wc _ _) (all_cons (by simp [Plain]) (wd _ (by simp [Plain]) _)))
          (all_append (kw _) (all_cons (by simp [KeepsRST]) (all_writeData kr (by simp [KeepsRST]) (by simp [KeepsRST])
            (by simp [KeepsRST]) (by simp [KeepsRST]) _)))
      have s12 := s1.append s2 (h := Same.read) (fun x y z h1 h2 => ⟨h2.1.trans h1, h2.2⟩)
      have s4 : Steady c (pixelSeq c x y on) Same.kept := by
        have hseq : pixelSeq c x y on = (.setPixel (pixPage y) (pixMask y on) (pixCtl x).target (pixCol x) ::
          writeCommandSeq c (setAddressCmd c (pixCol x)) (pixCtl x).target ++
          writeCommandSeq c (setPageCmd c (pixPage y)) (pixCtl x).target ++ readDataSeq c (pixCtl x).target) ++ (.tmpRbv ::
          (writeCommandSeq c (setAddressCmd c (pixCol x)) (pixCtl x).target ++
            .combine on :: writeDataSeq c .setValTmp (pixCtl x).target)) := by
          simp [pixelSeq]
        rw [hseq]
        intro w q hw hr
        obtain ⟨w1, q1, a1, a2, a3, a4, a5⟩ := s12 w q hw hr
        obtain ⟨w2, q2, b1, b2, b3, b4, b5⟩ := s3 w1 q1 a2 a3
        refine ⟨w2, q2, ?_, b2, b3, ?_, b5.trans a5.1⟩
        · rw [track_append, a1]; exact b1
        · rw [Same.track_append, a1, a4]
          have e1 : w1.after c .tmpRbv = some w1 := rfl
          have e2 : q1.after w1 .tmpRbv = some q1 := by simp [Same.after, a5.2]
          simp only [Option.bind_some, Same.track, e1, e2]
          exact b4
      exact fin (settled _ (he ▸ s4) (fun _ h => h))
    · have he : progOf c (.pix x y on) = [] := by simp [progOf, hin]
      exact fin (settled Same.kept (he ▸ .plain .nil all_nil all_nil) (fun _ h => h))
  case cfgrd =>
    have hs := (settled_iff _).mp hw
    have ht : w.track c (progOf c .cfgrd) = some (((w.withDir .input).withRs false).withRw true) := by
      show w.track c (.ctrlClear c.mE :: .setDir .input :: .ctrlClear c.mRS :: .ctrlSet c.mRW :: [.delay .settle]) = _
      rw [track_cons (after_clearE wf hs.1), track_cons (w' := w.withDir .input) rfl, track_cons (after_clearRS wf),
        track_cons (after_setRW wf)]
      rfl
    obtain ⟨q1, b1, b2, -⟩ := Same.plain ht ⟨true, true, true⟩ (all_cfgRead plain_steps)
    exact ⟨_, q1, ht, hs.2.2.1, hs.2.2.2, b1, fun _ => b2⟩
  case cfgwr => exact easy (.cons (fun w h => ⟨_, rfl, (settled_iff _).mpr ⟨((settled_iff _).mp h).1, rfl,
      ((settled_iff _).mp h).2.2⟩⟩) .nil) (all_cons (by simp [Plain]) all_nil)
  case sel t => exact easy (covers_selectSeq t) (all_selectSeq (c := c) plain_steps (by simp [Plain]) t)
  case wait => exact easy (covers_waitReady wf) (all_waitReady plain_steps)
  case wrb v t => exact easy (covers_writeByte wf (fun _ => rfl) t) (wr _ (by simp [Plain]) t)
  case wrc v t => exact easy (covers_writeCommand wf v t) (wc v t)
  case wrd v t => exact easy (covers_writeData wf (fun _ => rfl) t) (wd _ (by simp [Plain]) t)
  case rdb t rs =>
    obtain ⟨w', q', a1, a2, a3, a4, a5⟩ := read _ rfl (covers_readByte wf rs t)
      (all_readByte plain_steps (by simp [Plain]) (by simp [Plain]) rs t) (Q := rs = true ∧ ∃ k : Ctl, t = k.target)
      (fun ⟨hrs, k, hk⟩ => by subst hrs hk; exact Steady.readByte wf k)
    exact ⟨w', q', a1, a2, a3, a4, fun h => a5 (h.1 t rs rfl)⟩
  case rdd t =>
    obtain ⟨w', q', a1, a2, a3, a4, a5⟩ := read _ rfl ((covers_readByte wf true t).append (covers_readByte wf true t))
      (all_readData plain_steps (by simp [Plain]) (by simp [Plain]) t) (Q := ∃ k : Ctl, t = k.target)
      (fun ⟨k, hk⟩ => by
        subst hk
        exact (Steady.readByte wf k).append (Steady.readByte wf k) (fun x y z h1 h2 => ⟨h2.1.trans h1.1, h2.2⟩))
    exact ⟨w', q', a1, a2, a3, a4, fun h => a5 (h.2 t rfl)⟩

/-! ## INIT -/

/-- Steps without a test, in both. -/
theorem go_alike {p : List Micro} {w w' : Watch} {q2 : Same} (A : Alike q k a b) (G : Going w b)
    (h : w.track b.cfg p = some w') (hq : q.track b.cfg w p = some q2) (hp : ∀ m ∈ p, m ≠ .test) :
    ∃ a' b', runGo p a = some a' ∧ runGo p b = some b' ∧ Alike q2 k a' b' ∧ Going w' b' := by
  induction p generalizing w q a b with
  | nil => cases h; cases hq; exact ⟨a, b, rfl, rfl, A, G⟩
  | cons m rest ih =>
    simp only [Watch.track] at h
    simp only [Same.track] at hq
    obtain ⟨w1, hw1, hw2⟩ := Option.bind_eq_some_iff.mp h
    rw [hw1, Option.bind_some] at hq
    obtain ⟨q1, hq1, hq2⟩ := Option.bind_eq_some_iff.mp hq
    obtain ⟨a1, b1, ha, hb, A1, G1⟩ := micro_alike A G (hp m (by simp)) [] hw1 hq1
    have hc : b1.cfg = b.cfg := (micro_passed hb).cfg
    obtain ⟨a', b', e1, e2, A2, G2⟩ := ih A1 G1 (by rw [hc]; exact hw2) (by rw [hc]; exact hq2)
      (fun m hm => hp m (by simp [hm]))
    exact ⟨a', b', by simp only [runGo, ha]; exact e1, by simp only [runGo, hb]; exact e2, A2, G2⟩

/-- Primitives use up one slot of the environment each (R20). -/
theorem runGo_env {p : List Micro} {s t : State} (h : runGo p s = some t) (hn : s.noReset = true)
    (hp : ∀ m ∈ p, ∀ u, (primOf u m).isSome = true) : t.env = s.env.drop p.length := by
  induction p generalizing s with
  | nil => cases h; rfl
  | cons m rest ih =>
    obtain ⟨f, hf⟩ := Option.isSome_iff_exists.mp (hp m (by simp) s)
    unfold runGo at h
    split at h
    · rename_i u hu
      rw [primOf_micro hf] at hu
      have e : u = f s.slot s.arrive := by
        cases hx : (f s.slot s.arrive).protoFault with
        | none => rw [primitive_arrive (noReset_now hn) hx] at hu; cases hu; rfl
        | some x => rw [primitive_fault (noReset_now hn) (by rw [hx]; rfl)] at hu; cases hu
      have he : u.env = s.env.tail := by
        rw [e]
        have : ∀ z : State, (f s.slot z).env = z.env := by
          intro z; cases m <;> cases hf <;> simp [ctrlSet, ctrlClear, select, setDir, drive, sample, delay, record]
        rw [this, arrive_env]
      have hn' : u.noReset = true := by unfold State.noReset; rw [he]; exact noReset_tail hn
      rw [ih h hn' (fun m hm => hp m (by simp [hm])), he]
      cases s.env <;> simp
    · cases h

/-- A release of the display reset that leaves the controller ready and its display memory kept, in both (R72). -/
theorem Alike.release (A : Alike q 0 a b) (e : EnvSlot) (j : Ctl) (hb : e.busyOf j = false) (hl : e.ramLostOf j = false) :
    Alike q 0 (releaseReset {} j a) (releaseReset e j b) := by
  have hd := A.draws rfl
  have ep : ∀ i, (b.ctl i).epoch = (a.ctl i).epoch := fun i => by rw [A.ctl i]
  have un : ∀ i, (b.ctl i).unmodelled = (a.ctl i).unmodelled := fun i => by rw [A.ctl i]
  have hl0 : ({} : EnvSlot).ramLostOf j = false := by cases j <;> rfl
  have hb0 : ({} : EnvSlot).busyOf j = false := by cases j <;> rfl
  constructor
  case ctl =>
    intro i
    simp only [releaseReset, hb, hl, hl0, hb0, hd, ep, un, Bool.false_eq_true, if_false]
    cases i <;> cases j <;> first | rfl | exact A.ctl .one | exact A.ctl .two
  case ready =>
    intro i
    rw [releaseReset_busy]
    split
    · exact hb0
    · exact A.ready i
  case ram =>
    intro i p l
    rw [releaseReset_ram _ _ _ _ (fun _ => hl), releaseReset_ram _ _ _ _ (fun _ => hl0)]
    exact A.ram i p l
  case draws =>
    intro _
    have : ∀ e s, (releaseReset e j s).draws = s.draws + 6 := by intro e s; cases j <;> rfl
    rw [this, this, hd]
  case cfg => cases j <;> exact A.cfg
  case ctrl => cases j <;> exact A.ctrl
  case dout => cases j <;> exact A.dout
  case dir => cases j <;> exact A.dir
  case status => cases j <;> exact A.status
  case req => cases j <;> exact A.req
  case host => cases j <;> exact A.host
  case val => cases j <;> exact A.val
  case tmp => cases j <;> exact A.tmp
  case mask => cases j <;> exact A.mask
  case tgt => cases j <;> exact A.tgt
  case smp => cases j <;> exact A.smp
  case rbv => cases j <;> exact A.rbv
  case result => cases j <;> exact A.result
  case acting => cases j <;> exact A.acting
  case pulses => cases j <;> exact A.pulses
  case trace => cases j <;> exact A.trace
  case env => cases j <;> exact A.env
  case fault => cases j <;> exact A.fault
  case busy => cases j <;> exact A.busy

/-- IN.5: the release of both controllers (R72, R221). -/
theorem release_alike {w : Watch} (A : Alike q 0 a b) (G : Going w b) (hr : w.rst = false) (he : w.e = false)
    (hb : ∀ j, b.slot.busyOf j = false) (hl : ∀ j, b.slot.ramLostOf j = false) :
    ∃ a' b', runGo [.ctrlSet b.cfg.mRST] a = some a' ∧ runGo [.ctrlSet b.cfg.mRST] b = some b' ∧ Alike q 0 a' b' ∧
      Going b'.watch b' ∧ b'.cfg = b.cfg ∧ b'.flagE = false ∧ b'.dir = b.dir ∧ b'.flagRST = true ∧
      (∀ j, (b'.ctl j).busy = false) := by
  have wf := G.wf
  let v := b.arrive.ctrl ||| b.cfg.mRST
  have B := A.arrive
  have set : Alike q 0 { a.arrive with ctrl := v } { b.arrive with ctrl := v } :=
    B.congr B.cfg rfl B.dout B.dir rfl rfl B.req B.host B.val B.tmp B.mask B.tgt B.smp B.rbv B.result ⟨0, rfl, rfl⟩
      (fun j => by cases j <;> rfl) (fun j => by cases j <;> rfl) rfl rfl rfl rfl ⟨0, rfl, rfl⟩ B.env B.fault
  have C := ((set.release b.slot .one (hb _) (hl _)).release b.slot .two (hb _) (hl _)).record (.ctrlSet b.cfg.mRST) (.ctrlSet b.cfg.mRST)
  have rise : ∀ s : State, s.cfg = b.cfg → s.flagRST = false →
      (!s.flagRST && flagIn (s.ctrl ||| b.cfg.mRST) s.cfg.mRST) = true := by
    intro s hc h; rw [h, hc, flagIn_or, flag_mRST_mRST wf]; simp
  have rb : b.flagRST = false := G.follows.rst.trans hr
  have ub : ctrlSet b.cfg.mRST b.slot b.arrive = Machine.record (.ctrlSet b.cfg.mRST)
      (releaseReset b.slot .two (releaseReset b.slot .one { b.arrive with ctrl := v })) :=
    congrArg _ (updateCtrl_releases (set_keeps_E _ _) (rise _ (arrive_cfg b) (by simpa using rb)))
  have ua : ctrlSet b.cfg.mRST {} a.arrive = Machine.record (.ctrlSet b.cfg.mRST)
      (releaseReset {} .two (releaseReset {} .one { a.arrive with ctrl := v })) := by
    have hc : a.arrive.ctrl ||| b.cfg.mRST = v := by rw [← B.ctrl]
    have := updateCtrl_releases (e := {}) (set_keeps_E a.arrive b.cfg.mRST)
      (rise _ ((arrive_cfg a).trans A.cfg.symm) (by rw [arrive_flagRST]; exact (A.flag Config.mRST).symm.trans rb))
    rw [hc] at this
    unfold Machine.ctrlSet
    rw [hc, this]
  have hgo : primitive (ctrlSet b.cfg.mRST) [] b = .go (ctrlSet b.cfg.mRST b.slot b.arrive) := by
    refine primitive_arrive (noReset_now G.noReset) ?_
    rw [ub]
    simp only [Machine.record, releaseReset_protoFault]
    simpa using G.fault
  obtain ⟨a', ha, A'⟩ := A.primitive (pa := ctrlSet b.cfg.mRST) (q' := q) G hgo (by rw [ua, ub]; exact C)
  have hbusy : ∀ j, ((ctrlSet b.cfg.mRST b.slot b.arrive).ctl j).busy = false := by
    intro j
    rw [ub, ctl_record, releaseReset_busy, releaseReset_busy]
    cases j <;> simp [hb]
  have hflag : ∀ m : Config → Byte, flagIn (ctrlSet b.cfg.mRST b.slot b.arrive).ctrl (m (ctrlSet b.cfg.mRST b.slot b.arrive).cfg)
      = flagIn (b.ctrl ||| b.cfg.mRST) (m b.cfg) := by
    intro m; rw [ub]
    show flagIn (b.arrive.ctrl ||| b.cfg.mRST) (m b.arrive.cfg) = _
    rw [arrive_ctrl, arrive_cfg]
  have hcfg : (ctrlSet b.cfg.mRST b.slot b.arrive).cfg = b.cfg := by rw [ub]; exact arrive_cfg b
  refine ⟨a', _, runGo_one ha, runGo_one hgo, A', ⟨Follows.of_watch _, ?_, ?_, by rw [hcfg]; exact wf, rfl⟩, hcfg, ?_, ?_, ?_, hbusy⟩
  · rw [ub]; simp only [Machine.record, releaseReset_protoFault]; simpa using G.fault
  · unfold State.noReset
    have : (ctrlSet b.cfg.mRST b.slot b.arrive).env = b.env.tail := by rw [ub]; exact arrive_env b
    rw [this]; exact noReset_tail G.noReset
  · refine (hflag Config.mE).trans ?_
    rw [flagIn_or, flag_mRST_mE wf, Bool.or_false]
    exact G.follows.e.trans he
  · rw [ub]; exact arrive_dir b
  · refine (hflag Config.mRST).trans ?_
    rw [flagIn_or, flag_mRST_mRST wf, Bool.or_true]

/-- INIT in both, to its end `n` extra polls later (R172, R221). -/
theorem init_over {t : State} {n : Nat} (A : Alike q 0 a b) (wf : b.cfg.wf = true) (hf : b.protoFault = none)
    (hr : b.noReset = true) (hd : b.atRest) (hy : b.allReady = true) (hk : b.ramKept = true)
    (hb : ∀ j, (b.env.getD 4 {}).busyOf j = false) (hu : (runSeq (initSeq b.cfg) a).idle = true)
    (hn : b.cfg.pollLimit = none ∨ ((runSeq (initSeq b.cfg) a).unresp = false ∧ t.unresp = false))
    (hj : ∀ j, j < n → ∃ v, Host.Core.run Sys2Proof.core j (runSeq (initSeq b.cfg) b) = .next v ∧ v.idle = false)
    (ht : Host.Core.run Sys2Proof.core n (runSeq (initSeq b.cfg) b) = .next t) (hi : t.idle = true) :
    ∃ q2, q2.result = q.result ∧ Ended q2 n (runSeq (initSeq b.cfg) a) t := by
  generalize hc : b.cfg = c at *
  let m := c.mCS1 ||| c.mCS2 ||| c.mRST ||| c.mE
  have hs := (settled_iff _).mp (watch_settled hd hy)
  -- IN.1 to IN.4
  let p : List Micro := [.ctrlSet c.mE, .delay .power, .ctrlClear m, .delay .resetAssert]
  obtain ⟨x, y, s1, s2, hp, -⟩ := pulse_ready (w := b.watch.withE true) hs.2.2.1 hs.2.2.2 (.inl hs.2.1)
  have hmE : flagIn m c.mE = true := by simp [m, flagIn_or, flag_mE_mE wf]
  have hmR : flagIn m c.mRST = true := by simp [m, flagIn_or, flag_mRST_mRST wf]
  let w1 := ((((b.watch.withE true).withBusy x y).withSeen s1 s2)).clear c m
  have h1 : b.watch.track c p = some w1 := by
    rw [track_cons (after_setE wf), track_cons (w' := b.watch.withE true) rfl,
      track_cons (w' := w1) (by simp only [Watch.after]; rw [if_pos (by rw [hmE]; rfl), hp]; rfl)]
    rfl
  obtain ⟨q1, e1, e2, -⟩ := Same.plain h1 q (by simp [p])
  have G : Going b.watch b := ⟨Follows.of_watch b, hf, hr, by rw [hc]; exact wf, rfl⟩
  obtain ⟨a1, b1, ga, gb, A1, G1⟩ := go_alike A G (by rw [hc]; exact h1) (by rw [hc]; exact e1) (by simp [p])
  have c1 : b1.cfg = c := (runGo_passed gb).cfg.trans hc
  -- IN.5
  have henv : b1.env = b.env.drop 4 := runGo_env gb hr (by
    intro m hm u; simp only [p, List.mem_cons, List.not_mem_nil, or_false] at hm
    rcases hm with rfl | rfl | rfl | rfl <;> rfl)
  have hslot : b1.slot = b.env.getD 4 {} := by
    unfold State.slot; rw [henv, List.headD_eq_head?_getD, List.head?_drop, List.getD_eq_getElem?_getD]
  have hl : ∀ j, b1.slot.ramLostOf j = false := by
    have hk1 : b1.ramKept = true := (runGo_passed gb).ramKept hk
    have := (all_slots (p := fun e => !e.ramLost1 && !e.ramLost2) rfl hk1).1
    simp only [Bool.and_eq_true, Bool.not_eq_true'] at this
    intro j; cases j
    · exact this.1
    · exact this.2
  obtain ⟨a2, b2, ga2, gb2, A2, G2, c2, E2, D2, R2, Y2⟩ := release_alike A1 G1 (by simp [w1, Watch.clear, hmR])
    (by simp [w1, Watch.clear, hmE]) (by rw [hslot]; exact hb) hl
  -- IN.6 to IN.12
  have wc := fun v => all_writeCommand (c := c) plain_steps (by simp [Plain]) (by simp [Plain]) (by simp [Plain])
    (by simp [Plain]) v .both
  have kc := fun v => all_writeCommand (keepsRST_steps wf) (by simp [KeepsRST]) (by simp [KeepsRST]) (by simp [KeepsRST])
    (by simp [KeepsRST]) v .both
  let r : List Micro := .delay .resetRecover :: (writeCommandSeq c c.cmdDisplayOff .both ++ initTail c)
  have S : Steady c r Same.kept := .plain
    (covers_idle (fun _ => rfl) <| (covers_writeCommand wf _ _).append <| (covers_writeCommand wf _ _).append <|
      (covers_writeCommand wf _ _).append <| (covers_writeCommand wf _ _).append <|
      (covers_writeCommand wf _ _).append (covers_select _))
    (all_cons (by simp [Plain]) <| all_append (wc _) <| all_append (wc _) <| all_append (wc _) <| all_append (wc _) <|
      all_append (wc _) (all_cons (by simp [Plain]) all_nil))
    (all_cons (by simp [KeepsRST]) <| all_append (kc _) <| all_append (kc _) <| all_append (kc _) <| all_append (kc _) <|
      all_append (kc _) (all_cons (by simp [KeepsRST]) all_nil))
  have d1 : b1.dir = .output := G1.follows.dir.trans hs.2.1
  obtain ⟨w3, q3, f1, f2, -, f4, f5⟩ := S b2.watch q1
    ((settled_iff _).mpr ⟨E2, D2.trans d1, Y2 .one, Y2 .two⟩) R2
  have hw3 := (settled_iff _).mp f2
  have c2' : b2.cfg = c := c2.trans c1
  have hseq : initSeq c = p ++ ([.ctrlSet c.mRST] ++ r) := by simp [initSeq, initTail, p, r, m]
  have split : ∀ {s s1 s2 : State}, runGo p s = some s1 → runGo [.ctrlSet b1.cfg.mRST] s1 = some s2 →
      runSeq (initSeq c) s = runSeq r s2 := by
    intro s s1 s2 g1 g2
    rw [c1] at g2
    rw [hseq, runSeq_append g1, runSeq_append g2]
  rw [split ga ga2] at hu hn ⊢
  rw [split gb gb2] at hj ht
  have := run_over A2 G2 (by rw [c2']; exact f1) hw3.2.2.1 hw3.2.2.2 (by rw [c2']; exact f4) hu
    (by rw [c2']; exact hn) hj ht hi
  rw [Nat.zero_add] at this
  exact ⟨q3, Eq.trans f5 e2, this⟩

/-! ## The record of pulse events only grows -/

theorem engineReset_pulses (s : State) : s.pulses <:+ (engineReset s.slot s.arrive).pulses := by
  have h := updateCtrl_pulses_suffix s.slot 0x00 s.arrive
  rwa [arrive_pulses] at h

theorem runSeq_pulses (p : List Micro) (s : State) : s.pulses <:+ (runSeq p s).pulses := by
  refine run_cases (I := fun _ u => s.pulses <:+ u.pulses) (E := fun u => s.pulses <:+ u.pulses) (fun _ h => h) ?_ ?_ ?_
    (fun _ _ _ _ h _ _ => h) (fun _ _ h => h) ?_ ?_ ?_ ?_ p s (List.suffix_refl _)
  · intro m rest u h _ v hv
    refine h.trans (List.IsSuffix.trans ?_ (engineReset_pulses v))
    rcases hv with rfl | ⟨-, rfl⟩
    · exact List.suffix_refl _
    · rw [(countPoll_same u).2.2.2]
  · intro m rest u f h hf _; exact h.trans (primOf_passed hf u).pulses
  · intro m rest u f h hf _; exact h.trans (primOf_passed hf u).pulses
  · intro rest u h _; rw [(countPoll_same u).2.2.2]; exact h
  · intro rest u h _; show s.pulses <:+ (countPoll u).pulses; rw [(countPoll_same u).2.2.2]; exact h
  · intro rest u h _
    refine h.trans ((countPoll_same u).2.2.2 ▸ (passed_setDir .output (countPoll u)).pulses)
  · intro rest u h _ _
    refine h.trans ((countPoll_same u).2.2.2 ▸ (passed_setDir .output (countPoll u)).pulses)

theorem newPulses_append {s t : State} (h : s.pulses <:+ t.pulses) : t.pulses = newPulses s t ++ s.pulses := by
  obtain ⟨l, hl⟩ := h
  unfold newPulses
  rw [← hl]; simp

/-- Runs from states with one record, whose records act alike, add the same acting pulse events. -/
theorem acting_newPulses {s t u : State} (ht : s.pulses <:+ t.pulses) (hu : s.pulses <:+ u.pulses)
    (h : acting t.pulses = acting u.pulses) : acting (newPulses s t) = acting (newPulses s u) := by
  rw [newPulses_append ht, newPulses_append hu, acting_append, acting_append] at h
  exact List.append_cancel_right h

theorem step_pulses {s t : State} (hi : s.idle = false) (h : step s = .next t) : s.pulses <:+ t.pulses := by
  unfold Machine.step at h
  split at h
  · cases h
  · rw [if_neg (by simp [hi])] at h; cases h; exact runSeq_pulses _ _

theorem run_pulses {n : Nat} {s t : State}
    (hj : ∀ j, j < n → ∃ v, Host.Core.run Sys2Proof.core j s = .next v ∧ v.idle = false)
    (h : Host.Core.run Sys2Proof.core n s = .next t) : s.pulses <:+ t.pulses := by
  induction n generalizing s with
  | zero => cases h; exact List.suffix_refl _
  | succ n ih =>
    obtain ⟨x, hx, hi⟩ := hj 0 (by omega)
    cases hx
    cases hs : step s with
    | next v =>
      have hstep : Sys2Proof.core.step s = .next v := hs
      have run : ∀ j, Host.Core.run Sys2Proof.core (j + 1) s = Host.Core.run Sys2Proof.core j v := by
        intro j; simp only [Host.Core.run, hstep]
      rw [run] at h
      refine (step_pulses hi hs).trans (ih (fun j hjn => ?_) h)
      obtain ⟨y, hy, hyi⟩ := hj (j + 1) (by omega)
      exact ⟨y, (run j).symm.trans hy, hyi⟩
    | fault r =>
      have hstep : Sys2Proof.core.step s = .fault r := hs
      simp only [Host.Core.run, hstep] at h; cases h
    | refused r =>
      have hstep : Sys2Proof.core.step s = .refused r := hs
      simp only [Host.Core.run, hstep] at h; cases h

end Sys2Proof.Machine
end

