-- ==== Sys2Proof/Laws/PerInstr.lean ====
section
/-! SUPPORT. The family OpRow, one lemma per operation: the word of the operation matches the row of the operation
map its OP names, whatever its operands (R93, R94). -/

namespace Sys2Proof.Laws.OpRow

/-- The word matches the row its OP names. -/
def Statement (i : Instr) : Prop := ∃ r ∈ opRows, r.op = fieldOp (encode i) ∧ encode i &&& r.mask = r.pat

/-- A row whose mask and match are packed words, against a packed word. -/
theorem matches_row {b a : Byte} {f : Bool} {t : BitVec 2} {op : BitVec 4} (mb ma : Byte) (mf : Bool) (mt : BitVec 2)
    (hr : (⟨op, packWord 0 0 false 0 op, packWord mb ma mf mt 0xF ||| 0x000080⟩ : OpRow) ∈ opRows)
    (hb : b &&& mb = 0) (ha : a &&& ma = 0) (hf : (f && mf) = false) (ht : t &&& mt = 0) :
    ∃ r ∈ opRows, r.op = fieldOp (packWord b a f t op) ∧ packWord b a f t op &&& r.mask = r.pat := by
  refine ⟨_, hr, by simp, ?_⟩
  have h7 : packWord b a f t op &&& 0x000080 = 0 := by
    apply BitVec.eq_of_getLsbD_eq
    intro i hi
    have : i < 24 := hi
    interval_cases i <;> simp
    exact bit7_packWord b a f t op
  have hop : ∀ o : BitVec 4, o &&& 0xF = o := by decide
  show packWord b a f t op &&& (packWord mb ma mf mt 0xF ||| 0x000080) = packWord 0 0 false 0 op
  rw [BitVec.and_or_distrib_left, h7, packWord_and, hb, ha, hf, ht, hop]
  simp

theorem init : Statement .init := matches_row 0xFF 0xFF true 3 (by decide) rfl rfl rfl rfl
theorem clr : Statement .clr := matches_row 0xFF 0xFF true 3 (by decide) rfl rfl rfl rfl
theorem pix (x y : Nat) (on : Bool) : Statement (.pix x y on) :=
  matches_row 0 0 false 3 (by decide) (by simp) (by simp) (by simp) rfl
theorem setc (mask : Byte) : Statement (.setc mask) := matches_row 0xFF 0 true 3 (by decide) rfl (by simp) rfl rfl
theorem clrc (mask : Byte) : Statement (.clrc mask) := matches_row 0xFF 0 true 3 (by decide) rfl (by simp) rfl rfl
theorem cfgrd : Statement .cfgrd := matches_row 0xFF 0xFF true 3 (by decide) rfl rfl rfl rfl
theorem cfgwr : Statement .cfgwr := matches_row 0xFF 0xFF true 3 (by decide) rfl rfl rfl rfl
theorem sel (t : Target) : Statement (.sel t) := matches_row 0xFF 0xFF true 0 (by decide) rfl rfl rfl (by simp)
theorem wait : Statement .wait := matches_row 0xFF 0xFF true 3 (by decide) rfl rfl rfl rfl
theorem rdb (t : Target) (rs : Bool) : Statement (.rdb t rs) :=
  matches_row 0xFF 0xFF false 0 (by decide) rfl rfl (by simp) (by simp)
theorem rdd (t : Target) : Statement (.rdd t) := matches_row 0xFF 0xFF true 0 (by decide) rfl rfl rfl (by simp)
theorem wrb (value : Byte) (t : Target) : Statement (.wrb value t) :=
  matches_row 0xFF 0 true 0 (by decide) rfl (by simp) rfl (by simp)
theorem wrc (cmd : Byte) (t : Target) : Statement (.wrc cmd t) :=
  matches_row 0xFF 0 true 0 (by decide) rfl (by simp) rfl (by simp)
theorem wrd (data : Byte) (t : Target) : Statement (.wrd data t) :=
  matches_row 0xFF 0 true 0 (by decide) rfl (by simp) rfl (by simp)

end Sys2Proof.Laws.OpRow
end

