-- ==== Sys2Proof/Machine/Assembler.lean ====
section
/-! DEFINITION. The assembler syntax (R99, R100): one request per line, a mnemonic followed by its operands
separated by commas, numbers in decimal or 0x hexadecimal, targets by name, `;` starts a comment. -/

namespace Sys2Proof.Machine

/-- The value of a digit in a base up to 16. -/
def digitOf (base : Nat) (ch : Char) : Option Nat :=
  let n := ch.toNat
  let d := if 48 ≤ n ∧ n ≤ 57 then n - 48
    else if 65 ≤ n ∧ n ≤ 70 then n - 55
    else if 97 ≤ n ∧ n ≤ 102 then n - 87
    else 16
  if d < base then some d else none

/-- Digits, most significant first, onto an accumulator. -/
def digitsFrom (base : Nat) : List Char → Nat → Option Nat
  | [], acc => some acc
  | ch :: rest, acc =>
    match digitOf base ch with
    | some d => digitsFrom base rest (acc * base + d)
    | none => none

/-- A number in decimal or `0x` hexadecimal (R99). -/
def asmNumber : List Char → Option Nat
  | [] => none
  | '0' :: 'x' :: d :: rest => digitsFrom 16 (d :: rest) 0
  | d :: rest => digitsFrom 10 (d :: rest) 0

/-- A number below a bound. -/
def asmBelow (bound : Nat) (cs : List Char) : Option Nat :=
  match asmNumber cs with
  | some n => if n < bound then some n else none
  | none => none

/-- A byte operand (R97, R99). -/
def asmByte (cs : List Char) : Option Byte := (asmBelow 256 cs).map (BitVec.ofNat 8)

/-- A flag operand, 0 or 1 (R99). -/
def asmFlag (cs : List Char) : Option Bool := (asmBelow 2 cs).map (· == 1)

/-- A target by name (R99). -/
def asmTarget (cs : List Char) : Option Target :=
  if cs = "NONE".toList then some .none
  else if cs = "CS1".toList then some .cs1
  else if cs = "CS2".toList then some .cs2
  else if cs = "BOTH".toList then some .both
  else none

/-- Cut at every comma. -/
def cutCommas : List Char → List (List Char)
  | [] => [[]]
  | ch :: rest =>
    match cutCommas rest with
    | [] => [[ch]]
    | first :: more => if ch = ',' then [] :: first :: more else (ch :: first) :: more

/-- A blank of the line. -/
def isBlank (ch : Char) : Bool := ch == ' ' || ch == '\t'

/-- The mnemonic and the operands of a line: the comment dropped, blanks skipped (R99). -/
def asmParts (line : String) : List Char × List (List Char) :=
  let code := (line.toList.takeWhile (· != ';')).dropWhile isBlank
  let mnemonic := code.takeWhile fun ch => !isBlank ch
  let rest := (code.drop mnemonic.length).filter fun ch => !isBlank ch
  (mnemonic, if rest = [] then [] else cutCommas rest)

/-- The request a line of source stands for, pseudo-operations included (R99, R100); `none` where the line is
not of that form. -/
def assembleLine (c : Config) (line : String) : Option Instr :=
  let (m, ops) := asmParts line
  match ops with
  | [] =>
    if m = "INIT".toList then some .init
    else if m = "CLR".toList then some .clr
    else if m = "CFGRD".toList then some .cfgrd
    else if m = "CFGWR".toList then some .cfgwr
    else if m = "WAIT".toList then some .wait
    else if m = "DESEL".toList then some .desel
    else none
  | [a] =>
    if m = "SETC".toList then (asmByte a).map .setc
    else if m = "CLRC".toList then (asmByte a).map .clrc
    else if m = "SEL".toList then (asmTarget a).map .sel
    else if m = "RDD".toList then (asmTarget a).map .rdd
    else if m = "RDS".toList then (asmTarget a).map .rds
    else none
  | [a, b] =>
    if m = "RDB".toList then (asmTarget a).bind fun t => (asmFlag b).map (.rdb t)
    else if m = "WRB".toList then (asmByte a).bind fun v => (asmTarget b).map (.wrb v)
    else if m = "WRC".toList then (asmByte a).bind fun v => (asmTarget b).map (.wrc v)
    else if m = "WRD".toList then (asmByte a).bind fun v => (asmTarget b).map (.wrd v)
    else if m = "PSET".toList then (asmBelow 256 a).bind fun x => (asmBelow 256 b).map (.pset x)
    else if m = "PCLR".toList then (asmBelow 256 a).bind fun x => (asmBelow 256 b).map (.pclr x)
    else if m = "SETADDR".toList then
      (asmBelow 64 a).bind fun n => (asmTarget b).map (.setaddr c (BitVec.ofNat 6 n))
    else if m = "SETPAGE".toList then
      (asmBelow 8 a).bind fun n => (asmTarget b).map (.setpage c (BitVec.ofNat 3 n))
    else none
  | [a, b, d] =>
    if m = "PIX".toList then
      (asmBelow 256 a).bind fun x => (asmBelow 256 b).bind fun y => (asmFlag d).map (.pix x y)
    else none
  | _ => none

/-- The word a line assembles to (R99). -/
def assembleWord (c : Config) (line : String) : Option Word24 := (assembleLine c line).map encode

end Sys2Proof.Machine
end

