-- ==== Sys2Proof/Tests/Slice0.lean ====
section
/-! SUPPORT. Tests, every expected result taken from the spec: the ill-formed terms WellFormed refuses, words written
out from the encoding of R90, R92 and R93, the vectors of spec/95_test_vectors.md one request at a time, and a witness
for the hypotheses of every statement. -/

namespace Sys2Proof.Machine

set_option Elab.async false

/-! ## Small states -/

/-- The parameters with the internal operations exposed. -/
def testConfig : Config := { Config.standard with exposeInternal := true }

/-- A slot whose status samples show 0 in every unspecified bit (95_test_vectors.md section 0). -/
def slot0 : EnvSlot := { din := some 0x00, din2 := some 0x00 }

/-- A slot that makes both controllers busy if they may be. -/
def slotBusy : EnvSlot := { slot0 with busy1 := true, busy2 := true }

/-- A slot in which the block is reset. -/
def slotReset : EnvSlot := { slot0 with reset := true }

/-- State S0: what a completed INIT leaves (95_test_vectors.md section 0), in a calm environment. -/
def stateS0 : State :=
  { State.reset with cfg := testConfig, ctrl := 0x14, env := List.replicate 200 slot0,
                     c1 := { Controller.zero with don := true }, c2 := { Controller.zero with don := true } }

/-- S0 with other control lines. -/
def linesAt (v : Byte) : State := { stateS0 with ctrl := v }

/-- S0 with CS1 selected and controller 1 busy, nobody making it ready. -/
def stuckAt (limit : Option Nat) : State :=
  { stateS0 with cfg := { testConfig with pollLimit := limit }, ctrl := 0x15, c1 := { Controller.zero with busy := true } }

/-- The sequencer at WT.6 of a wait on the busy controller 1, one poll made. -/
def waitingAt (limit : Option Nat) : State :=
  { stuckAt limit with seq := pollBody testConfig ++ .test :: cfgWriteSeq, status := 0x00, dir := .input,
                       loc := { Locals.zero with polls := 1 } }

/-- A wait in progress as WAIT's own (R29, R32). -/
def waitOp (limit : Option Nat) : State := { waitingAt limit with req := encode .wait }

/-- WAIT in progress with these steps left. -/
def midway (limit : Option Nat) (q : List Micro) : State := { waitOp limit with seq := q }

/-- S0 in an environment where a controller is busy after its first byte, until the second poll. -/
def slowAt (limit : Option Nat) : State :=
  { stateS0 with cfg := { testConfig with pollLimit := limit }
                 env := List.replicate 21 slotBusy ++ List.replicate 60 { slot0 with ready1 := true, ready2 := true } }

/-- What a test reads from the state a step answers. -/
def after {α : Type} (o : Host.Outcome State Fault Refusal) (f : State → α) : Option α :=
  match o with
  | .next t => some (f t)
  | .fault _ => none
  | .refused _ => none

/-- The counts of primitives and of pulse events (P/E). -/
def counts (s : State) : Nat × Nat := (s.trace.length, s.pulses.length)

/-! ## WellFormed: coordinates of PIX that no 8-bit field holds (R97) -/

theorem test_wf_refuses_x : (Instr.pix 256 1 true).wf = false := by decide
theorem test_wf_refuses_y : (Instr.pix 1 256 true).wf = false := by decide
theorem test_wf_admits_bytes : (Instr.pix 255 255 true).wf = true ∧ (Instr.pix 0 0 false).wf = true := by decide

/-! ## Words written out: B ++ A ++ Z ++ F ++ T ++ OP (R90, R92, R93) -/

theorem test_word_init : decodeWord 0b000000000000000000000001#24 = .ok .init := by decide
theorem test_word_clr : decodeWord 0b000000000000000000000010#24 = .ok .clr := by decide
theorem test_word_pix : decodeWord 0b000101000000101001000011#24 = .ok (.pix 10 20 true) := by decide
theorem test_word_setc : decodeWord 0b000000000010000100000100#24 = .ok (.setc 0x21) := by decide
theorem test_word_clrc : decodeWord 0b000000000010000000000101#24 = .ok (.clrc 0x20) := by decide
theorem test_word_cfgrd : decodeWord 0b000000000000000000000110#24 = .ok .cfgrd := by decide
theorem test_word_cfgwr : decodeWord 0b000000000000000000000111#24 = .ok .cfgwr := by decide
theorem test_word_sel : decodeWord 0b000000000000000000101000#24 = .ok (.sel .cs2) := by decide
theorem test_word_wait : decodeWord 0b000000000000000000001001#24 = .ok .wait := by decide
theorem test_word_rdb : decodeWord 0b000000000000000001101010#24 = .ok (.rdb .cs2 true) := by decide
theorem test_word_rdd : decodeWord 0b000000000000000000011011#24 = .ok (.rdd .cs1) := by decide
theorem test_word_wrb : decodeWord 0b000000001010010100011100#24 = .ok (.wrb 0xA5 .cs1) := by decide
theorem test_word_wrc : decodeWord 0b000000000011111100111101#24 = .ok (.wrc 0x3F .both) := by decide
theorem test_word_wrd : decodeWord 0b000000001010010100011110#24 = .ok (.wrd 0xA5 .cs1) := by decide

/-- V-ENC-21 to V-ENC-44: rejected words, whatever EXPOSE_INTERNAL is. -/
theorem test_words_rejected :
    [0x000000, 0xFFFFFF, 0x00000F, 0x000081, 0x000011, 0x010001, 0x000102, 0x000083, 0x000013, 0x000023, 0x000033,
     0x010004, 0x000014, 0x000046, 0x000019, 0x000048, 0x00008A, 0x00010A, 0x00004B, 0x01003C, 0x00A55C, 0x00FFFE,
     0xFF00FE].all (fun w : Word24 => match decodeRequest true w with | .ok _ => false | .error _ => true) = true := by
  decide

/-- The opcode table numbers the bits as the request word does. -/
theorem test_table_word : decodeTableWord 24 0x010143 = some (.pix 1 1 true) ∧ decodeTableWord 24 0x00000F = none := by
  decide

/-- V-ENC-4, V-ENC-13, V-ENC-18 and V-ENC-19: source lines (R99, R100). -/
theorem test_assembler : assembleWord Config.standard "PIX 128, 64, 0" = some 0x408003 ∧
    assembleWord Config.standard "RDS CS1" = some 0x00001A ∧
    assembleWord Config.standard "SETADDR 10, CS1 ; column" = some 0x004A1D ∧
    assembleWord Config.standard "SETPAGE 3, CS1" = some 0x00BB1D := by decide +kernel

/-! ## One request at a time -/

/-- V-BUS-1. -/
theorem test_setc : after (exec (.setc 0x21) stateS0) (fun t => (t.ctrl, counts t)) = some (0x35, 1, 0) := by
  decide +kernel
/-- V-BUS-2: a status read, recorded from the state before. -/
theorem test_clrc : after (exec (.clrc 0x20) (linesAt 0x35)) (fun t => (t.ctrl, t.pulses)) =
    some (0x15, [⟨true, false, false, true, true, .output, 0x00⟩]) := by decide +kernel
/-- V-BUS-4: reserved bits. -/
theorem test_clrc_reserved : after (exec (.clrc 0xC0) (linesAt 0xD4)) (fun t => (t.ctrl, counts t)) =
    some (0x14, 1, 0) := by decide +kernel
/-- V-BUS-5: CR.1 is a data write. -/
theorem test_cfgrd : after (exec .cfgrd { linesAt 0x2D with dout := 0x77, c1 := { Controller.zero with ya := 5 } })
    (fun t => (t.ctrl, t.dir, t.ramByte .one 0 5, t.c1.ya)) = some (0x15, .input, 0x77, 6) := by decide +kernel
/-- V-BUS-7. -/
theorem test_cfgwr : after (exec .cfgwr { stateS0 with dir := .input }) (fun t => (t.ctrl, t.dir)) =
    some (0x14, .output) := by decide +kernel
/-- V-SEL-1 to V-SEL-4. -/
theorem test_sel : [Target.none, .cs1, .cs2, .both].map (fun g => after (exec (.sel g) (linesAt 0x16)) State.ctrl) =
    [some 0x14, some 0x15, some 0x16, some 0x17] := by decide +kernel
/-- V-WT-1. -/
theorem test_wait : after (exec .wait (linesAt 0x15)) (fun t => (t.ctrl, t.dir, counts t)) =
    some (0x15, .output, 11, 1) := by decide +kernel
/-- V-WT-2, its first poll: still busy, the sequencer at WT.6. -/
theorem test_wait_busy : after (exec .wait (stuckAt none)) (fun t => (t.idle, t.seq, counts t)) =
    some (false, pollBody testConfig ++ .test :: cfgWriteSeq, 10, 1) := by decide +kernel
/-- V-TR-9: the stale latch. -/
theorem test_rdb : after (exec (.rdb .cs1 true)
      { stateS0 with c1 := { Controller.zero with ol := 0xEE }, mem := [(0, 0x5A), (1, 0x77)] })
    (fun t => (t.result, t.c1.ya, t.c1.ol, t.ctrl, counts t)) = some (0xEE, 1, 0x5A, 0x15, 25, 2) := by decide +kernel
/-- V-TR-10: a status byte. -/
theorem test_rdb_status : after (exec (.rdb .cs1 false) stateS0) (fun t => (t.result, t.c1.ya, t.ctrl, counts t)) =
    some (0x00, 0, 0x15, 24, 2) := by decide +kernel
/-- V-TR-8. -/
theorem test_rdd : after (exec (.rdd .cs1)
      { stateS0 with c1 := { Controller.zero with ol := 0xEE }, mem := [(0, 0x5A), (1, 0x77)] })
    (fun t => (t.result, t.c1.ya, t.c1.ol, t.ctrl, counts t)) = some (0x5A, 2, 0x77, 0x15, 50, 4) := by decide +kernel
/-- V-TR-11: the column wraps. -/
theorem test_rdd_wraps : after (exec (.rdd .cs2)
      { stateS0 with c2 := { Controller.zero with ya := 63 }, mem := [(512, 0x22), (575, 0x11)] })
    (fun t => (t.result, t.c2.ya, t.c2.ol, t.ctrl)) = some (0x11, 1, 0x22, 0x16) := by decide +kernel
/-- V-TR-14: in read mode WRB stores nothing. -/
theorem test_wrb_reads : after (exec (.wrb 0xA5 .cs1) stateS0) (fun t => (t.ctrl, t.mem, counts t)) =
    some (0x14, [], 23, 3) := by decide +kernel
/-- V-TR-15, its last request. -/
theorem test_wrb_writes : after (exec (.wrb 0xA5 .cs1) (linesAt 0x0C))
    (fun t => (t.ramByte .one 0 0, t.c1.ya, t.ctrl)) = some (0xA5, 1, 0x14) := by decide +kernel
/-- V-TR-1: both controllers. -/
theorem test_wrc : after (exec (.wrc 0x3F .both) { stateS0 with c1 := Controller.zero, c2 := Controller.zero })
    (fun t => (t.c1.don, t.c2.don, t.ctrl, counts t)) = some (true, true, 0x14, 38, 4) := by decide +kernel
/-- Set address 5 reaches controller 1 alone (R60, R170). -/
theorem test_wrc_address : after (exec (.wrc 0x45 .cs1) stateS0) (fun t => (t.c1.ya, t.c2.ya, counts t)) =
    some (5, 0, 26, 3) := by decide +kernel
/-- V-TR-5, at position (0, 0). -/
theorem test_wrd : after (exec (.wrd 0xA5 .cs1) stateS0) (fun t => (t.ramByte .one 0 0, t.c1.ya, t.ctrl, counts t)) =
    some (0xA5, 1, 0x14, 27, 3) := by decide +kernel
/-- V-EXC-8: POLL_LIMIT = 1. -/
theorem test_wrc_fails : after (exec (.wrc 0x40 .cs1)
      { stateS0 with cfg := { testConfig with pollLimit := some 1 }, env := List.replicate 40 slotBusy })
    (fun t => (t.status, t.ctrl, t.dout, counts t)) = some (0x0D, 0x15, 0x40, 21, 2) := by decide +kernel
/-- V-PIX-2: the last column of controller 1. -/
theorem test_pix : after (exec (.pix 64 8 true) { stateS0 with mem := [(0, 0x22), (63, 0x01)] })
    (fun t => (t.ramByte .one 0 63, t.c1.ya, t.mem.length, t.ctrl, counts t)) = some (0x81, 0, 2, 0x14, 155, 16) := by
  decide +kernel
/-- V-PIX-4: clearing, the last pixel. -/
theorem test_pix_clear : after (exec (.pix 128 64 false) { stateS0 with mem := [(960, 0x22), (1023, 0xFF)] })
    (fun t => (t.ramByte .two 7 63, t.c2.ya, t.c2.xp, counts t)) = some (0x7F, 0, 7, 155, 16) := by decide +kernel
/-- V-BULK-2: INIT from reset. -/
theorem test_init : after (exec .init { State.reset with env := List.replicate 200 slot0 })
    (fun t => (t.ctrl, t.c1.ya, t.c2.don, counts t)) = some (0x14, 0, true, 197, 21) := by
  decide +kernel
/-- V-EXC-9, up to its first poll: the page command reached both controllers, controller 1 is polled first. -/
theorem test_clr_waits : after (exec .clr { stateS0 with env := List.replicate 40 slotBusy })
    (fun t => (t.c1.xp, t.dout, t.ctrl, counts t, t.idle)) = some (0, 0xB8, 0x15, (20, 2), false) := by decide +kernel
/-- V-BULK-1: the bytes CLR drives, in order. -/
theorem test_clr_bytes : (clearSeq Config.standard).filterMap (fun m => match m with | .setVal v => some v | _ => none) =
    (List.range 8).flatMap (fun p => BitVec.ofNat 8 (0xB8 + p) :: 0x40 :: List.replicate 64 0x00) := by decide +kernel
/-- V-EXC-1: an illegal word. -/
theorem test_illegal : after (step { stateS0 with host := [.issue 0x000000] }) (fun t => (t.status, t.trace)) =
    some (0x03, []) := by decide +kernel
/-- V-ENC-20: an internal operation that is not exposed. -/
theorem test_internal_hidden : after (step { stateS0 with cfg := Config.standard, host := [.issue 0x00A51E] })
    (fun t => (t.status, t.trace)) = some (0x03, []) := by decide +kernel
/-- V-RST-1, V-RST-2: a reset while E is high is one more pulse event. -/
theorem test_engine_reset : after (step { linesAt 0x35 with host := [.engineReset], status := 0x0B })
    (fun t => (t.ctrl, t.status, t.pulses)) = some (0x00, 0x01, [⟨true, false, false, true, true, .output, 0x00⟩]) := by
  decide +kernel
/-- V-RST-4: a data write made with DIR = INPUT stores the bus byte of the environment. -/
theorem test_write_undriven : after (exec (.wrd 0xA5 .cs1)
      { stateS0 with dir := .input, env := List.replicate 60 { slot0 with din := some 0x3C } })
    (fun t => (t.ramByte .one 0 0, t.dir)) = some (0x3C, .output) := by decide +kernel
/-- The table V-PIX-MAP. -/
theorem test_pixel_map :
    [(1, 1), (64, 8), (65, 9), (128, 64), (10, 20), (33, 17), (100, 33), (3, 11)].map (fun p : Nat × Nat =>
      (pixCtl p.1, setAddressCmd Config.standard (pixCol p.1), setPageCmd Config.standard (pixPage p.2),
        pixMask p.2 true, pixMask p.2 false)) =
    [(.one, 0x40, 0xB8, 0x01, 0xFE), (.one, 0x7F, 0xB8, 0x80, 0x7F), (.two, 0x40, 0xB9, 0x01, 0xFE),
     (.two, 0x7F, 0xBF, 0x80, 0x7F), (.one, 0x49, 0xBA, 0x08, 0xF7), (.one, 0x60, 0xBA, 0x01, 0xFE),
     (.two, 0x63, 0xBC, 0x01, 0xFE), (.one, 0x42, 0xB9, 0x04, 0xFB)] := by decide

/-! ## Witnesses: for every statement with hypotheses, states and operands that meet all of them -/

/-- S0 is steady and at rest, and its parameters are decoded: the hypotheses of PIX and CLR, and of the byte
transport. -/
theorem test_S0_steady : stateS0.steady ∧ stateS0.atRest ∧ stateS0.cfg.refDecodes = true := by
  unfold State.steady State.undisturbed State.atRest; decide +kernel

/-- Every operation has a well-formed instance, PIX at both ends of its fields. -/
theorem test_witness_encoding : [Instr.init, .clr, .pix 0 255 true, .setc 0xFF, .clrc 0, .cfgrd, .cfgwr, .sel .none, .wait,
    .rdb .both true, .rdd .none, .wrb 0 .cs1, .wrc 0xFF .both, .wrd 0 .cs2].all Instr.wf = true := by decide

theorem test_witness_EncodeOfDecode : decodeWord 0xFFFF43 = .ok (.pix 255 255 true) := by decide

/-- Each clause of the procedure's steps (1) to (3), and a word it calls legal. -/
theorem test_witness_DecodeProcedure : illegalWord true 0x00FF10 ∧ illegalWord true 0x00FF1F ∧
    illegalWord false 0x000004 ∧ illegalWord false 0x00000E ∧ illegalWord true 0x000083 ∧
    decodeRequest false 0x000003 = .ok (.pix 0 0 false) ∧ decodeRequest true 0x00003E = .ok (.wrd 0 .both) := by
  unfold illegalWord; decide

/-- Bit 7 of every operation; the first bit PIX leaves unused. -/
theorem test_witness_UnusedBits : (List.range 14).all (fun n =>
      let w : Word24 := BitVec.ofNat 24 (0x80 + n + 1)
      fieldOp w != 0x0 && fieldOp w != 0xF && w &&& ~~~ usedBits (fieldOp w) != 0) = true ∧
    (0x000013 : Word24) &&& ~~~ usedBits 0x3 ≠ 0 := by decide

theorem test_witness_StepRuns : ({ stateS0 with host := [.issue 0x010143] }).protoFault = none ∧
    ({ stateS0 with host := [.issue 0x010143] }).idle = true ∧
    decodeRequest stateS0.cfg.exposeInternal 0x010143 = .ok (.pix 1 1 true) := by decide

theorem test_witness_IllegalRequest : stateS0.protoFault = none ∧ stateS0.idle = true ∧
    illegalWord stateS0.cfg.exposeInternal 0x000000 := by unfold illegalWord; decide

theorem test_witness_BusyEngine : (waitingAt none).idle = false ∧ ∃ t, step (waitingAt none) = .next t := ⟨by decide, _, rfl⟩

theorem test_witness_OnlyProtocolFaults : stateS0.protoFault = none ∧
    ({ stateS0 with protoFault := some (.one, .dataWrite) }).protoFault = some (.one, .dataWrite) := by decide

/-- Both ends: an operation that completes, one that stands at a poll. -/
theorem test_witness_OperationsStay : stateS0.protoFault = none ∧ stateS0.noReset = true ∧ (stuckAt none).noReset = true ∧
    after (exec (.wrd 0 .both) stateS0) State.protoFault = some none ∧
    after (exec .wait (stuckAt none)) State.protoFault = some none := by decide +kernel

/-- One engine step each: acceptance of a data write; a primitive, and the last primitive of a poll; an assignment, with
the step after it; the completion, and with RESULT. -/
theorem test_witness_EngineSteps :
    (let s := { stateS0 with host := [.issue 0x00A51E] }
     s.protoFault = none ∧ s.idle = true ∧ decodeRequest s.cfg.exposeInternal 0x00A51E = .ok (.wrd 0xA5 .cs1)) ∧
    (waitOp none).protoFault = none ∧ (waitOp none).idle = false ∧ (waitOp none).noResetNow = true ∧
    (waitOp none).seq = .ctrlSet testConfig.mE :: ((pollBody testConfig).drop 1 ++ .test :: cfgWriteSeq) ∧
    isPrimitive (.ctrlSet testConfig.mE) = true ∧ isPrimitive (.delay .settle) = true ∧
    isPrimitive (.setTgt .cs1) = false ∧ (∃ u, micro (.setTgt .cs1) [.selectTgt] (midway none (selectSeq .cs1)) = .go u) ∧
    (midway none []).seq = [] ∧ (midway none [.setResult]).seq = [.setResult] :=
  ⟨by decide, by decide, by decide, by decide, by decide, by decide, by decide, by decide, ⟨_, rfl⟩, rfl, rfl⟩

/-- V-BUS-1, one engine step at a time: accepted, the primitive, completed; IDLE is 0 between them (R20, R37). -/
theorem test_setc_steps : [1, 2, 3].map (fun n => after (engineRun n { stateS0 with host := [.issue 0x002104] })
      (fun t => (t.idle, t.ctrl, t.trace.length))) =
    [some (false, 0x14, 0), some (false, 0x35, 1), some (true, 0x35, 1)] := by decide +kernel

/-- R30, R140: `Select` of a target operand goes by TGT. -/
theorem test_sel_steps : after (engineStep (midway none (selectSeq .cs2))) (fun t => (t.ctrl, t.loc.tgt, t.trace.length, t.seq)) =
    some (0x16, .cs2, 1, []) := by decide +kernel

/-- R155: after the last primitive of the second busy poll of three the sequencer is at WT.6 again; of two it goes on to
`SetDir(OUTPUT)` with the exception. -/
theorem test_poll_steps : [3, 2].map (fun n =>
      let s := midway (some n) (.delay .settle :: .test :: cfgWriteSeq)
      after (engineRun 2 { s with loc := { s.loc with smp := 0x80 } }) (fun t => (t.status, t.dir, t.trace.length, t.seq))) =
    [some (0x00, .input, 2, (pollBody testConfig).drop 1 ++ .test :: cfgWriteSeq), some (0x0D, .output, 2, [])] := by
  decide +kernel

theorem test_witness_MachineStep : ({ stateS0 with host := [.issue 0x002104] }).protoFault = none ∧
    ∃ t, step { stateS0 with host := [.issue 0x002104] } = .next t := ⟨rfl, _, rfl⟩

/-- Both sides of the premise on RST: S0 keeps it, the reset state loses it. -/
theorem test_witness_Setc : stateS0.protoFault = none ∧ stateS0.noResetNow = true ∧ stateS0.flagRST = true ∧
    State.reset.protoFault = none ∧ State.reset.noResetNow = true ∧ State.reset.flagRST = false ∧
    flagIn 0x04 State.reset.cfg.mRST = true ∧ State.reset.slot.ramLostOf .one = false := by decide

/-- E falling in a status read, E falling in a data write while a selected controller is busy, and a mask that lowers no
E while a controller is busy. -/
theorem test_witness_Clrc : (linesAt 0x35).cfg.wf = true ∧ (linesAt 0x35).protoFault = none ∧
    (linesAt 0x35).noResetNow = true ∧
    ((linesAt 0x35).flagE && flagIn 0x20 testConfig.mE && (linesAt 0x35).hitsBusy) = false ∧
    (let s := { stuckAt none with ctrl := 0x2D }
     s.cfg.wf = true ∧ s.protoFault = none ∧ s.noResetNow = true ∧ (s.flagE && flagIn 0x20 s.cfg.mE && s.hitsBusy) = true) ∧
    ((stuckAt none).flagE && flagIn 0x20 testConfig.mE) = false := by decide

/-- R121 with a busy controller: the lines are as without it. -/
theorem test_clrc_busy : after (exec (.clrc 0x21) { stuckAt none with ctrl := 0x2D }) (fun t =>
    (t.ctrl, t.protoFault, t.mem)) = some (0x0C, some (.one, .dataWrite), []) := by decide +kernel

/-- E high with controller 1 selected in a data write, and E low beside a busy controller; controller 1 busy, and the
data write reaching it. -/
theorem test_witness_Cfgrd : (linesAt 0x2D).cfg.wf = true ∧ (linesAt 0x2D).protoFault = none ∧
    (linesAt 0x2D).noReset = true ∧ ((linesAt 0x2D).flagE && (linesAt 0x2D).hitsBusy) = false ∧
    ((stuckAt none).flagE && (stuckAt none).hitsBusy) = false ∧
    (let s := { stuckAt none with ctrl := 0x2D }
     s.cfg.wf = true ∧ s.protoFault = none ∧ s.noReset = true ∧ (s.flagE && s.hitsBusy) = true) := by decide

/-- CFGWR and SEL ask no more than this. -/
theorem test_witness_CfgwrSel : stateS0.cfg.wf = true ∧ stateS0.protoFault = none ∧ stateS0.noResetNow = true := by decide

/-- A command write, a data write and a data read with controller 1 selected, controller 2 not. -/
theorem test_witness_Receives : [linesAt 0x25, linesAt 0x2D, linesAt 0x3D].all (fun s =>
      s.cfg.wf && s.protoFault.isNone && s.noResetNow && s.flagE && flagIn 0x20 s.cfg.mE && s.flagRST &&
        s.selected .one && !s.selected .two && !(s.ctl .one).busy) = true ∧
    (linesAt 0x25).flagRS = false ∧ (linesAt 0x25).flagRW = false ∧ (linesAt 0x2D).flagRS = true ∧
    (linesAt 0x2D).flagRW = false ∧ (linesAt 0x3D).flagRS = true ∧ (linesAt 0x3D).flagRW = true := by decide

/-- Every boundary of the command ranges lies in one range (R60). -/
theorem test_witness_CommandBytes :
    [0x00, 0x3D, 0x3E, 0x3F, 0x40, 0x7F, 0x80, 0xB7, 0xB8, 0xBF, 0xC0, 0xFF].map (fun b : Byte =>
      let k := commandEffect Config.standard b { Controller.zero with ya := 1, xp := 1, zl := 1 }
      (k.ya.toNat, k.xp.toNat, k.zl.toNat, k.don, k.unmodelled)) =
    [(1, 1, 1, false, true), (1, 1, 1, false, true), (1, 1, 1, false, false), (1, 1, 1, true, false),
     (0, 1, 1, false, false), (63, 1, 1, false, false), (1, 1, 1, false, true), (1, 1, 1, false, true),
     (1, 0, 1, false, false), (1, 7, 1, false, false), (1, 1, 0, false, false), (1, 1, 63, false, false)] := by decide

/-- The three cases: a status read, nobody selected, the reset-assert window. -/
theorem test_witness_IdlePulses : [linesAt 0x35, linesAt 0x2C, linesAt 0x23].all (fun s =>
      s.cfg.wf && s.protoFault.isNone && s.noResetNow && s.flagE && flagIn 0x20 s.cfg.mE) = true ∧
    ((linesAt 0x35).flagRW = true ∧ (linesAt 0x35).flagRS = false) ∧
    ((linesAt 0x2C).flagCS1 = false ∧ (linesAt 0x2C).flagCS2 = false) ∧ (linesAt 0x23).flagRST = false := by decide

/-- Controller 1 busy, E high, a data write under way: selected alone, and selected with a ready controller 2; and
controller 2 the busy one. -/
theorem test_witness_BusyController : [{ stuckAt none with ctrl := 0x2D }, { stuckAt none with ctrl := 0x2F },
      { linesAt 0x2F with c2 := { Controller.zero with busy := true } }].all (fun s => s.cfg.wf && s.protoFault.isNone &&
        s.noResetNow && s.flagE && flagIn 0x20 s.cfg.mE && s.hitsBusy) = true := by decide

/-- R71 with both selected: the ready controller acts, the busy one does not. -/
theorem test_busy_and_ready : after (exec (.clrc 0x20) { stuckAt none with ctrl := 0x2F, dout := 0xA5 }) (fun t =>
    (t.protoFault, t.mem, t.c1.ya, t.c2.ya)) = some (some (.one, .dataWrite), [(512, 0xA5)], 0, 1) := by decide +kernel

/-- A data read and a status read of controller 1 alone, DIR = INPUT; and each case of `any byte`: both selected, none,
write mode, the engine driving, the display in reset, E low. -/
theorem test_witness_Sample : [linesAt 0x3D, linesAt 0x35].all (fun s => s.cfg.wf && s.flagCS1 && !s.flagCS2 &&
      s.flagRST && s.flagE && s.flagRW && { s with dir := .input }.dir == .input) = true ∧
    (linesAt 0x3D).flagRS = true ∧ (linesAt 0x35).flagRS = false ∧
    (linesAt 0x37).flagCS1 = (linesAt 0x37).flagCS2 ∧ (linesAt 0x34).flagCS1 = (linesAt 0x34).flagCS2 ∧
    (linesAt 0x25).flagRW = false ∧ (linesAt 0x35).dir = .output ∧ (linesAt 0x31).flagRST = false ∧
    (linesAt 0x15).flagE = false := by decide

theorem test_witness_WaitReturns : (linesAt 0x15).steady ∧ (linesAt 0x15).selectsOnly .one ∧
    (linesAt 0x36).steady ∧ (linesAt 0x36).selectsOnly .two ∧ (linesAt 0x36).flagE = true := by
  unfold State.steady State.undisturbed State.selectsOnly; decide +kernel

theorem test_witness_WaitStands : (stuckAt none).cfg.wf = true ∧ (stuckAt none).protoFault = none ∧
    (stuckAt none).stuck .one = true ∧ (stuckAt none).cfg.pollLimit ≠ some 1 ∧ (stuckAt none).flagE = false ∧
    (stuckAt none).facesBusy .one := by unfold State.facesBusy State.selectsOnly; decide +kernel

/-- The waits in progress: unbounded, and at their last poll. -/
theorem test_witness_Waiting : (waitingAt none).waiting cfgWriteSeq ∧ (waitingAt none).facesBusy .one ∧
    (waitingAt none).stuck .one = true ∧ (waitingAt none).cfg.wf = true ∧ (waitingAt none).noReset = true ∧
    (waitingAt none).cfg.pollLimit = none ∧ (waitingAt (some 2)).waiting cfgWriteSeq ∧
    (waitingAt (some 2)).facesBusy .one ∧ (waitingAt (some 2)).stuck .one = true ∧
    (waitingAt (some 2)).cfg.pollLimit = some ((waitingAt (some 2)).loc.polls + 1) ∧
    (waitingAt (some 3)).cfg.pollLimit ≠ some ((waitingAt (some 3)).loc.polls + 1) ∧
    (waitingAt (some 3)).loc.polls < 3 ∧ (waitingAt (some 3)).waiting cfgWriteSeq ∧
    (waitingAt (some 3)).facesBusy .one ∧ (waitingAt (some 3)).stuck .one = true := by
  unfold State.waiting State.facesBusy State.selectsOnly; decide +kernel

/-- R155 at its boundary: the second poll of two fails, the second of three does not, and the second of two returns
normally where it finds the controller ready (V-WT-6). -/
theorem test_poll_limit : after (step (waitingAt (some 2))) (fun t => (t.status, t.dir, t.seq)) = some (0x0D, .output, []) ∧
    after (step (waitingAt (some 3))) (fun t => (t.status, t.dir, t.loc.polls)) = some (0x00, .input, 2) ∧
    after (step { waitingAt (some 2) with env := List.replicate 9 { slot0 with ready1 := true } })
      (fun t => (t.status, t.dir, t.seq)) = some (0x01, .output, []) := by
  decide +kernel

/-- R243 with nobody and with both selected: the byte sampled shows busy, and UWHO is 0b00 and 0b11. -/
theorem test_last_poll_any_selection : [(0x14, 0x05), (0x17, 0x1D)].all (fun p : Byte × Byte =>
    after (step { waitingAt (some 2) with ctrl := p.1, env := List.replicate 9 { din := some 0xFF } })
      (fun t => (t.status, t.dir, t.trace.length)) == some (p.2, .output, 6)) = true := by decide +kernel

/-- The last poll of a bounded wait, nobody selected and both. -/
theorem test_witness_LastPoll : [(0x14 : Byte), 0x17].all (fun v =>
      let s := { waitingAt (some 2) with ctrl := v }
      s.cfg.wf && s.noReset && s.seq == pollBody s.cfg ++ .test :: cfgWriteSeq && !s.idle && s.protoFault.isNone &&
        s.dir == .input && !s.flagE && !s.flagRS && s.flagRW && s.cfg.pollLimit == some (s.loc.polls + 1)) = true := by
  decide

/-- Just outside the display on each side (R201). -/
theorem test_witness_OutOfRange : (0 < 1 ∨ 128 < 0 ∨ 5 < 1 ∨ 64 < 5) ∧ (129 < 1 ∨ 128 < 129 ∨ 5 < 1 ∨ 64 < 5) ∧
    (5 < 1 ∨ 128 < 5 ∨ 0 < 1 ∨ 64 < 0) ∧ (5 < 1 ∨ 128 < 5 ∨ 65 < 1 ∨ 64 < 65) := by decide

/-- V-PIX-10 to V-PIX-13: no primitive, nothing stored, no error. -/
theorem test_pix_out_of_range : [(0, 5), (129, 5), (5, 0), (5, 65)].all (fun p : Nat × Nat =>
    after (exec (.pix p.1 p.2 true) stateS0) (fun t => (t.status, t.mem, t.trace)) == some (0x01, [], [])) = true := by
  decide +kernel

/-- Pixels at every edge, with the state of PIX. -/
theorem test_witness_Pix : stateS0.steady ∧ stateS0.atRest ∧ stateS0.cfg.refDecodes = true ∧
    [(1, 1), (64, 8), (65, 9), (128, 64)].all (fun p : Nat × Nat =>
      decide (1 ≤ p.1 ∧ p.1 ≤ 128 ∧ 1 ≤ p.2 ∧ p.2 ≤ 64)) = true :=
  ⟨test_S0_steady.1, test_S0_steady.2.1, test_S0_steady.2.2, by decide⟩

/-- V-PIX-7: setting, then clearing. -/
theorem test_witness_SetThenClear : ∃ t u, exec (.pix 3 11 true) stateS0 = .next t ∧ exec (.pix 3 11 false) t = .next u :=
  ⟨_, _, rfl, rfl⟩

theorem test_set_then_clear : after (exec (.pix 3 11 true) { stateS0 with mem := [(66, 0x5A), (67, 0)] })
    (fun t => (t.ramByte .one 1 2, after (exec (.pix 3 11 false) { t with env := List.replicate 200 slot0 })
      fun u => u.ramByte .one 1 2)) = some (0x5E, some 0x5A) := by decide +kernel

/-- The byte transport begun with DIR = INPUT, and with E high (R281, R287). -/
theorem test_witness_Transport : ({ stateS0 with dir := .input }).steady ∧ (linesAt 0x35).steady ∧
    ({ linesAt 0x2D with dir := .input }).steady := by
  unfold State.steady State.undisturbed; decide +kernel

/-- V-RST-5: a write begun with E high: its first primitive is a pulse event more, here a data write of DOUT. -/
theorem test_write_begun_high : after (exec (.wrd 0xA5 .cs1) { linesAt 0x2D with dout := 0x77 })
    (fun t => (t.ramByte .one 0 0, t.ramByte .one 0 1, t.c1.ya, counts t)) = some (0x77, 0xA5, 2, 27, 4) := by
  decide +kernel

/-- A write after which controller 1 is busy for one poll more, the wait unbounded and bounded (R172). -/
theorem test_witness_ExtraPolls : [none, some 3].all (fun limit =>
      let s := slowAt limit
      s.cfg.wf && s.protoFault.isNone && s.noReset && s.ramKept && s.allReady && s.dir == .output && !s.flagE &&
        s.flagRST && !hostMask (.wrd 0xA5 .cs1) && !s.unresp &&
        after (exec (.wrd 0xA5 .cs1) s) (fun u => (u.idle, after (step u) fun t => (t.idle, t.unresp))) ==
          some (false, some (true, false))) = true := by decide +kernel

/-- … and ready at once it ends in one step. -/
theorem test_witness_ExtraPollsAtOnce : ∀ limit ∈ [none, some 3],
    ∃ u, exec (.wrd 0xA5 .cs1) { slowAt limit with env := [] } = .next u ∧ u.idle = true ∧ u.unresp = false := by
  intro limit hl
  have w : (slowAt limit).cfg.wf = true := by
    simp only [List.mem_cons, List.not_mem_nil, or_false] at hl
    rcases hl with rfl | rfl <;> decide
  have q : Quiet (accept (.wrd 0xA5 .cs1) { slowAt limit with env := [] }) := ⟨w, rfl, rfl, rfl, rfl⟩
  obtain ⟨b, u, -, g, r, -⟩ := go_writeData q .cs1 0xA5 (by show flagIn (0x14 : Byte) 0x04 = true; decide)
  have hu : u.status = statusBusy 0x01 := r.status
  refine ⟨complete u, by rw [exec_prog]; exact congrArg _ (runSeq_of_runGo g), ?_, ?_⟩
  · show (statusIdle u.status).getLsbD 0 = true; rw [hu]; decide
  · show (statusIdle u.status).getLsbD 2 = false; rw [hu]; decide

/-- V-TR-16: five primitives and one pulse event more for the extra poll, the same byte stored (R172). -/
theorem test_extra_poll : after (exec (.wrd 0xA5 .cs1) (slowAt none)) (fun u =>
    (after (step u) fun t => (t.ramByte .one 0 0, t.c1.ya, t.ctrl, counts t)) == some (0xA5, 1, 0x14, 32, 4)) =
    some true := by decide +kernel

/-- INIT keeps the premise of the extra polls: the release leaves both controllers ready. -/
theorem test_witness_ExtraPollsInit : (slowAt none).atRest ∧ [Ctl.one, .two].all (fun c =>
    !((List.replicate 60 slot0).getD 4 {}).busyOf c) = true := by
  unfold State.atRest; decide

/-- R220: the command bytes of CLR at the default parameters, 0xB8, 0x40, 0xB9, 0x40, ..., 0xBF, 0x40. -/
theorem test_clr_commands : (List.range 8).flatMap (fun p =>
      ((pagePulses Config.standard p).filter fun q => !q.rs).map fun q => q.byte) =
    [0xB8, 0x40, 0xB9, 0x40, 0xBA, 0x40, 0xBB, 0x40, 0xBC, 0x40, 0xBD, 0x40, 0xBE, 0x40, 0xBF, 0x40] := by decide

/-- INIT: from reset, from S0 with an enable-high interval open, and where its entry pulse is a data write. -/
theorem test_witness_Init : State.reset.undisturbed ∧ State.reset.cfg.refDecodes = true ∧ State.reset.ramKept = true ∧
    (linesAt 0x35).undisturbed ∧ (linesAt 0x35).ramKept = true ∧
    ((linesAt 0x35).selected .one && (linesAt 0x35).flagRS && !(linesAt 0x35).flagRW && (linesAt 0x35).flagRST) = false ∧
    (linesAt 0x0D).undisturbed ∧ (linesAt 0x0D).ramKept = true ∧
    ((linesAt 0x0D).selected .one && (linesAt 0x0D).flagRS && !(linesAt 0x0D).flagRW && (linesAt 0x0D).flagRST) = true := by
  unfold State.undisturbed; decide +kernel

/-- R221, R287 (b): INIT's entry pulse as a data write of DOUT to controller 1, and its five commands in their order. -/
theorem test_init_entry : after (exec .init { linesAt 0x0D with dout := 0x77 }) (fun t =>
    (t.mem, ((acting t.pulses).map fun p => (p.sel1, p.sel2, p.rs, p.byte)))) =
    some ([(0, 0x77)], [(true, true, false, 0xB8), (true, true, false, 0x40), (true, true, false, 0xC0),
      (true, true, false, 0x3F), (true, true, false, 0x3E), (true, false, true, 0x77)]) := by decide +kernel

/-- The idle engine, with E low and with E high. -/
theorem test_witness_EngineReset : ({ stateS0 with host := [.engineReset] }).cfg.wf = true ∧
    ({ stateS0 with host := [.engineReset] }).protoFault = none ∧ ({ stateS0 with host := [.engineReset] }).idle = true ∧
    ({ stateS0 with host := [.engineReset] }).flagE = false ∧ (linesAt 0x35).flagE = true := by decide

/-- A wait in progress, and the block reset at its first primitive and at its last. -/
theorem test_witness_ResetEndsTheHang : [0, 4].all (fun n =>
      let s := { waitingAt none with env := List.replicate n slot0 ++ [slotReset] }
      s.cfg.wf && s.seq == pollBody s.cfg ++ .test :: cfgWriteSeq && !s.idle && s.protoFault.isNone && s.dir == .input &&
        !s.flagE && !s.flagRS && s.flagRW && (List.range n).all (fun j => !(s.env.getD j {}).reset) &&
        (s.env.getD n {}).reset) = true := by decide

/-- V-RST-2 inside an operation: the reset strikes with E high, one more pulse event. -/
theorem test_reset_in_poll : after (step { waitingAt none with env := List.replicate 4 slot0 ++ [slotReset] })
      (fun t => (t.ctrl, t.status, counts t)) = some (0x00, 0x01, 4, 1) ∧
    after (step { waitingAt none with env := [slot0, slot0, slotReset] })
      (fun t => (t.ctrl, t.status, t.trace.length, t.pulses)) =
        some (0x00, 0x01, 2, [⟨true, false, false, true, true, .input, 0x00⟩]) := by decide +kernel

/-- The first primitive of an operation, E high; a resumed sequence; a later primitive of a first step. -/
theorem test_witness_ResetStrikes : ({ linesAt 0x35 with env := [slotReset] }).slot.reset = true ∧
    (let s := { waitingAt none with env := [slotReset] }
     s.cfg.wf = true ∧ s.protoFault = none ∧ s.idle = false ∧ s.slot.reset = true ∧
       s.seq = .ctrlSet s.cfg.mE :: ((pollBody s.cfg).drop 1 ++ .test :: cfgWriteSeq) ∧
       isPrimitive (.ctrlSet s.cfg.mE) = true) ∧
    (let s := { stateS0 with env := [slot0, slot0, slotReset] }
     (∀ j, j < 2 → (s.env.getD j {}).reset = false) ∧ (s.env.getD 2 {}).reset = true ∧
       ∃ t, runsOperation (.wrd 0xA5 .both) s t) :=
  ⟨by decide, by decide, by decide, by decide, _, .inl rfl⟩

/-- A state with both sticky flags set, no reset coming. -/
theorem test_witness_Sticky : ({ stateS0 with status := 0x0F, host := [.issue 0] }).noReset = true ∧
    ({ stateS0 with status := 0x0F }).err = true ∧ ({ stateS0 with status := 0x0F }).unresp = true ∧
    ∃ t, step { stateS0 with status := 0x0F, host := [.issue 0] } = .next t := by
  refine ⟨by decide, by decide, by decide, ?_⟩
  exact ⟨_, rfl⟩

/-- A later step of an operation: WAIT, standing at WT.6. -/
theorem test_witness_InOperation : (waitOp none).inOperation .wait ∧ (waitOp none).waiting cfgWriteSeq ∧
    (waitOp none).cfg.wf = true ∧ (waitOp none).noReset = true ∧ (waitOp none).protoFault = none ∧
    (∃ t, step (waitOp none) = .next t ∧ t.protoFault = none) ∧
    (∃ t, step (waitOp (some 2)) = .next t ∧ t.idle = true) := by
  refine ⟨⟨by decide, rfl, cfgReadSeq testConfig ++ [.pollsZero], rfl⟩, ?_, by decide, by decide, by decide,
    ⟨_, rfl, rfl⟩, ⟨_, rfl, rfl⟩⟩
  unfold State.waiting; decide

/-- The same with the display held in reset. -/
theorem test_witness_InOperationReset : ({ waitOp none with ctrl := 0x11 }).flagRST = false ∧
    ({ waitOp none with ctrl := 0x11 }).inOperation .wait :=
  ⟨by decide, by decide, rfl, cfgReadSeq testConfig ++ [.pollsZero], rfl⟩

/-- For the rules over all operations: S0, and S0 with the display held in reset. -/
theorem test_witness_Operations : stateS0.cfg.wf = true ∧ stateS0.noReset = true ∧ stateS0.protoFault = none ∧
    stateS0.atRest ∧ stateS0.ramKept = true ∧ (linesAt 0x10).noReset = true ∧ (linesAt 0x10).flagRST = false ∧
    hostMask (.sel .cs1) = false ∧ ∃ t, exec (.sel .cs1) stateS0 = .next t := by
  refine ⟨by decide, by decide, by decide, ?_, by decide, by decide, by decide, rfl, _, rfl⟩
  unfold State.atRest; decide

/-- R280: an operation that ends idle; a wait that fails ends idle too. -/
theorem test_witness_Rest : after (exec (.wrd 0 .both) stateS0) State.idle = some true ∧
    after (exec .wait (stuckAt (some 1))) (fun t => (t.idle, t.dir, t.flagE)) = some (true, .output, false) := by
  decide +kernel

/-- A step in which controller 2 receives no data write: controller 1 does. -/
theorem test_witness_OnlyDataWrites : stateS0.ramKept = true ∧
    after (step { linesAt 0x14 with host := [.issue 0x00A51E] })
      (fun t => (newPulses stateS0 t).all fun p => !(p.kind == .dataWrite && p.selects .two && p.rst)) = some true := by
  decide +kernel

/-- An orderly host at reset: INIT, then CLR and a pixel. -/
theorem test_witness_Handshake :
    ({ State.reset with host := [.issue 0x000001, .issue 0x000002, .issue 0x010143] }).orderly := by
  refine ⟨by decide, by decide, fun m hm => ?_⟩
  simp only [List.mem_cons, List.not_mem_nil, or_false] at hm
  rcases hm with rfl | rfl | rfl <;> exact ⟨_, rfl, fun _ => by decide⟩

/-- A state in the middle of its work that meets the launch premise: controller 1 busy, a public PIX waiting on it. -/
theorem test_witness_HandshakeBusy :
    ({ waitingAt none with cfg := Config.standard }).handshake := by
  refine ⟨by decide, rfl, by decide, rfl, ⟨rfl, by decide, fun m hm => nomatch hm⟩, by decide +kernel, fun h => absurd h (by decide)⟩

/-- The invariant with the sequencer in the middle of a wait; and, of the engine steps, with nothing left but to complete. -/
theorem test_witness_Invariant : (waitingAt none).inv ∧ (∃ t, step (waitingAt none) = .next t) ∧
    (midway none []).engineInv ∧ ∃ t, engineStep (midway none []) = .next t := by
  refine ⟨?_, ⟨_, rfl⟩, ?_, _, rfl⟩
  · unfold State.inv State.engineInv State.statusLegal; decide +kernel
  · unfold State.engineInv State.statusLegal; decide +kernel

/-- An engine step in the middle of WAIT; operations that are over at once and after one more step. -/
theorem test_witness_Locals : (∃ t, runsOperation .wait (waitOp none) t ∧ t.idle = false) ∧
    (∃ t, overAfter .wait 0 (linesAt 0x15) t) ∧ ∃ t, overAfter (.wrd 0xA5 .cs1) 1 (slowAt none) t := by
  refine ⟨⟨_, .inr ⟨test_witness_InOperation.1, .inr rfl⟩, by decide +kernel⟩,
    ⟨_, _, rfl, fun j hj => absurd hj (Nat.not_lt_zero j), rfl, by decide +kernel⟩,
    ⟨_, _, rfl, fun j hj => ?_, rfl, by decide +kernel⟩⟩
  obtain rfl : j = 0 := by omega
  exact ⟨_, rfl, by decide +kernel⟩

/-- WaitPollsWhateverIsSelected: with both controllers selected, and with none. -/
theorem test_witness_WaitPolls : (linesAt 0x17).cfg.wf = true ∧ (linesAt 0x17).protoFault = none ∧
    (linesAt 0x17).noReset = true ∧ (linesAt 0x17).flagE = false ∧ (linesAt 0x17).flagCS1 = true ∧
    (linesAt 0x17).flagCS2 = true ∧ (linesAt 0x14).cfg.wf = true ∧ (linesAt 0x14).protoFault = none ∧
    (linesAt 0x14).noReset = true ∧ (linesAt 0x14).flagE = false ∧ (linesAt 0x14).flagCS1 = false ∧
    (linesAt 0x14).flagCS2 = false := by decide

end Sys2Proof.Machine
end

section
/-! PROOF of O12 (R12, R29, R32, R150, R154): a run of an operation's sequence, from its first step or from WT.6, either
leaves the engine idle or stands at WT.6 again with the operation in progress. -/

namespace Sys2Proof.Machine

/-! ## The lines at WT.6 -/

/-- The lines at WT.6: DIR = INPUT, E and RS low, RW high (R150). -/
def pollLines : Lines := ⟨.input, false, false, true⟩

/-- A test is admitted with the lines of WT.6 and no others (R150). -/
theorem admits_test {l : Lines} : l.admits .test = true ↔ l = pollLines := by
  obtain ⟨d, e, rs, rw⟩ := l
  simp [Lines.admits, pollLines, and_assoc]

theorem disciplined_drop {c : Config} {p q : List Micro} {l : Lines} (h : disciplined c l (p ++ q) = true) :
    disciplined c (l.afterAll c p) q = true := by
  rw [disciplined_append, Bool.and_eq_true] at h
  exact h.2

theorem disciplined_test_lines {c : Config} {l : Lines} {rest : List Micro}
    (h : disciplined c l (.test :: rest) = true) : l = pollLines := by
  rw [disciplined, Bool.and_eq_true] at h
  exact admits_test.mp h.1

/-- A poll from WT.6 is disciplined. -/
theorem disciplined_pollBody {c : Config} (w : c.wf = true) : disciplined c pollLines (pollBody c) = true := by
  simp [pollBody, pollLines, disciplined, Lines.admits, Lines.after, flag_mE_mE w]

/-- A poll leaves the lines as it found them at WT.6. -/
theorem afterAll_pollBody {c : Config} (w : c.wf = true) : pollLines.afterAll c (pollBody c) = pollLines := by
  simp [pollBody, pollLines, Lines.afterAll, Lines.after, flag_mE_mE w, flag_mE_mRS w, flag_mE_mRW w]

/-- A remainder that stands at WT.6 is disciplined from the lines of WT.6: its test admits no others before the rest of
the sequence, and the poll leaves them so. -/
theorem disciplined_at_poll {c : Config} (w : c.wf = true) {i : Instr} {done rest : List Micro}
    (h : progOf c i = done ++ (pollBody c ++ .test :: rest)) :
    disciplined c pollLines (pollBody c ++ .test :: rest) = true := by
  have hd : disciplined c (pollLines.afterAll c (done ++ pollBody c)) (.test :: rest) = true := by
    refine disciplined_drop ?_
    rw [List.append_assoc, ← h]
    exact disciplined_prog w i pollLines
  rw [disciplined_append, afterAll_pollBody w, disciplined_pollBody w, Bool.true_and]
  rwa [disciplined_test_lines hd] at hd

theorem waiting_lines {s : State} {rest : List Micro} (h : s.waiting rest) : s.lines = pollLines := by
  obtain ⟨-, -, -, hd, he, hrs, hrw⟩ := h
  simp only [State.lines, pollLines, hd, he, hrs, hrw]

theorem waiting_of_lines {s : State} {rest : List Micro} (hq : s.seq = pollBody s.cfg ++ .test :: rest)
    (hi : s.idle = false) (hf : s.protoFault = none) (hl : s.lines = pollLines) : s.waiting rest := by
  simp only [State.lines, pollLines, Lines.mk.injEq] at hl
  exact ⟨hq, hi, hf, hl⟩

/-! ## IDLE -/

theorem accept_idle (i : Instr) (s : State) : (accept i s).idle = false := by
  simp [State.idle, statusBusy]

theorem complete_idle (s : State) : (complete s).idle = true := by
  simp [State.idle, statusIdle]

theorem raiseUnresponsive_idle (s : State) : (raiseUnresponsive s).idle = true := by
  simp [State.idle, statusIdle]

/-- The step after an operation in progress goes on with its remaining steps (R32). -/
theorem step_inProgress {s t : State} (hi : s.idle = false) (hf : s.protoFault = none) (h : step s = .next t) :
    t = runSeq s.seq s := by
  simp only [step, hf, hi, Bool.false_eq_true, if_false, Host.Outcome.next.injEq] at h
  exact h.symm

/-! ## The run of an operation's sequence -/

section SequenceRuns

/-- Operation i is under way under the parameters c, with the steps `p` still to be executed, and where c is as R6 demands
the lines let `p` be disciplined. -/
structure UnderWay (c : Config) (i : Instr) (p : List Micro) (s : State) : Prop where
  cfg : s.cfg = c
  noReset : s.noReset = true
  idle : s.idle = false
  req : s.req = encode i
  remains : ∃ done, progOf c i = done ++ p
  lines : c.wf = true → disciplined c s.lines p = true

/-- Where a machine step leaves operation i: over, or standing at WT.6 with a remainder of its sequence to do, and where c
is as R6 demands with the lines of WT.6. -/
structure EndsOrWaits (c : Config) (i : Instr) (t : State) : Prop where
  cfg : t.cfg = c
  noReset : t.noReset = true
  req : t.req = encode i
  outcome : (t.idle = true ∧ t.seq = []) ∨
    (t.idle = false ∧ (∃ done, progOf c i = done ++ t.seq) ∧ (∃ rest, t.seq = pollBody c ++ .test :: rest) ∧
      (c.wf = true → t.lines = pollLines))

variable {c : Config} {i : Instr} {m : Micro} {rest : List Micro} {s t : State}

/-- A step that goes on leaves the operation under way. -/
theorem UnderWay.go (h : UnderWay c i (m :: rest) s) (hm : micro m rest s = .go t) : UnderWay c i rest t where
  cfg := (micro_passed hm).cfg.trans h.cfg
  noReset := (micro_passed hm).noReset h.noReset
  idle := (micro_passed hm).idle.trans h.idle
  req := (micro_passed hm).req.trans h.req
  remains := by
    obtain ⟨done, hd⟩ := h.remains
    exact ⟨done ++ [m], by rw [hd, List.append_assoc]; rfl⟩
  lines w := by
    have hc := h.cfg
    subst hc
    rw [(micro_go_lines w hm).1]
    exact disciplined_drop (p := [m]) (h.lines w)

theorem UnderWay.complete (h : UnderWay c i [] s) : EndsOrWaits c i (complete s) :=
  ⟨h.cfg, h.noReset, h.req, .inl ⟨complete_idle s, rfl⟩⟩

/-- A busy poll: the sequencer stands at WT.6 again (R150, R154). -/
theorem UnderWay.loop (h : UnderWay c i (.test :: rest) s) :
    EndsOrWaits c i { countPoll s with seq := pollBody s.cfg ++ .test :: rest } where
  cfg := (countPoll_passed s).cfg.trans h.cfg
  noReset := (countPoll_passed s).noReset h.noReset
  req := (countPoll_passed s).req.trans h.req
  outcome := by
    obtain ⟨done, hd⟩ := h.remains
    refine .inr ⟨(countPoll_passed s).idle.trans h.idle, ?_, ⟨rest, by rw [h.cfg]⟩, fun w => ?_⟩
    · rw [h.cfg]; exact remainder_poll hd
    · exact (countPoll_lines s).trans (disciplined_test_lines (h.lines w))

/-- A failed wait ends the operation (R155, R243). -/
theorem UnderWay.fail (h : UnderWay c i (.test :: rest) s) :
    EndsOrWaits c i (raiseUnresponsive (setDir .output (countPoll s).slot (countPoll s).arrive)) :=
  have k := (countPoll_passed s).trans (passed_setDir .output _)
  ⟨k.cfg.trans h.cfg, k.noReset h.noReset, k.req.trans h.req, .inl ⟨raiseUnresponsive_idle _, rfl⟩⟩

/-- A step that leaves the sequence without a protocol fault is the test of a poll: no EngineReset strikes. -/
theorem UnderWay.stop (h : UnderWay c i (m :: rest) s) (hm : micro m rest s = .stop t) (hf : t.protoFault = none) :
    EndsOrWaits c i t := by
  revert hm
  refine micro_cases (P := fun f => f = .stop t → EndsOrWaits c i t) ?struck (fun _ _ _ e => nomatch e) ?fault
    (fun _ _ _ e => nomatch e) (fun _ e => nomatch e) (fun _ _ e => nomatch e) ?loop ?dead ?fail
  case struck =>
    intro hr _ _ _
    have hn := noReset_now h.noReset
    simp [State.noResetNow, hr] at hn
  case fault => intro p _ hp e; cases e; exact absurd hf (Option.isSome_iff_ne_none.mp hp)
  case loop => rintro rfl _ _ e; cases e; exact h.loop
  case dead => rintro rfl hp e; cases e; exact absurd hf (Option.isSome_iff_ne_none.mp hp)
  case fail => rintro rfl _ _ e; cases e; exact h.fail

/-- The run of what is left of an operation ends it or stands at WT.6, unless it ends in the protocol-fault state. -/
theorem UnderWay.run {p : List Micro} (h : UnderWay c i p s) (hf : (runSeq p s).protoFault = none) :
    EndsOrWaits c i (runSeq p s) := by
  revert hf
  exact runSeq_rec (I := UnderWay c i) (E := fun t => t.protoFault = none → EndsOrWaits c i t)
    (fun _ hs _ => hs.complete) (fun _ _ _ hs => ⟨fun _ => hs.go, fun _ => hs.stop⟩) p s h

/-! ## The first step and the later ones -/

/-- An accepted operation is under way with its whole sequence to do (R37). -/
theorem underWay_accept (hn : s.noReset = true) : UnderWay s.cfg i (progOf s.cfg i) (accept i s) :=
  ⟨rfl, hn, accept_idle i s, rfl, ⟨[], rfl⟩, fun w => disciplined_prog w i _⟩

/-- An operation standing at WT.6 is under way with its remaining steps to do (R32, R150). -/
theorem underWay_waiting (hn : s.noReset = true) (ho : s.inOperation i) (hw : s.waiting rest) :
    UnderWay s.cfg i s.seq s := by
  obtain ⟨hi, hreq, done, hd⟩ := ho
  have hq : s.seq = pollBody s.cfg ++ .test :: rest := hw.1
  refine ⟨rfl, hn, hi, hreq, ⟨done, hd⟩, fun w => ?_⟩
  rw [hq] at hd
  rw [waiting_lines hw, hq]
  exact disciplined_at_poll w hd

theorem exec_endsOrWaits (hn : s.noReset = true) (h : exec i s = .next t) (hf : t.protoFault = none) :
    EndsOrWaits s.cfg i t := by
  rw [exec_prog, Host.Outcome.next.injEq] at h
  subst h
  exact (underWay_accept hn).run hf

theorem step_endsOrWaits (hn : s.noReset = true) (ho : s.inOperation i) (hw : s.waiting rest) (h : step s = .next t)
    (hf : t.protoFault = none) : EndsOrWaits s.cfg i t := by
  obtain ⟨-, hi, hs, -⟩ := id hw
  obtain rfl := step_inProgress hi hs h
  exact (underWay_waiting hn ho hw).run hf

/-- With parameters as R6 demands, an operation that is not over is in progress and waits. -/
theorem EndsOrWaits.over_or_waiting (h : EndsOrWaits c i t) (w : c.wf = true) (hf : t.protoFault = none) :
    (t.idle = true ∧ t.seq = [] ∧ t.req = encode i) ∨ (t.inOperation i ∧ ∃ rest, t.waiting rest) := by
  obtain ⟨rfl, -, hreq, ⟨hi, hq⟩ | ⟨hi, hd, ⟨rest, hq⟩, hl⟩⟩ := h
  · exact .inl ⟨hi, hq, hreq⟩
  · exact .inr ⟨⟨hi, hreq, hd⟩, rest, waiting_of_lines hq hi hf (hl w)⟩

end SequenceRuns

/-- Settles O12: the run of the sequence keeps the operation under way until it is over or a poll shows busy, and
discipline puts the lines at WT.6 where it stands there. -/
theorem operationsStayInTheirSequence : Obligations.OperationsStayInTheirSequence := by
  refine ⟨fun i s t _ hn h hf => ?_, fun i s t w _ hn h hf => ?_⟩
  · obtain ⟨-, -, -, hidle | ⟨hi, -, hq, -⟩⟩ := exec_endsOrWaits hn h hf
    · exact .inl hidle
    · exact .inr ⟨hi, hq⟩
  · have he : EndsOrWaits s.cfg i t := by
      rcases h with h | ⟨ho, ⟨rest, hw⟩, h⟩
      · exact exec_endsOrWaits hn h hf
      · exact step_endsOrWaits hn ho hw h hf
    exact ⟨he.noReset, he.over_or_waiting w hf⟩

end Sys2Proof.Machine
end

section
/-! PROOF of what the proofs below share: where a micro step leads, what a primitive is, what an idle engine does, and the
flags of STATUS (R10, R20, R27, R37). -/

namespace Sys2Proof.Machine

variable {s t : State} {m : Micro} {rest : List Micro} {p : EnvSlot → State → State}

/-! ## Where a step of a sequence leads -/

/-- A step of a sequence that goes on leads to a state with `I`, one that leaves the sequence to a state with `E`. -/
def Flow.leads (I E : State → Prop) : Flow → Prop
  | .go t => I t
  | .stop t => E t

theorem Flow.leads.imp {I J E F : State → Prop} {f : Flow} (h : f.leads I E) (hI : ∀ t, I t → J t)
    (hE : ∀ t, E t → F t) : f.leads J F := by
  cases f
  · exact hI _ h
  · exact hE _ h

/-- An induction over one engine step: `I` says what holds with the steps still to be executed, `E` what the engine step
ends in (R20). -/
theorem engineMove_rec {I : List Micro → State → Prop} {E : State → Prop} (done : ∀ s, I [] s → E (complete s))
    (prim : ∀ m rest s, I (m :: rest) s → isPrimitive m = true →
      (micro m rest s).leads (fun t => E (advance rest t)) E)
    (other : ∀ m rest s, I (m :: rest) s → isPrimitive m = false → (micro m rest s).leads (I rest) E) :
    ∀ (prog : List Micro) (s : State), I prog s → E (engineMove prog s)
  | [], s, h => done s h
  | m :: rest, s, h => by
    unfold engineMove
    cases hm : isPrimitive m with
    | true =>
      have hl := prim m rest s h hm
      cases hf : micro m rest s <;> rw [hf] at hl <;> exact hl
    | false =>
      have hl := other m rest s h hm
      cases hf : micro m rest s with
      | go t => rw [hf] at hl; exact engineMove_rec done prim other rest t hl
      | stop t => rw [hf] at hl; exact hl

/-! ## The primitive a step is -/

theorem isPrimitive_primOf (s : State) (m : Micro) : isPrimitive m = (primOf s m).isSome := by
  cases m <;> rfl

theorem primOf_of_isPrimitive (h : isPrimitive m = true) : ∃ p, primOf s m = some p := by
  rw [isPrimitive_primOf s, Option.isSome_iff_exists] at h
  exact h

/-- A primitive adds itself to the record, a sample as one taken with the lines as they stand (R25, R38). -/
theorem primOf_trace (h : primOf s m = some p) : ∃ q, (p s.slot s.arrive).trace = q :: s.trace ∧
    (s.lines.admits m = true → q.readsInput = true) ∧ ∀ k, m = .delay k → q = .delay k := by
  cases m <;> cases h
  case ctrlSet v => exact ⟨.ctrlSet v, by simp [ctrlSet], fun _ => rfl, nofun⟩
  case ctrlClear v => exact ⟨.ctrlClear v, by simp [ctrlClear], fun _ => rfl, nofun⟩
  case select t => exact ⟨.select t, by simp [select], fun _ => rfl, nofun⟩
  case selectTgt => exact ⟨.select s.loc.tgt, by simp [select], fun _ => rfl, nofun⟩
  case setDir d => exact ⟨.setDir d, by simp [setDir], fun _ => rfl, nofun⟩
  case driveVal => exact ⟨.drive s.loc.val, by simp [drive], fun _ => rfl, nofun⟩
  case driveZero => exact ⟨.drive 0x00, by simp [drive], fun _ => rfl, nofun⟩
  case sample =>
    refine ⟨.sample s.dir s.flagE (s.arrive.sampleValue s.slot), by simp [sample], fun ha => ?_, nofun⟩
    simp only [Lines.admits, State.lines, Bool.and_eq_true] at ha
    simp only [Prim.readsInput, ha, Bool.and_self]
  case delay k => exact ⟨.delay k, by simp [delay], fun _ => rfl, fun _ e => by cases e; rfl⟩

/-- A primitive moves the lines as `Lines.after` says, also where a controller is met busy in it. -/
theorem primOf_lines (w : s.cfg.wf = true) (h : primOf s m = some p) :
    (p s.slot s.arrive).lines = s.lines.after s.cfg m := by
  have w' : s.arrive.cfg.wf = true := by rw [arrive_cfg]; exact w
  cases m <;> cases h
  case ctrlSet v => rw [ctrlSet_lines, arrive_lines, arrive_cfg]
  case ctrlClear v => rw [ctrlClear_lines w', arrive_lines, arrive_cfg]
  case select t => rw [select_lines w', arrive_lines]; rfl
  case selectTgt => rw [select_lines w', arrive_lines]; rfl
  case setDir d => exact congrArg (fun l : Lines => { l with dir := d }) (arrive_lines s)
  all_goals exact arrive_lines s

/-- A step that is no primitive moves no line. -/
theorem after_of_not_prim (h : primOf s m = none) (c : Config) (l : Lines) : l.after c m = l := by
  cases m <;> cases h <;> rfl

/-- RESULT and POLLS are no primitive's, and each primitive uses up one slot (R20, R28, R30). -/
theorem primOf_keeps (h : primOf s m = some p) : (p s.slot s.arrive).result = s.result ∧
    (p s.slot s.arrive).env = s.env.tail ∧ (p s.slot s.arrive).loc.polls = s.loc.polls := by
  cases m <;> cases h <;> simp [ctrlSet, ctrlClear, select, setDir, drive, sample, delay]

theorem passed_assign (f : Locals → Locals) (s : State) : Passed s { s with loc := f s.loc } :=
  ⟨rfl, rfl, rfl, rfl, rfl, ⟨0, rfl⟩, List.suffix_refl _, List.suffix_refl _⟩

theorem passed_result (s : State) : Passed s { s with result := s.loc.rbv } :=
  ⟨rfl, rfl, rfl, rfl, rfl, ⟨0, rfl⟩, List.suffix_refl _, List.suffix_refl _⟩

/-! ## The step and the engine step, idle and in progress (R37) -/

theorem step_next_fault (h : step s = .next t) : s.protoFault = none := by
  cases hf : s.protoFault with
  | none => rfl
  | some x => simp [step, hf] at h

theorem engineStep_next_fault (h : engineStep s = .next t) : s.protoFault = none := by
  cases hf : s.protoFault with
  | none => rfl
  | some x => simp [engineStep, hf] at h

theorem step_idle (hi : s.idle = true) (hf : s.protoFault = none) : step s = idleStep exec s := by
  simp [step, hf, hi]

theorem step_busy (hi : s.idle = false) (hf : s.protoFault = none) : step s = .next (runSeq s.seq s) := by
  simp [step, hf, hi, resume]

theorem engineStep_idle (hi : s.idle = true) (hf : s.protoFault = none) :
    engineStep s = idleStep (fun i u => .next (dispatch i u)) s := by
  simp [engineStep, hf, hi]

/-- The engine step of an operation in progress (R20). -/
theorem engineStep_busy (hi : s.idle = false) (hf : s.protoFault = none) :
    engineStep s = .next (engineMove s.seq s) := by
  simp [engineStep, hf, hi]

theorem engineStep_inProgress (hi : s.idle = false) (hf : s.protoFault = none) (h : engineStep s = .next t) :
    t = engineMove s.seq s := by
  rw [engineStep_busy hi hf] at h
  exact (Host.Outcome.next.inj h).symm

/-- Everything the idle engine can do: nothing, for want of a host's move; raise IllegalRequest; reset; or start an
operation as `start` says (R37, R241, R270). -/
theorem idleStep_cases (s : State) :
    (∀ start, idleStep start s = .next s) ∨
    (∃ rest, ∀ start, idleStep start s = .next (raiseIllegalRequest { s with host := rest })) ∨
    (∃ rest, s.host = .engineReset :: rest ∧ ∀ start, idleStep start s = .next (hostReset { s with host := rest })) ∨
    ∃ i rest, ∀ start, idleStep start s = start i { s with host := rest } := by
  unfold idleStep
  cases s.host with
  | nil => exact .inl fun _ => rfl
  | cons move rest =>
    cases move with
    | engineReset => exact .inr (.inr (.inl ⟨rest, rfl, fun _ => rfl⟩))
    | issue w =>
      simp only [issue]
      cases decodeRequest s.cfg.exposeInternal w with
      | error => exact .inr (.inl ⟨rest, fun _ => rfl⟩)
      | ok i => exact .inr (.inr (.inr ⟨i, rest, fun _ => rfl⟩))

/-! ## STATUS (R27) -/

/-- Every bit of STATUS but IDLE is as it was. -/
def SameFlags (s t : State) : Prop := t.status.extractLsb' 1 7 = s.status.extractLsb' 1 7

theorem SameFlags.refl (s : State) : SameFlags s s := rfl

theorem SameFlags.trans {u : State} (h : SameFlags s t) (k : SameFlags t u) : SameFlags s u := Eq.trans k h

theorem Passed.sameFlags (h : Passed s t) : SameFlags s t := congrArg _ h.status

theorem sameFlags_statusIdle (v : Byte) : (statusIdle v).extractLsb' 1 7 = v.extractLsb' 1 7 := by
  simp [statusIdle, BitVec.extractLsb'_or]

theorem sameFlags_statusBusy (v : Byte) : (statusBusy v).extractLsb' 1 7 = v.extractLsb' 1 7 := by
  rw [statusBusy, BitVec.extractLsb'_and]
  exact BitVec.and_allOnes

theorem SameFlags.bit (h : SameFlags s t) {i : Nat} (h1 : 1 ≤ i) (h8 : i < 8) :
    t.status.getLsbD i = s.status.getLsbD i := by
  have hb := congrArg (·.getLsbD (i - 1)) h
  simpa [show i - 1 < 7 by omega, show 1 + (i - 1) = i by omega] using hb

theorem SameFlags.field (h : SameFlags s t) {k n : Nat} (h1 : 1 ≤ k) (h8 : k + n ≤ 8) :
    t.status.extractLsb' k n = s.status.extractLsb' k n := by
  apply BitVec.eq_of_getLsbD_eq
  intro j hj
  simp [hj, h.bit (i := k + j) (by omega) (by omega)]

theorem SameFlags.err (h : SameFlags s t) : t.err = s.err := h.bit (by decide) (by decide)
theorem SameFlags.unresp (h : SameFlags s t) : t.unresp = s.unresp := h.bit (by decide) (by decide)
theorem SameFlags.uwho (h : SameFlags s t) : t.uwho = s.uwho := h.field (by decide) (by decide)

theorem sameFlags_accept (i : Instr) (s : State) : SameFlags s (accept i s) := sameFlags_statusBusy s.status

theorem sameFlags_complete (s : State) : SameFlags s (complete s) := sameFlags_statusIdle s.status

/-- An illegal request sets ERR, and leaves UNRESP, UWHO and IDLE as they are (R241). -/
theorem raiseIllegalRequest_flags (s : State) : (raiseIllegalRequest s).err = true ∧
    (raiseIllegalRequest s).unresp = s.unresp ∧ (raiseIllegalRequest s).uwho = s.uwho ∧
    (raiseIllegalRequest s).idle = s.idle ∧
    (raiseIllegalRequest s).status.extractLsb' 5 3 = s.status.extractLsb' 5 3 := by
  simp [State.err, State.unresp, State.uwho, State.idle, statusErr, BitVec.extractLsb'_or]

/-- A failed wait sets UNRESP, leaves ERR, and writes UWHO the first time only (R27, R243). -/
theorem raiseUnresponsive_flags (s : State) : (raiseUnresponsive s).err = s.err ∧
    (raiseUnresponsive s).unresp = true ∧ (s.unresp = true → (raiseUnresponsive s).uwho = s.uwho) ∧
    (raiseUnresponsive s).status.extractLsb' 5 3 = s.status.extractLsb' 5 3 := by
  simp only [State.err, State.unresp, State.uwho, raiseUnresponsive_status, statusUnresp]
  cases hu : s.status.getLsbD 2
  case true => simp [statusIdle, hu, BitVec.extractLsb'_or]
  case false =>
    have h7 : ∀ v : BitVec 3, v &&& 7#3 = v := fun _ => BitVec.and_allOnes
    cases s.flagCS1 <;> cases s.flagCS2 <;>
      simp [statusIdle, BitVec.extractLsb'_or, BitVec.extractLsb'_and, h7]

end Sys2Proof.Machine
end

section
/-! PROOF of O60 (R6, R24, R25, R27, R37, R52): what an operation in progress satisfies with its remaining steps to do, and
that every micro step either keeps it or leaves the sequence in a state of the invariant. -/

namespace Sys2Proof.Machine

variable {s t : State} {m : Micro} {rest : List Micro} {p : EnvSlot → State → State}

/-! ## The canonical form of memory (R52) -/

theorem actOn_memory_wf (k : PulseKind) (c : Ctl) (b : Byte) (w : Memory.wf s.mem = true) :
    Memory.wf (actOn k c b s).mem = true := by
  cases k
  case dataWrite =>
    simp only [actOn, dataWrite, setCtl_mem, ramWrite_mem]
    exact write_wf w c _ _ b
  all_goals simpa [actOn] using w

theorem receive_memory_wf (e : EnvSlot) (q : Pulse) (c : Ctl) (b : Byte) (w : Memory.wf s.mem = true) :
    Memory.wf (receive e q c b s).mem = true := by
  unfold receive
  split
  · exact w
  split
  · exact w
  split
  · exact w
  · rw [mayGoBusy_mem]; exact actOn_memory_wf _ c b w

theorem pulseEvent_memory_wf (e : EnvSlot) (w : Memory.wf s.mem = true) : Memory.wf (pulseEvent e s).mem = true :=
  receive_memory_wf e _ .two _ (receive_memory_wf e _ .one _ w)

theorem releaseReset_memory_wf (e : EnvSlot) (c : Ctl) (w : Memory.wf s.mem = true) :
    Memory.wf (releaseReset e c s).mem = true := by
  simp only [releaseReset, setCtl_mem]
  split
  · exact forget_wf w c
  · exact w

theorem updateCtrl_memory_wf (e : EnvSlot) (v : Byte) (w : Memory.wf s.mem = true) :
    Memory.wf (updateCtrl e v s).mem = true := by
  have hp : Memory.wf (if s.flagE && !flagIn v s.cfg.mE then pulseEvent e s else s).mem = true := by
    split
    · exact pulseEvent_memory_wf e w
    · exact w
  unfold updateCtrl
  dsimp only
  split
  · exact releaseReset_memory_wf e .two (releaseReset_memory_wf e .one hp)
  · exact hp

theorem primOf_memory_wf (h : primOf s m = some p) (w : Memory.wf s.mem = true) :
    Memory.wf (p s.slot s.arrive).mem = true := by
  have wa : Memory.wf s.arrive.mem = true := by rw [arrive_mem]; exact w
  cases m <;> cases h
  case ctrlSet => exact updateCtrl_memory_wf _ _ wa
  case ctrlClear => exact updateCtrl_memory_wf _ _ wa
  case select => exact updateCtrl_memory_wf _ _ wa
  case selectTgt => exact updateCtrl_memory_wf _ _ wa
  all_goals exact wa

/-! ## STATUS as R27 has it -/

theorem SameFlags.legal (h : SameFlags s t) (hc : t.cfg = s.cfg) (hs : s.statusLegal) : t.statusLegal := by
  obtain ⟨h5, hu, hl⟩ := hs
  exact ⟨(h.field (by decide) (by decide)).trans h5, fun ht => h.uwho.trans (hu (h.unresp ▸ ht)),
    fun hp => h.unresp.trans (hl (hc ▸ hp))⟩

theorem raiseIllegalRequest_legal (hs : s.statusLegal) : (raiseIllegalRequest s).statusLegal := by
  obtain ⟨-, hun, huw, -, h5⟩ := raiseIllegalRequest_flags s
  obtain ⟨k5, ku, kl⟩ := hs
  exact ⟨h5.trans k5, fun ht => huw.trans (ku (hun ▸ ht)), fun hp => hun.trans (kl hp)⟩

theorem raiseUnresponsive_legal (hs : s.statusLegal) (hp : s.cfg.pollLimit ≠ none) :
    (raiseUnresponsive s).statusLegal := by
  obtain ⟨-, hun, -, h5⟩ := raiseUnresponsive_flags s
  exact ⟨h5.trans hs.1, fun hf => absurd (hun.symm.trans hf) (by decide), fun h => absurd h hp⟩

/-! ## An operation in progress, with `p` still to be executed -/

/-- What `engineInv` asks while IDLE is 0, of the steps `p` in place of those the sequencer holds. -/
structure Amid (p : List Micro) (s : State) : Prop where
  wf : s.cfg.wf = true
  mem : Memory.wf s.mem = true
  legal : s.statusLegal
  idle : s.idle = false
  lines : disciplined s.cfg s.lines p = true
  reads : s.trace.all Prim.readsInput = true

theorem amid_of_engineInv (h : s.engineInv) (hi : s.idle = false) : Amid s.seq s := by
  obtain ⟨wf, mem, legal, -, lines, reads⟩ := h
  exact ⟨wf, mem, legal, hi, lines, reads⟩

theorem Amid.engineInv {q : List Micro} (h : Amid q s) : ({ s with seq := q }).engineInv :=
  ⟨h.wf, h.mem, h.legal, fun hi => absurd (h.idle.symm.trans hi) (by decide), h.lines, h.reads⟩

/-- An accepted operation, its whole sequence still to be executed (R37). -/
theorem amid_accept (h : s.engineInv) (i : Instr) : Amid (progOf s.cfg i) (accept i s) := by
  obtain ⟨wf, mem, legal, -, -, reads⟩ := h
  exact ⟨wf, mem, (sameFlags_accept i s).legal rfl legal, accept_idle i s, disciplined_prog wf i _, reads⟩

/-- The locals, RESULT and the environment are not part of it. -/
theorem Amid.congr {q : List Micro} (h : Amid q s) (hp : Passed s t) (hm : t.mem = s.mem) (hl : t.lines = s.lines)
    (ht : t.trace = s.trace) : Amid q t where
  wf := by rw [hp.cfg]; exact h.wf
  mem := by rw [hm]; exact h.mem
  legal := hp.sameFlags.legal hp.cfg h.legal
  idle := hp.idle.trans h.idle
  lines := by rw [hp.cfg, hl]; exact h.lines
  reads := by rw [ht]; exact h.reads

theorem Amid.admits (h : Amid (m :: rest) s) : s.lines.admits m = true := by
  have hl := h.lines
  rw [disciplined, Bool.and_eq_true] at hl
  exact hl.1

theorem Amid.linesAfter (h : Amid (m :: rest) s) : disciplined s.cfg (s.lines.after s.cfg m) rest = true := by
  have hl := h.lines
  rw [disciplined, Bool.and_eq_true] at hl
  exact hl.2

theorem Amid.countPoll {q : List Micro} (h : Amid q s) : Amid q (countPoll s) := by
  obtain ⟨-, -, htrace, -⟩ := countPoll_same s
  exact h.congr (countPoll_passed s) (by unfold Machine.countPoll; split <;> rfl) (countPoll_lines s) htrace

/-- A primitive, also one in which a controller is met busy: the lines move as the discipline foresees, and a sample is
taken with DIR = INPUT and E high (R24, R25). -/
theorem Amid.prim (h : Amid (m :: rest) s) (hp : primOf s m = some p) : Amid rest (p s.slot s.arrive) where
  wf := by rw [(primOf_passed hp s).cfg]; exact h.wf
  mem := primOf_memory_wf hp h.mem
  legal := (primOf_passed hp s).sameFlags.legal (primOf_passed hp s).cfg h.legal
  idle := (primOf_passed hp s).idle.trans h.idle
  lines := by rw [(primOf_passed hp s).cfg, primOf_lines h.wf hp]; exact h.linesAfter
  reads := by
    obtain ⟨q, hq, hr, -⟩ := primOf_trace hp
    rw [hq, List.all_cons, hr h.admits, h.reads]; rfl

/-- Other steps still to be executed. -/
theorem Amid.steps {q r : List Micro} (h : Amid q s) (hr : disciplined s.cfg s.lines r = true) : Amid r s :=
  ⟨h.wf, h.mem, h.legal, h.idle, hr, h.reads⟩

/-- A step that is no primitive. -/
theorem Amid.other (h : Amid (m :: rest) s) (hm : primOf s m = none) : Amid rest s :=
  h.steps (after_of_not_prim hm s.cfg s.lines ▸ h.linesAfter)

/-- At a test the lines are those of WT.6, so the next poll may follow it (R150, R154). -/
theorem Amid.poll (h : Amid (.test :: rest) s) : Amid (pollBody s.cfg ++ .test :: rest) s := by
  have hl := h.lines
  rw [disciplined_test_lines hl] at hl
  refine h.steps ?_
  rw [disciplined_test_lines h.lines, disciplined_append, disciplined_pollBody h.wf, afterAll_pollBody h.wf, hl]
  rfl

/-- The `SetDir(OUTPUT)` of a wait that fails (R155). -/
theorem Amid.giveUp {q : List Micro} (h : Amid q s) :
    Amid [] (setDir .output (Machine.countPoll s).slot (Machine.countPoll s).arrive) :=
  (h.countPoll.steps (r := [.setDir .output]) rfl).prim rfl

/-! ## Where an operation is left -/

theorem Amid.complete (h : Amid [] s) : (complete s).inv :=
  ⟨⟨h.wf, h.mem, (sameFlags_complete s).legal rfl h.legal, fun _ => rfl, rfl, h.reads⟩,
    fun _ => .inl (complete_idle s)⟩

/-- A failed wait: POLL_LIMIT is finite (R155, R243). -/
theorem Amid.fail {q : List Micro} (h : Amid q s) (hp : s.cfg.pollLimit ≠ none) : (raiseUnresponsive s).inv :=
  ⟨⟨h.wf, h.mem, raiseUnresponsive_legal h.legal hp, fun _ => rfl, rfl, h.reads⟩,
    fun _ => .inl (raiseUnresponsive_idle s)⟩

/-- An EngineReset that comes before the primitive it takes the place of (R270). -/
theorem engineReset_inv (e : EnvSlot) (wf : s.cfg.wf = true) (mem : Memory.wf s.mem = true)
    (reads : s.trace.all Prim.readsInput = true) : (engineReset e s.arrive).inv := by
  have hs : (engineReset e s.arrive).status = 0x01 := rfl
  have hc : (engineReset e s.arrive).cfg = s.cfg := by simp [engineReset]
  have ht : (engineReset e s.arrive).trace = s.trace := by simp [engineReset]
  have hu : (engineReset e s.arrive).unresp = false := by rw [State.unresp, hs]; decide
  refine ⟨⟨hc ▸ wf, ?_, ⟨?_, fun _ => ?_, fun _ => hu⟩, fun _ => rfl, rfl, ht ▸ reads⟩, fun _ => .inl ?_⟩
  · exact updateCtrl_memory_wf e 0x00 (by rw [arrive_mem]; exact mem)
  · rw [hs]; decide
  · rw [State.uwho, hs]; decide
  · rw [State.idle, hs]; decide

/-- Every micro step of an operation in progress goes on to such a state, or leaves the sequence in one of the
invariant. -/
theorem Amid.micro (h : Amid (m :: rest) s) : (micro m rest s).leads (Amid rest) State.inv := by
  refine micro_cases (P := Flow.leads (Amid rest) State.inv) ?struck ?prim ?fault ?assign ?result ?ready ?loop ?dead ?fail
  case struck =>
    rintro - u (rfl | ⟨-, rfl⟩)
    · exact engineReset_inv _ h.wf h.mem h.reads
    · exact engineReset_inv _ h.countPoll.wf h.countPoll.mem h.countPoll.reads
  case prim => intro p hp _; exact h.prim hp
  case fault => intro p hp hf; exact ⟨(h.prim hp).engineInv, fun _ => .inr hf⟩
  case assign => intro f hm _; exact (h.other hm).congr (passed_assign f s) rfl rfl rfl
  case result => rintro rfl; exact (h.other rfl).congr (passed_result s) rfl rfl rfl
  case ready => rintro rfl _; exact (h.other rfl).countPoll
  case loop =>
    rintro rfl _ _
    exact ⟨h.poll.countPoll.engineInv, fun hq => by simp [pollBody] at hq⟩
  case dead => rintro rfl hf; exact ⟨h.giveUp.engineInv, fun _ => .inr hf⟩
  case fail =>
    rintro rfl _ hl
    refine h.giveUp.fail ?_
    rw [((countPoll_passed s).trans (passed_setDir .output _)).cfg, hl]
    exact Option.some_ne_none _

/-- An engine step that leaves the operation in progress (R20). -/
theorem Amid.advance (h : Amid rest s) : (advance rest s).engineInv := by
  unfold Machine.advance
  split
  · have hk : Amid _ (Machine.countPoll s) := h.countPoll
    split
    · split
      · exact h.engineInv
      · rw [← (countPoll_passed s).cfg]; exact hk.poll.engineInv
    · exact (hk.other rfl).engineInv
  · exact h.engineInv

theorem Amid.runSeq {q : List Micro} (h : Amid q s) : (runSeq q s).inv := by
  refine runSeq_rec (fun _ h => h.complete) (fun m rest u hu => ?_) q s h
  have hm := hu.micro
  exact ⟨fun t e => by rw [e] at hm; exact hm, fun t e => by rw [e] at hm; exact hm⟩

theorem Amid.engineMove {q : List Micro} (h : Amid q s) : (engineMove q s).engineInv :=
  engineMove_rec (I := Amid) (fun _ hs => hs.complete.1)
    (fun _ _ _ hs _ => hs.micro.imp (fun _ => Amid.advance) fun _ h => h.1)
    (fun _ _ _ hs _ => hs.micro.imp (fun _ h => h) fun _ h => h.1) q s h

/-! ## The idle engine (R37) -/

/-- The idle engine answers the host's next move in a state of the invariant, given that an accepted operation does. -/
theorem idleStep_leads {start : Instr → State → Host.Outcome State Fault Refusal} {E : State → Prop}
    (hE : ∀ u : State, u.inv → E u) (hs : ∀ i (u t : State), u.engineInv → start i u = .next t → E t)
    (h : s.engineInv) (hi : s.idle = true) (hn : idleStep start s = .next t) : E t := by
  obtain e | ⟨rest, e⟩ | ⟨rest, -, e⟩ | ⟨i, rest, e⟩ := idleStep_cases s <;> rw [e] at hn
  · cases hn; exact hE _ ⟨h, fun _ => .inl hi⟩
  · cases hn
    obtain ⟨wf, mem, legal, hq, lines, reads⟩ := h
    obtain ⟨-, -, -, hidle, -⟩ := raiseIllegalRequest_flags { s with host := rest }
    exact hE _ ⟨⟨wf, mem, raiseIllegalRequest_legal legal, fun _ => hq hi, lines, reads⟩,
      fun _ => .inl (hidle.trans hi)⟩
  · cases hn
    obtain ⟨wf, mem, -, -, -, reads⟩ := h
    exact hE _ (engineReset_inv (s := { s with host := rest }) _ wf mem reads)
  · exact hs i { s with host := rest } t h hn

/-- A step of the machine from a state of the invariant (R37). -/
theorem step_inv (h : s.engineInv) (hn : step s = .next t) : t.inv := by
  have hf := step_next_fault hn
  cases hi : s.idle with
  | false => rw [step_inProgress hi hf hn]; exact (amid_of_engineInv h hi).runSeq
  | true =>
    rw [step_idle hi hf] at hn
    refine idleStep_leads (fun _ h => h) (fun i u t hu e => ?_) h hi hn
    rw [exec_prog] at e
    cases e
    exact (amid_accept hu i).runSeq

/-- An engine step (R20). -/
theorem engineStep_engineInv (h : s.engineInv) (hn : engineStep s = .next t) : t.engineInv := by
  have hf := engineStep_next_fault hn
  cases hi : s.idle with
  | false => rw [engineStep_inProgress hi hf hn]; exact (amid_of_engineInv h hi).engineMove
  | true =>
    rw [engineStep_idle hi hf] at hn
    refine idleStep_leads (fun _ h => h.1) (fun i u t hu e => ?_) h hi hn
    cases e
    exact (amid_accept hu i).engineInv

/-- Settles O60: every micro step of an operation in progress keeps what the invariant asks of it, and wherever the engine
leaves a sequence the invariant holds. -/
theorem invariantIsKeptByEveryStep : Obligations.InvariantIsKeptByEveryStep :=
  ⟨fun _ _ h hn => step_inv h.1 hn, fun _ _ h hn => engineStep_engineInv h hn⟩

end Sys2Proof.Machine
end

section
/-! PROOF of O10, O8 and O47, and of O14: the step and the engine step beside each other (R20, R33, R35, R37). -/

namespace Sys2Proof.Machine

variable {s t : State}

/-! ## The host's list (R37) -/

/-- The run of the remaining steps with another host's list: the same but for that list. -/
theorem runSeq_withHost (l : List HostMove) (p : List Micro) (s : State) :
    runSeq p { s with host := l } = { runSeq p s with host := l } :=
  aside_runSeq (q := s.seq) (l := l) p s

/-- Settles O10: in progress, the step is the run of the steps held, and a run neither reads nor writes the host's list. -/
theorem busyEngineTakesNoRequest : Obligations.BusyEngineTakesNoRequest := by
  intro s t l hi h
  have hf := step_next_fault h
  have ht := step_inProgress hi hf h
  subst ht
  refine ⟨(congrArg State.host (runSeq_withHost s.host s.seq s) :), ?_⟩
  rw [← runSeq_withHost]
  exact step_busy (s := { s with host := l }) hi hf

/-! ## A request (R33, R37) -/

theorem idleStep_request {start : Instr → State → Host.Outcome State Fault Refusal} {w : Word24} {i : Instr}
    {rest : List HostMove} (hh : s.host = .issue w :: rest) (hd : decodeRequest s.cfg.exposeInternal w = .ok i) :
    idleStep start s = start i { s with host := rest } := by
  simp only [idleStep, hh, issue, hd]

/-- Settles O8: the idle engine takes its host's next move, and a word that decodes starts its operation. -/
theorem stepRunsTheDecodedOperation : Obligations.StepRunsTheDecodedOperation := by
  intro s w i rest hf hi hh hd
  rw [step_idle hi hf, idleStep_request hh hd]

/-- Settles O47: each value as it stands in `State.reset` and `Config.standard`. -/
theorem resetValuesOfTheSpec : Obligations.ResetValuesOfTheSpec :=
  ⟨⟨rfl, rfl, rfl, rfl, rfl, rfl⟩, rfl, rfl, rfl, rfl, rfl, rfl, by decide, by decide⟩

/-! ## The machine's step as engine steps (R20) -/

/-- A step of the idle engine that starts no operation is one engine step; one that does is the acceptance, and the engine
steps of the operation. -/
theorem steps_idle (hf : s.protoFault = none) (hi : s.idle = true) (h : step s = .next t) : Steps s t := by
  rw [step_idle hi hf] at h
  have he := engineStep_idle hi hf
  obtain e | ⟨rest, e⟩ | ⟨rest, -, e⟩ | ⟨i, rest, e⟩ := idleStep_cases s <;> rw [e] at h he
  · exact .one (he.trans h)
  · exact .one (he.trans h)
  · exact .one (he.trans h)
  · rw [exec_prog] at h
    cases h
    exact .cons he (accept_idle i s) hf (steps_runSeq _ (accept_idle i _) hf)

/-- Settles O14: a run of the sequencer is a run of engine steps, after the acceptance if the engine was idle. -/
theorem engineStepsMakeTheMachineStep : Obligations.EngineStepsMakeTheMachineStep := by
  intro s t hf h
  cases hi : s.idle with
  | true => exact steps_idle hf hi h
  | false =>
    obtain rfl := step_inProgress hi hf h
    exact steps_runSeq s.seq hi hf

end Sys2Proof.Machine
end

section
/-! PROOF of O51, O52 and O53 (R6, R22, R27, R28, R72): what no step of an operation changes, and what only some do. -/

namespace Sys2Proof.Machine

variable {s t : State} {c : Config} {i : Instr}

/-! ## The sticky flags (R27, R241, R243) -/

/-- The sticky flags of `s` are still set in `t` (R27). -/
def Sticky (s t : State) : Prop :=
  (s.err = true → t.err = true) ∧ (s.unresp = true → t.unresp = true ∧ t.uwho = s.uwho)

theorem SameFlags.sticky (h : SameFlags s t) : Sticky s t :=
  ⟨fun he => h.err.trans he, fun hu => ⟨h.unresp.trans hu, h.uwho⟩⟩

theorem Sticky.trans {u : State} (h : Sticky s t) (k : Sticky t u) : Sticky s u := by
  obtain ⟨he, hu⟩ := h
  obtain ⟨ke, ku⟩ := k
  exact ⟨ke ∘ he, fun hs => ⟨(ku (hu hs).1).1, ((ku (hu hs).1).2).trans (hu hs).2⟩⟩

theorem raiseIllegalRequest_sticky (s : State) : Sticky s (raiseIllegalRequest s) := by
  obtain ⟨herr, hun, huw, -, -⟩ := raiseIllegalRequest_flags s
  exact ⟨fun _ => herr, fun hu => ⟨hun.trans hu, huw⟩⟩

theorem raiseUnresponsive_sticky (s : State) : Sticky s (raiseUnresponsive s) := by
  obtain ⟨herr, hun, huw, -⟩ := raiseUnresponsive_flags s
  exact ⟨fun he => herr.trans he, fun hu => ⟨hun, huw hu⟩⟩

/-- Up to its end a run leaves STATUS alone; its end sets IDLE, and UNRESP where a wait failed. -/
theorem runSeq_sticky (p : List Micro) (hn : s.noReset = true) : Sticky s (runSeq p s) := by
  have giveUp : ∀ u, Passed u (setDir .output (countPoll u).slot (countPoll u).arrive) := fun u =>
    (countPoll_passed u).trans (passed_setDir .output _)
  refine run_cases (I := fun _ u => u.noReset = true ∧ SameFlags s u) (E := Sticky s) ?done ?struck ?prim ?fault ?assign
    ?result ?ready ?loop ?dead ?fail p s ⟨hn, .refl s⟩
  case done => exact fun u h => (h.2.trans (sameFlags_complete u)).sticky
  case struck =>
    intro _ _ u h hr
    have hu := noReset_now h.1
    simp [State.noResetNow, hr] at hu
  case prim => exact fun _ _ u _ h hp _ => ⟨(primOf_passed hp u).noReset h.1, h.2.trans (primOf_passed hp u).sameFlags⟩
  case fault => exact fun _ _ u _ h hp _ => (h.2.trans (primOf_passed hp u).sameFlags).sticky
  case assign => exact fun _ _ _ _ h _ _ => h
  case result => exact fun _ _ h => h
  case ready => exact fun _ u h _ => ⟨(countPoll_passed u).noReset h.1, h.2.trans (countPoll_passed u).sameFlags⟩
  case loop => exact fun _ u h _ => (h.2.trans (countPoll_passed u).sameFlags).sticky
  case dead => exact fun _ u h _ => (h.2.trans (giveUp u).sameFlags).sticky
  case fail => exact fun _ u h _ _ => (h.2.trans (giveUp u).sameFlags).sticky.trans (raiseUnresponsive_sticky _)

/-- Settles O51: neither an illegal request nor the run of a sequence clears a sticky flag. -/
theorem stickyFlagsStaySet : Obligations.StickyFlagsStaySet := by
  intro s t hn hh h
  have hf := step_next_fault h
  cases hi : s.idle with
  | false => rw [step_inProgress hi hf h]; exact runSeq_sticky s.seq hn
  | true =>
    rw [step_idle hi hf] at h
    obtain e | ⟨rest, e⟩ | ⟨rest, hr, -⟩ | ⟨i, rest, e⟩ := idleStep_cases s
    · rw [e] at h; cases h; exact (SameFlags.refl s).sticky
    · rw [e] at h; cases h; exact raiseIllegalRequest_sticky { s with host := rest }
    · exact absurd hr (hh rest)
    · rw [e, exec_prog] at h
      cases h
      exact (sameFlags_accept i s).sticky.trans (runSeq_sticky (s := accept i { s with host := rest }) _ hn)

/-! ## Where a step of an operation starts -/

/-- A step of an operation runs steps of its sequence from a state that has the parameters, CTRL, RESULT, the locals and
the coming slots of the state before it. -/
theorem runsOperation_start (h : runsOperation i s t) : ∃ (p : List Micro) (u : State), Runs p u t ∧
    (∀ m ∈ p, m ∈ progOf s.cfg i) ∧ u.cfg = s.cfg ∧ u.ctrl = s.ctrl ∧ u.result = s.result ∧ u.loc = s.loc ∧
    u.env = s.env := by
  obtain ⟨p, u, hr, hp, rfl | rfl⟩ := runsOperation_run h
  · exact ⟨p, u, hr, hp, rfl, rfl, rfl, rfl, rfl⟩
  · exact ⟨p, accept i s, hr, hp, rfl, rfl, rfl, rfl, rfl⟩

/-! ## Bits of CTRL that a sequence leaves alone (R22) -/

theorem or_and_of_disjoint {v m k : Byte} (h : m &&& k = 0) : (v ||| m) &&& k = v &&& k := by
  have hd : (v ||| m) &&& k = (v &&& k) ||| (m &&& k) := by
    apply BitVec.eq_of_getLsbD_eq; intro j _; simp [Bool.and_or_distrib_right]
  rw [hd, h]; simp

theorem and_not_and_of_disjoint {v m k : Byte} (h : m &&& k = 0) : (v &&& ~~~m) &&& k = v &&& k := by
  apply BitVec.eq_of_getLsbD_eq
  intro j hj
  have hb : (m.getLsbD j && k.getLsbD j) = false := by
    rw [← BitVec.getLsbD_and, h]; simp
  simp only [BitVec.getLsbD_and, BitVec.getLsbD_not, hj, decide_true, Bool.true_and]
  cases hm : m.getLsbD j <;> simp_all

theorem or_disjoint {a b k : Byte} (ha : a &&& k = 0) (hb : b &&& k = 0) : (a ||| b) &&& k = 0 := by
  rw [or_and_of_disjoint hb, ha]

/-- The masks of the two chip-selects name no bit of `k`. -/
def SelectsOutside (c : Config) (k : Byte) : Prop := c.mCS1 &&& k = 0 ∧ c.mCS2 &&& k = 0

theorem selectCtrl_and {k : Byte} (h : SelectsOutside c k) (x : Target) (v : Byte) :
    selectCtrl c x v &&& k = v &&& k := by
  obtain ⟨h1, h2⟩ := h
  have hc : csMask c x &&& k = 0 := by
    unfold csMask
    refine or_disjoint ?_ ?_ <;> split <;> simp [h1, h2]
  rw [selectCtrl, or_and_of_disjoint hc, and_not_and_of_disjoint (or_disjoint h1 h2)]

/-- The step names no bit of `k` in a mask it sets or clears. -/
def Outside (k : Byte) : Micro → Prop
  | .ctrlSet m => m &&& k = 0
  | .ctrlClear m => m &&& k = 0
  | _ => True

/-- Steps that name no bit of `k` leave those bits of CTRL as they are, and no step changes the parameters (R6, R22). -/
theorem runs_ctrl {p : List Micro} {u : State} {k : Byte} (hr : Runs p u t) (hk : SelectsOutside u.cfg k)
    (hp : ∀ m ∈ p, Outside k m) (hn : u.noReset = true) : t.cfg = u.cfg ∧ t.ctrl &&& k = u.ctrl &&& k := by
  refine prog_keeps (P := fun v => v.cfg = u.cfg ∧ v.ctrl &&& k = u.ctrl &&& k) (Q := Outside k) (fun _ _ h => h)
    (fun _ _ _ _ _ h => h) (fun v h => by rw [arrive_cfg, arrive_ctrl]; exact h) ?_ hr hp hn ⟨rfl, rfl⟩
  intro m x e v hm hv
  obtain ⟨hc, hv⟩ := hv
  have hsel : ∀ y, selectCtrl v.cfg y v.ctrl &&& k = u.ctrl &&& k := fun y =>
    (selectCtrl_and (hc ▸ hk) y v.ctrl).trans hv
  cases m
  case ctrlSet m => exact ⟨by simp [ctrlSet, hc], by simp [ctrlSet, or_and_of_disjoint hm, hv]⟩
  case ctrlClear m => exact ⟨by simp [ctrlClear, hc], by simp [ctrlClear, and_not_and_of_disjoint hm, hv]⟩
  case select y => exact ⟨by simp [select, hc], by simp [select, hsel]⟩
  case selectTgt => exact fun y => ⟨by simp [select, hc], by simp [select, hsel]⟩
  case test => exact ⟨⟨(countPoll_kept v).cfg.trans hc, by rw [(countPoll_same v).1]; exact hv⟩, hc, hv⟩
  case pollsZero =>
    intro f hf
    simp only [micro] at hf
    split at hf <;> cases hf <;> exact ⟨hc, hv⟩
  case setDir | driveVal | driveZero | sample | delay => exact ⟨hc, hv⟩
  all_goals (intro f hf; cases hf; exact ⟨hc, hv⟩)

/-- Every sub-sequence names E, RS and RW only. -/
theorem outside_inSequences {k : Byte} (hE : c.mE &&& k = 0) (hRS : c.mRS &&& k = 0) (hRW : c.mRW &&& k = 0) :
    InSequences c (Outside k) where
  setE := hE
  setRS := hRS
  setRW := hRW
  clearE := hE
  clearRS := hRS
  clearRW := hRW
  clearRSRW := or_disjoint hRS hRW
  select _ := trivial
  selectTgt := trivial
  setDir _ := trivial
  delay _ := trivial
  sample := trivial
  test := trivial
  pollsZero := trivial

/-- No operation but SETC and CLRC names another bit than those of the six flags, and none but INIT names RST. -/
theorem outside_prog {k : Byte} (hE : c.mE &&& k = 0) (hRS : c.mRS &&& k = 0) (hRW : c.mRW &&& k = 0)
    (hm : hostMask i = false) (hi : i = .init → SelectsOutside c k ∧ c.mRST &&& k = 0) :
    ∀ m ∈ progOf c i, Outside k m := by
  have hq := outside_inSequences hE hRS hRW
  have h2 : ∀ v, i ≠ .setc v := by rintro v rfl; cases hm
  have h3 : ∀ v, i ≠ .clrc v := by rintro v rfl; cases hm
  by_cases h1 : i = .init
  · subst h1
    obtain ⟨⟨hCS1, hCS2⟩, hRST⟩ := hi rfl
    exact all_init hq (fun _ => trivial) trivial trivial (fun _ => trivial)
      (or_disjoint (or_disjoint (or_disjoint hCS1 hCS2) hRST) hE) hRST
  · exact all_prog hq trivial trivial (fun _ => trivial) (fun _ => trivial) trivial (fun _ _ _ _ => trivial) trivial
      (fun _ => trivial) trivial (fun _ => trivial) (fun _ => trivial) trivial i h1 h2 h3

theorem and_eq_zero_of_flagIn {v m : Byte} (h : flagIn v m = false) : v &&& m = 0 := by
  simpa [flagIn] using h

/-- Settles O52: outside SETC and CLRC no mask of a sequence names a reserved bit, and outside INIT none names RST. -/
theorem reservedBitsAndResetLineAreKept : Obligations.ReservedBitsAndResetLineAreKept := by
  intro i s t w hn h
  obtain ⟨p, u, hr, hp, hc, hctrl, -, -, he⟩ := runsOperation_start h
  have hnu : u.noReset = true := by rw [State.noReset, he]; exact hn
  have keeps : ∀ k, SelectsOutside s.cfg k → (∀ m ∈ progOf s.cfg i, Outside k m) →
      t.cfg = s.cfg ∧ t.ctrl &&& k = s.ctrl &&& k := fun k hk ho => by
    rw [← hc, ← hctrl]
    exact runs_ctrl hr (hc.symm ▸ hk) (fun m hm => ho m (hp m hm)) hnu
  have cfg : t.cfg = s.cfg := by
    refine (keeps 0 ⟨by simp, by simp⟩ fun m _ => ?_).1
    cases m <;> simp [Outside]
  refine ⟨cfg, fun hm => ⟨?_, fun hi => ?_⟩⟩
  · have res : ∀ x ∈ [s.cfg.mCS1, s.cfg.mCS2, s.cfg.mRST, s.cfg.mRS, s.cfg.mRW, s.cfg.mE],
        x &&& s.cfg.mReserved = 0 := fun x hx => reserved_flag x hx
    have hsel : SelectsOutside s.cfg s.cfg.mReserved := ⟨res _ (by simp), res _ (by simp)⟩
    rw [State.reservedBits, cfg]
    exact (keeps _ hsel (outside_prog (res _ (by simp)) (res _ (by simp)) (res _ (by simp)) hm
      fun _ => ⟨hsel, res _ (by simp)⟩)).2
  · have rst : ∀ {x}, flagIn x s.cfg.mRST = false → x &&& s.cfg.mRST = 0 := and_eq_zero_of_flagIn
    have hk := (keeps s.cfg.mRST ⟨rst (flag_mCS1_mRST w), rst (flag_mCS2_mRST w)⟩ (outside_prog (rst (flag_mE_mRST w))
      (rst (flag_mRS_mRST w)) (rst (flag_mRW_mRST w)) hm fun e => absurd e hi)).2
    rw [State.flagRST, State.flagRST, cfg, flagIn, flagIn, hk]

/-! ## RESULT (R28) -/

/-- Steps among which the write of RESULT does not stand leave it alone. -/
theorem runs_result {p : List Micro} {u : State} (hr : Runs p u t) (hp : ∀ m ∈ p, m ≠ .setResult)
    (hn : u.noReset = true) : t.result = u.result := by
  refine prog_keeps (P := fun v => v.result = u.result) (Q := (· ≠ .setResult)) (fun _ _ h => h)
    (fun _ _ _ _ _ h => h) (fun v h => by rw [arrive_result]; exact h) ?_ hr hp hn rfl
  intro m x e v hm hv
  cases m
  case ctrlSet m => simp [ctrlSet, hv]
  case ctrlClear m => simp [ctrlClear, hv]
  case select y => simp [select, hv]
  case selectTgt => simp [select, hv]
  case test => exact ⟨(countPoll_kept v).result.trans hv, hv⟩
  case pollsZero =>
    intro f hf
    simp only [micro] at hf
    split at hf <;> cases hf <;> exact hv
  case setResult => exact absurd rfl hm
  case setDir | driveVal | driveZero | sample | delay => exact hv
  all_goals (intro f hf; cases hf; exact hv)

/-- The write of RESULT stands in the sequences of RDB and RDD only. -/
theorem setResult_not_mem (h1 : ∀ x rs, i ≠ .rdb x rs) (h2 : ∀ x, i ≠ .rdd x) : ∀ m ∈ progOf c i, m ≠ .setResult := by
  have hq : InSequences c (· ≠ .setResult) := by constructor <;> nofun
  have ht : ∀ x, Micro.setTgt x ≠ .setResult := nofun
  have hl : ∀ v, Micro.setVal v ≠ .setResult := nofun
  have hv : Micro.driveVal ≠ .setResult := nofun
  have hz : Micro.driveZero ≠ .setResult := nofun
  cases i
  case init => exact all_init hq ht hv hz hl nofun nofun
  case clr => exact all_clear hq ht hv hz hl nofun nofun
  case pix x y on =>
    show ∀ m ∈ (if pixInRange x y then pixelSeq c x y on else []), m ≠ .setResult
    split
    · exact all_pixel hq ht hv hz hl nofun nofun nofun nofun nofun x y on
    · exact all_nil
  case setc v => exact all_cons nofun all_nil
  case clrc v => exact all_cons nofun all_nil
  case cfgrd => exact all_cfgRead hq
  case cfgwr => exact all_cons nofun all_nil
  case sel x => exact all_selectSeq hq ht x
  case wait => exact all_waitReady hq
  case rdb x rs => exact absurd rfl (h1 x rs)
  case rdd x => exact absurd rfl (h2 x)
  case wrb v x => exact all_writeByte hq ht hv hz (hl v) x
  case wrc v x => exact all_writeCommand hq ht hv hz hl v x
  case wrd v x => exact all_writeData hq ht hv hz (hl v) x

/-- Settles O53: only the last step of RDB and RDD writes RESULT. -/
theorem onlyReadsWriteResult : Obligations.OnlyReadsWriteResult := by
  intro i s t hn h h1 h2
  obtain ⟨p, u, hr, hp, -, -, hres, -, he⟩ := runsOperation_start h
  have hnu : u.noReset = true := by rw [State.noReset, he]; exact hn
  exact (runs_result hr (fun m hm => setResult_not_mem h1 h2 m (hp m hm)) hnu).trans hres

end Sys2Proof.Machine
end

section
/-! PROOF of O54 (R30): which operation-local registers the steps of each sequence write, and that what they hold at the
start of an operation makes no difference to it. -/

namespace Sys2Proof.Machine

variable {s t u v : State} {c : Config} {m : Micro} {i : Instr} {a l : Locals}

/-! ## Which registers an operation writes -/

/-- The operation-local registers a sequence may write, those of PX.2 to PX.7 and the two counters of CLR taken together. -/
structure Uses where
  val : Bool
  tgt : Bool
  smp : Bool
  rbv : Bool
  polls : Bool
  pixel : Bool
  counters : Bool

def Uses.nothing : Uses := ⟨false, false, false, false, false, false, false⟩

/-- … of each operation: the "Used by" column of R30. -/
def usesOf : Instr → Uses
  | .setc _ | .clrc _ | .cfgrd | .cfgwr => .nothing
  | .sel _ => { Uses.nothing with tgt := true }
  | .wait => { Uses.nothing with smp := true, polls := true }
  | .rdb _ _ | .rdd _ => { Uses.nothing with tgt := true, smp := true, rbv := true, polls := true }
  | .wrb _ _ | .wrc _ _ | .wrd _ _ | .init => { Uses.nothing with val := true, tgt := true, smp := true, polls := true }
  | .pix x y _ => if pixInRange x y then ⟨true, true, true, true, true, true, false⟩ else .nothing
  | .clr => { Uses.nothing with val := true, tgt := true, smp := true, polls := true, counters := true }

/-- The step writes a register of `w` or none. -/
def Uses.allows (w : Uses) : Micro → Bool
  | .setVal _ | .setValTmp => w.val
  | .setTgt _ => w.tgt
  | .sample => w.smp
  | .latchRbv => w.rbv
  | .pollsZero | .test => w.polls
  | .setPixel _ _ _ _ | .tmpRbv | .combine _ => w.pixel
  | .setPg _ | .setCn _ => w.counters
  | _ => true

theorem allows_inSequences (w : Uses) (hs : w.smp = true) (hp : w.polls = true) : InSequences c (w.allows · = true) where
  setE := rfl
  setRS := rfl
  setRW := rfl
  clearE := rfl
  clearRS := rfl
  clearRW := rfl
  clearRSRW := rfl
  select _ := rfl
  selectTgt := rfl
  setDir _ := rfl
  delay _ := rfl
  sample := hs
  test := hp
  pollsZero := hp

/-- Every step of an operation writes registers of the operation only. -/
theorem allows_prog (c : Config) (i : Instr) : ∀ m ∈ progOf c i, (usesOf i).allows m = true := by
  have hq := fun (w : Uses) hs hp => allows_inSequences (c := c) w hs hp
  cases i
  case init => exact all_init (hq _ rfl rfl) (fun _ => rfl) rfl rfl (fun _ => rfl) rfl rfl
  case clr => exact all_clear (hq _ rfl rfl) (fun _ => rfl) rfl rfl (fun _ => rfl) (fun _ => rfl) (fun _ => rfl)
  case pix x y on =>
    simp only [progOf, usesOf]
    split
    · exact all_pixel (hq _ rfl rfl) (fun _ => rfl) rfl rfl (fun _ => rfl) rfl (fun _ _ _ _ => rfl) rfl (fun _ => rfl)
        rfl x y on
    · exact all_nil
  case setc v => exact all_cons rfl all_nil
  case clrc v => exact all_cons rfl all_nil
  case cfgrd => exact all_cons rfl <| all_cons rfl <| all_cons rfl <| all_cons rfl <| all_cons rfl all_nil
  case cfgwr => exact all_cons rfl all_nil
  case sel x => exact all_cons rfl <| all_cons rfl all_nil
  case wait => exact all_waitReady (hq _ rfl rfl)
  case rdb x rs => exact all_append (all_readByte (hq _ rfl rfl) (fun _ => rfl) rfl rs x) (all_cons rfl all_nil)
  case rdd x => exact all_append (all_readData (hq _ rfl rfl) (fun _ => rfl) rfl x) (all_cons rfl all_nil)
  case wrb v x => exact all_writeByte (hq _ rfl rfl) (fun _ => rfl) rfl rfl rfl x
  case wrc v x => exact all_writeCommand (hq _ rfl rfl) (fun _ => rfl) rfl rfl (fun _ => rfl) v x
  case wrd v x => exact all_writeData (hq _ rfl rfl) (fun _ => rfl) rfl rfl rfl x

/-! ## What is kept of the others -/

/-- Of the locals `a`, `l` has those that `w` does not name; and POLLS where POLL_LIMIT is unbounded (R30). -/
structure Uses.Kept (w : Uses) (c : Config) (a l : Locals) : Prop where
  val : w.val = false → l.val = a.val
  tgt : w.tgt = false → l.tgt = a.tgt
  smp : w.smp = false → l.smp = a.smp
  rbv : w.rbv = false → l.rbv = a.rbv
  polls : w.polls = false → l.polls = a.polls
  tmp : w.pixel = false → l.tmp = a.tmp
  mask : w.pixel = false → l.mask = a.mask
  page : w.pixel = false → l.page = a.page
  col : w.pixel = false → l.col = a.col
  ctlr : w.pixel = false → l.ctlr = a.ctlr
  pg : w.counters = false → l.pg = a.pg
  cn : w.counters = false → l.cn = a.cn
  unbounded : c.pollLimit = none → l.polls = a.polls

theorem Uses.Kept.refl (w : Uses) (c : Config) (a : Locals) : w.Kept c a a := by constructor <;> exact fun _ => rfl

/-- An assignment, or the count of a poll, writes what it may (R30). -/
theorem Uses.Kept.assignment {w : Uses} (h : w.Kept u.cfg a u.loc) (hm : w.allows m = true)
    (hp : isPrimitive m = false) (ht : m ≠ .test) (hf : micro m [] u = .go v) : w.Kept u.cfg a v.loc := by
  cases m <;> cases hp
  case pollsZero =>
    simp only [micro] at hf
    split at hf <;> cases hf
    · exact h
    · rename_i hl
      exact { h with polls := fun hw => absurd (hm.symm.trans hw) (by decide), unbounded := fun e => absurd e hl }
  case test => exact absurd rfl ht
  case setResult => cases hf; exact h
  case setVal | setValTmp => cases hf; exact { h with val := fun hw => absurd (hm.symm.trans hw) (by decide) }
  case setTgt => cases hf; exact { h with tgt := fun hw => absurd (hm.symm.trans hw) (by decide) }
  case latchRbv => cases hf; exact { h with rbv := fun hw => absurd (hm.symm.trans hw) (by decide) }
  case tmpRbv | combine => cases hf; exact { h with tmp := fun hw => absurd (hm.symm.trans hw) (by decide) }
  case setPg => cases hf; exact { h with pg := fun hw => absurd (hm.symm.trans hw) (by decide) }
  case setCn => cases hf; exact { h with cn := fun hw => absurd (hm.symm.trans hw) (by decide) }
  case setPixel =>
    cases hf
    have hw : ¬w.pixel = false := fun hw => absurd (hm.symm.trans hw) (by decide)
    exact { h with mask := fun e => absurd e hw, page := fun e => absurd e hw, col := fun e => absurd e hw,
                   ctlr := fun e => absurd e hw }

theorem Uses.Kept.sampled {w : Uses} (h : w.Kept c a l) (hs : w.smp = true) (b : Byte) :
    w.Kept c a { l with smp := b } :=
  { h with smp := fun hw => absurd (hs.symm.trans hw) (by decide) }

theorem Uses.Kept.countPoll {w : Uses} (h : w.Kept u.cfg a u.loc) (hp : w.polls = true) :
    w.Kept u.cfg a (countPoll u).loc := by
  rw [countPoll_loc]
  exact { h with polls := fun hw => absurd (hp.symm.trans hw) (by decide),
                 unbounded := fun e => by rw [if_pos e]; exact h.unbounded e }

/-- An operation still in progress has kept the registers it does not use; one that is over has none (R30). -/
def KeptInProgress (w : Uses) (c : Config) (a : Locals) (u : State) : Prop :=
  u.cfg = c ∧ (u.idle = false → w.Kept c a u.loc)

theorem KeptInProgress.next {w : Uses} (h : KeptInProgress w c a u) (hc : v.cfg = u.cfg) (hs : v.status = u.status)
    (hl : w.Kept c a u.loc → w.Kept c a v.loc) : KeptInProgress w c a v := by
  obtain ⟨hcfg, hk⟩ := h
  refine ⟨hc.trans hcfg, fun hi => hl (hk ?_)⟩
  rw [State.idle, ← hs]; exact hi

theorem KeptInProgress.sameLoc {w : Uses} (h : KeptInProgress w c a u) (hc : v.cfg = u.cfg) (hs : v.status = u.status)
    (hl : v.loc = u.loc) : KeptInProgress w c a v :=
  h.next hc hs fun k => hl.symm ▸ k

/-- Steps that write registers of `w` only keep the others while the operation is in progress. -/
theorem runs_locals {w : Uses} {p : List Micro} (hr : Runs p u t) (hp : ∀ m ∈ p, w.allows m = true)
    (hn : u.noReset = true) (h : KeptInProgress w c a u) : KeptInProgress w c a t := by
  refine prog_keeps (P := KeptInProgress w c a) (Q := (w.allows · = true)) (fun _ _ h => h) ?ended
    (fun v h => h.sameLoc (arrive_cfg v) (arrive_status v) (arrive_loc v)) ?step hr hp hn h
  case ended => exact fun v b _ _ _ h => ⟨h.1, fun hi => absurd hi (by simp [State.idle, statusIdle])⟩
  case step =>
    intro m x e v hm hv
    cases m
    case ctrlSet m => exact hv.sameLoc (by simp [ctrlSet]) (by simp [ctrlSet]) (by simp [ctrlSet])
    case ctrlClear m => exact hv.sameLoc (by simp [ctrlClear]) (by simp [ctrlClear]) (by simp [ctrlClear])
    case select y => exact hv.sameLoc (by simp [select]) (by simp [select]) (by simp [select])
    case selectTgt => exact fun y => hv.sameLoc (by simp [select]) (by simp [select]) (by simp [select])
    case setDir | driveVal | driveZero | delay => exact hv.sameLoc rfl rfl rfl
    case sample => exact hv.next rfl rfl fun k => k.sampled hm _
    case test =>
      refine ⟨hv.next (countPoll_kept v).cfg (countPoll_kept v).status fun k => ?_, hv.sameLoc rfl rfl rfl⟩
      obtain rfl := hv.1
      exact k.countPoll hm
    all_goals
      intro f hf
      have hk := micro_passed hf
      obtain rfl := hv.1
      exact hv.next hk.cfg hk.status fun k => k.assignment hm rfl nofun hf

/-! ## From the registers kept to R30 -/

theorem eq_cond {α : Type} {q : Bool} {x y : α} (h : q = false → x = y) : x = cond q x y := by
  cases q
  · exact h rfl
  · rfl

/-- `l` where `w` names the register, `a` elsewhere. -/
def Uses.over (w : Uses) (l a : Locals) : Locals where
  val := cond w.val l.val a.val
  tgt := cond w.tgt l.tgt a.tgt
  smp := cond w.smp l.smp a.smp
  rbv := cond w.rbv l.rbv a.rbv
  polls := cond w.polls l.polls a.polls
  tmp := cond w.pixel l.tmp a.tmp
  mask := cond w.pixel l.mask a.mask
  page := cond w.pixel l.page a.page
  col := cond w.pixel l.col a.col
  ctlr := cond w.pixel l.ctlr a.ctlr
  pg := cond w.counters l.pg a.pg
  cn := cond w.counters l.cn a.cn

theorem Uses.Kept.eq_over {w : Uses} (h : w.Kept c a l) : l = w.over l a := by
  cases l
  simp only [Uses.over, Locals.mk.injEq]
  exact ⟨eq_cond h.val, eq_cond h.tgt, eq_cond h.smp, eq_cond h.rbv, eq_cond h.polls, eq_cond h.tmp, eq_cond h.mask,
    eq_cond h.page, eq_cond h.col, eq_cond h.ctlr, eq_cond h.pg, eq_cond h.cn⟩

theorem localsKept_of_kept (h : (usesOf i).Kept s.cfg s.loc t.loc) : localsKept i s t := by
  refine ⟨h.unbounded, ?_⟩
  cases i
  case pix x y on =>
    simp only [usesOf] at h ⊢
    split at h
    · rename_i hr; rw [if_pos hr]; exact ⟨h.pg rfl, h.cn rfl⟩
    · rename_i hr; rw [if_neg hr]; exact h.eq_over
  all_goals exact h.eq_over

/-! ## Other locals at the start -/

/-- `k` more steps end in `t`, idle, and the engine is never idle before. -/
def EndsAfter (k : Nat) (u t : State) : Prop :=
  (∀ j, j < k → ∃ v, Host.Core.run Sys2Proof.core j u = .next v ∧ v.idle = false) ∧
    Host.Core.run Sys2Proof.core k u = .next t ∧ t.idle = true

theorem overAfter_iff {k : Nat} : overAfter i k s t ↔ EndsAfter k (runSeq (progOf s.cfg i) (accept i s)) t := by
  simp only [overAfter, exec_prog, Host.Outcome.next.injEq]
  exact ⟨fun ⟨u, e, h⟩ => e ▸ h, fun h => ⟨_, rfl, h⟩⟩

theorem run_succ (k : Nat) (h : step u = .next v) : Host.Core.run Sys2Proof.core (k + 1) u =
    Host.Core.run Sys2Proof.core k v := by
  have hs : Host.Core.step Sys2Proof.core u = .next v := h
  simp only [Host.Core.run, hs]

theorem endsAfter_succ {k : Nat} : EndsAfter (k + 1) u t ↔ u.idle = false ∧ ∃ v, step u = .next v ∧ EndsAfter k v t := by
  constructor
  · rintro ⟨hb, hr, ht⟩
    obtain ⟨u', hu, hi⟩ := hb 0 (by omega)
    cases hu
    refine ⟨hi, ?_⟩
    cases hs : step u with
    | next v =>
      refine ⟨v, rfl, fun j hj => ?_, ?_, ht⟩
      · rw [← run_succ j hs]; exact hb (j + 1) (by omega)
      · rw [← run_succ k hs]; exact hr
    | fault f =>
      have hs' : Host.Core.step Sys2Proof.core u = .fault f := hs
      simp [Host.Core.run, hs'] at hr
    | refused r =>
      have hs' : Host.Core.step Sys2Proof.core u = .refused r := hs
      simp [Host.Core.run, hs'] at hr
  · rintro ⟨hi, v, hs, hb, hr, ht⟩
    refine ⟨fun j hj => ?_, (run_succ k hs).trans hr, ht⟩
    cases j with
    | zero => exact ⟨u, rfl, hi⟩
    | succ j => rw [run_succ j hs]; exact hb j (by omega)

/-- From states apart in locals that are written before they are read, the same end after the same steps. -/
theorem LocalsApart.endsAfter {k : Nat} (h : LocalsApart u v) (hi : u.idle = false) (he : EndsAfter k u t) :
    EndsAfter k v t := by
  induction k generalizing u v with
  | zero =>
    obtain ⟨-, hr, ht⟩ := he
    cases hr
    exact absurd (hi.symm.trans ht) (by decide)
  | succ k ih =>
    obtain ⟨-, u', hu, hk⟩ := endsAfter_succ.mp he
    have hv : v.idle = false := by
      obtain ⟨_, _, l, rfl, -, -⟩ := h
      exact hi
    obtain ⟨v', hv', rfl | ⟨hi', h'⟩⟩ := step_apart h hi hu
    · exact endsAfter_succ.mpr ⟨hv, v', hv', hk⟩
    · exact endsAfter_succ.mpr ⟨hv, v', hv', ih h' hi' hk⟩

/-- Settles O54: each step of a sequence writes registers of its operation only, and reads those written before it. -/
theorem localsUsedByTheirOperations : Obligations.LocalsUsedByTheirOperations := by
  constructor
  · intro i s t hn h hi
    obtain ⟨p, u, hr, hp, hc, -, -, hl, he⟩ := runsOperation_start h
    have hnu : u.noReset = true := by rw [State.noReset, he]; exact hn
    have hk : KeptInProgress (usesOf i) s.cfg s.loc u := ⟨hc, fun _ => hl ▸ .refl _ _ _⟩
    exact localsKept_of_kept ((runs_locals hr (fun m hm => allows_prog s.cfg i m (hp m hm)) hnu hk).2 hi)
  · intro i k s t l h
    rw [overAfter_iff] at h ⊢
    obtain ⟨w, hw⟩ := feeds_prog (c := s.cfg) i
    have hagree : Fed.nothing.Agree (accept i s).cfg (accept i s).loc l :=
      ⟨nofun, nofun, nofun, nofun, nofun, nofun, nofun⟩
    have e : accept i { s with loc := l } = (accept i s).localsOf l := rfl
    rw [e]
    obtain hsame | ⟨hst, hapart⟩ := runSeq_apart hagree hw
    · exact hsame ▸ h
    · exact hapart.endsAfter ((congrArg (·.getLsbD 0) hst).trans (accept_idle i s)) h

end Sys2Proof.Machine
end

section
/-! PROOF of O13 (R10, R20, R28, R33, R37, R150): the engine step as the acceptance, one primitive, or the completion. -/

namespace Sys2Proof.Machine

variable {s t u : State} {m : Micro} {rest : List Micro} {p : EnvSlot → State → State}

/-! ## Where a primitive leaves the sequencer (R32, R150) -/

/-- After a primitive nothing has moved but the sequencer, and POLLS where a poll was counted. -/
theorem advance_eq (rest : List Micro) (u : State) :
    ∃ q n, advance rest u = { u with seq := q, loc := { u.loc with polls := n } } := by
  refine advance_keeps (P := fun v => ∃ q n, v = { u with seq := q, loc := { u.loc with polls := n } }) ?_ ?_
    ⟨u.seq, u.loc.polls, rfl⟩
  · rintro v q ⟨-, n, rfl⟩
    exact ⟨q, n, rfl⟩
  · intro _ _
    unfold countPoll
    split
    · exact ⟨u.seq, u.loc.polls, rfl⟩
    · exact ⟨u.seq, u.loc.polls + 1, rfl⟩

theorem advance_of_no_test (h : ∀ after, rest ≠ .test :: after) (u : State) :
    advance rest u = { u with seq := rest } := by
  unfold advance
  split
  · rename_i after; exact absurd rfl (h after)
  · rfl

theorem advance_test_seq (after : List Micro) (u : State) : (advance (.test :: after) u).seq =
    if showsBusy u.cfg.busyMask u.loc.smp then
      if u.cfg.pollLimit = some (u.loc.polls + 1) then .test :: after else pollBody u.cfg ++ .test :: after
    else after := by
  have hc : u.cfg.pollLimit = some (countPoll u).loc.polls ↔ u.cfg.pollLimit = some (u.loc.polls + 1) := by
    rw [countPoll_loc]
    cases u.cfg.pollLimit <;> simp
  simp only [advance, hc]
  split
  · split <;> rfl
  · rfl

/-- The engine step of a primitive that no EngineReset strikes executes it and moves on: of what the primitive left it
changes the sequencer and POLLS only (R20, R71). -/
theorem engineStep_prim (hf : s.protoFault = none) (hi : s.idle = false) (hn : s.noResetNow = true)
    (hq : s.seq = m :: rest) (hm : isPrimitive m = true) (hp : primOf s m = some p) : ∃ q n,
    engineStep s = .next { p s.slot s.arrive with seq := q, loc := { (p s.slot s.arrive).loc with polls := n } } ∧
      ((p s.slot s.arrive).protoFault = none →
        advance rest (p s.slot s.arrive) =
          { p s.slot s.arrive with seq := q, loc := { (p s.slot s.arrive).loc with polls := n } }) := by
  rw [engineStep_busy hi hf, hq, engineMove, primOf_micro hp]
  obtain hx | ⟨x, hx⟩ := Option.eq_none_or_eq_some (p s.slot s.arrive).protoFault
  · obtain ⟨q, n, e⟩ := advance_eq rest (p s.slot s.arrive)
    rw [primitive_arrive hn hx]
    exact ⟨q, n, by simp only [hm, if_true, e], fun _ => e⟩
  · rw [primitive_fault hn (by rw [hx]; rfl)]
    exact ⟨rest, (p s.slot s.arrive).loc.polls, rfl, fun h => by rw [hx] at h; cases h⟩

/-- A `Delay` acts on the state the environment's moves leave, and adds itself to the record (R10, R285). -/
theorem delay_frame (k : DelayKind) (q : List Micro) (l : Locals) (s : State) :
    sameButReady s { delay k s.slot s.arrive with seq := q, loc := l } ∧
      sameRam s { delay k s.slot s.arrive with seq := q, loc := l } := by
  have hctl : ∀ c, ({ delay k s.slot s.arrive with seq := q, loc := l }).ctl c = s.arrive.ctl c := fun c => by
    cases c <;> rfl
  have hram : ∀ c page col, ({ delay k s.slot s.arrive with seq := q, loc := l }).ramByte c page col =
      s.arrive.ramByte c page col := fun c _ _ => by cases c <;> rfl
  exact ⟨fun c => by rw [hctl]; exact (kept_arrive s).sameButReady c,
    fun c page col => (hram c page col).trans (arrive_ram s c page col)⟩

/-! ## At most one primitive (R20) -/

/-- One micro step executes at most one primitive, and none where it goes on as an assignment or as a test. -/
theorem micro_trace_length (m : Micro) (rest : List Micro) (s : State) : (micro m rest s).leads
    (fun t => t.trace.length ≤ s.trace.length + 1 ∧ (isPrimitive m = false → t.trace = s.trace))
    (fun t => t.trace.length ≤ s.trace.length + 1) := by
  have hcount : ∀ u, (countPoll u).trace = u.trace := fun u => (countPoll_same u).2.2.1
  have hprim : ∀ p, primOf s m = some p → (p s.slot s.arrive).trace.length = s.trace.length + 1 := by
    intro p hp
    obtain ⟨q, hq, -⟩ := primOf_trace hp
    rw [hq, List.length_cons]
  have hset : (setDir .output (countPoll s).slot (countPoll s).arrive).trace.length = s.trace.length + 1 := by
    simp [setDir, hcount]
  refine micro_cases (P := Flow.leads _ _) ?struck ?prim ?fault ?assign ?result ?ready ?loop ?dead ?fail
  case struck =>
    rintro - u (rfl | ⟨-, rfl⟩)
    · simp [Flow.leads, engineReset]
    · simp [Flow.leads, engineReset, hcount]
  case prim =>
    intro p hp _
    exact ⟨(hprim p hp).le, fun hm => by rw [isPrimitive_primOf s, hp] at hm; cases hm⟩
  case fault => intro p hp _; exact (hprim p hp).le
  case assign => exact fun _ _ _ => ⟨Nat.le_succ _, fun _ => rfl⟩
  case result => exact fun _ => ⟨Nat.le_succ _, fun _ => rfl⟩
  case ready => exact fun _ _ => ⟨by rw [hcount]; exact Nat.le_succ _, fun _ => hcount s⟩
  case loop => exact fun _ _ _ => by simp [Flow.leads, hcount]
  case dead => exact fun _ _ => hset.le
  case fail => exact fun _ _ _ => hset.le

theorem engineMove_trace_length (p : List Micro) (s : State) :
    (engineMove p s).trace.length ≤ s.trace.length + 1 := by
  refine engineMove_rec (I := fun _ u => u.trace = s.trace) (E := fun t => t.trace.length ≤ s.trace.length + 1)
    ?done ?prim ?other p s rfl
  case done => intro u h; rw [complete_trace, h]; exact Nat.le_succ _
  case prim =>
    intro m rest u h _
    have hl := micro_trace_length m rest u
    rw [h] at hl
    refine hl.imp (fun t ht => ?_) fun _ ht => ht
    obtain ⟨q, n, e⟩ := advance_eq rest t
    rw [e]
    exact ht.1
  case other =>
    intro m rest u h hm
    have hl := micro_trace_length m rest u
    rw [h] at hl
    exact hl.imp (fun t ht => ht.2 hm) fun _ ht => ht

theorem engineStep_trace_length (h : engineStep s = .next t) : t.trace.length ≤ s.trace.length + 1 := by
  have hf := engineStep_next_fault h
  cases hi : s.idle with
  | false => rw [engineStep_inProgress hi hf h]; exact engineMove_trace_length s.seq s
  | true =>
    rw [engineStep_idle hi hf] at h
    obtain e | ⟨rest, e⟩ | ⟨rest, -, e⟩ | ⟨i, rest, e⟩ := idleStep_cases s <;> rw [e] at h <;> cases h
    · exact Nat.le_succ _
    · exact Nat.le_succ _
    · simp [hostReset, engineReset]
    · exact Nat.le_succ _

theorem engineStep_host (hi : s.idle = false) (h : engineStep s = .next t) : t.host = s.host := by
  rw [engineStep_inProgress hi (engineStep_next_fault h) h]
  exact (congrArg State.host (engineMove_hosted s.seq s)).symm

/-! ## The five kinds of engine step -/

/-- Settles O13: each kind of engine step as `engineMove` takes it, the primitive through what `primOf` says of all of
them. -/
theorem engineStepsAreThoseOfTheSpec : Obligations.EngineStepsAreThoseOfTheSpec := by
  refine ⟨?accept, ?primitive, ?assignment, ?completion,
    fun s t h => ⟨engineStep_trace_length h, fun hi => engineStep_host hi h⟩⟩
  case accept =>
    intro s w i rest hf hi hh hd
    rw [engineStep_idle hi hf, idleStep_request hh hd]
    rfl
  case primitive =>
    intro s m rest hf hi hn hq hm
    obtain ⟨p, hp⟩ := primOf_of_isPrimitive (s := s) hm
    obtain ⟨x, hx, -, hdelay⟩ := primOf_trace hp
    obtain ⟨hres, henv, hpolls⟩ := primOf_keeps hp
    have k := primOf_passed hp s
    obtain ⟨q, n, ht, hadv⟩ := engineStep_prim hf hi hn hq hm hp
    refine ⟨_, x, ht, hx, henv, k.status, k.req, hres, k.cfg, k.host, fun h0 hr => ?onward, fun h0 after hr => ?poll,
      fun d hd => ?delay⟩
    case onward =>
      have e := (hadv h0).symm.trans (advance_of_no_test hr _)
      exact congrArg State.seq e
    case poll =>
      subst hr
      have e := (congrArg State.seq (hadv h0)).symm.trans (advance_test_seq after _)
      rw [k.cfg, hpolls] at e
      exact e
    case delay =>
      subst hd
      cases hp
      obtain ⟨hctl, hram⟩ := delay_frame d q { s.arrive.loc with polls := n } s
      refine ⟨hdelay d rfl, (arrive_protoFault s).trans hf, arrive_ctrl s, arrive_dout s, arrive_dir s, arrive_pulses s,
        hctl, hram, fun hr => ?_⟩
      have e := (hadv ((arrive_protoFault s).trans hf)).symm.trans (advance_of_no_test hr _)
      exact (congrArg State.loc e).trans (arrive_loc s)
  case assignment =>
    intro s u m rest hf hi hq hm hu
    have hfu := micro_go_fault hu hf
    have hiu : u.idle = false := (micro_passed hu).idle.trans hi
    rw [engineStep_busy hi hf, hq, engineMove, hu, engineStep_seq hfu hiu]
    simp only [hm, Bool.false_eq_true, if_false]
  case completion =>
    intro s hf hi
    rw [engineStep_busy hi hf]
    exact ⟨fun hq => by rw [hq]; rfl, fun hq => by rw [hq]; rfl⟩

end Sys2Proof.Machine
end

section
/-! PROOF of O55 (R52, R56, R67): what lies between two states of a run, the pulse events recorded and the display memory
they leave alone, composes over the micro steps of a sequence; and each of them keeps it. -/

namespace Sys2Proof.Machine

variable {s t u : State} {c : Ctl} {m : Micro} {p : EnvSlot → State → State}

/-- The pulse event is a data write that controller c, selected and out of reset, receives (R58, R61, R72). -/
def Pulse.writes (q : Pulse) (c : Ctl) : Bool := q.kind = .dataWrite && q.selects c && q.rst

/-- From `s` to `t` pulse events have been recorded, and unless one of them is a data write that controller c receives,
its display memory reads as before. -/
def RamFrame (c : Ctl) (s t : State) : Prop :=
  ∃ new, t.pulses = new ++ s.pulses ∧
    ((∀ q ∈ new, q.writes c = false) → ∀ page col, t.ramByte c page col = s.ramByte c page col)

theorem RamFrame.trans (h : RamFrame c s t) (k : RamFrame c t u) : RamFrame c s u := by
  obtain ⟨new, hp, hr⟩ := h
  obtain ⟨newer, kp, kr⟩ := k
  refine ⟨newer ++ new, by rw [kp, hp, List.append_assoc], fun hq page col => ?_⟩
  rw [kr fun q hm => hq q (List.mem_append_left _ hm), hr fun q hm => hq q (List.mem_append_right _ hm)]

/-- No pulse event, and the same bytes. -/
theorem RamFrame.same (hp : t.pulses = s.pulses) (hr : ∀ page col, t.ramByte c page col = s.ramByte c page col) :
    RamFrame c s t :=
  ⟨[], hp, fun _ => hr⟩

/-- No pulse event, and neither display memory nor a controller touched. -/
theorem RamFrame.untouched (hp : t.pulses = s.pulses) (hm : t.mem = s.mem) (h1 : t.c1 = s.c1) (h2 : t.c2 = s.c2) :
    RamFrame c s t :=
  .same hp fun page col => by cases c <;> simp only [State.ramByte, State.ctl, hm, h1, h2]

theorem RamFrame.refl (c : Ctl) (s : State) : RamFrame c s s := .same rfl fun _ _ => rfl

/-- The pulse events a frame records are the new ones. -/
theorem RamFrame.newPulses (h : RamFrame c s t) (hq : ∀ q ∈ newPulses s t, q.writes c = false) (page : BitVec 3)
    (col : BitVec 6) : t.ramByte c page col = s.ramByte c page col := by
  obtain ⟨new, hp, hr⟩ := h
  have hn : Machine.newPulses s t = new := by simp [Machine.newPulses, hp]
  exact hr (hn ▸ hq) page col

/-! ## Updates of CTRL (R58, R72) -/

/-- An event that is no data write for controller c leaves its bytes alone, whoever receives it. -/
theorem receive_ram_unwritten {q : Pulse} (h : q.writes c = false) (e : EnvSlot) (k : Ctl) (b : Byte) (s : State)
    (page : BitVec 3) (col : BitVec 6) : (receive e q k b s).ramByte c page col = s.ramByte c page col := by
  obtain ⟨-, hram, -⟩ := receive_any e q k b s
  rw [hram]
  refine if_neg ?_
  rintro ⟨hreach, hkind, rfl, -⟩
  simp only [Pulse.reaches, Bool.and_eq_true] at hreach
  obtain ⟨⟨⟨hsel, hrst⟩, -⟩, -⟩ := hreach
  simp [Pulse.writes, hkind, hsel, hrst] at h

theorem pulseEvent_ramFrame (e : EnvSlot) (s : State) : RamFrame c s (pulseEvent e s) := by
  refine ⟨[s.pulseRecord], pulseEvent_pulses e s, fun hq page col => ?_⟩
  have hw : s.pulseRecord.writes c = false := hq _ (List.mem_singleton_self _)
  exact ((receive_ram_unwritten hw ..).trans (receive_ram_unwritten hw ..)).trans (by cases c <;> rfl)

theorem releaseReset_ramFrame {e : EnvSlot} (h : e.ramLostOf c = false) (k : Ctl) (s : State) :
    RamFrame c s (releaseReset e k s) :=
  .same (releaseReset_pulses e k s) (releaseReset_ram e k s c fun hk => hk ▸ h)

/-- An update of CTRL: at most a pulse event, and a release of the reset that keeps display memory. -/
theorem updateCtrl_ramFrame {e : EnvSlot} (h : e.ramLostOf c = false) (v : Byte) (s : State) :
    RamFrame c s (updateCtrl e v s) := by
  have hfall : RamFrame c s { (if s.flagE && !flagIn v s.cfg.mE then pulseEvent e s else s) with ctrl := v } := by
    refine RamFrame.trans ?_ (.untouched rfl rfl rfl rfl)
    split
    · exact pulseEvent_ramFrame e s
    · exact .refl c s
  unfold updateCtrl
  dsimp only
  split
  · exact (hfall.trans (releaseReset_ramFrame h .one _)).trans (releaseReset_ramFrame h .two _)
  · exact hfall

/-! ## The micro steps (R10, R20, R270) -/

theorem arrive_ramFrame (s : State) : RamFrame c s s.arrive := .same (arrive_pulses s) (arrive_ram s c)

theorem ramKept_slot (h : s.ramKept = true) (c : Ctl) : s.slot.ramLostOf c = false := by
  have hs := (all_slots (p := fun e => !e.ramLost1 && !e.ramLost2) rfl h).1
  simp only [Bool.and_eq_true, Bool.not_eq_true'] at hs
  cases c
  · exact hs.1
  · exact hs.2

theorem primOf_ramFrame (h : s.ramKept = true) (hp : primOf s m = some p) : RamFrame c s (p s.slot s.arrive) := by
  refine (arrive_ramFrame s).trans ?_
  have update : ∀ q v, RamFrame c s.arrive (record q (updateCtrl s.slot v s.arrive)) := fun q v =>
    (updateCtrl_ramFrame (ramKept_slot h c) v _).trans (.untouched rfl rfl rfl rfl)
  cases m <;> cases hp
  case ctrlSet => exact update _ _
  case ctrlClear => exact update _ _
  case select => exact update _ _
  case selectTgt => exact update _ _
  all_goals exact .untouched rfl rfl rfl rfl

theorem engineReset_ramFrame (h : s.ramKept = true) : RamFrame c s (engineReset s.slot s.arrive) :=
  ((arrive_ramFrame s).trans (updateCtrl_ramFrame (ramKept_slot h c) 0x00 _)).trans (.untouched rfl rfl rfl rfl)

theorem countPoll_ramFrame (s : State) : RamFrame c s (countPoll s) := by
  unfold countPoll
  split
  · exact .refl c s
  · exact .untouched rfl rfl rfl rfl

/-- The `SetDir(OUTPUT)` of a wait that fails (R155). -/
theorem giveUp_ramFrame (s : State) : RamFrame c s (setDir .output (countPoll s).slot (countPoll s).arrive) :=
  ((countPoll_ramFrame s).trans (arrive_ramFrame _)).trans (.untouched rfl rfl rfl rfl)

/-! ## Runs and steps (R37) -/

theorem runSeq_ramFrame (prog : List Micro) (h : s.ramKept = true) : RamFrame c s (runSeq prog s) := by
  have still : ∀ {v w : State}, RamFrame c s v → w.pulses = v.pulses → w.mem = v.mem → w.c1 = v.c1 → w.c2 = v.c2 →
      RamFrame c s w := fun hv hp hm h1 h2 => hv.trans (.untouched hp hm h1 h2)
  refine run_cases (I := fun _ v => v.ramKept = true ∧ RamFrame c s v) (E := RamFrame c s) ?done ?struck ?prim ?fault
    ?assign ?result ?ready ?loop ?dead ?fail prog s ⟨h, .refl c s⟩
  case done => exact fun v ⟨_, hv⟩ => still hv rfl rfl rfl rfl
  case struck =>
    rintro m rest v ⟨hk, hv⟩ - w (rfl | ⟨-, rfl⟩)
    · exact hv.trans (engineReset_ramFrame hk)
    · exact (hv.trans (countPoll_ramFrame v)).trans (engineReset_ramFrame ((countPoll_passed v).ramKept hk))
  case prim => exact fun m rest v p ⟨hk, hv⟩ hp _ => ⟨(primOf_passed hp v).ramKept hk, hv.trans (primOf_ramFrame hk hp)⟩
  case fault => exact fun m rest v p ⟨hk, hv⟩ hp _ => still (hv.trans (primOf_ramFrame hk hp)) rfl rfl rfl rfl
  case assign => exact fun m rest v f ⟨hk, hv⟩ _ _ => ⟨hk, still hv rfl rfl rfl rfl⟩
  case result => exact fun rest v ⟨hk, hv⟩ => ⟨hk, still hv rfl rfl rfl rfl⟩
  case ready => exact fun rest v ⟨hk, hv⟩ _ => ⟨(countPoll_passed v).ramKept hk, hv.trans (countPoll_ramFrame v)⟩
  case loop => exact fun rest v ⟨_, hv⟩ _ => still (hv.trans (countPoll_ramFrame v)) rfl rfl rfl rfl
  case dead => exact fun rest v ⟨_, hv⟩ _ => still (hv.trans (giveUp_ramFrame v)) rfl rfl rfl rfl
  case fail => exact fun rest v ⟨_, hv⟩ _ _ => still (hv.trans (giveUp_ramFrame v)) rfl rfl rfl rfl

theorem step_ramFrame (h : s.ramKept = true) (hn : step s = .next t) : RamFrame c s t := by
  have hf := step_next_fault hn
  cases hi : s.idle with
  | false => rw [step_inProgress hi hf hn]; exact runSeq_ramFrame s.seq h
  | true =>
    have hosted : ∀ l, RamFrame c s { s with host := l } := fun _ => .untouched rfl rfl rfl rfl
    rw [step_idle hi hf] at hn
    obtain e | ⟨rest, e⟩ | ⟨rest, -, e⟩ | ⟨i, rest, e⟩ := idleStep_cases s <;> rw [e] at hn
    · cases hn; exact .refl c s
    · cases hn; exact (hosted rest).trans (.untouched rfl rfl rfl rfl)
    · cases hn; exact (hosted rest).trans (engineReset_ramFrame (s := { s with host := rest }) h)
    · rw [exec_prog] at hn
      cases hn
      exact RamFrame.trans (.untouched rfl rfl rfl rfl) (runSeq_ramFrame (s := accept i { s with host := rest }) _ h)

/-- Settles O55: every way a step can go is a chain of frames, and its only pulse events are the new ones. -/
theorem onlyDataWritesChangeDisplayMemory : Obligations.OnlyDataWritesChangeDisplayMemory :=
  fun _ _ _ _ hk hn hq => (step_ramFrame hk hn).newPulses hq

end Sys2Proof.Machine
end

section
/-! PROOF of O20, O22 to O26 and O11 (R58 to R64, R71, R72): one `CLRC` that lowers E, in any environment without an
EngineReset, and what it leaves for each kind of pulse event; where the machine stops; what a sample is. -/

namespace Sys2Proof.Machine

variable {s t u : State} {mask : Byte} {b : Ctl → Byte} {c : Ctl}

/-! ## The pulse event of a CLRC (R58, R121) -/

theorem afterPulse_eq (s : State) (c : Ctl) (b : Byte) : afterPulse s c b =
    pulsedCtl s.cfg s.pulseRecord.kind b (s.ramByte c (s.ctl c).xp (s.ctl c).ya) (s.ctl c) := by
  have hrs : s.pulseRecord.rs = s.flagRS := rfl
  have hrw : s.pulseRecord.rw = s.flagRW := rfl
  simp only [afterPulse, Pulse.kind, hrs, hrw]
  cases s.flagRW <;> cases s.flagRS <;> rfl

/-- What a pulse event does is what `received` says, the environment's moves of its slot taken first. -/
theorem pulseEvent_received (hf : s.protoFault = none) :
    received s (s.pulseByte s.slot) (pulseEvent s.slot s.arrive) := by
  obtain ⟨hctl, hram, -⟩ := pulseEvent_arrive hf
  refine ⟨fun ho => pulseByte_output s.slot ho, fun c => ⟨by rw [hctl, afterPulse_eq], fun page col => ?_⟩⟩
  rw [hram]
  simp only [kind_dataWrite, Bool.and_eq_true, Bool.not_eq_true', and_assoc]

theorem received_congr (h : received s b t) (hc : ∀ c, u.ctl c = t.ctl c)
    (hr : ∀ c page col, u.ramByte c page col = t.ramByte c page col) : received s b u := by
  obtain ⟨hb, h⟩ := h
  exact ⟨hb, fun c => ⟨(hc c).trans (h c).1, fun page col => (hr c page col).trans ((h c).2 page col)⟩⟩

/-- `CtrlClear` with E high and M_E in its mask: the pulse event, then the lines (R58). -/
theorem ctrlClear_falls (w : s.cfg.wf = true) (he : s.flagE = true) (hm : flagIn mask s.cfg.mE = true) (e : EnvSlot) :
    ctrlClear mask e s = record (.ctrlClear mask) { pulseEvent e s with ctrl := s.ctrl &&& ~~~mask } := by
  rw [ctrlClear, updateCtrl_falls (by rw [clear_falls s w, he, hm]; rfl) (clear_keeps_RST s w mask)]

/-- What the one primitive of a CLRC that lowers E leaves: the pulse event made and recorded, the lines cleared. -/
def State.afterClrc (s : State) (mask : Byte) : State :=
  record (.ctrlClear mask)
    { pulseEvent s.slot (accept (.clrc mask) s).arrive with ctrl := s.ctrl &&& ~~~mask }

theorem ctrlClear_afterClrc (w : s.cfg.wf = true) (he : s.flagE = true) (hm : flagIn mask s.cfg.mE = true) :
    ctrlClear mask s.slot (accept (.clrc mask) s).arrive = s.afterClrc mask := by
  rw [ctrlClear_falls (by rw [arrive_cfg]; exact w) (by rw [arrive_flagE]; exact he) (by rw [arrive_cfg]; exact hm),
    arrive_ctrl]
  rfl

theorem afterClrc_fault (hf : s.protoFault = none) : (s.afterClrc mask).protoFault = s.metFault :=
  (pulseEvent_arrive (s := accept (.clrc mask) s) hf).2.2

theorem afterClrc_pulses : (s.afterClrc mask).pulses = s.pulseRecord :: s.pulses := by
  simp only [State.afterClrc, record_pulses, pulseEvent_pulses, arrive_pulseRecord, arrive_pulses, accept_pulses]
  rfl

theorem afterClrc_received (hf : s.protoFault = none) : received s (s.pulseByte s.slot) (s.afterClrc mask) :=
  received_congr (pulseEvent_received (s := accept (.clrc mask) s) hf) (fun c => by cases c <;> rfl)
    fun c page col => by cases c <;> rfl

/-- … and without a protocol fault the operation completes as every operation does (R37). -/
theorem afterClrc_endsWith (h : (s.afterClrc mask).protoFault = none) :
    endsWith (.clrc mask) s (complete (s.afterClrc mask)) := by
  refine ⟨?_, rfl, ?_, h, ?_, ?_⟩ <;> simp [State.afterClrc, statusIdle_busy]

/-- A CLRC that lowers E: its one primitive makes the pulse event, and the operation completes unless that meets a busy
controller (R58, R71, R121). -/
theorem exec_clrc_falls (w : s.cfg.wf = true) (hf : s.protoFault = none) (hn : s.noResetNow = true)
    (he : s.flagE = true) (hm : flagIn mask s.cfg.mE = true) :
    ∃ t, exec (.clrc mask) s = .next t ∧ t.ctrl = s.ctrl &&& ~~~mask ∧ t.pulses = s.pulseRecord :: s.pulses ∧
      t.protoFault = s.metFault ∧ received s (s.pulseByte s.slot) t ∧
      (s.hitsBusy = false → endsWith (.clrc mask) s t) := by
  have hprim := ctrlClear_afterClrc w he hm
  have hfault := afterClrc_fault (mask := mask) hf
  have hreceived := afterClrc_received (mask := mask) hf
  cases hb : s.hitsBusy with
  | false =>
    have hnone : (s.afterClrc mask).protoFault = none := by
      rw [hfault, ← Option.isNone_iff_eq_none, ← Option.not_isSome, metFault_isSome, hb]; rfl
    exact ⟨complete (s.afterClrc mask), exec_single (m := .ctrlClear mask) rfl (fun _ => rfl) hn hprim hnone, rfl,
      afterClrc_pulses, hfault, received_congr hreceived (ctl_complete _) (ram_complete _),
      fun _ => afterClrc_endsWith hnone⟩
  | true =>
    have hsome : (ctrlClear mask s.slot (accept (.clrc mask) s).arrive).protoFault.isSome = true := by
      rw [hprim, hfault, metFault_isSome, hb]
    have hstop : micro (.ctrlClear mask) [] (accept (.clrc mask) s) = .stop { s.afterClrc mask with seq := [] } := by
      rw [← hprim]; exact primitive_fault (s := accept (.clrc mask) s) hn hsome
    refine ⟨{ s.afterClrc mask with seq := [] }, ?_, rfl, afterClrc_pulses, hfault,
      received_congr hreceived (fun c => by cases c <;> rfl) fun c page col => by cases c <;> rfl, nofun⟩
    rw [exec_prog]
    exact congrArg _ (runSeq_stop hstop)

/-! ## Events that every controller they are offered to is ready for -/

theorem offers_selected (h : s.offers c = true) : s.selected c = true := by
  simp only [State.offers, Bool.and_eq_true] at h
  exact h.1.1

/-- Where every selected controller is ready, none is met busy. -/
theorem meetsBusy_of_ready (h : ∀ c, s.selected c = true → (s.ctl c).busy = false) (c : Ctl) : s.meetsBusy c = false := by
  cases ho : s.offers c with
  | false => simp [State.meetsBusy, ho]
  | true => simp [State.meetsBusy, h c (offers_selected ho)]

theorem hitsBusy_of_ready (h : ∀ c, s.meetsBusy c = false) : s.hitsBusy = false := by simp [State.hitsBusy, h]

/-- Out of reset and no status read, the event is offered to the selected controllers (R58, R63, R72). -/
theorem offers_eq_selected (hr : s.flagRST = true) (hk : (s.flagRW && !s.flagRS) = false) (c : Ctl) :
    s.offers c = s.selected c := by simp [State.offers, hr, hk]

/-- A pulse event met by ready controllers only, out of reset and no status read: each selected controller has acted, any
other has made at most a `Ready` step, and a data write is stored (R58 to R63). -/
theorem received_ready (hd : received s b t) (hr : s.flagRST = true) (hk : (s.flagRW && !s.flagRS) = false)
    (h : ∀ c, s.selected c = true → (s.ctl c).busy = false) :
    (∀ c, s.selected c = true → t.ctl c = { afterPulse s c (b c) with busy := s.slot.busyOf c }) ∧
    (∀ c, s.selected c = false → t.ctl c = { s.ctl c with busy := (s.ctl c).busy && !s.slot.readyOf c }) ∧
    ∀ c page col, t.ramByte c page col =
      if (s.selected c && s.flagRS && !s.flagRW) = true ∧ page = (s.ctl c).xp ∧ col = (s.ctl c).ya then b c
      else s.ramByte c page col := by
  obtain ⟨-, hd⟩ := hd
  simp only [meetsBusy_of_ready h, offers_eq_selected hr hk, Bool.false_eq_true, if_false, Bool.not_false,
    Bool.and_true] at hd
  exact ⟨fun c hs => by rw [(hd c).1, if_pos hs], fun c hs => by rw [(hd c).1, hs]; rfl, fun c => (hd c).2⟩

/-- Settles O20: a command write leaves in each selected controller what the decode of its byte makes of it. -/
theorem commandWriteReachesTheSelected : Obligations.CommandWriteReachesTheSelected := by
  intro s mask w hf hn he hm hrs hrw hr h
  obtain ⟨t, hx, -, -, -, hd, -⟩ := exec_clrc_falls w hf hn he hm
  obtain ⟨hsel, hother, hram⟩ := received_ready hd hr (by rw [hrw]; rfl) h
  refine ⟨t, _, hx, hd.1, fun c hs => ?_, hother, fun c page col => ?_⟩
  · rw [hsel c hs, afterPulse, hrw, hrs]; rfl
  · rw [hram, hrs]; simp

/-- The column counter of six bits wraps from 63 to 0 (R61, R62). -/
theorem column_succ (y : BitVec 6) : y + 1 = BitVec.ofNat 6 ((y.toNat + 1) % 64) := by
  apply BitVec.eq_of_toNat_eq
  simp

/-- Settles O22: a data write moves the column of each selected controller, and its byte is at (XP, YA) as they were. -/
theorem dataWriteStoresAndAdvances : Obligations.DataWriteStoresAndAdvances := by
  intro s mask w hf hn he hm hrs hrw hr h
  obtain ⟨t, hx, -, -, -, hd, -⟩ := exec_clrc_falls w hf hn he hm
  obtain ⟨hsel, hother, hram⟩ := received_ready hd hr (by rw [hrw]; rfl) h
  refine ⟨t, _, hx, hd.1, fun c hs => ?_, hother, fun c page col => ?_⟩
  · rw [hsel c hs, afterPulse, hrw, hrs, column_succ]; rfl
  · rw [hram, hrs, hrw]; simp

/-- Settles O23: a data read loads the latch of each selected controller and moves its column; nothing is stored. -/
theorem dataReadLatchesAndAdvances : Obligations.DataReadLatchesAndAdvances := by
  intro s mask w hf hn he hm hrs hrw hr h
  obtain ⟨t, hx, -, -, -, hd, -⟩ := exec_clrc_falls w hf hn he hm
  obtain ⟨hsel, hother, hram⟩ := received_ready hd hr (by rw [hrs]; simp) h
  refine ⟨t, hx, fun c hs => ?_, hother, fun c page col => ?_⟩
  · rw [hsel c hs, afterPulse, hrw, hrs, column_succ]; rfl
  · rw [hram, hrw]; simp

/-! ## Events that are offered to no controller, and those that meet a busy one -/

/-- A status read, nobody selected, or the display in reset: no controller has anything to act on (R58, R63, R72). -/
theorem offers_none (h : (s.flagRW = true ∧ s.flagRS = false) ∨ (s.flagCS1 = false ∧ s.flagCS2 = false) ∨
    s.flagRST = false) (c : Ctl) : s.offers c = false := by
  obtain ⟨hrw, hrs⟩ | ⟨h1, h2⟩ | hr := h
  · simp [State.offers, hrw, hrs]
  · have hs : s.selected c = false := by cases c; exact h1; exact h2
    simp [State.offers, hs]
  · simp [State.offers, hr]

/-- Settles O24: an event offered to no controller meets none busy, and leaves a `Ready` step at most. -/
theorem idlePulseEventsAreOnlyRecorded : Obligations.IdlePulseEventsAreOnlyRecorded := by
  intro s mask w hf hn he hm h
  have ho := offers_none h
  have hb : ∀ c, s.meetsBusy c = false := fun c => by simp [State.meetsBusy, ho]
  obtain ⟨t, hx, -, hp, -, ⟨-, hd⟩, hend⟩ := exec_clrc_falls w hf hn he hm
  simp only [ho, hb, Bool.false_eq_true, if_false, Bool.false_and, false_and] at hd
  exact ⟨t, hx, hend (hitsBusy_of_ready hb), hp, sameButReady_arrive fun c => (hd c).1, fun c => (hd c).2⟩

/-- The recorded fault is that of the first controller met busy (R71). -/
theorem metFault_first (h : s.hitsBusy = true) : ∃ c, s.meetsBusy c = true ∧ (c = .two → s.meetsBusy .one = false) ∧
    s.metFault = some (c, s.pulseRecord.kind) := by
  cases h1 : s.meetsBusy .one with
  | true => exact ⟨.one, h1, nofun, by simp [State.metFault, h1]⟩
  | false =>
    have h2 : s.meetsBusy .two = true := by simpa [State.hitsBusy, h1] using h
    exact ⟨.two, h2, fun _ => rfl, by simp [State.metFault, h1, h2]⟩

theorem step_fault {k : PulseKind} (h : s.protoFault = some (c, k)) : step s = .fault (.protocol c k) := by
  simp [step, h]

/-- Settles O25: the pulse event is the same, its fault is recorded, and the next step stops with it. -/
theorem busyControllerMakesAProtocolFault : Obligations.BusyControllerMakesAProtocolFault := by
  intro s mask w hf hn he hm h
  obtain ⟨t, hx, hctrl, hp, hfault, hd, -⟩ := exec_clrc_falls w hf hn he hm
  obtain ⟨c, hc, hfirst, hmet⟩ := metFault_first h
  have ht := hfault.trans hmet
  exact ⟨t, _, c, hx, hc, hfirst, ht, hctrl, hp, hd, step_fault ht⟩

/-! ## Where the machine stops (R12, R71) -/

/-- The idle engine's step is a next state, since every operation's is. -/
theorem idleStep_next (s : State) : ∃ t, idleStep exec s = .next t := by
  obtain e | ⟨rest, e⟩ | ⟨rest, -, e⟩ | ⟨i, rest, e⟩ := idleStep_cases s
  · exact ⟨_, e exec⟩
  · exact ⟨_, e exec⟩
  · exact ⟨_, e exec⟩
  · exact ⟨_, (e exec).trans (exec_prog i _)⟩

/-- Settles O11: with a fault recorded the step is that fault; otherwise the idle engine and the sequencer both answer a
next state. -/
theorem onlyProtocolFaultsStopTheMachine : Obligations.OnlyProtocolFaultsStopTheMachine := by
  refine fun s => ⟨fun _ _ => step_fault, fun hf => ?_⟩
  cases hi : s.idle with
  | true => rw [step_idle hi hf]; exact idleStep_next s
  | false => exact ⟨_, step_busy hi hf⟩

/-! ## Sampling (R25, R62 to R64) -/

theorem sampleValue_driven {e : EnvSlot} (h : s.driver = some c) : s.sampleValue e =
    if s.flagRS then (s.ctl c).ol else statusByte s.cfg.busyMask (s.ctl c).busy (e.busByte s.draws) := by
  simp [State.sampleValue, h]

theorem sampleValue_undriven {e : EnvSlot} (h : s.driver = none) : s.sampleValue e = e.busByte s.draws := by
  simp [State.sampleValue, h]

/-- The one selected controller drives the bus in a read, out of reset (R62, R63). -/
theorem driver_selectsOnly (h : s.selectsOnly c) (hr : s.flagRST = true) (hd : s.dir = .input) (he : s.flagE = true)
    (hrw : s.flagRW = true) : s.driver = some c := by
  obtain ⟨h1, h2⟩ := h
  cases c <;> simp [State.driver, h1, h2, hr, hd, he, hrw]

/-- Nobody drives the bus where not one controller alone is selected, or where none can drive it (R25, R64, R72). -/
theorem driver_none (h : s.flagCS1 = s.flagCS2 ∨ s.flagRW = false ∨ s.dir = .output ∨ s.flagRST = false ∨
    s.flagE = false) : s.driver = none := by
  obtain h | h | h | h | h := h <;> simp [State.driver, h]

/-- Settles O26: the driving controller shows its latch or its busy flag; where none drives, the byte is drawn. -/
theorem sampleShowsTheDrivingController : Obligations.SampleShowsTheDrivingController := by
  refine fun s e => ⟨fun c w hs hr hd he hrw => ?_, fun h => sampleValue_undriven (driver_none h)⟩
  have hv := sampleValue_driven (e := e) (driver_selectsOnly hs hr hd he hrw)
  refine ⟨fun hrs => by rw [hv, if_pos hrs], fun hrs => ?_⟩
  rw [hv, hrs]
  exact showsBusy_statusByte w _ _

end Sys2Proof.Machine
end

section
/-! PROOF of O56 (R72, R275): while RST is low an update of CTRL that does not raise it touches neither the controllers
nor display memory, and no step outside INIT and SETC raises it. -/

namespace Sys2Proof.Machine

variable {s t u : State} {c : Config} {i : Instr} {e : EnvSlot} {v : Byte}

theorem sameButReady_trans (h : sameButReady s t) (k : sameButReady t u) : sameButReady s u := fun c => by
  obtain ⟨hc, hb⟩ := h c
  obtain ⟨kc, kb⟩ := k c
  exact ⟨by rw [kc, hc], hb ∘ kb⟩

/-- The display is in reset in `t` as it was in `s`, and has received nothing since. -/
structure Held (s t : State) : Prop where
  cfg : t.cfg = s.cfg
  rst : t.flagRST = false
  fault : t.protoFault = s.protoFault
  ctl : sameButReady s t
  ram : sameRam s t

theorem Held.refl (h : s.flagRST = false) : Held s s :=
  ⟨rfl, h, rfl, fun _ => ⟨rfl, id⟩, fun _ _ _ => rfl⟩

theorem ctl_congr (h1 : u.c1 = t.c1) (h2 : u.c2 = t.c2) (k : Ctl) : u.ctl k = t.ctl k := by
  cases k <;> assumption

/-- What leaves the controllers and display memory alone, and RST low. -/
theorem Held.still (h : Held s t) (hc : u.cfg = t.cfg) (hr : flagIn u.ctrl t.cfg.mRST = false)
    (hf : u.protoFault = t.protoFault) (h1 : u.c1 = t.c1) (h2 : u.c2 = t.c2) (hm : u.mem = t.mem) : Held s u where
  cfg := hc.trans h.cfg
  rst := by rw [State.flagRST, hc]; exact hr
  fault := hf.trans h.fault
  ctl k := by rw [ctl_congr h1 h2 k]; exact h.ctl k
  ram k page col := by
    have hk : u.ramByte k page col = t.ramByte k page col :=
      ramByte_congr hm (fun j => by rw [ctl_congr h1 h2 j]) k page col
    exact hk.trans (h.ram k page col)

theorem Held.arrive (h : Held s t) : Held s t.arrive where
  cfg := (arrive_cfg t).trans h.cfg
  rst := (arrive_flagRST t).trans h.rst
  fault := (arrive_protoFault t).trans h.fault
  ctl := sameButReady_trans h.ctl (kept_arrive t).sameButReady
  ram k page col := (arrive_ram t k page col).trans (h.ram k page col)

/-- In reset both controllers ignore a pulse event: it is recorded, and two bytes are drawn (R58, R72). -/
theorem pulseEvent_inReset (h : s.flagRST = false) (e : EnvSlot) :
    pulseEvent e s = { s with pulses := s.pulseRecord :: s.pulses, draws := s.draws + 2 } := by
  have hr : s.pulseRecord.rst = false := h
  rw [pulseEvent, receive_ignored (.inr (.inl hr)), receive_ignored (.inr (.inl hr))]

/-- An update of CTRL that leaves RST low. -/
theorem Held.update (h : Held s t) (hv : flagIn v t.cfg.mRST = false) : Held s (updateCtrl e v t) := by
  have hR : (!t.flagRST && flagIn v t.cfg.mRST) = false := by rw [hv, Bool.and_false]
  cases hE : t.flagE && !flagIn v t.cfg.mE with
  | false => rw [updateCtrl_quiet hE hR]; exact h.still rfl hv rfl rfl rfl rfl
  | true => rw [updateCtrl_falls hE hR, pulseEvent_inReset h.rst]; exact h.still rfl hv rfl rfl rfl rfl

theorem Held.countPoll (h : Held s t) : Held s (countPoll t) := by
  unfold Machine.countPoll
  split
  · exact h
  · exact h.still rfl h.rst rfl rfl rfl rfl

/-- The step does not raise RST. -/
def KeepsReset (c : Config) : Micro → Prop
  | .ctrlSet m => flagIn m c.mRST = false
  | _ => True

/-- Steps that do not raise RST hold the display in reset. -/
theorem runs_held {p : List Micro} (hr : Runs p u t) (w : s.cfg.wf = true) (hp : ∀ m ∈ p, KeepsReset s.cfg m)
    (hn : u.noReset = true) (h : Held s u) : Held s t := by
  refine prog_keeps (P := Held s) (Q := KeepsReset s.cfg) (fun _ _ h => h.still rfl h.rst rfl rfl rfl rfl)
    (fun _ _ _ _ _ h => h.still rfl h.rst rfl rfl rfl rfl) (fun _ h => h.arrive) ?_ hr hp hn h
  intro m x e v hm hv
  have update : ∀ q y, flagIn y v.cfg.mRST = false → Held s (record q (updateCtrl e y v)) := fun q y hy =>
    (hv.update hy).still rfl (hv.update hy).rst rfl rfl rfl rfl
  have w' : v.cfg.wf = true := by rw [hv.cfg]; exact w
  have hrst : flagIn v.ctrl v.cfg.mRST = false := hv.rst
  have hsel : ∀ y, Held s (select y e v) := fun y => update _ _ ((flag_select_mRST w' y v.ctrl).trans hrst)
  cases m
  case ctrlSet m => exact update _ _ (by rw [flagIn_or, hrst, hv.cfg]; exact hm)
  case ctrlClear m => exact update _ _ (by rw [flagIn_and_not _ _ (Config.wf_oneHot_mRST w'), hrst]; rfl)
  case select y => exact hsel y
  case selectTgt => exact hsel
  case test => exact ⟨hv.countPoll, hv.still rfl hrst rfl rfl rfl rfl⟩
  case pollsZero =>
    intro f hf
    simp only [micro] at hf
    split at hf <;> cases hf
    · exact hv
    · exact hv.still rfl hrst rfl rfl rfl rfl
  case setDir | driveVal | driveZero | sample | delay => exact hv.still rfl hrst rfl rfl rfl rfl
  all_goals (intro f hf; cases hf; exact hv.still rfl hrst rfl rfl rfl rfl)

/-- No operation but INIT and SETC raises RST: CLRC only clears, and the masks of the others do not name it. -/
theorem keepsReset_prog (w : c.wf = true) (hi : i ≠ .init) (hs : ∀ m, i ≠ .setc m) :
    ∀ m ∈ progOf c i, KeepsReset c m := by
  cases hm : hostMask i with
  | false =>
    intro m hmem
    have ho := outside_prog (and_eq_zero_of_flagIn (flag_mE_mRST w)) (and_eq_zero_of_flagIn (flag_mRS_mRST w))
      (and_eq_zero_of_flagIn (flag_mRW_mRST w)) hm (fun e => absurd e hi) m hmem
    cases m
    case ctrlSet v =>
      have hz : v &&& c.mRST = 0 := ho
      simp [KeepsReset, flagIn, hz]
    all_goals trivial
  | true =>
    cases i
    case setc v => exact absurd rfl (hs v)
    case clrc v => exact all_cons trivial all_nil
    all_goals cases hm

/-- Settles O56: the steps of such an operation do not raise RST, so they hold the display in reset. -/
theorem heldInResetNothingIsReceived : Obligations.HeldInResetNothingIsReceived := by
  intro i s t w hn hr hi hs h
  obtain ⟨p, u, hu, hp, hus⟩ := runsOperation_run h
  have hstart : Held s u ∧ u.noReset = true := by
    obtain rfl | rfl := hus
    · exact ⟨.refl hr, hn⟩
    · exact ⟨(Held.refl hr).still rfl hr rfl rfl rfl rfl, hn⟩
  obtain ⟨-, -, hf, hc, hm⟩ := runs_held hu w (fun m hm => keepsReset_prog w hi hs m (hp m hm)) hstart.2 hstart.1
  exact ⟨hf, hc, hm⟩

end Sys2Proof.Machine
end

section
/-! PROOF of O21 (R60): the masks of the command decode as ranges of the byte, and its operand as the byte's distance from
the base. -/

namespace Sys2Proof.Machine

variable {b : Byte}

/-- Set-address bytes at the default parameters: the two high bits are 01. -/
theorem and_C0_eq_40 (b : Byte) : b &&& 0xC0 = 0x40 ↔ 0x40 ≤ b.toNat ∧ b.toNat ≤ 0x7F := by
  revert b; decide +kernel

/-- Set-page bytes: the five high bits are 10111. -/
theorem and_F8_eq_B8 (b : Byte) : b &&& 0xF8 = 0xB8 ↔ 0xB8 ≤ b.toNat ∧ b.toNat ≤ 0xBF := by
  revert b; decide +kernel

/-- Start-line bytes: the two high bits are 11. -/
theorem and_C0_eq_C0 (b : Byte) : b &&& 0xC0 = 0xC0 ↔ 0xC0 ≤ b.toNat := by
  revert b; decide +kernel

/-- Above a base whose low `n` bits are 0 the operand bits are the distance from it. -/
theorem extractLsb'_eq_sub {n k : Nat} (hk : 2 ^ n ∣ k) (h : k ≤ b.toNat) :
    b.extractLsb' 0 n = BitVec.ofNat n (b.toNat - k) := by
  obtain ⟨q, rfl⟩ := hk
  apply BitVec.eq_of_toNat_eq
  simp [Nat.sub_mul_mod h]

/-- The command decode at the default parameters, by the number of the byte (R60). -/
theorem commandEffect_standard (b : Byte) (k : Controller) : commandEffect Config.standard b k =
    if 0x40 ≤ b.toNat ∧ b.toNat ≤ 0x7F then { k with ya := b.extractLsb' 0 6 }
    else if 0xB8 ≤ b.toNat ∧ b.toNat ≤ 0xBF then { k with xp := b.extractLsb' 0 3 }
    else if 0xC0 ≤ b.toNat then { k with zl := b.extractLsb' 0 6 }
    else if b.toNat = 0x3F then { k with don := true }
    else if b.toNat = 0x3E then { k with don := false }
    else { k with unmodelled := true } := by
  have hon : b = 0x3F ↔ b.toNat = 0x3F := BitVec.toNat_inj.symm
  have hoff : b = 0x3E ↔ b.toNat = 0x3E := BitVec.toNat_inj.symm
  simp only [← and_C0_eq_40, ← and_F8_eq_B8, ← and_C0_eq_C0, ← hon, ← hoff]
  rfl

/-- Settles O21: the six ranges exclude one another. -/
theorem commandBytesAtTheDefaults : Obligations.CommandBytesAtTheDefaults := by
  intro b k
  simp only [commandEffect_standard]
  refine ⟨fun h => ?address, fun h => ?page, fun h => ?line, fun h => ?on, fun h => ?off, fun h => ?other⟩
  case address => rw [if_pos h, extractLsb'_eq_sub (k := 0x40) (by decide) h.1]
  case page => rw [if_neg (by omega), if_pos h, extractLsb'_eq_sub (k := 0xB8) (by decide) h.1]
  case line => rw [if_neg (by omega), if_neg (by omega), if_pos h, extractLsb'_eq_sub (k := 0xC0) (by decide) h]
  case on => subst h; rfl
  case off => subst h; rfl
  case other =>
    rw [if_neg (by omega), if_neg (by omega), if_neg (by omega), if_neg (by omega), if_neg (by omega)]

end Sys2Proof.Machine
end

section
/-! PROOF of O1 to O7 (R90 to R101): the word of an operation and back. A word decodes to an operation exactly where OP
names the operation, its operands are the fields, and the bits it does not use are 0 (`decodeWord_iff`); the statements on
decoding are read off that. -/

namespace Sys2Proof.Machine

variable {w : Word24} {i : Instr} {r : OpRow}

/-! ## Targets and operands -/

theorem targetNumber_eq_bits (t : Target) : targetNumber t = t.bits.toNat := by cases t <;> rfl

/-- The number of a target is that of two bits exactly where they stand for it (R92). -/
theorem targetNumber_eq_iff {t : Target} {b : BitVec 2} : targetNumber t = b.toNat ↔ t = Target.ofBits b := by
  rw [targetNumber_eq_bits, BitVec.toNat_inj]
  constructor
  · rintro rfl; exact (ofBits_bits t).symm
  · rintro rfl; exact bits_ofBits b

/-- Step (4) of R101 answers with the operation OP names. -/
theorem opNumber_of_operandsOf {op : BitVec 4} (h : operandsOf op w = some i) : opNumber i = op := by
  unfold operandsOf at h
  split at h <;> cases h <;> exact BitVec.eq_of_toNat_eq (Eq.symm ‹_›)

/-- Step (4) of R101, read as a relation between word and operation. -/
theorem operandsOf_opNumber : operandsOf (opNumber i) w = some i ↔ operandsAre w i := by
  rw [eq_comm]
  cases i <;> simp [operandsOf, opNumber, operandsAre, targetNumber_eq_iff]

theorem operandsOf_iff {op : BitVec 4} : operandsOf op w = some i ↔ opNumber i = op ∧ operandsAre w i := by
  constructor
  · intro h
    obtain rfl := opNumber_of_operandsOf h
    exact ⟨rfl, operandsOf_opNumber.1 h⟩
  · rintro ⟨rfl, h⟩; exact operandsOf_opNumber.2 h

/-- Every row's operation takes its operands from any word (R101). -/
theorem exists_operandsOf (hr : r ∈ opRows) (w : Word24) : ∃ i, operandsOf r.op w = some i := by
  revert r; simp [opRows, operandsOf]

/-- The coordinates of a well-formed PIX fit a byte (R97). -/
theorem wf_pix {x y : Nat} {on : Bool} : (Instr.pix x y on).wf = true ↔ x < 256 ∧ y < 256 := by
  simp [Instr.wf, fitsByte]

/-- Operands that are fields of a word fit their fields (R97). -/
theorem wf_of_operandsAre (h : operandsAre w i) : i.wf = true := by
  cases i with
  | pix x y on =>
    obtain ⟨rfl, rfl, -⟩ := h
    exact wf_pix.2 ⟨(fieldA w).isLt, (fieldB w).isLt⟩
  | _ => rfl

/-! ## The fields of a masked word -/

theorem fieldB_and (v w : Word24) : fieldB (v &&& w) = fieldB v &&& fieldB w := BitVec.extractLsb'_and
theorem fieldA_and (v w : Word24) : fieldA (v &&& w) = fieldA v &&& fieldA w := BitVec.extractLsb'_and
theorem fieldT_and (v w : Word24) : fieldT (v &&& w) = fieldT v &&& fieldT w := BitVec.extractLsb'_and
theorem fieldOp_and (v w : Word24) : fieldOp (v &&& w) = fieldOp v &&& fieldOp w := BitVec.extractLsb'_and
theorem fieldF_and (v w : Word24) : fieldF (v &&& w) = (fieldF v && fieldF w) := BitVec.getLsbD_and

/-! ## Rows of the operation map -/

theorem rowOfOp_of_mem : ∀ r ∈ opRows, rowOfOp r.op = some r := by decide

theorem rowOfOp_eq_some {op : BitVec 4} : rowOfOp op = some r ↔ r ∈ opRows ∧ r.op = op :=
  ⟨rowOfOp_some, by rintro ⟨hr, rfl⟩; exact rowOfOp_of_mem r hr⟩

/-- A row's mask is the bits its operation does not use, and OP; its match is OP (R91, R93). -/
theorem row_eq_usedBits : ∀ r ∈ opRows, r.mask = ~~~ usedBits r.op ||| 0xF ∧ r.pat = r.op.setWidth 24 := by decide

/-- A row tests all of OP, against its own (R93). -/
theorem row_fieldOp : ∀ r ∈ opRows, fieldOp r.mask = BitVec.allOnes 4 ∧ fieldOp r.pat = r.op := by decide

/-- A row tests every bit its operation does not use, against 0 (R94). -/
theorem row_and_unused : ∀ r ∈ opRows, r.mask &&& ~~~ usedBits r.op = ~~~ usedBits r.op ∧
    r.pat &&& ~~~ usedBits r.op = 0 := by decide

theorem and_0xF_eq_setWidth (w : Word24) : w &&& 0xF = (fieldOp w).setWidth 24 := by
  apply BitVec.eq_of_toNat_eq
  rw [BitVec.toNat_setWidth_of_le (by decide)]
  simpa [fieldOp] using Nat.and_two_pow_sub_one_eq_mod w.toNat 4

/-- A word matches a row exactly where it has the row's OP and no 1 in a bit the operation does not use (R93, R94). -/
theorem matches_row_iff (hr : r ∈ opRows) :
    w &&& r.mask = r.pat ↔ fieldOp w = r.op ∧ w &&& ~~~ usedBits r.op = 0 := by
  constructor
  · intro h
    obtain ⟨hmask, hpat⟩ := row_fieldOp r hr
    obtain ⟨hmask', hpat'⟩ := row_and_unused r hr
    constructor
    · rw [← hpat, ← h, fieldOp_and, hmask, BitVec.and_allOnes]
    · rw [← hpat', ← h, BitVec.and_assoc, hmask']
  · rintro ⟨hop, hz⟩
    obtain ⟨hmask, hpat⟩ := row_eq_usedBits r hr
    rw [hmask, hpat, BitVec.and_or_distrib_left, and_0xF_eq_setWidth, hop, hz]
    exact BitVec.zero_or

/-! ## The word of an operation -/

theorem fieldOp_encode (i : Instr) : fieldOp (encode i) = opNumber i := by
  cases i <;> simp [encode, opNumber]

/-- The word of a well-formed operation holds its operands (R90, R97). -/
theorem operandsAre_encode (h : i.wf = true) : operandsAre (encode i) i := by
  cases i with
  | pix x y on =>
    obtain ⟨hx, hy⟩ := wf_pix.1 h
    simp [operandsAre, encode, Nat.mod_eq_of_lt hx, Nat.mod_eq_of_lt hy]
  | _ => simp [operandsAre, encode, targetNumber_eq_bits]

theorem encode_matches_row (i : Instr) : Laws.OpRow.Statement i := by
  cases i with
  | init => exact Laws.OpRow.init
  | clr => exact Laws.OpRow.clr
  | pix x y on => exact Laws.OpRow.pix x y on
  | setc m => exact Laws.OpRow.setc m
  | clrc m => exact Laws.OpRow.clrc m
  | cfgrd => exact Laws.OpRow.cfgrd
  | cfgwr => exact Laws.OpRow.cfgwr
  | sel t => exact Laws.OpRow.sel t
  | wait => exact Laws.OpRow.wait
  | rdb t rs => exact Laws.OpRow.rdb t rs
  | rdd t => exact Laws.OpRow.rdd t
  | wrb v t => exact Laws.OpRow.wrb v t
  | wrc c t => exact Laws.OpRow.wrc c t
  | wrd d t => exact Laws.OpRow.wrd d t

/-- The word of an operation has 0 in the bits the operation does not use (R91, R94). -/
theorem encode_unused (i : Instr) : encode i &&& ~~~ usedBits (opNumber i) = 0 := by
  obtain ⟨r, hr, hop, hm⟩ := encode_matches_row i
  rw [← fieldOp_encode, ← hop]
  exact ((matches_row_iff hr).1 hm).2

/-- The table of R91, field by field. -/
theorem usedBits_eq_packWord : ∀ op, usedBits op = packWord (if op = 0x3 then BitVec.allOnes 8 else 0)
    (if op ∈ [0x3, 0x4, 0x5, 0xC, 0xD, 0xE] then BitVec.allOnes 8 else 0) (op ∈ [0x3, 0xA])
    (if op ∈ [0x8, 0xA, 0xB, 0xC, 0xD, 0xE] then BitVec.allOnes 2 else 0) (BitVec.allOnes 4) := by
  decide

/-- The operation of a word's operands has as its word the bits of that word it uses (R90, R98). -/
theorem encode_eq_and_usedBits (hop : opNumber i = fieldOp w) (h : operandsAre w i) :
    encode i = w &&& usedBits (opNumber i) := by
  have h7 : (w &&& usedBits (opNumber i)).getLsbD 7 = false := by
    rw [BitVec.getLsbD_and, usedBits_eq_packWord, bit7_packWord, Bool.and_false]
  rw [← packWord_fields _ h7, fieldB_and, fieldA_and, fieldF_and, fieldT_and, fieldOp_and, ← hop, usedBits_eq_packWord,
    fieldB_packWord, fieldA_packWord, fieldF_packWord, fieldT_packWord, fieldOp_packWord]
  cases i <;> simp only [operandsAre, targetNumber_eq_iff] at h <;>
    simp [encode, opNumber, *, -BitVec.reduceAllOnes]

/-! ## Decoding -/

/-- A word decodes to an operation exactly where OP names it, its operands are the fields, and every bit it does not use
is 0 (R90, R93, R94). -/
theorem decodeWord_iff : decodeWord w = .ok i ↔
    opNumber i = fieldOp w ∧ operandsAre w i ∧ w &&& ~~~ usedBits (fieldOp w) = 0 := by
  rw [decodeWord_ok]
  constructor
  · rintro ⟨r, hrow, hm, ho⟩
    obtain ⟨hr, hop⟩ := rowOfOp_some hrow
    obtain ⟨hi, hf⟩ := operandsOf_iff.1 ho
    exact ⟨hi.trans hop, hf, hop ▸ ((matches_row_iff hr).1 hm).2⟩
  · rintro ⟨hop, hf, hz⟩
    obtain ⟨r, hr, hrop, -⟩ := encode_matches_row i
    rw [fieldOp_encode, hop] at hrop
    exact ⟨r, rowOfOp_eq_some.2 ⟨hr, hrop⟩, (matches_row_iff hr).2 ⟨hrop.symm, hrop.symm ▸ hz⟩,
      operandsOf_iff.2 ⟨hop.trans hrop.symm, hf⟩⟩

/-- A word decodes exactly where it matches a row (R93). -/
theorem exists_decodeWord_iff : (∃ i, decodeWord w = .ok i) ↔ ∃ r ∈ opRows, w &&& r.mask = r.pat := by
  constructor
  · rintro ⟨i, h⟩
    obtain ⟨r, hrow, hm, -⟩ := decodeWord_ok.1 h
    exact ⟨r, (rowOfOp_some hrow).1, hm⟩
  · rintro ⟨r, hr, hm⟩
    obtain ⟨i, hi⟩ := exists_operandsOf hr w
    exact ⟨i, decodeWord_ok.2 ⟨r, rowOfOp_eq_some.2 ⟨hr, ((matches_row_iff hr).1 hm).1.symm⟩, hm, hi⟩⟩

/-- The public operations are those of the first three OPs (R96). -/
theorem isPublic_iff_opNumber : i.isPublic = true ↔ (opNumber i).toNat < 4 := by
  cases i <;> simp [Instr.isPublic, opNumber]

theorem opNumber_bounds (i : Instr) : 1 ≤ (opNumber i).toNat ∧ (opNumber i).toNat ≤ 0xE := by
  cases i <;> simp [opNumber]

/-- Settles O1: the word holds the operation's number and operands, and no other 1. -/
theorem decodeOfEncodeIsTheOperation : Obligations.DecodeOfEncodeIsTheOperation := by
  intro i h
  rw [decodeWord_iff, fieldOp_encode]
  exact ⟨rfl, operandsAre_encode h, encode_unused i⟩

/-- Settles O2: the bits the operation uses come from its operands, the others are 0. -/
theorem encodeOfDecodeIsTheWord : Obligations.EncodeOfDecodeIsTheWord := by
  intro w i h
  obtain ⟨hop, hf, hz⟩ := decodeWord_iff.1 h
  refine ⟨wf_of_operandsAre hf, ?_⟩
  calc encode i = w &&& usedBits (fieldOp w) := by rw [encode_eq_and_usedBits hop hf, hop]
    _ = w &&& usedBits (fieldOp w) ||| w &&& ~~~ usedBits (fieldOp w) := by rw [hz]; exact BitVec.or_zero.symm
    _ = w := by rw [← BitVec.and_or_distrib_left, BitVec.or_not_self, BitVec.and_allOnes]

/-- Settles O3: `decodeWord_iff`, and that a row's operation always finds its operands. -/
theorem decodeProcedureOfTheSpec : Obligations.DecodeProcedureOfTheSpec := by
  intro expose w
  refine ⟨⟨?legal, ?decodes⟩, ?operands⟩
  case legal =>
    rintro ⟨i, h⟩
    obtain ⟨hd, hp⟩ := decodeRequest_ok.1 h
    obtain ⟨hop, hf, hz⟩ := decodeWord_iff.1 hd
    obtain ⟨hlo, hhi⟩ := opNumber_bounds i
    rw [Bool.or_eq_true, isPublic_iff_opNumber] at hp
    unfold illegalWord
    rw [← hop] at hz ⊢
    rintro (h0 | hF | ⟨h4, -, rfl⟩ | ⟨r, hr, hrop, hne⟩)
    · rw [h0] at hlo; exact absurd hlo (by decide)
    · rw [hF] at hhi; exact absurd hhi (by decide)
    · exact absurd (hp.resolve_right Bool.false_ne_true) (by omega)
    · exact hne ((matches_row_iff hr).2 ⟨hop ▸ hrop.symm, hrop.symm ▸ hz⟩)
  case decodes =>
    intro hl
    simp only [illegalWord, not_or, not_and, not_exists, not_not] at hl
    obtain ⟨h0, hF, hexpose, hrows⟩ := hl
    obtain ⟨r, hrow⟩ := Option.ne_none_iff_exists'.1 fun h => ((rowOfOp_none _).1 h).elim h0 hF
    obtain ⟨hr, hrop⟩ := rowOfOp_some hrow
    obtain ⟨i, hi⟩ := exists_decodeWord_iff.2 ⟨r, hr, hrows r hr hrop⟩
    obtain ⟨hop, -, -⟩ := decodeWord_iff.1 hi
    refine ⟨i, decodeRequest_ok.2 ⟨hi, ?_⟩⟩
    rw [Bool.or_eq_true, isPublic_iff_opNumber]
    rcases Nat.lt_or_ge (opNumber i).toNat 4 with hlt | hge
    · exact .inl hlt
    · rw [← hop] at hexpose
      exact .inr (by simpa using hexpose hge (opNumber_bounds i).2)
  case operands =>
    intro i h
    obtain ⟨hop, hf, -⟩ := decodeWord_iff.1 (decodeRequest_ok.1 h).1
    exact ⟨hop, hf⟩

/-- Settles O4: a row's mask tests OP and every bit its operation does not use (`matches_row_iff`). -/
theorem unusedBitsMustBeZero : Obligations.UnusedBitsMustBeZero := by
  intro expose w _ _ hne
  constructor
  · intro r hr hm
    obtain ⟨hop, hz⟩ := (matches_row_iff hr).1 hm
    exact hne (hop ▸ hz)
  · intro i h
    obtain ⟨-, -, hz⟩ := decodeWord_iff.1 (decodeRequest_ok.1 h).1
    exact hne hz

/-- Settles O5: the word decodes to its operation (O1), so only step (2) of R101 can refuse it. -/
theorem internalOperationsNeedExposure : Obligations.InternalOperationsNeedExposure := by
  intro i h
  have hd : decodeWord (encode i) = .ok i := decodeOfEncodeIsTheOperation i h
  simp only [decodeRequest_ok, hd]
  cases i <;> simp [Instr.isPublic]

/-- Settles O6: each field of a packed word counts by its place. -/
theorem wordsAreTheAssembledFormulas : Obligations.WordsAreTheAssembledFormulas := by
  intro i h
  cases i with
  | pix x y on =>
    obtain ⟨hx, hy⟩ := wf_pix.1 h
    simp [encode, assembled, packWord_toNat, Nat.mod_eq_of_lt hx, Nat.mod_eq_of_lt hy]
  | _ => simp [encode, assembled, packWord_toNat, targetNumber_eq_bits]

/-- Settles O7, by evaluating the decoder on the fifteen words. -/
theorem wordsOfTheSpecDecode : Obligations.WordsOfTheSpecDecode := by
  unfold Obligations.WordsOfTheSpecDecode
  decide

end Sys2Proof.Machine
end

section
/-! PROOF of O15 to O18 (R58, R72, R120 to R123): the bus director in any environment without an EngineReset. CLRC and
CFGRD both begin with a `CtrlClear`; what that leaves, its pulse event met busy or not, is said once (`ClearsFirst`). -/

namespace Sys2Proof.Machine

variable {s t u v : State} {i : Instr} {m : Byte}

/-! ## What a completed operation leaves (R37) -/

/-- An operation that has left the engine's registers as its acceptance did completes as every operation does. -/
theorem complete_endsWith (hs : v.status = statusBusy s.status) (hr : v.req = encode i) (hf : v.protoFault = none)
    (hc : v.cfg = s.cfg) (hh : v.host = s.host) : endsWith i s (complete v) :=
  ⟨by rw [complete_status, hs, statusIdle_busy], rfl, hr, hf, hc, hh⟩

theorem complete_endsWith_of_kept (h : Kept (accept i s) v) (hf : s.protoFault = none) : endsWith i s (complete v) :=
  complete_endsWith h.status h.req (h.fault.trans hf) h.cfg h.host

theorem complete_display_of_kept (h : Kept (accept i s) v) :
    sameButReady s (complete v) ∧ sameRam s (complete v) := by
  constructor
  · intro c
    rw [ctl_complete, ← ctl_accept i s c]
    exact h.sameButReady c
  · intro c page col
    rw [ram_complete, h.ram, ram_accept]

/-- A sequence that goes through from the acceptance on completes its operation. -/
theorem exec_of_runGo (h : runGo (progOf s.cfg i) (accept i s) = some v) : exec i s = .next (complete v) := by
  rw [exec_prog, runSeq_of_runGo h]

/-- Settles O18: CFGWR is one `SetDir(OUTPUT)`, which keeps all but DIR and the record. -/
theorem cfgwrRestoresOutput : Obligations.CfgwrRestoresOutput := by
  intro s hf hn
  obtain ⟨v, W⟩ := went_setDir (s := accept .cfgwr s) hn hf .output
  have hbus : (complete v).drivenBus = some s.dout := by
    rw [State.drivenBus, complete_dir, W.dir, complete_dout, W.kept.dout, accept_dout]
  obtain ⟨hctl, hram⟩ := complete_display_of_kept W.kept
  exact ⟨complete v, exec_of_runGo W.go, complete_endsWith_of_kept W.kept hf, W.dir, hbus, W.ctrl, W.kept.dout,
    W.kept.result, W.pulses, W.trace, hctl, hram⟩

/-! ## SETC (R72, R120) -/

/-- `CtrlSet` raises lines only, so it makes no pulse event and meets no busy controller (R58, R120). -/
theorem ctrlSet_noPulse (e : EnvSlot) (m : Byte) (s : State) :
    (ctrlSet m e s).pulses = s.pulses ∧ (ctrlSet m e s).protoFault = s.protoFault := by
  rw [ctrlSet]
  cases hR : !s.flagRST && flagIn (s.ctrl ||| m) s.cfg.mRST with
  | false => rw [updateCtrl_quiet (set_keeps_E s m) hR]; exact ⟨rfl, rfl⟩
  | true => rw [updateCtrl_releases (set_keeps_E s m) hR]; simp

/-- Where `CtrlSet` does not raise RST it moves the lines only (R72). -/
theorem ctrlSet_kept (h : s.flagRST = true ∨ flagIn m s.cfg.mRST = false) (e : EnvSlot) : Kept s (ctrlSet m e s) := by
  have hR : (!s.flagRST && flagIn (s.ctrl ||| m) s.cfg.mRST) = false := by
    rw [flagIn_or]
    show (!s.flagRST && (s.flagRST || flagIn m s.cfg.mRST)) = false
    obtain h | h := h <;> simp [h]
  rw [ctrlSet, updateCtrl_quiet (set_keeps_E s m) hR]
  exact kept_lines rfl rfl rfl rfl rfl rfl rfl rfl rfl rfl rfl rfl

/-- `CtrlSet` keeps the display memory the environment does not lose (R72). -/
theorem ctrlSet_ram {e : EnvSlot} {c : Ctl} (h : e.ramLostOf c = false) (page : BitVec 3) (col : BitVec 6) :
    (ctrlSet m e s).ramByte c page col = s.ramByte c page col := by
  have hframe : RamFrame c s (ctrlSet m e s) := (updateCtrl_ramFrame h _ s).trans (.untouched rfl rfl rfl rfl)
  exact hframe.newPulses (by simp [newPulses, (ctrlSet_noPulse e m s).1]) page col

/-- Settles O15: SETC is one `CtrlSet`; the release of the display reset is all it can do beside the lines. -/
theorem setcSetsExactlyItsBits : Obligations.SetcSetsExactlyItsBits := by
  intro s mask hf hn
  obtain ⟨hpulses, hfault⟩ := ctrlSet_noPulse s.slot mask (accept (.setc mask) s).arrive
  rw [arrive_pulses] at hpulses
  rw [arrive_protoFault] at hfault
  refine ⟨_, exec_single (m := .ctrlSet mask) rfl (fun _ => rfl) hn rfl (hfault.trans hf), ?ends, ?ctrl, ?dout,
    ?dir, ?result, hpulses, ?trace, ?kept, ?ram⟩
  case ends => apply complete_endsWith _ _ (hfault.trans hf) <;> simp [ctrlSet]
  case kept =>
    intro h
    refine complete_display_of_kept ((kept_arrive _).trans (ctrlSet_kept ?_ _))
    rw [arrive_flagRST, arrive_cfg]
    exact h
  case ram =>
    intro c page col h
    rw [ram_complete, ctrlSet_ram h, arrive_ram, ram_accept]
  all_goals simp [ctrlSet]

/-! ## A `CtrlClear` that begins an operation (R58, R71, R121) -/

/-- The environment's moves of the slot, then the pulse event of `s` where E falls (R58, R63). -/
def State.afterFall (s : State) (falls : Bool) : State := if falls then pulseEvent s.slot s.arrive else s.arrive

theorem afterFall_pulses (s : State) (falls : Bool) :
    (s.afterFall falls).pulses = if falls then s.pulseRecord :: s.pulses else s.pulses := by
  cases falls <;> simp [State.afterFall]

theorem afterFall_fault (hf : s.protoFault = none) (falls : Bool) :
    (s.afterFall falls).protoFault = if falls then s.metFault else none := by
  cases falls with
  | false => exact (arrive_protoFault s).trans hf
  | true => exact (pulseEvent_arrive hf).2.2

/-- The acceptance of a request makes no difference to the display (R37). -/
theorem afterFall_accept (i : Instr) (hf : s.protoFault = none) (falls : Bool) (k : Ctl) :
    ((accept i s).afterFall falls).ctl k = (s.afterFall falls).ctl k ∧
      ∀ page col, ((accept i s).afterFall falls).ramByte k page col = (s.afterFall falls).ramByte k page col := by
  cases falls with
  | false =>
    refine ⟨?_, fun page col => ?_⟩
    · rw [State.afterFall, if_neg Bool.false_ne_true, arrive_ctl, ctl_accept]; exact (arrive_ctl s k).symm
    · rw [State.afterFall, if_neg Bool.false_ne_true, arrive_ram, ram_accept]; exact (arrive_ram s k page col).symm
  | true =>
    obtain ⟨hctl, hram, -⟩ := pulseEvent_arrive hf
    obtain ⟨hctl', hram', -⟩ := pulseEvent_arrive (s := accept i s) hf
    exact ⟨(hctl' k).trans (hctl k).symm, fun page col => (hram' k page col).trans (hram k page col).symm⟩

/-- What `CtrlClear(m)`, the first primitive of operation i, leaves of `s`, its pulse event met busy or not (R58, R71,
R121). -/
structure ClearsFirst (i : Instr) (m : Byte) (s t : State) : Prop where
  cfg : t.cfg = s.cfg
  ctrl : t.ctrl = s.ctrl &&& ~~~m
  dout : t.dout = s.dout
  dir : t.dir = s.dir
  status : t.status = statusBusy s.status
  result : t.result = s.result
  req : t.req = encode i
  loc : t.loc = s.loc
  host : t.host = s.host
  env : t.env = s.env.tail
  trace : t.trace = .ctrlClear m :: s.trace
  pulses : t.pulses = if s.flagE && flagIn m s.cfg.mE then s.pulseRecord :: s.pulses else s.pulses
  fault : t.protoFault = if s.flagE && flagIn m s.cfg.mE then s.metFault else none
  ctl : ∀ k, t.ctl k = (s.afterFall (s.flagE && flagIn m s.cfg.mE)).ctl k
  ram : ∀ k page col, t.ramByte k page col = (s.afterFall (s.flagE && flagIn m s.cfg.mE)).ramByte k page col

/-- `CtrlClear`: at most a pulse event, then the lines (R58, R121). -/
theorem ctrlClear_afterFall (w : s.cfg.wf = true) (m : Byte) : ctrlClear m s.slot s.arrive =
    record (.ctrlClear m) { s.afterFall (s.flagE && flagIn m s.cfg.mE) with ctrl := s.ctrl &&& ~~~m } := by
  have w' : s.arrive.cfg.wf = true := by rw [arrive_cfg]; exact w
  have hF := clear_falls s.arrive w' m
  have hR := clear_keeps_RST s.arrive w' m
  rw [arrive_flagE s, arrive_cfg, arrive_ctrl] at hF
  rw [arrive_ctrl] at hR
  rw [ctrlClear, arrive_ctrl]
  cases h : s.flagE && flagIn m s.cfg.mE with
  | false => rw [updateCtrl_quiet (by rw [arrive_flagE, arrive_cfg]; exact hF.trans h) hR]; rfl
  | true => rw [updateCtrl_falls (by rw [arrive_flagE, arrive_cfg]; exact hF.trans h) hR]; rfl

theorem ctrlClear_clearsFirst (i : Instr) (m : Byte) (w : s.cfg.wf = true) (hf : s.protoFault = none) :
    ClearsFirst i m s (ctrlClear m s.slot (accept i s).arrive) := by
  have heq : ctrlClear m s.slot (accept i s).arrive = record (.ctrlClear m)
      { (accept i s).afterFall (s.flagE && flagIn m s.cfg.mE) with ctrl := s.ctrl &&& ~~~m } :=
    ctrlClear_afterFall (s := accept i s) w m
  constructor
  case pulses => rw [heq]; exact afterFall_pulses (accept i s) _
  case fault => rw [heq]; exact afterFall_fault (s := accept i s) hf _
  case ctl => intro k; rw [heq, ctl_record, ctl_withCtrl]; exact (afterFall_accept i hf _ k).1
  case ram => intro k page col; rw [heq, ram_record, ram_withCtrl]; exact (afterFall_accept i hf _ k).2 page col
  all_goals simp [ctrlClear]

/-- It ends in the protocol-fault state exactly where its pulse event meets a busy controller (R71). -/
theorem ClearsFirst.fault_isSome (C : ClearsFirst i m s t) :
    t.protoFault.isSome = (s.flagE && flagIn m s.cfg.mE && s.hitsBusy) := by
  rw [C.fault]
  cases s.flagE && flagIn m s.cfg.mE with
  | false => rfl
  | true => exact metFault_isSome s

theorem ClearsFirst.unpulsed (C : ClearsFirst i m s t) (h : (s.flagE && flagIn m s.cfg.mE) = false) :
    sameButReady s t ∧ sameRam s t := by
  have hctl := C.ctl
  have hram := C.ram
  rw [h] at hctl hram
  exact ⟨sameButReady_arrive fun k => (hctl k).trans (arrive_ctl s k), fun k page col =>
    (hram k page col).trans (arrive_ram s k page col)⟩

theorem ClearsFirst.received (C : ClearsFirst i m s t) (hf : s.protoFault = none)
    (h : (s.flagE && flagIn m s.cfg.mE) = true) : received s (s.pulseByte s.slot) t := by
  have hctl := C.ctl
  have hram := C.ram
  rw [h] at hctl hram
  exact received_congr (pulseEvent_received hf) hctl hram

/-- An operation that begins with `CtrlClear(m)` goes on after it, or stands in the protocol-fault state (R71). -/
theorem exec_clear {rest : List Micro} (hp : progOf s.cfg i = .ctrlClear m :: rest) (w : s.cfg.wf = true)
    (hf : s.protoFault = none) (hn : s.noResetNow = true) : ∃ v, ClearsFirst i m s v ∧
      ((s.flagE && flagIn m s.cfg.mE && s.hitsBusy) = false →
        v.protoFault = none ∧ exec i s = .next (runSeq rest v)) ∧
      ((s.flagE && flagIn m s.cfg.mE && s.hitsBusy) = true → exec i s = .next { v with seq := rest }) := by
  have C := ctrlClear_clearsFirst i m w hf
  rw [exec_prog, hp]
  refine ⟨_, C, fun hb => ?goes, fun hb => ?stops⟩
  case goes =>
    have hv : (ctrlClear m s.slot (accept i s).arrive).protoFault = none := by
      rw [← Option.isNone_iff_eq_none, ← Option.not_isSome, C.fault_isSome, hb]; rfl
    exact ⟨hv, congrArg _ (runSeq_cons (primitive_arrive (s := accept i s) hn hv))⟩
  case stops => exact congrArg _ (runSeq_stop (primitive_fault (s := accept i s) hn (C.fault_isSome.trans hb)))

/-- Settles O16: CLRC is one `CtrlClear`, and completes unless that meets a busy controller. -/
theorem clrcClearsExactlyItsBits : Obligations.ClrcClearsExactlyItsBits := by
  intro s mask w hf hn
  obtain ⟨v, C, hgoes, hstops⟩ := exec_clear (i := .clrc mask) rfl w hf hn
  cases hb : s.flagE && flagIn mask s.cfg.mE && s.hitsBusy with
  | false =>
    obtain ⟨hv, hx⟩ := hgoes hb
    exact ⟨complete v, hx, C.ctrl, C.dout, C.dir, C.result, C.req, rfl, C.cfg, C.host, C.trace, C.pulses,
      fun _ => complete_endsWith C.status C.req hv C.cfg C.host, nofun, C.unpulsed⟩
  | true =>
    have hfalls : (s.flagE && flagIn mask s.cfg.mE) = true := (Bool.and_eq_true_iff.1 hb).1
    exact ⟨{ v with seq := [] }, hstops hb, C.ctrl, C.dout, C.dir, C.result, C.req, rfl, C.cfg, C.host, C.trace,
      C.pulses, nofun, fun _ => ⟨C.fault.trans (if_pos hfalls), C.status⟩, C.unpulsed⟩

/-! ## CFGRD (R58, R122) -/

/-- Clearing other lines leaves a line as it was (R22). -/
theorem flagIn_clear_other {k : Byte} (hk : Config.oneHot k = true) (h : flagIn m k = false) (x : Byte) :
    flagIn (x &&& ~~~m) k = flagIn x k := by
  rw [flagIn_and_not _ _ hk, h, Bool.not_false, Bool.and_true]

/-- The lines after `CtrlClear(M_E)`: E low, the others as they were (R121). -/
theorem ClearsFirst.loweredE_flags (C : ClearsFirst i s.cfg.mE s t) (w : s.cfg.wf = true) :
    t.flagCS1 = s.flagCS1 ∧ t.flagCS2 = s.flagCS2 ∧ t.flagRST = s.flagRST ∧ t.flagE = false ∧
      t.reservedBits = s.reservedBits := by
  obtain ⟨h1, h2, hr, -, -, he, hres⟩ := flags_of C.cfg C.ctrl
  have hlow : flagIn (s.ctrl &&& ~~~s.cfg.mE) s.cfg.mE = false := by
    rw [flagIn_and_not _ _ (Config.wf_oneHot_mE w), flag_mE_mE w, Bool.not_true, Bool.and_false]
  exact ⟨h1.trans (flagIn_clear_other (Config.wf_oneHot_mCS1 w) (flag_mE_mCS1 w) s.ctrl),
    h2.trans (flagIn_clear_other (Config.wf_oneHot_mCS2 w) (flag_mE_mCS2 w) s.ctrl),
    hr.trans (flagIn_clear_other (Config.wf_oneHot_mRST w) (flag_mE_mRST w) s.ctrl), he.trans hlow,
    hres.trans (reserved_and_not _ _ (reserved_flag _ (by simp)))⟩

/-- Two operations that begin with the same `CtrlClear` have left the display alike after it. -/
theorem ClearsFirst.sameButReady_of {j : Instr} (C : ClearsFirst i m s u) (D : ClearsFirst j m s v)
    (h : sameButReady v t) : sameButReady u t := fun k => by rw [C.ctl, ← D.ctl]; exact h k

theorem ClearsFirst.sameRam_of {j : Instr} (C : ClearsFirst i m s u) (D : ClearsFirst j m s v)
    (h : sameRam v t) : sameRam u t := fun k page col => by rw [C.ram, ← D.ram]; exact h k page col

/-- After CR.1 the rest of CFGRD turns the bus round, whatever the controllers (R122). -/
theorem ClearsFirst.turns (C : ClearsFirst .cfgrd s.cfg.mE s v) (w : s.cfg.wf = true) (hn : s.noReset = true)
    (hv : v.protoFault = none) :
    ∃ t, Went [.setDir .input, .ctrlClear s.cfg.mRS, .ctrlSet s.cfg.mRW, .delay .settle] v t
      ((v.ctrl &&& ~~~s.cfg.mRS) ||| s.cfg.mRW) .input v.loc
      [.delay .settle, .ctrlSet s.cfg.mRW, .ctrlClear s.cfg.mRS, .setDir .input] [] := by
  obtain ⟨-, -, -, he, -⟩ := C.loweredE_flags w
  have hreset : v.noReset = true := by
    rw [State.noReset, C.env]
    exact (all_slots (p := fun e => !e.reset) rfl hn).2
  rw [← C.cfg] at w ⊢
  exact went_turn ⟨w, hreset, hv⟩ he

/-- Settles O17: CR.1 is the `CtrlClear` of a `CLRC M_E`; unless it meets a busy controller CR.2 to CR.5 turn the bus
round and touch nothing of the display. -/
theorem cfgrdTurnsTheBusToInput : Obligations.CfgrdTurnsTheBusToInput := by
  intro s w hf hn
  have hE : (s.flagE && flagIn s.cfg.mE s.cfg.mE) = s.flagE := by rw [flag_mE_mE w, Bool.and_true]
  obtain ⟨v, C, hgoes, hstops⟩ := exec_clear (i := .cfgrd) rfl w hf (noReset_now hn)
  obtain ⟨v', D, hgoes', -⟩ := exec_clear (i := .clrc s.cfg.mE) rfl w hf (noReset_now hn)
  have hpulses := C.pulses
  rw [hE] at hpulses hgoes hstops hgoes'
  refine ⟨fun hb => ?completes, fun hb => ?stops⟩
  case completes =>
    obtain ⟨hv, hx⟩ := hgoes hb
    obtain ⟨h1, h2, hr, he, hres⟩ := C.loweredE_flags w
    obtain ⟨t, W⟩ := C.turns w hn hv
    have K := W.kept
    obtain ⟨k1, k2, kr, hrs, hrw, ke, kres⟩ :=
      turned_flags (by rw [C.cfg]; exact w) K.cfg (by rw [C.cfg]; exact W.ctrl)
    refine ⟨complete v', complete t, (hgoes' hb).2, ?run, ?ends, W.dir, ke.trans he, hrs, hrw, k1.trans h1,
      k2.trans h2, kr.trans hr, kres.trans hres, K.dout.trans C.dout, K.result.trans C.result, ?trace,
      W.pulses.trans hpulses, D.sameButReady_of C K.sameButReady, D.sameRam_of C K.ram,
      fun h => ⟨_, D.received hf (hE.trans h)⟩, fun h => ?low⟩
    case run => rw [hx, runSeq_of_runGo W.go]
    case ends =>
      exact complete_endsWith (K.status.trans C.status) (K.req.trans C.req) (K.fault.trans hv) (K.cfg.trans C.cfg)
        (K.host.trans C.host)
    case trace => exact W.trace.trans (congrArg _ C.trace)
    case low =>
      obtain ⟨hctl, hram⟩ := C.unpulsed (hE.trans h)
      exact ⟨sameButReady_trans hctl K.sameButReady, fun k page col => (K.ram k page col).trans (hram k page col)⟩
  case stops =>
    have he : s.flagE = true := (Bool.and_eq_true_iff.1 hb).1
    have hfalls := hE.trans he
    exact ⟨_, _, hstops hb, C.fault.trans (if_pos hfalls), C.ctrl, C.dir, C.dout, C.result, C.loc, C.status, C.cfg,
      C.host, C.trace, hpulses.trans (if_pos he), C.received hf hfalls⟩

end Sys2Proof.Machine
end

section
/-! PROOF of O19 (R58, R140, R141): the controller selector in any environment without an EngineReset. `Select` moves neither
E nor RST, so it is an update of the chip-selects alone. -/

namespace Sys2Proof.Machine

variable {s t : State}

/-! ## The primitive `Select` (R140) -/

/-- `Select` is no pulse event and no release of the display reset: E and RST stay as they are (R58, R72, R140). -/
theorem select_quiet (w : s.cfg.wf = true) (tgt : Target) (e : EnvSlot) :
    select tgt e s = record (.select tgt) { s with ctrl := selectCtrl s.cfg tgt s.ctrl } := by
  have hE : (s.flagE && !flagIn (selectCtrl s.cfg tgt s.ctrl) s.cfg.mE) = false := by
    rw [flag_select_mE w]; exact Bool.and_not_self _
  have hR : (!s.flagRST && flagIn (selectCtrl s.cfg tgt s.ctrl) s.cfg.mRST) = false := by
    rw [flag_select_mRST w]; exact Bool.not_and_self _
  exact congrArg _ (updateCtrl_quiet hE hR)

theorem went_selectTgt (w : s.cfg.wf = true) (n : s.noResetNow = true) (hf : s.protoFault = none) :
    ∃ t, Went [.selectTgt] s t (selectCtrl s.cfg s.loc.tgt s.ctrl) s.dir s.loc [.select s.loc.tgt] [] :=
  ⟨_, went_lines (m := .selectTgt) n hf rfl (select_quiet (by rw [arrive_cfg]; exact w) s.loc.tgt s.slot) rfl rfl rfl
    rfl rfl rfl rfl rfl rfl rfl rfl rfl rfl (congrArg₂ (selectCtrl · s.loc.tgt ·) (arrive_cfg s) (arrive_ctrl s))
    (arrive_dir s) (arrive_loc s) (congrArg _ (arrive_trace s))⟩

/-- `TGT <- tgt` moves nothing but the local register (R30). -/
theorem went_setTgt (s : State) (tgt : Target) :
    Went [.setTgt tgt] s { s with loc := { s.loc with tgt := tgt } } s.ctrl s.dir { s.loc with tgt := tgt } [] [] where
  go := runGo_one rfl
  kept := kept_lines rfl rfl rfl rfl rfl rfl rfl rfl rfl rfl rfl rfl
  ctrl := rfl
  dir := rfl
  loc := rfl
  env := rfl
  trace := rfl
  pulses := rfl

/-- `Select` of a target operand: one primitive after the assignment of TGT (R30, R141). -/
theorem went_selectSeq (w : s.cfg.wf = true) (n : s.noResetNow = true) (hf : s.protoFault = none) (tgt : Target) :
    ∃ t, Went (selectSeq tgt) s t (selectCtrl s.cfg tgt s.ctrl) s.dir { s.loc with tgt := tgt } [.select tgt] [] :=
  have ⟨t, W⟩ := went_selectTgt (s := { s with loc := { s.loc with tgt := tgt } }) w n hf
  ⟨t, (went_setTgt s tgt).append W⟩

/-! ## What the selection says (R92, R140) -/

/-- The chip-select bits of a target, by the bits of its number (R92, R140). -/
theorem csMask_targetNumber (c : Config) (tgt : Target) :
    csMask c tgt = (if (targetNumber tgt).testBit 0 then c.mCS1 else 0) |||
      (if (targetNumber tgt).testBit 1 then c.mCS2 else 0) := by
  have h1 : (targetNumber tgt).testBit 0 = tgt.has1 := by cases tgt <;> rfl
  have h2 : (targetNumber tgt).testBit 1 = tgt.has2 := by cases tgt <;> rfl
  rw [csMask, h1, h2]

/-- `Select` puts the chip-selects to the target and leaves every other line and the reserved bits (R22, R140). -/
theorem selectCtrl_linesAfter (w : s.cfg.wf = true) (hc : t.cfg = s.cfg) {tgt : Target}
    (h : t.ctrl = selectCtrl s.cfg tgt s.ctrl) : linesAfter s t tgt s.flagRS s.flagRW s.flagE := by
  obtain ⟨h1, h2, hrst, hrs, hrw, he, hres⟩ := flags_of hc h
  exact ⟨h1.trans (flag_select_mCS1 w tgt _), h2.trans (flag_select_mCS2 w tgt _), hrs.trans (flag_select_mRS w tgt _),
    hrw.trans (flag_select_mRW w tgt _), he.trans (flag_select_mE w tgt _), hrst.trans (flag_select_mRST w tgt _),
    hres.trans (reserved_select _ tgt _)⟩

/-- Settles O19: SEL is one `Select`, which keeps all but the chip-selects, TGT and the record. -/
theorem selMapsTheTarget : Obligations.SelMapsTheTarget := by
  intro s tgt w hf hn
  obtain ⟨v, W⟩ := went_selectSeq (s := accept (.sel tgt) s) w hn hf tgt
  obtain ⟨hctl, hram⟩ := complete_display_of_kept W.kept
  refine ⟨complete v, exec_of_runGo W.go, complete_endsWith_of_kept W.kept hf, ?ctrl,
    selectCtrl_linesAfter w W.kept.cfg W.ctrl, W.kept.dout, W.dir, W.kept.result, W.pulses, W.trace, hctl, hram⟩
  rw [← csMask_targetNumber]
  exact W.ctrl

end Sys2Proof.Machine
end

section
/-! PROOF of O29 and O30 (R150, R151, R153, R155): what one poll from WT.6 leaves and where it sends the sequencer; and that
WAIT, whatever is selected, turns the bus round and comes to WT.6. -/

namespace Sys2Proof.Machine

variable {s t u : State} {rest : List Micro} {c : Ctl} {v : Byte}

/-! ## One poll from WT.6 (R150, R155) -/

/-- `u` is where a poll from `s` stands after its test has counted it, `v` being the byte sampled: CTRL is back as it was,
and the one controller selected has shown its busy flag (R63, R150). -/
structure PollMade (s u : State) (v : Byte) : Prop where
  kept : Kept s u
  ctrl : u.ctrl = s.ctrl
  dir : u.dir = .input
  trace : u.trace = (pollPrims s.cfg v).reverse ++ s.trace
  pulses : u.pulses = pollRecord s :: s.pulses
  loc : u.loc = { s.loc with smp := v, polls := if s.cfg.pollLimit = none then s.loc.polls else s.loc.polls + 1 }
  shows : ∀ c, s.selectsOnly c → s.flagRST = true →
    ((u.ctl c).busy = true → showsBusy s.cfg.busyMask v = true) ∧
    (s.stuck c = true → showsBusy s.cfg.busyMask v = (s.ctl c).busy)

/-- A step from WT.6 is a poll; the byte sampled sends the sequencer on, back to WT.6, or, at the limit, out of the
operation (R150, R155, R243). -/
theorem step_poll (hc : s.cfg.wf = true) (hn : s.noReset = true) (hw : s.waiting rest) : ∃ u v, PollMade s u v ∧
    (showsBusy s.cfg.busyMask v = false → step s = .next (runSeq rest u)) ∧
    (showsBusy s.cfg.busyMask v = true → s.cfg.pollLimit ≠ some (s.loc.polls + 1) → step s = .next u) ∧
    (showsBusy s.cfg.busyMask v = true → s.cfg.pollLimit = some (s.loc.polls + 1) →
      ∃ t, Went [.setDir .output] u t u.ctrl .output u.loc [.setDir .output] [] ∧
        step s = .next (raiseUnresponsive t)) := by
  obtain ⟨hq, hi, hf, hd, he, hrs, hrw⟩ := hw
  obtain ⟨u, v, K, hctrl, hdir, htrace, hpulses, hloc, hshows, hready, hbusy, hfail⟩ :=
    runSeq_poll (rest := rest) ⟨hc, hn, hf⟩ hd he hrs hrw
  rw [step_busy hi hf, hq]
  refine ⟨u, v, ⟨K, hctrl, hdir, htrace, hpulses, hloc, hshows⟩, fun h => congrArg _ (hready h), fun h hl => ?loops,
    fun h hl => ?fails⟩
  case loops => rw [hbusy h hl, ← hq, ← K.seq]
  case fails =>
    obtain ⟨t, W, hrun⟩ := hfail h hl
    exact ⟨t, W, congrArg _ hrun⟩

/-- After a poll the sequencer can stand at WT.6 again: the lines are those it needs (R150). -/
theorem PollMade.waiting (P : PollMade s u v) (hw : s.waiting rest) : u.waiting rest := by
  obtain ⟨hq, hi, hf, -, he, hrs, hrw⟩ := hw
  have K := P.kept
  obtain ⟨-, -, -, krs, krw, ke, -⟩ := flags_of K.cfg P.ctrl
  refine ⟨?_, ?_, K.fault.trans hf, P.dir, ke.trans he, krs.trans hrs, krw.trans hrw⟩
  · rw [K.seq, hq, K.cfg]
  · rw [State.idle, K.status]; exact hi

/-- Settles O30: the poll is `step_poll`, and whatever follows it only adds to the trace. -/
theorem thePollDecides : Obligations.ThePollDecides := by
  intro s rest hc hn hw
  obtain ⟨u, v, P, hready, hbusy, hfail⟩ := step_poll hc hn hw
  have K := P.kept
  obtain ⟨-, -, hf, -⟩ := hw
  have hseq : ({ u with seq := s.seq } : State) = u := by rw [← K.seq]
  refine ⟨u, v, P.trace, P.pulses, P.ctrl, P.dir, K.dout, K.status, K.result, K.req, K.cfg, K.host,
    K.fault.trans hf, P.loc, K.sameButReady, K.ram, ?step, ?ready, hready, fun h hl => ?loops⟩
  case step =>
    rw [← P.trace]
    cases hv : showsBusy s.cfg.busyMask v with
    | false => exact ⟨_, hready hv, runSeq_trace rest u⟩
    | true =>
      by_cases hl : s.cfg.pollLimit = some (s.loc.polls + 1)
      · obtain ⟨t, W, hx⟩ := hfail hv hl
        exact ⟨_, hx, W.trace ▸ List.suffix_append _ _⟩
      · exact ⟨_, hbusy hv hl, List.suffix_rfl⟩
  case ready =>
    intro c hs hr hv
    obtain ⟨hb, -⟩ := P.shows c hs hr
    simpa [hv] using hb
  case loops => rw [hseq]; exact hbusy h hl

/-! ## WAIT turns the bus round (R150, R151) -/

/-- A run does not look at the steps the sequencer holds (R32). -/
theorem runSeq_withSeq (p q : List Micro) (s : State) : runSeq p { s with seq := q } = runSeq p s :=
  (aside_runSeq (q := q) (l := s.host) p s).trans (aside_runSeq (q := s.seq) (l := s.host) p s).symm

/-- WAIT accepted, the sequencer holding what follows the five primitives of CFGRD (R29, R150). -/
def State.beforePoll (s : State) : State :=
  { accept .wait s with seq := pollBody s.cfg ++ .test :: cfgWriteSeq }

theorem beforePoll_ctl (s : State) (k : Ctl) : s.beforePoll.ctl k = s.ctl k := by cases k <;> rfl
theorem beforePoll_ram (s : State) : sameRam s s.beforePoll := fun k _ _ => by cases k <;> rfl

/-- With E low WAIT comes to WT.6, whatever is selected, and does from there what a step does (R150, R151, R153). -/
theorem exec_wait_turns (hc : s.cfg.wf = true) (hf : s.protoFault = none) (hn : s.noReset = true) (he : s.flagE = false) :
    ∃ u, Went (cfgReadSeq s.cfg ++ [.pollsZero]) s.beforePoll u ((s.ctrl &&& ~~~s.cfg.mRS) ||| s.cfg.mRW) .input
      { s.loc with polls := if s.cfg.pollLimit = none then s.loc.polls else 0 }
      [.delay .settle, .ctrlSet s.cfg.mRW, .ctrlClear s.cfg.mRS, .setDir .input, .ctrlClear s.cfg.mE] [] ∧
      u.waiting cfgWriteSeq ∧ exec .wait s = step u := by
  obtain ⟨r, R⟩ := went_cfgRead (s := s.beforePoll) ⟨hc, hn, hf⟩ he
  obtain ⟨u, Z⟩ := went_pollsZero r
  rw [R.ctrl, R.dir, R.loc, R.kept.cfg] at Z
  have W := R.append Z
  have K := W.kept
  obtain ⟨-, -, -, hrs, hrw, hE, -⟩ := turned_flags (s := s.beforePoll) hc K.cfg W.ctrl
  have hq : u.seq = pollBody s.cfg ++ .test :: cfgWriteSeq := K.seq
  have hi : u.idle = false := by rw [State.idle, K.status]; exact accept_idle .wait s
  have hfault : u.protoFault = none := K.fault.trans hf
  refine ⟨u, W, ⟨?_, hi, hfault, W.dir, hE.trans he, hrs, hrw⟩, ?_⟩
  · rw [hq, K.cfg]; rfl
  · have hsplit : progOf s.cfg .wait =
        (cfgReadSeq s.cfg ++ [.pollsZero]) ++ (pollBody s.cfg ++ .test :: cfgWriteSeq) := rfl
    have hrun : runSeq (progOf s.cfg .wait) s.beforePoll = runSeq u.seq u := by
      rw [hsplit, hq]; exact runSeq_append W.go
    rw [exec_prog, step_busy hi hfault, ← hrun]
    exact congrArg _ (runSeq_withSeq ..).symm

/-- Settles O29: `exec_wait_turns`, and what its five primitives keep. -/
theorem waitPollsWhateverIsSelected : Obligations.WaitPollsWhateverIsSelected := by
  intro s hc hf hn he
  obtain ⟨u, W, hw, hx⟩ := exec_wait_turns hc hf hn he
  have K := W.kept
  obtain ⟨h1, h2, hr, -, -, -, hres⟩ := turned_flags (s := s.beforePoll) hc K.cfg W.ctrl
  refine ⟨u, hx, hw, K.noReset hn, h1, h2, hr, hres, K.dout, K.status, K.req, K.result, K.cfg, K.host, W.loc, W.pulses,
    W.trace, fun k => ?_, fun k p l => (K.ram k p l).trans (beforePoll_ram s k p l)⟩
  rw [← beforePoll_ctl s k]
  exact K.sameButReady k

end Sys2Proof.Machine
end

section
/-! PROOF of O28 and O33 (R154, R155, R243): a wait that faces a stuck busy controller. Each step is one busy poll, which
keeps the wait as it is until POLL_LIMIT polls are made. -/

namespace Sys2Proof.Machine

variable {s t u : State} {rest : List Micro} {c : Ctl} {v : Byte}

/-! ## The wait on a stuck controller -/

/-- `s` stands at WT.6 facing the busy controller c, which never becomes ready (R154). -/
structure StuckWait (rest : List Micro) (c : Ctl) (s : State) : Prop where
  wf : s.cfg.wf = true
  stuck : s.stuck c = true
  waiting : s.waiting rest
  faces : s.facesBusy c

/-- Where Ready never comes no EngineReset does: `stuck` excludes both. -/
theorem noReset_of_stuck (h : s.stuck c = true) : s.noReset = true := by
  simp only [State.stuck, State.noReset, List.all_eq_true, Bool.and_eq_true] at h ⊢
  exact fun e he => (h e he).1

/-- What `Kept` keeps of a busy controller that is stuck, its chip-selects and RST being as they were. -/
theorem Kept.facesBusy (K : Kept s u) (hs : s.stuck c = true) (h : s.facesBusy c) (h1 : u.flagCS1 = s.flagCS1)
    (h2 : u.flagCS2 = s.flagCS2) (hr : u.flagRST = s.flagRST) : u.facesBusy c :=
  have ⟨hsel, hrst, hbusy⟩ := h
  ⟨⟨h1.trans hsel.1, h2.trans hsel.2⟩, hr.trans hrst, (K.busy c hs).trans hbusy⟩

/-- A stuck controller shows busy, and the wait faces it as before. -/
theorem StuckWait.polled (h : StuckWait rest c s) (P : PollMade s u v) :
    showsBusy s.cfg.busyMask v = true ∧ StuckWait rest c u := by
  obtain ⟨hsel, hrst, hbusy⟩ := h.faces
  have K := P.kept
  obtain ⟨h1, h2, hr, -⟩ := flags_of K.cfg P.ctrl
  exact ⟨((P.shows c hsel hrst).2 h.stuck).trans hbusy, by rw [K.cfg]; exact h.wf, K.stuck c h.stuck,
    P.waiting h.waiting, K.facesBusy h.stuck h.faces h1 h2 hr⟩

/-- Below the limit a step is a poll that sends the wait round again (R154, R155). -/
theorem StuckWait.again (h : StuckWait rest c s) (hl : s.cfg.pollLimit ≠ some (s.loc.polls + 1)) :
    ∃ u v, PollMade s u v ∧ StuckWait rest c u ∧ step s = .next u := by
  obtain ⟨u, v, P, -, hbusy, -⟩ := step_poll h.wf (noReset_of_stuck h.stuck) h.waiting
  obtain ⟨hv, hu⟩ := h.polled P
  exact ⟨u, v, P, hu, hbusy hv hl⟩

/-- The POLL_LIMIT-th poll fails (R155, R243). -/
theorem StuckWait.fails (h : StuckWait rest c s) (hl : s.cfg.pollLimit = some (s.loc.polls + 1)) :
    ∃ u v t, PollMade s u v ∧ Went [.setDir .output] u t u.ctrl .output u.loc [.setDir .output] [] ∧
      step s = .next (raiseUnresponsive t) := by
  obtain ⟨u, v, P, -, -, hfail⟩ := step_poll h.wf (noReset_of_stuck h.stuck) h.waiting
  obtain ⟨t, W, hx⟩ := hfail (h.polled P).1 hl
  exact ⟨u, v, t, P, W, hx⟩

/-! ## Any number of busy polls -/

/-- `u` stands in the wait of `s` after `j` more busy polls, which have counted, and nothing else has moved (R154,
R155). -/
structure WaitsOn (rest : List Micro) (c : Ctl) (j : Nat) (s u : State) : Prop where
  wait : StuckWait rest c u
  kept : Kept s u
  polls : s.cfg.pollLimit ≠ none → u.loc.polls = s.loc.polls + j
  pulses : u.pulses.length = s.pulses.length + j
  trace : u.trace.length = s.trace.length + 5 * j

theorem WaitsOn.refl (h : StuckWait rest c s) : WaitsOn rest c 0 s s := ⟨h, Kept.refl s, fun _ => rfl, rfl, rfl⟩

theorem WaitsOn.succ {j : Nat} (h : WaitsOn rest c j s t) (P : PollMade t u v) : WaitsOn rest c (j + 1) s u where
  wait := (h.wait.polled P).2
  kept := h.kept.trans P.kept
  polls hl := by rw [P.loc, h.kept.cfg]; simp only [if_neg hl]; rw [h.polls hl, Nat.add_assoc]
  pulses := by rw [P.pulses, List.length_cons, h.pulses, Nat.add_assoc]
  trace := by
    have hfive : (pollPrims t.cfg v).reverse.length = 5 := rfl
    rw [P.trace, List.length_append, hfive, h.trace]
    omega

/-- One more step after `j` of them. -/
theorem run_snoc {j : Nat} (h : Host.Core.run Sys2Proof.core j s = .next t) (hu : step t = .next u) :
    Host.Core.run Sys2Proof.core (j + 1) s = .next u := by
  induction j generalizing s with
  | zero =>
    obtain rfl : s = t := Host.Outcome.next.inj h
    exact run_succ 0 hu
  | succ j ih =>
    have hcore : Host.Core.step Sys2Proof.core s = step s := rfl
    cases hs : step s with
    | next v => rw [run_succ _ hs] at h ⊢; exact ih h
    | fault f => simp [Host.Core.run, hcore, hs] at h
    | refused r => simp [Host.Core.run, hcore, hs] at h

/-- The wait stands after any number of polls that does not reach POLL_LIMIT (R154, R155). -/
theorem StuckWait.run {j : Nat} (h : StuckWait rest c s) (hj : ∀ n, s.cfg.pollLimit = some n → s.loc.polls + j < n) :
    ∃ u, Host.Core.run Sys2Proof.core j s = .next u ∧ WaitsOn rest c j s u := by
  induction j with
  | zero => exact ⟨s, rfl, .refl h⟩
  | succ j ih =>
    obtain ⟨t, ht, W⟩ := ih fun n hn => by have := hj n hn; omega
    have hl : t.cfg.pollLimit ≠ some (t.loc.polls + 1) := by
      rw [W.kept.cfg]
      intro hn
      have hlt := hj _ hn
      rw [W.polls (by simp [hn])] at hlt
      omega
    obtain ⟨u, v, P, -, hstep⟩ := W.wait.again hl
    exact ⟨u, run_snoc ht hstep, W.succ P⟩

/-! ## WAIT on it, and the failure at the limit -/

/-- Settles O28: WAIT comes to WT.6 with the controller as stuck as before, and its first poll shows busy. -/
theorem waitStandsAtABusyPoll : Obligations.WaitStandsAtABusyPoll := by
  intro s c hc hf hs hl he hb
  obtain ⟨u, W, hw, hx⟩ := exec_wait_turns hc hf (noReset_of_stuck hs) he
  have K := W.kept
  obtain ⟨h1, h2, hr, -⟩ := turned_flags (s := s.beforePoll) hc K.cfg W.ctrl
  obtain ⟨hsel, hrst, hbusy⟩ := hb
  have hfaces : s.beforePoll.facesBusy c := ⟨hsel, hrst, by rw [beforePoll_ctl]; exact hbusy⟩
  have hu : StuckWait cfgWriteSeq c u :=
    ⟨by rw [K.cfg]; exact hc, K.stuck c hs, hw, K.facesBusy hs hfaces h1 h2 hr⟩
  have hcfg : u.cfg = s.cfg := K.cfg
  have hpolls : s.cfg.pollLimit ≠ none → u.loc.polls = 0 := fun h => by rw [W.loc]; exact if_neg h
  have hbelow : u.cfg.pollLimit ≠ some (u.loc.polls + 1) := by
    rw [hcfg]
    intro h
    exact hl (by rw [h, hpolls (by simp [h])])
  obtain ⟨t, v, P, ht, hstep⟩ := hu.again hbelow
  refine ⟨t, hx.trans hstep, ht.waiting, ht.faces, P.kept.status.trans K.status, P.kept.req.trans K.req, fun h => ?_⟩
  rw [P.kept.cfg, hcfg] at h
  rw [P.loc, hcfg]
  simp only [if_neg h, hpolls h]

theorem raiseUnresponsive_ram (s : State) : sameRam s (raiseUnresponsive s) := fun k _ _ => by cases k <;> rfl

/-- Settles O33: the wait stands until one poll is left to make, and that one fails. -/
theorem boundedWaitFailsAtTheLimit : Obligations.BoundedWaitFailsAtTheLimit := by
  intro s rest c n hc hs hw hb hn hlt
  have h : StuckWait rest c s := ⟨hc, hs, hw, hb⟩
  have hbound : ∀ j, j < n - s.loc.polls → ∀ m, s.cfg.pollLimit = some m → s.loc.polls + j < m := by
    intro j hj m hm
    obtain rfl : n = m := Option.some.inj (hn.symm.trans hm)
    omega
  have hsome : s.cfg.pollLimit ≠ none := by simp [hn]
  refine ⟨fun j hj => ?stands, ?fails⟩
  case stands =>
    obtain ⟨u, hu, W⟩ := h.run (hbound j hj)
    exact ⟨u, hu, W.wait.waiting, W.polls hsome, W.kept.status⟩
  case fails =>
    obtain ⟨j, hj⟩ : ∃ j, n - s.loc.polls = j + 1 := ⟨n - s.loc.polls - 1, by omega⟩
    obtain ⟨u, hu, W⟩ := h.run (hbound j (by omega))
    obtain ⟨w, v, t, P, D, hx⟩ := W.wait.fails (by rw [W.kept.cfg, hn, W.polls hsome]; congr 1; omega)
    have K := (W.kept.trans P.kept).trans D.kept
    rw [hj]
    refine ⟨raiseUnresponsive t, run_snoc hu hx, raiseUnresponsive_idle t, rfl, (raiseUnresponsive_flags t).2.1,
      K.result, D.dir, ?_, fun k p l => (raiseUnresponsive_ram t k p l).trans (K.ram k p l)⟩
    rw [raiseUnresponsive_pulses, D.pulses]
    exact (W.succ P).pulses

end Sys2Proof.Machine
end

section
/-! PROOF of O27 (R150, R151, R153, R172, R287): WAIT in a steady state, whatever the lines: an E that is high falls first,
as in `CLRC M_E`, and the one poll finds the controller ready. -/

namespace Sys2Proof.Machine

variable {s t u : State} {c : Ctl}

/-- The acceptance of a request makes no difference to the lowered view (R37). -/
theorem accept_lowered (i : Instr) (s : State) : (accept i s).lowered = s.lowered := lowered_congr rfl rfl rfl rfl

theorem quiet_accept (i : Instr) (q : Quiet s) : Quiet (accept i s) := ⟨q.wf, q.fault, q.calm, q.ready1, q.ready2⟩

/-- The display and the pulse events of `t` are those of the view `v`. -/
structure Displays (v : View) (t : State) : Prop where
  pulses : t.pulses = v.pulses
  ctl : ∀ k, t.ctl k = v.ctl k
  ram : ∀ k page col, t.ramByte k page col = v.ram k page col

theorem displays_complete {v : View} (h : t.view = v) : Displays v (complete t) := by
  subst h
  exact ⟨rfl, fun k => by cases k <;> rfl, fun k page col =>
    (ram_complete t k page col).trans (view_ram t k page col).symm⟩

/-- `CLRC M_E` in a quiet state leaves the display of the lowered view; where E was high that is what the pulse event
leaves, and where it was low it is the display as it was (R58, R121, R287). -/
theorem exec_clrc_lowered (q : Quiet s) : ∃ u, exec (.clrc s.cfg.mE) s = .next u ∧ Displays s.lowered u ∧
    (s.flagE = true → u.pulses = s.pulseRecord :: s.pulses ∧ ∃ b, received s b u) ∧
    (s.flagE = false → u.pulses = s.pulses ∧ (∀ k, u.ctl k = s.ctl k) ∧ sameRam s u) := by
  obtain ⟨v, hgo, -, hv⟩ := go_clearE (quiet_accept (.clrc s.cfg.mE) q)
  rw [accept_lowered] at hv
  have hx : exec (.clrc s.cfg.mE) s = .next (complete v) := exec_of_runGo hgo
  have D := displays_complete hv
  refine ⟨complete v, hx, D, fun he => ?high, fun he => ?low⟩
  case high =>
    have hnow : s.noResetNow = true := by rw [State.noResetNow, (calm_head q.calm).1]; rfl
    obtain ⟨u, hu, -, hpulses, -, hreceived, -⟩ := exec_clrc_falls q.wf q.fault hnow he (flag_mE_mE q.wf)
    obtain rfl : complete v = u := Host.Outcome.next.inj (hx.symm.trans hu)
    exact ⟨hpulses, _, hreceived⟩
  case low =>
    rw [lowered_low he] at D
    exact ⟨D.pulses, fun k => (D.ctl k).trans (by cases k <;> rfl), fun k page col =>
      (D.ram k page col).trans (view_ram s k page col)⟩

/-- Settles O27: the eleven primitives of `go_waitReady`, from the lines that `CLRC M_E` leaves. -/
theorem waitReturnsWhenReady : Obligations.WaitReturnsWhenReady := by
  intro s c hs hk
  obtain ⟨hund, hrst⟩ := hs
  have q := Quiet.of_undisturbed hund
  obtain ⟨u, hu, D, hhigh, hlow⟩ := exec_clrc_lowered q
  obtain ⟨t, hgo, R, hv⟩ := go_waitReady (quiet_accept .wait q) c hrst hk
  rw [accept_lowered] at hv
  have E := displays_complete hv
  refine ⟨u, complete t, hu, exec_of_runGo hgo, ?ends, ?lines, congrArg View.dir hv, ?dout, R.result, R.trace, ?pulses,
    hhigh, hlow, fun k => ?ctl, fun k page col => ?ram⟩
  case ends => exact complete_endsWith R.status R.req R.quiet.fault R.cfg R.host
  case lines =>
    refine ⟨(congrArg View.cs1 hv).trans ?_, (congrArg View.cs2 hv).trans ?_, congrArg View.rs hv, congrArg View.rw hv,
      (congrArg View.e hv).trans (lowered_e s), (congrArg View.rst hv).trans (lowered_rst s),
      (congrArg View.reserved hv).trans (lowered_reserved s)⟩
    · exact (lowered_cs1 s).trans (hk.1.trans (by cases c <;> rfl))
    · exact (lowered_cs2 s).trans (hk.2.trans (by cases c <;> rfl))
  case dout => exact (congrArg View.dout hv).trans (lowered_dout s)
  case pulses =>
    have hrec : pollRecord s = pollPulse c s.dout := by simp only [pollRecord, pollPulse, hk.1, hk.2, hrst]
    rw [hrec, D.pulses]
    exact E.pulses
  case ctl => rw [E.ctl, D.ctl]; cases k <;> rfl
  case ram => rw [E.ram, D.ram]; cases k <;> rfl

end Sys2Proof.Machine
end

section
/-! PROOF of O34 and O35 (R165 to R167, R172, R287): RDB and RDD in a steady state, whatever the lines: an E that is high
falls first, as in `CLRC M_E`, and the rest is what `ReadByte` leaves of that view. -/

namespace Sys2Proof.Machine

variable {s t u : State} {v : View} {c : Config} {i : Instr} {tgt : Target} {n : Nat}

/-! ## What a transfer in a quiet state leaves of its view -/

/-- A sequence that went through leaves, on completion, what every operation leaves (R37). -/
theorem Ran.endsWith (R : Ran (accept i s) t n) : endsWith i s (complete t) :=
  complete_endsWith R.status R.req R.quiet.fault R.cfg R.host

/-- The lines after an operation, by the view it ends in (R22). -/
theorem linesAfter_of_view {rs rw e : Bool} (h : t.view = v) (h1 : v.cs1 = tgt.has1) (h2 : v.cs2 = tgt.has2)
    (hrs : v.rs = rs) (hrw : v.rw = rw) (he : v.e = e) (hrst : v.rst = s.flagRST) (hres : v.reserved = s.reservedBits) :
    linesAfter s (complete t) tgt rs rw e := by
  subst h
  exact ⟨h1, h2, hrs, hrw, he, hrst, hres⟩

/-! ## Reads -/

/-- The state once `RESULT <- RBV` is taken (R28). -/
def State.resulted (s : State) : State := { s with result := s.loc.rbv }

theorem resulted_view (s : State) : s.resulted.view = s.view := rfl

theorem runGo_setResult {p : List Micro} (h : runGo p s = some t) : runGo (p ++ [.setResult]) s = some t.resulted :=
  runGo_append h

theorem readAs_cs1 (rs : Bool) (b : Byte) : (v.readAs c rs tgt b).cs1 = (lastWaited tgt).has1 := by cases tgt <;> rfl
theorem readAs_cs2 (rs : Bool) (b : Byte) : (v.readAs c rs tgt b).cs2 = (lastWaited tgt).has2 := by cases tgt <;> rfl
theorem readAs_rw (rs : Bool) (b : Byte) : (v.readAs c rs tgt b).rw = true := by cases tgt <;> rfl
theorem readAs_rs (rs : Bool) (b : Byte) : (v.readAs c rs tgt b).rs = if tgt = .none then rs else false := by
  cases tgt <;> rfl

/-- `ReadByte` leaves the controller waited on last selected, or nobody, and the bus in read mode (R152, R165). -/
theorem linesAfter_of_readAs {rs : Bool} {b : Byte} (h : t.view = v.readAs c rs tgt b) (hrst : v.rst = s.flagRST)
    (hres : v.reserved = s.reservedBits) :
    linesAfter s (complete t) (lastWaited tgt) (if tgt = .none then rs else false) true false :=
  linesAfter_of_view h (readAs_cs1 rs b) (readAs_cs2 rs b) (readAs_rs rs b) (readAs_rw rs b) (readAs_e rs tgt b)
    ((readAs_rst rs tgt b).trans hrst) ((readAs_reserved rs tgt b).trans hres)

/-- Reads keep display memory (R62, R63). -/
theorem readAs_ram (rs : Bool) (b : Byte) (hr : v.rst = true) (k : Ctl) (page : BitVec 3) (col : BitVec 6) :
    (v.readAs c rs tgt b).ram k page col = v.ram k page col :=
  ram_congr (readAs_mem ..) (fun j => by rw [readAs_ctl rs tgt b hr]; split <;> rfl) k page col

/-- Two data reads: the latch holds the byte after the one at the position, and the column has advanced by two (R62,
R167). -/
theorem readAs_twice_ctl (b1 b2 : Byte) (hr : v.rst = true) (k : Ctl) :
    ((v.readAs c true tgt b1).readAs c true tgt b2).ctl k = if tgt.has k then
      { v.ctl k with ol := v.ram k (v.ctl k).xp ((v.ctl k).ya + 1), ya := (v.ctl k).ya + 2 } else v.ctl k := by
  rw [readAs_ctl true tgt b2 ((readAs_rst ..).trans hr), readAs_ram true b1 hr, readAs_ctl true tgt b1 hr]
  have htwo : (v.ctl k).ya + 1 + 1 = (v.ctl k).ya + 2 := BitVec.add_assoc ..
  cases tgt.has k
  · rfl
  · simp only [Bool.and_self, if_true, htwo]

/-- Settles O34: `ReadByte` from the lines that `CLRC M_E` leaves, and RESULT is the byte it sampled. -/
theorem rdbReturnsTheSampledByte : Obligations.RdbReturnsTheSampledByte := by
  intro s tgt rs hs
  obtain ⟨hund, hrst⟩ := hs
  have q := Quiet.of_undisturbed hund
  have hlow : s.lowered.rst = true := (lowered_rst s).trans hrst
  obtain ⟨u, hu, D, -⟩ := exec_clrc_lowered q
  obtain ⟨b, t, hval, hgo, R, hv⟩ := go_readByte (quiet_accept (.rdb tgt rs) q) rs tgt hrst
  rw [accept_lowered, accept_cfg] at hval hv
  have hresult : t.loc.rbv = b := (congrArg View.rbv hv).trans (readAs_rbv ..)
  have E := displays_complete ((resulted_view t).trans hv)
  refine ⟨u, complete t.resulted, hu, exec_of_runGo (runGo_setResult hgo), R.endsWith, fun c hc => ?result,
    linesAfter_of_readAs hv (lowered_rst s) (lowered_reserved s), (congrArg View.dir hv).trans (readAs_dir ..), ?dout,
    fun c => ?ctl, fun c page col => ?ram, R.trace.trans (Nat.add_assoc ..).symm, ?pulses⟩
  case result =>
    show if rs then t.loc.rbv = _ else showsBusy _ t.loc.rbv = false
    rw [hresult, D.ctl]
    exact hval c hc
  case dout => exact (congrArg View.dout hv).trans ((readAs_dout ..).trans (lowered_dout s))
  case ctl => rw [E.ctl, readAs_ctl rs tgt b hlow, D.ctl, D.ram]
  case ram => rw [E.ram, readAs_ram rs b hlow, D.ram]
  case pulses => rw [E.pulses, readAs_count, D.pulses]

/-- Settles O35: `ReadData` from the lines that `CLRC M_E` leaves; the second of its reads finds the byte the first one
latched. -/
theorem rddReturnsTheByteAtThePosition : Obligations.RddReturnsTheByteAtThePosition := by
  intro s tgt hs
  obtain ⟨hund, hrst⟩ := hs
  have q := Quiet.of_undisturbed hund
  have hlow : s.lowered.rst = true := (lowered_rst s).trans hrst
  obtain ⟨u, hu, D, -⟩ := exec_clrc_lowered q
  obtain ⟨b1, b2, t, hval, hgo, R, hv⟩ := go_readData (quiet_accept (.rdd tgt) q) tgt hrst
  rw [accept_lowered, accept_cfg] at hval hv
  have hresult : t.loc.rbv = b2 := (congrArg View.rbv hv).trans (readAs_rbv ..)
  have E := displays_complete ((resulted_view t).trans hv)
  refine ⟨u, complete t.resulted, hu, exec_of_runGo (runGo_setResult hgo), R.endsWith, fun c hc => ?result,
    linesAfter_of_readAs hv ((readAs_rst ..).trans (lowered_rst s)) ((readAs_reserved ..).trans (lowered_reserved s)),
    (congrArg View.dir hv).trans (readAs_dir ..), ?dout,
    fun c => ?ctl, fun c page col => ?ram, R.trace.trans (Nat.add_assoc ..).symm, ?pulses⟩
  case result =>
    subst hc
    rw [D.ctl, D.ram]
    exact hresult.trans (readData_value hlow hval)
  case dout =>
    exact (congrArg View.dout hv).trans ((readAs_dout ..).trans ((readAs_dout ..).trans (lowered_dout s)))
  case ctl => rw [E.ctl, readAs_twice_ctl b1 b2 hlow, D.ctl, D.ram]
  case ram => rw [E.ram, readAs_ram true b2 ((readAs_rst ..).trans hlow), readAs_ram true b1 hlow, D.ram]
  case pulses => rw [E.pulses, readAs_count, readAs_count, D.pulses]; omega

end Sys2Proof.Machine
end

section
/-! PROOF of O36 to O38 (R168 to R172, R281, R287): WRB, WRC and WRD in a steady state, whatever the lines. All three end
in `WriteByte`; WRC and WRD come to it in write mode, with E low, and are one lemma (`exec_sends`) but for RS. -/

namespace Sys2Proof.Machine

variable {s t u : State} {v : View} {c : Config} {i : Instr} {tgt : Target} {x : Byte} {b : Byte × Byte} {rs : Bool}
  {n : Nat}

/-! ## What `WriteByte` leaves -/

/-- `WriteByte` deselects both controllers, and its waits, if it makes any, leave the bus in read mode (R168). -/
theorem linesAfter_of_writtenAs {rw : Bool} (h : t.view = v.writtenAs c tgt x b)
    (hrs : (if tgt = .none then v.rs else false) = rs) (hrw : (if tgt = .none then v.rw else true) = rw)
    (he : v.e = false) (hrst : v.rst = s.flagRST) (hres : v.reserved = s.reservedBits) :
    linesAfter s (complete t) .none rs rw false :=
  linesAfter_of_view h (written_cs1 ..) (written_cs2 ..) ((written_rs ..).trans hrs) ((written_rw ..).trans hrw)
    ((written_e ..).trans he) ((written_rst ..).trans hrst) ((written_reserved ..).trans hres)

/-- Where a controller was written to, its wait has turned the bus back to OUTPUT (R153, R168). -/
theorem writtenAs_dir : (v.writtenAs c tgt x b).dir = if tgt = .none then v.dir else .output := by cases tgt <;> rfl

theorem writtenAs_pulses_suffix : v.pulses <:+ (v.writtenAs c tgt x b).pulses := by
  rw [written_pulses]
  exact ((List.suffix_cons ..).trans (List.suffix_append ..)).trans (List.suffix_cons ..)

/-- The byte a controller finds on the bus is the engine's where the engine drives it (R58). -/
theorem byteTo_of_output {d : Dir} (h : d = .output → b = (x, x)) (ho : d = .output) (k : Ctl) : byteTo b k = x := by
  rw [h ho, byteTo_same]

/-- Settles O36: `WriteByte` from the lines as they stand; an E that is high falls with its first pulse. -/
theorem wrbPulsesWithTheLinesAsTheyStand : Obligations.WrbPulsesWithTheLinesAsTheyStand := by
  intro s x tgt hs
  obtain ⟨hund, hrst⟩ := hs
  have q := Quiet.of_undisturbed hund
  obtain ⟨b, t, hb, hgo, R, hv⟩ := go_writeByte (quiet_accept (.wrb x tgt) q) tgt (reach_setVal x) hrst
  have E := displays_complete hv
  have hctl : ∀ k, (s.view.withE false).ctl k = s.ctl k := fun k => by cases k <;> rfl
  have hram : ∀ k page col, (s.view.withE false).ram k page col = s.ramByte k page col := fun k page col => by
    cases k <;> rfl
  refine ⟨complete t, byteTo b, exec_of_runGo hgo, R.endsWith, byteTo_of_output hb,
    linesAfter_of_writtenAs hv rfl rfl rfl rfl rfl, (congrArg View.dir hv).trans writtenAs_dir, congrArg View.dout hv,
    R.result, fun k => ?ctl, fun k page col => ?ram, R.trace.trans (Nat.add_assoc ..).symm, ?pulses⟩
  case ctl =>
    rw [E.ctl, afterPulse_eq, ← hctl, ← hram]
    exact writtenAs_ctl tgt x b hrst k
  case ram =>
    rw [E.ram, ← hctl, ← hram]
    refine (writtenAs_ram tgt x b hrst k page col).trans (if_congr ?_ rfl rfl)
    exact (and_congr_left' (kind_dataWrite s)).trans (by tauto)
  case pulses => exact (congrArg List.length E.pulses).trans (written_count ..)

/-! ## A byte sent in write mode -/

/-- The new pulse events that act, where the whole record is known (R38, R58). -/
theorem acting_newPulses_eq {l : List Pulse} (hs : u.pulses <:+ t.pulses) (h : acting t.pulses = l ++ acting u.pulses) :
    acting (newPulses u t) = l := by
  rw [newPulses_append hs, acting_append] at h
  exact List.append_cancel_right h

/-- The view in write mode, RS as given (R170, R171). -/
def View.writeMode (v : View) (rs : Bool) : View := (v.withRs rs).withRw false

theorem writeMode_ctl (v : View) (rs : Bool) (k : Ctl) : (v.writeMode rs).ctl k = v.ctl k := by cases k <;> rfl

theorem writeMode_ram (v : View) (rs : Bool) (k : Ctl) (page : BitVec 3) (col : BitVec 6) :
    (v.writeMode rs).ram k page col = v.ram k page col := by cases k <;> rfl

theorem writeMode_kind (v : View) (rs : Bool) : (v.writeMode rs).kind = if rs then .dataWrite else .commandWrite := by
  cases rs <;> rfl

/-- A byte sent in write mode is one pulse event that acts: the write to exactly the target (R170, R171). -/
theorem writeMode_acting (h : tgt ≠ .none) : acting ((v.writeMode rs).writtenAs c tgt x b).pulses =
    [⟨tgt.has1, tgt.has2, rs, false, v.rst, v.dir, x⟩] ++ acting v.pulses := by
  have hkind : ((v.writeMode rs).offering tgt x).pulse.kind ≠ .statusRead := by cases rs <;> nofun
  rw [written_acting h, acting_cons, if_neg hkind]
  rfl

/-- What operation i leaves in `t` that sends the byte `x` in write mode to the target, `u` being the state a `CLRC M_E`
of `s` leaves and `b` the byte each controller found on the bus (R168, R170, R171). -/
structure Sends (i : Instr) (rs : Bool) (x : Byte) (tgt : Target) (n : Nat) (s u t : State) (b : Ctl → Byte) :
    Prop where
  ends : endsWith i s t
  driven : s.dir = .output → ∀ k, b k = x
  lines : linesAfter s t .none (rs && decide (tgt = .none)) (decide (tgt ≠ .none)) false
  dir : t.dir = if tgt = .none then s.dir else .output
  dout : t.dout = 0x00
  result : t.result = s.result
  ctl : ∀ k, t.ctl k = if tgt.has k then pulsedCtl s.cfg (if rs then .dataWrite else .commandWrite) (b k)
    (u.ramByte k (u.ctl k).xp (u.ctl k).ya) (u.ctl k) else u.ctl k
  ram : ∀ k page col, t.ramByte k page col =
    if rs = true ∧ tgt.has k = true ∧ page = (u.ctl k).xp ∧ col = (u.ctl k).ya then b k else u.ramByte k page col
  acting : tgt ≠ .none → acting (newPulses u t) = [⟨tgt.has1, tgt.has2, rs, false, true, s.dir, x⟩]
  trace : t.trace.length = s.trace.length + n + 12 * tgt.count
  pulses : t.pulses.length = u.pulses.length + 2 + tgt.count

/-- An operation whose sequence is a `WriteByte` in write mode from the lines that `CLRC M_E` leaves. -/
theorem exec_sends (q : Quiet s) (hrst : s.flagRST = true) (hb : s.dir = .output → b = (x, x))
    (hgo : runGo (progOf s.cfg i) (accept i s) = some t) (R : Ran (accept i s) t (n + 12 * tgt.count))
    (hv : t.view = ((accept i s).lowered.writeMode rs).writtenAs s.cfg tgt x b) :
    ∃ u, exec (.clrc s.cfg.mE) s = .next u ∧ exec i s = .next (complete t) ∧
      Sends i rs x tgt n s u (complete t) (byteTo b) := by
  have hlow : (s.lowered.writeMode rs).rst = true := (lowered_rst s).trans hrst
  obtain ⟨u, hu, D, -⟩ := exec_clrc_lowered q
  rw [accept_lowered] at hv
  have E := displays_complete hv
  refine ⟨u, hu, exec_of_runGo hgo, R.endsWith, byteTo_of_output hb,
    linesAfter_of_writtenAs hv ?rs ?rw (lowered_e s) (lowered_rst s) (lowered_reserved s), ?dir, congrArg View.dout hv,
    R.result, fun k => ?ctl, fun k page col => ?ram, fun hne => ?acting, R.trace.trans (Nat.add_assoc ..).symm, ?pulses⟩
  case rs => cases tgt <;> cases rs <;> rfl
  case rw => cases tgt <;> rfl
  case dir => rw [← lowered_dir s]; exact (congrArg View.dir hv).trans writtenAs_dir
  case ctl => rw [E.ctl, writtenAs_ctl tgt x b hlow, writeMode_kind, writeMode_ctl, writeMode_ram, D.ctl, D.ram]
  case ram =>
    rw [E.ram, writtenAs_ram tgt x b hlow, writeMode_kind, writeMode_ctl, writeMode_ram, D.ctl, D.ram]
    cases rs <;> simp
  case acting =>
    refine acting_newPulses_eq ?_ ?_
    · rw [D.pulses, E.pulses]; exact writtenAs_pulses_suffix (v := s.lowered.writeMode rs)
    · rw [D.pulses, E.pulses, writeMode_acting hne, lowered_rst, hrst, lowered_dir]
  case pulses => rw [E.pulses, written_count, D.pulses]; rfl

/-- Settles O37: the byte is sent in write mode with RS low. -/
theorem wrcSendsTheCommandToItsTarget : Obligations.WrcSendsTheCommandToItsTarget := by
  intro s x tgt hs
  obtain ⟨hund, hrst⟩ := hs
  have q := Quiet.of_undisturbed hund
  obtain ⟨b, t, hb, hgo, R, hv⟩ := go_writeCommand (quiet_accept (.wrc x tgt) q) tgt x hrst
  obtain ⟨u, hu, ht, W⟩ := exec_sends (i := .wrc x tgt) (rs := false) q hrst hb hgo R hv
  have hram : sameRam u (complete t) := fun k page col => (W.ram k page col).trans (if_neg (by simp))
  exact ⟨u, complete t, byteTo b, hu, ht, W.ends, W.driven, W.lines, W.dir, W.dout, W.result, W.ctl, hram, W.acting,
    W.trace, W.pulses⟩

/-- Settles O38: the byte is sent in write mode with RS high. -/
theorem wrdStoresAtThePosition : Obligations.WrdStoresAtThePosition := by
  intro s x tgt hs
  obtain ⟨hund, hrst⟩ := hs
  have q := Quiet.of_undisturbed hund
  obtain ⟨b, t, hb, hgo, R, hv⟩ := go_writeData (quiet_accept (.wrd x tgt) q) tgt x hrst
  obtain ⟨u, hu, ht, W⟩ := exec_sends (i := .wrd x tgt) (rs := true) q hrst hb hgo R hv
  have hram := W.ram
  simp only [true_and] at hram
  exact ⟨u, complete t, byteTo b, hu, ht, W.ends, W.driven, W.lines, W.dir, W.dout, W.result, W.ctl, hram, W.acting,
    W.trace, W.pulses⟩

end Sys2Proof.Machine
end

section
/-! PROOF of O39 (R63, R150, R152, R153, R172): an operation with controllers that take their time, beside the same
operation with controllers ready at once. From the acceptance on the two runs are alike (`Alike`), and stay so but for the extra
polls. -/

namespace Sys2Proof.Machine

variable {s t u : State} {i : Instr} {k : Nat} {q : Same}

/-- The two runs start alike: nothing of the environment has been used yet (R37, R280). -/
theorem alike_accept (i : Instr) (hf : s.protoFault = none) (hr : s.allReady = true) :
    Alike ⟨true, true, true⟩ 0 (accept i { s with env := [] }) (accept i s) := by
  simp only [State.allReady, Bool.and_eq_true, Bool.not_eq_true'] at hr
  have hctl : ∀ j, (accept i s).ctl j = (accept i { s with env := [] }).ctl j := fun j => by cases j <;> rfl
  constructor
  case ctl => intro j; rw [hctl]
  case ready => intro j; cases j; exacts [hr.1, hr.2]
  case ram => intro j page col; cases j <;> rfl
  case fault => exact hf
  case busy => exact accept_idle i _
  case smp | rbv | result | draws => exact fun _ => rfl
  all_goals rfl

theorem going_accept (i : Instr) (w : s.cfg.wf = true) (hf : s.protoFault = none) (hn : s.noReset = true) :
    Going (accept i s).watch (accept i s) := ⟨Follows.of_watch _, hf, hn, w, rfl⟩

/-- An operation whose RESULT is not open reads a single controller, if it reads at all (R166, R167). -/
theorem reads_single (h : resultOpen i = false) :
    (∀ tgt rs, i = .rdb tgt rs → rs = true ∧ ∃ k : Ctl, tgt = k.target) ∧
      ∀ tgt, i = .rdd tgt → ∃ k : Ctl, tgt = k.target := by
  have single : ∀ tgt : Target, tgt ≠ .none → tgt ≠ .both → ∃ k : Ctl, tgt = k.target := by
    intro tgt h1 h2
    cases tgt
    case none => exact absurd rfl h1
    case cs1 => exact ⟨.one, rfl⟩
    case cs2 => exact ⟨.two, rfl⟩
    case both => exact absurd rfl h2
  constructor
  · rintro tgt rs rfl
    simp only [resultOpen, Bool.or_eq_false_iff, Bool.not_eq_false', beq_eq_false_iff_ne] at h
    obtain ⟨⟨hrs, hnone⟩, hboth⟩ := h
    exact ⟨hrs, single tgt hnone hboth⟩
  · rintro tgt rfl
    simp only [resultOpen, Bool.or_eq_false_iff, beq_eq_false_iff_ne] at h
    exact single tgt h.1 h.2

/-- The slow run of an operation ends as the prompt one does, `k` polls later, with RESULT the same where it is not open
(R172). -/
theorem over_ended (w : s.cfg.wf = true) (hf : s.protoFault = none) (hn : s.noReset = true) (hk : s.ramKept = true)
    (hr : s.allReady = true) (hd : s.atRest) (hm : hostMask i = false)
    (hi : if i = .init then ∀ c, (s.env.getD 4 {}).busyOf c = false else s.flagRST = true)
    (hu : exec i { s with env := [] } = .next u) (hui : u.idle = true) (ho : overAfter i k s t)
    (hl : s.cfg.pollLimit = none ∨ (u.unresp = false ∧ t.unresp = false)) :
    ∃ q, Ended q k u t ∧ (resultOpen i = false → q.result = true) := by
  obtain ⟨hj, ht, hti⟩ := overAfter_iff.mp ho
  rw [exec_prog] at hu
  obtain rfl : runSeq (progOf s.cfg i) (accept i { s with env := [] }) = u := Host.Outcome.next.inj hu
  have A := alike_accept i hf hr
  by_cases hinit : i = .init
  · subst hinit
    obtain ⟨q, hq, E⟩ := init_over A w hf hn hd hr hk (by simpa using hi) hui hl hj ht hti
    exact ⟨q, E, fun _ => hq⟩
  · rw [if_neg hinit] at hi
    have hset : ∀ m, i ≠ .setc m := by rintro m rfl; cases hm
    have hclr : ∀ m, i ≠ .clrc m := by rintro m rfl; cases hm
    obtain ⟨w', q, htrack, h1, h2, hq, hres⟩ :=
      prog_track (w := (accept i s).watch) w hinit hset hclr (watch_settled hd hr) hi
    have E := run_over A (going_accept i w hf hn) htrack h1 h2 hq hui hl hj ht hti
    rw [Nat.zero_add] at E
    exact ⟨q, E, fun h => hres (reads_single h)⟩

/-- An operation only adds to the record of pulse events (R38). -/
theorem exec_pulses_suffix (h : exec i s = .next u) : s.pulses <:+ u.pulses := by
  rw [exec_prog] at h
  obtain rfl := Host.Outcome.next.inj h
  exact runSeq_pulses _ (accept i s)

theorem overAfter_pulses_suffix (h : overAfter i k s t) : s.pulses <:+ t.pulses := by
  obtain ⟨u, hu, hj, ht, -⟩ := h
  exact (exec_pulses_suffix hu).trans (run_pulses hj ht)

/-- No controller is left busy in either run, so both leave the same hidden state. -/
theorem ctl_of_alike {a b : State} {w : Watch} (A : Alike q k a b) (G : Going w b) (h1 : w.busy1 = false)
    (h2 : w.busy2 = false) (j : Ctl) : b.ctl j = a.ctl j := by
  have hb : (b.ctl j).busy = false := by
    cases j
    · exact Bool.eq_false_iff.mpr fun h => by simpa [h1] using G.follows.busy1 h
    · exact Bool.eq_false_iff.mpr fun h => by simpa [h2] using G.follows.busy2 h
  rw [A.ctl j, hb, ← A.ready j]

/-- Settles O39: both runs end alike. -/
theorem extraPollsChangeNothingElse : Obligations.ExtraPollsChangeNothingElse := by
  intro i k s t u w hf hn hk hr hd hm hi hu hui ho hl
  obtain ⟨q, ⟨a, b, x, rfl, rfl, A, G, h1, h2⟩, hres⟩ :=
    over_ended w hf hn hk hr hd hm hi hu hui ho (hl.imp_right And.right)
  have hctl := ctl_of_alike A G h1 h2
  refine ⟨G.fault, congrArg statusIdle A.status, rfl, A.req, A.cfg, A.host, A.ctrl, A.dout, A.dir,
    fun h => A.result (hres h), fun j => ?ctl, fun j page col => ?ram,
    acting_newPulses (overAfter_pulses_suffix ho) (exec_pulses_suffix (s := { s with env := [] }) hu) A.acting,
    A.trace, A.pulses⟩
  case ctl => rw [ctl_complete, ctl_complete, hctl]
  case ram => rw [ram_complete, ram_complete, A.ram]

end Sys2Proof.Machine
end

section
/-! PROOF of O43 and O44 (R53, R202, R203): where a pixel lies in display memory, and what its mask and its two command
bytes are. -/

namespace Sys2Proof.Machine

variable {c : Config} {k : Ctl} {col : BitVec 6} {page : BitVec 3} {x y bit i : Nat}

/-! ## The pixel of a display bit (R53, R203) -/

theorem pixCtl_eq (x : Nat) : pixCtl x = if x ≤ 64 then .one else .two := rfl

theorem pixCol_eq (x : Nat) : pixCol x = BitVec.ofNat 6 (if x ≤ 64 then x - 1 else x - 65) :=
  (apply_ite (BitVec.ofNat 6) ..).symm

theorem pixCol_toNat (h : x ≤ 128) : (pixCol x).toNat = if x ≤ 64 then x - 1 else x - 65 := by
  rw [pixCol_eq, BitVec.toNat_ofNat, Nat.mod_eq_of_lt]
  split <;> omega

theorem pixPage_toNat (h : y ≤ 64) : (pixPage y).toNat = (y - 1) / 8 := by
  rw [pixPage, BitVec.toNat_ofNat, Nat.mod_eq_of_lt]
  omega

/-- The x of the pixels in a column of a controller (R203, solved for x). -/
def pixelX : Ctl → BitVec 6 → Nat
  | .one, col => col.toNat + 1
  | .two, col => col.toNat + 65

/-- The y of the pixels at a bit of a page (R202, solved for y). -/
def pixelY (page : BitVec 3) (bit : Nat) : Nat := page.toNat * 8 + bit + 1

theorem pixelX_range (k : Ctl) (col : BitVec 6) : 1 ≤ pixelX k col ∧ pixelX k col ≤ 128 := by
  have := col.isLt
  cases k <;> simp only [pixelX] <;> omega

theorem pixelY_range (page : BitVec 3) (h : bit < 8) : 1 ≤ pixelY page bit ∧ pixelY page bit ≤ 64 := by
  have := page.isLt
  simp only [pixelY]
  omega

/-- One x lies in a given column of a given controller. -/
theorem pixCtl_pixCol_iff (h1 : 1 ≤ x) (h2 : x ≤ 128) : pixCtl x = k ∧ pixCol x = col ↔ x = pixelX k col := by
  have hcol := col.isLt
  rw [← BitVec.toNat_inj, pixCol_toNat h2, pixCtl_eq]
  by_cases hx : x ≤ 64
  case pos =>
    cases k with
    | one => simp only [hx, if_true, true_and, pixelX]; omega
    | two => simp only [hx, if_true, reduceCtorEq, false_and, false_iff, pixelX]; omega
  case neg =>
    cases k with
    | one => simp only [hx, if_false, reduceCtorEq, false_and, false_iff, pixelX]; omega
    | two => simp only [hx, if_false, true_and, pixelX]; omega

/-- One y lies at a given bit of a given page. -/
theorem pixPage_pixBit_iff (h1 : 1 ≤ y) (h2 : y ≤ 64) (hb : bit < 8) :
    pixPage y = page ∧ pixBit y = bit ↔ y = pixelY page bit := by
  rw [← BitVec.toNat_inj, pixPage_toNat h2, pixBit, pixelY]
  omega

/-- Settles O43: x and y are each given back by half of the display bit's address. -/
theorem pixelMapIsABijection : Obligations.PixelMapIsABijection := by
  refine ⟨fun x _ h2 => ⟨pixCtl_eq x, pixCol_toNat h2⟩, fun k page col bit hb => ?_⟩
  obtain ⟨x1, x2⟩ := pixelX_range k col
  obtain ⟨y1, y2⟩ := pixelY_range page hb
  obtain ⟨hctl, hcol⟩ := (pixCtl_pixCol_iff x1 x2).mpr rfl
  obtain ⟨hpage, hbit⟩ := (pixPage_pixBit_iff y1 y2 hb).mpr rfl
  exact ⟨pixelX k col, pixelY page bit, ⟨x1, x2, y1, y2, hctl, hpage, hcol, hbit⟩,
    fun x y hx1 hx2 hy1 hy2 hctl hpage hcol hbit =>
      ⟨(pixCtl_pixCol_iff hx1 hx2).mp ⟨hctl, hcol⟩, (pixPage_pixBit_iff hy1 hy2 hb).mp ⟨hpage, hbit⟩⟩⟩

/-! ## The mask and the combination (R202) -/

theorem pixBit_lt (y : Nat) : pixBit y < 8 := Nat.mod_lt _ (by decide)

theorem pixMask_true (y : Nat) : pixMask y true = BitVec.twoPow 8 (pixBit y) := (BitVec.twoPow_eq ..).symm

theorem pixMask_false (y : Nat) : pixMask y false = ~~~BitVec.twoPow 8 (pixBit y) := by rw [BitVec.twoPow_eq]; rfl

/-- The combination sets or clears the pixel's bit and keeps the others. -/
theorem pixCombine_bit (on : Bool) (b : Byte) (y : Nat) (h : i < 8) :
    (pixCombine on b (pixMask y on)).getLsbD i = if i = (y - 1) % 8 then on else b.getLsbD i := by
  have hbit : (BitVec.twoPow 8 (pixBit y)).getLsbD i = decide (i = (y - 1) % 8) := by
    rw [BitVec.getLsbD_twoPow, decide_eq_true (pixBit_lt y), Bool.true_and]
    exact decide_eq_decide.mpr eq_comm
  cases on
  case true =>
    rw [pixMask_true, pixCombine, if_pos rfl, BitVec.getLsbD_or, hbit]
    split <;> simp [*]
  case false =>
    rw [pixMask_false, pixCombine, if_neg nofun, BitVec.getLsbD_and, BitVec.getLsbD_not, hbit]
    split <;> simp [*]

/-! ## The command bytes (R6, R202) -/

/-- OR and addition agree where the base's operand bits are 0. -/
theorem toNat_or_operand {n : Nat} (hn : n ≤ 8) {b : Byte} (v : BitVec n) (h : b &&& v.setWidth 8 = 0) :
    (b ||| v.setWidth 8).toNat = b.toNat + v.toNat := by
  rw [← BitVec.add_eq_or_of_and_eq_zero _ _ h, BitVec.toNat_add_of_and_eq_zero h, BitVec.toNat_setWidth_of_le hn]

/-- What a mask cuts out of the base it cuts out of everything inside the mask. -/
theorem and_eq_zero_of_mask {b m v : Byte} (hb : b &&& m = 0) (hv : m &&& v = v) : b &&& v = 0 := by
  rw [← hv, ← BitVec.and_assoc, hb]; exact BitVec.zero_and

theorem setAddressCmd_toNat (w : c.wf = true) (col : BitVec 6) :
    (setAddressCmd c col).toNat = c.cmdSetAddress.toNat + col.toNat :=
  toNat_or_operand (by decide) col (and_eq_zero_of_mask (wf_setAddress w) (by revert col; decide))

theorem setPageCmd_toNat (w : c.wf = true) (page : BitVec 3) :
    (setPageCmd c page).toNat = c.cmdSetPage.toNat + page.toNat :=
  toNat_or_operand (by decide) page (and_eq_zero_of_mask (wf_setPage w) (by revert page; decide))

/-- Settles O44: the mask is a power of two or its complement, and the bases' operand bits are 0. -/
theorem pixelArithmeticIsExact : Obligations.PixelArithmeticIsExact := by
  have hpow : ∀ y, (BitVec.twoPow 8 (pixBit y)).toNat = 2 ^ ((y - 1) % 8) := fun y =>
    BitVec.toNat_twoPow_of_lt (pixBit_lt y)
  refine ⟨fun y _ h2 => ⟨pixPage_toNat h2, ?set, ?clear⟩, fun on b y i _ _ h => pixCombine_bit on b y h,
    fun c col page w => ⟨setAddressCmd_toNat w col, setPageCmd_toNat w page⟩⟩
  case set => rw [pixMask_true, hpow]
  case clear => rw [pixMask_false, BitVec.toNat_not, hpow]

end Sys2Proof.Machine
end

section
/-! PROOF of O40 to O42 (R200 to R206, R242): PIX outside the display is an empty sequence, and inside it the sequence
that `go_pixel` follows, which leaves the machine at rest and so ready for the next PIX. -/

namespace Sys2Proof.Machine

variable {s t : State} {x y i : Nat} {on : Bool}

/-! ## Outside the display (R201, R242) -/

theorem pixInRange_iff : pixInRange x y = true ↔ 1 ≤ x ∧ x ≤ 128 ∧ 1 ≤ y ∧ y ≤ 64 := by
  simp only [pixInRange, Bool.and_eq_true, decide_eq_true_eq, and_assoc]
  rfl

theorem progOf_pix (c : Config) (x y : Nat) (on : Bool) :
    progOf c (.pix x y on) = if pixInRange x y then pixelSeq c x y on else [] := rfl

/-- Settles O40: the sequence is empty, so acceptance is followed by completion. -/
theorem outOfRangePixelIsIgnored : Obligations.OutOfRangePixelIsIgnored := by
  intro s x y on h
  have hout : ¬ pixInRange x y = true := by rw [pixInRange_iff]; omega
  have hgo : runGo (progOf s.cfg (.pix x y on)) (accept (.pix x y on) s) = some (accept (.pix x y on) s) := by
    rw [progOf_pix, if_neg hout]; rfl
  rw [exec_of_runGo hgo, complete, accept_status, statusIdle_busy]
  rfl

/-! ## Inside the display (R200, R204, R205) -/

/-- PIX of a pixel of the display completes, from a steady state at rest. -/
theorem exec_pix (hs : s.steady) (ha : s.atRest) (hr : s.cfg.refDecodes = true) (hin : pixInRange x y = true)
    (on : Bool) : ∃ t, exec (.pix x y on) s = .next (complete t) ∧ Ran (accept (.pix x y on) s) t 155 ∧
      PixEnd s.cfg s.view t.view x y on := by
  obtain ⟨hund, hrst⟩ := hs
  obtain ⟨hdir, he⟩ := ha
  obtain ⟨t, hgo, R, P⟩ := go_pixel (quiet_accept (.pix x y on) (Quiet.of_undisturbed hund)) hr x y on he hrst hdir
  refine ⟨t, exec_of_runGo ?_, R, P⟩
  rw [progOf_pix, if_pos hin]
  exact hgo

theorem undisturbed_complete (q : Quiet t) : (complete t).undisturbed :=
  ⟨q.wf, q.fault, q.calm, by rw [State.allReady, complete_c1, complete_c2, q.ready1, q.ready2]; rfl⟩

/-- An operation that ends in the rest view ends steady and at rest (R280). -/
theorem steady_atRest_complete (q : Quiet t) (h : t.view.Rest) : (complete t).steady ∧ (complete t).atRest :=
  ⟨⟨undisturbed_complete q, h.rst⟩, h.dir, h.e⟩

theorem target_has1 (k : Ctl) : k.target.has1 = decide (k = .one) := by cases k <;> rfl
theorem target_has2 (k : Ctl) : k.target.has2 = decide (k = .two) := by cases k <;> rfl

/-- Display memory after PIX: the byte of the pixel is the combination, the others are as they were (R205). -/
theorem PixEnd.ramByte {c : Config} (P : PixEnd c s.view t.view x y on) (k : Ctl) (page : BitVec 3) (col : BitVec 6) :
    (complete t).ramByte k page col = if k = pixCtl x ∧ page = pixPage y ∧ col = pixCol x then
      pixCombine on (s.ramByte (pixCtl x) (pixPage y) (pixCol x)) (pixMask y on) else s.ramByte k page col := by
  rw [ram_complete, ← view_ram, P.ram, view_ram, view_ram]

/-- The byte of the pixel after PIX, bit by bit (R205). -/
theorem PixEnd.pixel_bit {c : Config} (P : PixEnd c s.view t.view x y on) (h : i < 8) :
    ((complete t).ramByte (pixCtl x) (pixPage y) (pixCol x)).getLsbD i =
      if i = (y - 1) % 8 then on else (s.ramByte (pixCtl x) (pixPage y) (pixCol x)).getLsbD i := by
  rw [P.ramByte, if_pos (by exact ⟨rfl, rfl, rfl⟩), pixCombine_bit on _ y h]

/-- Settles O41: the fields of the view that `go_pixel` ends in, and what its combination does to the byte. -/
theorem pixChangesExactlyItsBit : Obligations.PixChangesExactlyItsBit := by
  intro s x y on hs ha hr hx1 hx2 hy1 hy2 k col page
  have hk : k = pixCtl x := rfl
  have hcol : col = pixCol x := (pixCol_eq x).symm
  have hpage : page = pixPage y := rfl
  clear_value k col page
  subst hk hcol hpage
  obtain ⟨t, ht, R, P⟩ := exec_pix hs ha hr (pixInRange_iff.mpr ⟨hx1, hx2, hy1, hy2⟩) on
  have E := displays_complete (t := t) rfl
  refine ⟨complete t, pixCombine on (s.ramByte (pixCtl x) (pixPage y) (pixCol x)) (pixMask y on), ht, R.endsWith,
    fun i hi => pixCombine_bit on _ y hi, P.ramByte, fun k hk => (E.ctl k).trans (P.other k hk),
    ?ctl, ?lines, P.rest.dir, P.rest.dout, R.result, R.trace, (congrArg List.length E.pulses).trans P.pulses, ?acting⟩
  case ctl => rw [E.ctl, P.ctl, view_ram]; rfl
  case lines =>
    exact linesAfter_of_view rfl P.rest.cs1 P.rest.cs2 P.rest.rs P.rest.rw P.rest.e
      (P.rest.rst.trans hs.2.symm) P.reserved
  case acting =>
    refine acting_newPulses_eq (exec_pulses_suffix ht) (P.acting.trans ?_)
    rw [view_ram, pixelPulses, target_has1, target_has2]
    rfl

/-! ## Setting and then clearing (R205) -/

/-- Two bytes that agree in every bit but one, where both have 0, are equal. -/
theorem eq_of_bit_cleared {a b : Byte} {n : Nat}
    (h : ∀ i, i < 8 → a.getLsbD i = if i = n then false else b.getLsbD i) (hb : b.getLsbD n = false) : a = b := by
  refine BitVec.eq_of_getLsbD_eq fun i hi => (h i hi).trans ?_
  split
  next hn => rw [hn, hb]
  next => rfl

/-- Settles O42: the second PIX starts steady and at rest, where the first one ended, and acts on the same bit. -/
theorem setThenClearRestoresTheByte : Obligations.SetThenClearRestoresTheByte := by
  intro s t u x y hs ha hr hx1 hx2 hy1 hy2 ht hu
  have hin := pixInRange_iff.mpr ⟨hx1, hx2, hy1, hy2⟩
  obtain ⟨t', ht', R, P⟩ := exec_pix hs ha hr hin true
  obtain rfl := Host.Outcome.next.inj (ht'.symm.trans ht)
  obtain ⟨hs', ha'⟩ := steady_atRest_complete R.quiet P.rest
  obtain ⟨u', hu', -, P'⟩ := exec_pix hs' ha' ((congrArg Config.refDecodes R.cfg).trans hr) hin false
  obtain rfl := Host.Outcome.next.inj (hu'.symm.trans hu)
  have hbyte : ∀ i, i < 8 → ((complete u').ramByte (pixCtl x) (pixPage y) (pixCol x)).getLsbD i =
      if i = (y - 1) % 8 then false else (s.ramByte (pixCtl x) (pixPage y) (pixCol x)).getLsbD i :=
    fun i hi => (P'.pixel_bit hi).trans (ite_congr rfl (fun _ => rfl) fun hne => (P.pixel_bit hi).trans (if_neg hne))
  have hother : ∀ k p l, ¬ (k = pixCtl x ∧ p = pixPage y ∧ l = pixCol x) →
      (complete u').ramByte k p l = s.ramByte k p l := by
    intro k p l h
    rw [P'.ramByte, if_neg h, P.ramByte, if_neg h]
  refine ⟨hbyte, hother, fun hclear k p l => ?_⟩
  by_cases h : k = pixCtl x ∧ p = pixPage y ∧ l = pixCol x
  · obtain ⟨rfl, rfl, rfl⟩ := h
    exact eq_of_bit_cleared hbyte hclear
  · exact hother k p l h

end Sys2Proof.Machine
end

section
/-! PROOF of O45 and O46 (R172, R220, R221, R287): CLR is the sequence that `reach_clearScreen` follows, and INIT the
one that `go_init` follows; both end in the rest view. -/

namespace Sys2Proof.Machine

variable {s t : State}

/-- An operation that ends in the rest view leaves the lines of a data write (R168, R280). -/
theorem View.Rest.linesAfter (h : t.view.Rest) (hrst : s.flagRST = true) (hres : t.view.reserved = s.reservedBits) :
    linesAfter s (complete t) .none false true false :=
  linesAfter_of_view rfl h.cs1 h.cs2 h.rs h.rw h.e (h.rst.trans hrst.symm) hres

/-! ## CLR (R220) -/

/-- Settles O45: the view that the eight pages of `reach_clearScreen` leave. -/
theorem clrZeroesTheDisplay : Obligations.ClrZeroesTheDisplay := by
  intro s hs ha hr
  obtain ⟨hund, hrst⟩ := hs
  obtain ⟨hdir, he⟩ := ha
  have q := quiet_accept .clr (Quiet.of_undisturbed hund)
  obtain ⟨v, hreach, hrest, hreserved, hpulses, hacting, hctl, hram⟩ :=
    reach_clearScreen (v := (accept .clr s).view) q.wf hr ⟨he, hrst, hdir⟩
  obtain ⟨t, hgo, R, rfl⟩ := hreach _ q rfl rfl
  have E := displays_complete (t := t) rfl
  have ht : exec .clr s = .next (complete t) := exec_of_runGo hgo
  refine ⟨complete t, ht, R.endsWith, fun k page col => (E.ram k page col).trans (hram k page col), fun k => ?ctl,
    hrest.linesAfter hrst hreserved, hrest.dir, hrest.dout, R.result, R.trace, hpulses, ?acting⟩
  case ctl => rw [E.ctl, hctl]; cases k <;> rfl
  case acting => exact acting_newPulses_eq (exec_pulses_suffix ht) hacting

/-! ## INIT (R221) -/

/-- The command for column 0 is its base (R6). -/
theorem setAddressCmd_zero (c : Config) : setAddressCmd c 0 = c.cmdSetAddress := BitVec.or_zero

/-- The command for page 0 is its base (R6). -/
theorem setPageCmd_zero (c : Config) : setPageCmd c 0 = c.cmdSetPage := BitVec.or_zero

/-- The command for start line 0 is its base (R6). -/
theorem startLineCmd_zero (c : Config) : c.cmdStartLine ||| 0 = c.cmdStartLine := BitVec.or_zero

/-- The pulse event of `s` stores a byte in controller k: a data write that reaches it out of reset (R61, R72). -/
theorem stores_iff (s : State) (k : Ctl) : (s.selected k && s.flagRS && !s.flagRW && s.flagRST) = true ↔
    s.view.kind = .dataWrite ∧ (s.view.selects k && s.flagRST) = true := by
  have hkind : s.view.kind = .dataWrite ↔ s.flagRS = true ∧ s.flagRW = false := kind_dataWrite s
  have hselects : s.view.selects k = s.selected k := by cases k <;> rfl
  rw [hkind, hselects]
  simp only [Bool.and_eq_true, Bool.not_eq_true']
  tauto

theorem Quiet.ready (q : Quiet s) (k : Ctl) : (s.ctl k).busy = false := by
  cases k
  · exact q.ready1
  · exact q.ready2

/-- Settles O46: the state that `go_init` leaves, its entry pulse written as the statement has it. -/
theorem initReachesItsEndState : Obligations.InitReachesItsEndState := by
  intro s hund hr hkept
  obtain ⟨t, hgo, R, hrest, hreserved, hpulses, hacting, hctl, hentry⟩ :=
    go_init (quiet_accept .init (Quiet.of_undisturbed hund)) hr
  obtain ⟨b, hb, hram⟩ := hentry hkept
  have ht : exec .init s = .next (complete t) := exec_of_runGo hgo
  refine ⟨complete t, ht, R.endsWith, hrest.cs1, hrest.cs2, hrest.rst, hrest.rs, hrest.rw, hrest.e, hreserved,
    hrest.dout, hrest.dir, R.result, fun k => ?ctl, ⟨byteTo b, byteTo_of_output hb, fun k page col => ?ram⟩, R.trace,
    hpulses, ?acting⟩
  case ctl =>
    rw [ctl_complete]
    obtain ⟨hxp, hya, hzl, hdon⟩ := hctl k
    exact ⟨hxp, hya, hzl, hdon, R.quiet.ready k⟩
  case ram =>
    rw [ram_complete, hram, ctl_accept, ram_accept]
    exact if_congr (and_assoc.symm.trans (and_congr_left' (stores_iff s k).symm)) rfl rfl
  case acting =>
    refine acting_newPulses_eq (exec_pulses_suffix ht) (hacting.trans ?_)
    rw [setPageCmd_zero, setAddressCmd_zero, startLineCmd_zero, List.append_assoc]
    exact congrArg _ (acting_append [s.pulseRecord] s.pulses)

end Sys2Proof.Machine
end

section
/-! PROOF of O9, O31 and O32 (R154, R155, R241, R243, R244): the exceptions of the engine. An illegal word only sets
ERR; the POLL_LIMIT-th busy poll ends the operation with UNRESP; without a POLL_LIMIT a stuck controller is polled for
ever. -/

namespace Sys2Proof.Machine

variable {s t u : State} {rest : List Micro} {w : Word24} {v : Byte}

/-! ## An illegal request (R101, R241) -/

/-- A word that R101 calls illegal is refused. -/
theorem decodeRequest_of_illegalWord {expose : Bool} (h : illegalWord expose w) :
    ∃ e, decodeRequest expose w = .error e := by
  obtain ⟨hlegal, -⟩ := decodeProcedureOfTheSpec expose w
  cases hd : decodeRequest expose w with
  | error e => exact ⟨e, rfl⟩
  | ok i => exact absurd h (hlegal.1 ⟨i, hd⟩)

/-- The idle engine answers an illegal word with IllegalRequest and starts nothing. -/
theorem idleStep_illegalWord {start : Instr → State → Host.Outcome State Fault Refusal} {rest : List HostMove}
    (hh : s.host = .issue w :: rest) (hw : illegalWord s.cfg.exposeInternal w) :
    idleStep start s = .next (raiseIllegalRequest { s with host := rest }) := by
  obtain ⟨e, he⟩ := decodeRequest_of_illegalWord hw
  simp only [idleStep, hh, issue, he]

/-- Settles O9: `idleStep_illegalWord`, and the flags that `raiseIllegalRequest` leaves. -/
theorem illegalRequestOnlySetsErr : Obligations.IllegalRequestOnlySetsErr := by
  intro s w rest hf hi hh hw
  obtain ⟨herr, hun, huw, hidle, -⟩ := raiseIllegalRequest_flags { s with host := rest }
  exact ⟨_, (step_idle hi hf).trans (idleStep_illegalWord hh hw), rfl, herr, hidle.trans hi, hun, huw⟩

/-! ## The wait without a limit (R154, R244) -/

/-- Settles O31: `StuckWait.run`, where no number of polls reaches a limit. -/
theorem stuckControllerHangsTheEngine : Obligations.StuckControllerHangsTheEngine := by
  intro s rest c n hc hl hs hw hb
  have h : StuckWait rest c s := ⟨hc, hs, hw, hb⟩
  obtain ⟨t, ht, W⟩ := h.run (j := n) fun m hm => by simp [hl] at hm
  exact ⟨t, ht, W.wait.waiting, W.wait.faces, W.kept.status, W.pulses, W.trace, W.kept.ram⟩

/-! ## The last poll allowed (R155, R243) -/

/-- UWHO receives the chip-selects the first time, and only then (R243). -/
theorem raiseUnresponsive_uwho (s : State) : (raiseUnresponsive s).uwho =
    if s.unresp then s.uwho else BitVec.ofBool s.flagCS2 ++ BitVec.ofBool s.flagCS1 := by
  cases hu : s.unresp with
  | true =>
    obtain ⟨-, -, hkept, -⟩ := raiseUnresponsive_flags s
    exact hkept hu
  | false =>
    have hfirst : ¬ s.status.getLsbD 2 = true := Bool.eq_false_iff.1 hu
    rw [State.uwho, raiseUnresponsive_status, statusUnresp, if_neg hfirst]
    cases s.flagCS1 <;> cases s.flagCS2 <;> simp [statusIdle, BitVec.extractLsb'_or, BitVec.extractLsb'_and]

/-- The hidden state of the controllers is not the engine's to change (R243). -/
theorem raiseUnresponsive_ctl (s : State) (k : Ctl) : (raiseUnresponsive s).ctl k = s.ctl k := by cases k <;> rfl

/-- Settles O32: the poll is `step_poll`; where it shows busy the exception follows `SetDir(OUTPUT)`, and what `Kept`
says is kept through all of it. -/
theorem lastBusyPollFails : Obligations.LastBusyPollFails := by
  intro s rest hc hn hw hl
  obtain ⟨u, v, P, hready, -, hfail⟩ := step_poll hc hn hw
  have hshows : ∀ c, s.facesBusy c → s.stuck c = true → showsBusy s.cfg.busyMask v = true := by
    intro c ⟨hsel, hrst, hbusy⟩ hs
    obtain ⟨-, hstuck⟩ := P.shows c hsel hrst
    exact (hstuck hs).trans hbusy
  cases hv : showsBusy s.cfg.busyMask v with
  | false =>
    refine ⟨runSeq rest u, v, hready hv, P.trace ▸ runSeq_trace rest u, hshows, fun h => ?_⟩
    exact absurd (hv.symm.trans h) Bool.false_ne_true
  | true =>
    obtain ⟨t, D, hx⟩ := hfail hv hl
    have K := P.kept.trans D.kept
    have hctrl : t.ctrl = s.ctrl := D.ctrl.trans P.ctrl
    have htrace : t.trace = .setDir .output :: ((pollPrims s.cfg v).reverse ++ s.trace) := by
      rw [← P.trace]; exact D.trace
    obtain ⟨-, -, hfault, -, he, hrs, hrw⟩ := hw
    obtain ⟨(hcs1 : t.flagCS1 = s.flagCS1), (hcs2 : t.flagCS2 = s.flagCS2), -, krs, krw, ke, -⟩ := flags_of K.cfg hctrl
    have herrKept : t.err = s.err := congrArg (·.getLsbD 1) K.status
    have hunresp : t.unresp = s.unresp := congrArg (·.getLsbD 2) K.status
    have huwho : t.uwho = s.uwho := congrArg (·.extractLsb' 3 2) K.status
    obtain ⟨herr, hun, -⟩ := raiseUnresponsive_flags t
    refine ⟨raiseUnresponsive t, v, hx, htrace ▸ List.suffix_cons .., hshows, fun _ => ⟨raiseUnresponsive_idle t, rfl,
      hun, herr.trans herrKept, ?uwho, K.result, hctrl, ke.trans he, krs.trans hrs, krw.trans hrw, D.dir, K.dout,
      K.fault.trans hfault, K.req, K.cfg, K.host, htrace, D.pulses.trans P.pulses, ?ctl,
      fun k p l => (raiseUnresponsive_ram t k p l).trans (K.ram k p l)⟩⟩
    case uwho => rw [raiseUnresponsive_uwho, hunresp, huwho, hcs1, hcs2]
    case ctl => intro k; rw [raiseUnresponsive_ctl]; exact K.sameButReady k

end Sys2Proof.Machine
end

section
/-! PROOF of O58 and O59 (R35, R63, R152, R284): the handshake. A covered sequence stays covered whatever the environment
does; what a run leaves of the parameters, the host's list and the environment keeps the host orderly; and every public
operation is covered from rest, INIT in a calm environment. -/

namespace Sys2Proof.Machine

variable {s t : State} {i : Instr} {w : Word24} {p : List Micro}

/-! ## What a step leaves for the next one (R34, R37) -/

/-- The parameters are those of `s`, the host's moves are among those of `s`, and of its coming slots some are used up. -/
structure Onward (s t : State) : Prop where
  cfg : t.cfg = s.cfg
  host : ∀ m ∈ t.host, m ∈ s.host
  env : ∃ n, t.env = s.env.drop n

theorem Onward.refl (s : State) : Onward s s := ⟨rfl, fun _ => id, 0, rfl⟩

theorem Onward.trans {u : State} (h : Onward s t) (k : Onward t u) : Onward s u := by
  obtain ⟨n, hn⟩ := h.env
  obtain ⟨m, hm⟩ := k.env
  exact ⟨k.cfg.trans h.cfg, fun x hx => h.host x (k.host x hx), n + m, by rw [hm, hn, List.drop_drop]⟩

theorem Passed.onward (h : Passed s t) : Onward s t := ⟨h.cfg, fun _ hm => h.host ▸ hm, h.env⟩

/-- What every coming slot has, every slot still to come has. -/
theorem Onward.all (h : Onward s t) {q : EnvSlot → Bool} (a : s.env.all q = true) : t.env.all q = true := by
  obtain ⟨n, hn⟩ := h.env
  rw [hn, List.all_eq_true]
  exact fun e he => List.all_eq_true.mp a e (List.mem_of_mem_drop he)

/-- The host stays orderly. -/
theorem Onward.orderly (h : Onward s t) (ho : s.orderly) : t.orderly := by
  obtain ⟨hx, hn, hm⟩ := ho
  refine ⟨by rw [h.cfg]; exact hx, h.all hn, fun m ht => ?_⟩
  obtain ⟨w, rfl, hw⟩ := hm m (h.host m ht)
  exact ⟨w, rfl, fun e => h.all (hw e)⟩

theorem engineReset_onward (s : State) : Onward s (engineReset s.slot s.arrive) :=
  ⟨by simp [engineReset], by simp [engineReset], 1, by simp [engineReset]⟩

/-- IDLE is not both 0 and 1. -/
theorem idle_absurd {P : Prop} (h : s.idle = false) (hi : s.idle = true) : P :=
  absurd (h.symm.trans hi) (by decide)

/-- Where the engine leaves a sequence: an idle engine has nothing left to do (R32, R37). -/
def Left (s t : State) : Prop := Onward s t ∧ (t.idle = true → t.seq = [])

/-- A run of the remaining steps of an operation in progress, in any environment. -/
theorem runSeq_left (p : List Micro) (hi : s.idle = false) : Left s (runSeq p s) := by
  have giveUp : ∀ u, Passed u (setDir .output (countPoll u).slot (countPoll u).arrive) := fun u =>
    (countPoll_passed u).trans (passed_setDir .output _)
  refine run_cases (I := fun _ u => Passed s u) (E := Left s) ?done ?struck ?prim ?fault ?assign ?result ?ready ?loop
    ?dead ?fail p s (Passed.refl s)
  case done => exact fun u h => ⟨⟨h.cfg, h.onward.host, h.env⟩, fun _ => rfl⟩
  case struck =>
    rintro m rest u h - v (rfl | ⟨-, rfl⟩)
    · exact ⟨h.onward.trans (engineReset_onward _), fun _ => rfl⟩
    · exact ⟨(h.trans (countPoll_passed u)).onward.trans (engineReset_onward _), fun _ => rfl⟩
  case prim => exact fun m rest u q h hq _ => h.trans (primOf_passed hq u)
  case fault =>
    intro m rest u q h hq _
    have k := h.trans (primOf_passed hq u)
    exact ⟨⟨k.cfg, k.onward.host, k.env⟩, idle_absurd (k.idle.trans hi)⟩
  case assign => exact fun m rest u f h _ _ => h.trans (passed_assign f u)
  case result => exact fun rest u h => h.trans (passed_result u)
  case ready => exact fun rest u h _ => h.trans (countPoll_passed u)
  case loop =>
    intro rest u h _
    have k := h.trans (countPoll_passed u)
    exact ⟨⟨k.cfg, k.onward.host, k.env⟩, idle_absurd (k.idle.trans hi)⟩
  case dead =>
    intro rest u h _
    have k := h.trans (giveUp u)
    exact ⟨⟨k.cfg, k.onward.host, k.env⟩, fun _ => rfl⟩
  case fail =>
    intro rest u h _ _
    have k := h.trans (giveUp u)
    exact ⟨⟨k.cfg, k.onward.host, k.env⟩, fun _ => rfl⟩

/-! ## Handshake states (R284) -/

/-- An idle engine in a handshake state is at rest, with both controllers ready. -/
theorem handshake_idle (h : s.handshake) (hi : s.idle = true) : s.atRest ∧ s.allReady = true := by
  obtain ⟨-, -, -, -, -, hc, hq⟩ := h
  rw [State.covered, hq hi] at hc
  obtain ⟨he, hd, h1, h2⟩ := (settled_iff s.watch).mp hc
  exact ⟨⟨hd, he⟩, by simpa [State.allReady] using ⟨h1, h2⟩⟩

/-- A handshake state goes on to one where no protocol fault is met and what is left to do is covered. -/
theorem handshake_onward (h : s.handshake) (k : Left s t) (hf : t.protoFault = none) (hc : t.covered = true) :
    t.handshake := by
  obtain ⟨hw, hl, hr, -, ho, -, -⟩ := h
  have hcfg := k.1.cfg
  exact ⟨hcfg ▸ hw, hcfg ▸ hl, hcfg ▸ hr, hf, k.1.orderly ho, hc, k.2⟩

/-- An operation in progress goes on to a handshake state (R152, R154). -/
theorem resume_handshake (h : s.handshake) (hi : s.idle = false) : (runSeq s.seq s).handshake := by
  obtain ⟨hw, hl, -, hf, ⟨-, hn, -⟩, hc, -⟩ := id h
  obtain ⟨hf', hc', -⟩ := resume_covered hw hl hf hn hc
  exact handshake_onward h (runSeq_left s.seq hi) hf' hc'

/-! ## Public operations (R280, R284) -/

/-- CLR and PIX are covered from rest (R200, R220). -/
theorem covers_public {c : Config} (hw : c.wf = true) (hp : i.isPublic = true) (hi : i ≠ .init) :
    Covers c (progOf c i) := by
  cases i
  case init => exact absurd rfl hi
  case clr => exact covers_idle (fun _ => rfl) (covers_clearPages hw _ _)
  case pix x y on =>
    rw [progOf_pix]
    split
    · exact covers_pixel hw x y on
    · exact .nil
  all_goals cases hp

/-- INIT in a calm environment, from any state with both controllers ready, ends at rest with both ready again (R221). -/
theorem init_covered (q : Quiet s) (hr : s.cfg.refDecodes = true) :
    (runSeq (initSeq s.cfg) s).protoFault = none ∧ (runSeq (initSeq s.cfg) s).covered = true := by
  obtain ⟨u, hgo, R, hrest, -⟩ := go_init q hr
  rw [runSeq_of_runGo hgo]
  exact ⟨R.quiet.fault, (settled_iff (complete u).watch).mpr ⟨hrest.e, hrest.dir, R.quiet.ready1, R.quiet.ready2⟩⟩

/-- A public operation started by the idle engine, INIT in a calm environment, never sends a byte to a busy controller. -/
theorem public_covered (h : s.handshake) (hi : s.idle = true) (hp : i.isPublic = true)
    (hcalm : i = .init → s.calm = true) : (runSeq (progOf s.cfg i) (accept i s)).protoFault = none ∧
      (runSeq (progOf s.cfg i) (accept i s)).covered = true := by
  obtain ⟨hrest, hready⟩ := handshake_idle h hi
  obtain ⟨hw, hl, hr, hf, ⟨-, hn, -⟩, -, -⟩ := h
  by_cases hinit : i = .init
  · subst hinit
    exact init_covered (quiet_accept .init (Quiet.of_undisturbed ⟨hw, hf, hcalm rfl, hready⟩)) hr
  · obtain ⟨hf', hc', -⟩ := runSeq_covered (s := accept i s) (covers_public hw hp hinit) hw hl hf hn hrest hready
    exact ⟨hf', hc'⟩

theorem exec_handshake (h : s.handshake) (hi : s.idle = true) (hp : i.isPublic = true)
    (hcalm : i = .init → s.calm = true) : ∃ t, exec i s = .next t ∧ t.handshake := by
  obtain ⟨hf, hc⟩ := public_covered h hi hp hcalm
  have k : Left (accept i s) (runSeq (progOf s.cfg i) (accept i s)) := runSeq_left _ (accept_idle i s)
  exact ⟨_, exec_prog i s, handshake_onward h ⟨⟨k.1.cfg, k.1.host, k.1.env⟩, k.2⟩ hf hc⟩

/-! ## The idle engine (R37, R241) -/

/-- With fewer moves to come from the host it is a handshake state as before. -/
theorem handshake_hosted {m : HostMove} {rest : List HostMove} (h : s.handshake) (hh : s.host = m :: rest) :
    ({ s with host := rest } : State).handshake := by
  obtain ⟨-, -, -, hf, -, hc, hq⟩ := id h
  exact handshake_onward h ⟨⟨rfl, fun x hx => hh ▸ List.mem_cons_of_mem m hx, 0, rfl⟩, hq⟩ hf hc

theorem raiseIllegalRequest_handshake (h : s.handshake) : (raiseIllegalRequest s).handshake := by
  obtain ⟨-, -, -, hf, -, hc, hq⟩ := id h
  obtain ⟨-, -, -, hidle, -⟩ := raiseIllegalRequest_flags s
  exact handshake_onward h ⟨⟨rfl, fun _ => id, 0, rfl⟩, fun hi => hq (hidle ▸ hi)⟩ hf hc

/-- The idle engine's step: the host issues public operations only, and INIT into a calm environment only. -/
theorem idleStep_handshake (h : s.handshake) (hi : s.idle = true) : ∃ t, idleStep exec s = .next t ∧ t.handshake := by
  obtain ⟨-, -, -, -, ⟨hx, -, hm⟩, -, -⟩ := id h
  cases hh : s.host with
  | nil => exact ⟨s, by simp only [idleStep, hh], h⟩
  | cons m rest =>
    obtain ⟨w, rfl, hcalm⟩ := hm m (by simp [hh])
    have h' := handshake_hosted h hh
    cases hd : decodeRequest s.cfg.exposeInternal w with
    | error e => exact ⟨_, by simp only [idleStep, hh, issue, hd], raiseIllegalRequest_handshake h'⟩
    | ok i =>
      obtain ⟨hdecode, hpub⟩ := decodeRequest_ok.mp hd
      rw [hx, Bool.or_false] at hpub
      rw [idleStep_request hh hd]
      refine exec_handshake h' hi hpub fun e => hcalm ?_
      rw [← e]
      exact (encodeOfDecodeIsTheWord w i hdecode).2.symm

/-- Settles O58: the operation in progress goes on covered, and from rest with both controllers ready every operation the
host may issue is. -/
theorem handshakeIsKeptByEveryStep : Obligations.HandshakeIsKeptByEveryStep := by
  intro s h
  obtain ⟨-, -, -, hf, -⟩ := id h
  have hstep : ∃ t, step s = .next t ∧ t.handshake := by
    cases hi : s.idle with
    | true => rw [step_idle hi hf]; exact idleStep_handshake h hi
    | false => exact ⟨_, step_busy hi hf, resume_handshake h hi⟩
  obtain ⟨t, ht, hk⟩ := hstep
  exact ⟨t, ht, hk, handshake_idle hk⟩

/-- Settles O59: each clause by its value in `State.reset`; the host's list and the environment enter by `orderly` only. -/
theorem invariantsHoldAtReset : Obligations.InvariantsHoldAtReset := by
  have hw : Config.standard.wf = true := by decide
  have hr : Config.standard.refDecodes = true := by decide
  have hi : State.reset.idle = true := rfl
  have hc : State.reset.watch.settled = true := by decide
  exact ⟨⟨⟨hw, rfl, ⟨by decide, fun _ => rfl, fun _ => rfl⟩, fun _ => rfl, rfl, rfl⟩, fun _ => .inl hi⟩,
    fun h e ho => ⟨hw, rfl, hr, rfl, ho, hc, fun _ => rfl⟩⟩

end Sys2Proof.Machine
end

section
/-! PROOF of O48 and O50 (R35, R58, R270, R271): an EngineReset that strikes the idle engine, or takes the place of the
first primitive a run comes to; and how many slots and primitives a step has used up where one strikes it later, or
ends before. -/

namespace Sys2Proof.Machine

variable {s t u : State} {m : Micro} {rest p : List Micro} {i : Instr}

/-! ## What an EngineReset leaves (R270, R271) -/

theorem Struck.powerUp (h : Struck s t) : enginePowerUp t := ⟨h.ctrl, h.dout, h.dir, h.status, h.result, h.seq⟩

/-- With E low the controllers are as the environment's moves leave them; with E high they have taken the pulse event. -/
theorem Struck.struck (h : Struck s t) (hf : s.protoFault = none) : struck s t := by
  refine ⟨h.powerUp, h.cfg, h.trace, h.pulses, h.fault, fun he => ?low, fun he => ?high⟩
  case low =>
    have hctl := h.ctl
    have hram := h.ram
    simp only [he, Bool.false_eq_true, if_false] at hctl hram
    exact ⟨sameButReady_arrive fun k => (hctl k).trans (arrive_ctl s k), hram⟩
  case high =>
    have hctl := h.ctl
    have hram := h.ram
    simp only [he, if_true] at hctl hram
    exact ⟨_, received_congr (pulseEvent_received hf) hctl hram⟩

/-- Settles O48: the idle engine takes its host's EngineReset after the environment's moves of the slot. -/
theorem engineResetOfTheIdleEngine : Obligations.EngineResetOfTheIdleEngine := by
  intro s rest _ hf hi hh
  have S : Struck { s with host := rest } (hostReset { s with host := rest }) := engineReset_struck hf
  exact ⟨_, (step_idle hi hf).trans (by simp only [idleStep, hh]), S.struck hf, S.host⟩

/-! ## The first primitive of a run (R10, R20) -/

/-- An assignment, or the write of RESULT, changes the locals and RESULT only (R28, R30). -/
theorem micro_assigns (hp : isPrimitive m = false) (ht : m ≠ .test) (rest : List Micro) (s : State) :
    ∃ l r, micro m rest s = .go { s with loc := l, result := r } := by
  cases m
  case test => exact absurd rfl ht
  case pollsZero =>
    simp only [micro]
    split
    · exact ⟨s.loc, s.result, rfl⟩
    · exact ⟨_, s.result, rfl⟩
  case setResult => exact ⟨s.loc, _, rfl⟩
  case setVal | setValTmp | setTgt | latchRbv | setPixel | tmpRbv | combine | setPg | setCn => exact ⟨_, s.result, rfl⟩
  all_goals cases hp

/-- The sequence comes to a primitive by way of assignments only. -/
def comesToPrimitive : List Micro → Bool
  | [] => false
  | m :: rest => isPrimitive m || (m != .test && comesToPrimitive rest)

theorem comesToPrimitive_cons : comesToPrimitive (m :: rest) = true ↔
    isPrimitive m = true ∨ (m ≠ .test ∧ comesToPrimitive rest = true) := by
  simp [comesToPrimitive]

/-- An EngineReset in the next slot takes the place of the primitive the run comes to (R270). -/
theorem runSeq_struck (h : comesToPrimitive p = true) (hf : s.protoFault = none) (hr : s.slot.reset = true) :
    struck s (runSeq p s) ∧ (runSeq p s).host = s.host := by
  induction p generalizing s with
  | nil => cases h
  | cons m rest ih =>
    cases hp : isPrimitive m with
    | true =>
      obtain ⟨q, hq⟩ := primOf_of_isPrimitive (s := s) hp
      rw [runSeq_stop ((primOf_micro hq rest).trans (primitive_reset hr))]
      have S := engineReset_struck hf
      exact ⟨S.struck hf, S.host⟩
    | false =>
      obtain ⟨ht, hrest⟩ := (comesToPrimitive_cons.mp h).resolve_left (by simp [hp])
      obtain ⟨l, r, hm⟩ := micro_assigns hp ht rest s
      rw [runSeq_cons hm]
      exact ih (s := { s with loc := l, result := r }) hrest hf hr

/-- Every operation, PIX inside the display, comes to a primitive by way of assignments (R10, R200). -/
theorem comesToPrimitive_prog (c : Config) (h : ∀ x y on, i = .pix x y on → 1 ≤ x ∧ x ≤ 128 ∧ 1 ≤ y ∧ y ≤ 64) :
    comesToPrimitive (progOf c i) = true := by
  cases i
  case pix x y on => rw [progOf_pix, if_pos (pixInRange_iff.mpr (h x y on rfl))]; rfl
  all_goals rfl

/-! ## Slots and primitives used up (R20, R270) -/

/-- From `s` to `t` the run has used up `k` slots, a primitive for each (R20). -/
structure UsedUp (k : Nat) (s t : State) : Prop where
  env : t.env = s.env.drop k
  trace : t.trace.length = s.trace.length + k
  cfg : t.cfg = s.cfg
  host : t.host = s.host

/-- After `k` slots and as many primitives an EngineReset has used up one slot more (R270). -/
structure StruckAfter (k : Nat) (s t : State) : Prop where
  env : t.env = s.env.drop (k + 1)
  trace : t.trace.length = s.trace.length + k
  powerUp : enginePowerUp t
  cfg : t.cfg = s.cfg
  host : t.host = s.host

theorem UsedUp.refl (s : State) : UsedUp 0 s s := ⟨rfl, rfl, rfl, rfl⟩

theorem UsedUp.trans {j k : Nat} (h : UsedUp j s t) (g : UsedUp k t u) : UsedUp (j + k) s u :=
  ⟨by rw [g.env, h.env, List.drop_drop], by rw [g.trace, h.trace, Nat.add_assoc], g.cfg.trans h.cfg, g.host.trans h.host⟩

theorem UsedUp.struck {k : Nat} (h : UsedUp k s t) (g : StruckAfter 0 t u) : StruckAfter k s u :=
  ⟨by rw [g.env, h.env, List.drop_drop], g.trace.trans h.trace, g.powerUp, g.cfg.trans h.cfg, g.host.trans h.host⟩

/-- The next slot, `k` of them used up. -/
theorem slot_eq_getD {k : Nat} (h : t.env = s.env.drop k) : t.slot = s.env.getD k {} := by
  rw [State.slot, h, List.headD_eq_head?_getD, List.head?_drop, List.getD_eq_getElem?_getD]

theorem primOf_usedUp {q : EnvSlot → State → State} (h : primOf s m = some q) : UsedUp 1 s (q s.slot s.arrive) := by
  obtain ⟨-, henv, -⟩ := primOf_keeps h
  obtain ⟨x, hx, -⟩ := primOf_trace h
  have k := primOf_passed h s
  exact ⟨henv.trans List.drop_one.symm, by rw [hx]; rfl, k.cfg, k.host⟩

theorem countPoll_usedUp (s : State) : UsedUp 0 s (countPoll s) := by
  unfold countPoll
  split
  · exact .refl s
  · exact ⟨rfl, rfl, rfl, rfl⟩

theorem engineReset_struckAfter (s : State) : StruckAfter 0 s (engineReset s.slot s.arrive) := by
  refine ⟨?_, ?_, ⟨?_, rfl, rfl, rfl, rfl, rfl⟩, ?_, ?_⟩ <;> simp [engineReset]

theorem UsedUp.congr {k : Nat} (h : UsedUp k s t) (he : u.env = t.env) (ht : u.trace = t.trace) (hc : u.cfg = t.cfg)
    (hh : u.host = t.host) : UsedUp k s u :=
  ⟨he.trans h.env, ht ▸ h.trace, hc.trans h.cfg, hh.trans h.host⟩

/-! ## Up to the first EngineReset -/

/-- Of the coming slots the (n+1)-th is the first that holds an EngineReset. -/
def FirstReset (n : Nat) (s : State) : Prop :=
  (∀ j, j < n → (s.env.getD j {}).reset = false) ∧ (s.env.getD n {}).reset = true

/-- At most `n` slots have been used up, a primitive for each. -/
def Within (n : Nat) (s t : State) : Prop := ∃ k, k ≤ n ∧ UsedUp k s t

/-- … or the EngineReset after `n` of them has struck. -/
def WithinOrStruck (n : Nat) (s t : State) : Prop := StruckAfter n s t ∨ Within n s t

section FirstReset

variable {n : Nat} {v : State}

theorem Within.congr (h : Within n s t) (he : u.env = t.env) (ht : u.trace = t.trace) (hc : u.cfg = t.cfg)
    (hh : u.host = t.host) : Within n s u := by
  obtain ⟨k, hk, g⟩ := h
  exact ⟨k, hk, g.congr he ht hc hh⟩

theorem Within.countPoll (h : Within n s v) : Within n s (countPoll v) := by
  obtain ⟨k, hk, g⟩ := h
  exact ⟨k, hk, g.trans (countPoll_usedUp v)⟩

/-- A primitive uses up a slot before the (n+1)-th, or the EngineReset takes its place (R20, R270). -/
theorem primitive_within {q : EnvSlot → State → State} (hs : FirstReset n s) (h : Within n s v)
    (hq : UsedUp 1 v (q v.slot v.arrive)) (rest : List Micro) :
    (primitive q rest v).leads (Within n s) (WithinOrStruck n s) := by
  obtain ⟨k, hk, g⟩ := h
  obtain ⟨hbefore, hat⟩ := hs
  have onward : v.slot.reset = false → Within n s (q v.slot v.arrive) := by
    intro hr
    have hne : k ≠ n := by
      rintro rfl
      rw [slot_eq_getD g.env, hat] at hr
      cases hr
    exact ⟨k + 1, by omega, g.trans hq⟩
  refine primitive_cases (P := Flow.leads _ _) (fun hr => .inl ?struck)
    (fun hr _ => .inr ((onward hr).congr rfl rfl rfl rfl)) (fun hr _ => onward hr)
  case struck =>
    have hkn : k = n := by
      refine Nat.le_antisymm hk (Nat.le_of_not_lt fun hlt => ?_)
      rw [slot_eq_getD g.env, hbefore k hlt] at hr
      cases hr
    exact hkn ▸ g.struck (engineReset_struckAfter v)

/-- A wait that fails makes one more primitive (R155, R243). -/
theorem failWait_within (hs : FirstReset n s) (h : Within n s v) :
    (failWait v).leads (Within n s) (WithinOrStruck n s) := by
  have hp := primitive_within hs h (primOf_usedUp (m := .setDir .output) rfl) []
  unfold failWait
  cases e : primitive (setDir .output) [] v with
  | stop t => rw [e] at hp; exact hp
  | go t => rw [e] at hp; exact .inr (hp.congr rfl rfl rfl rfl)

theorem micro_within (hs : FirstReset n s) (h : Within n s v) (m : Micro) (rest : List Micro) :
    (micro m rest v).leads (Within n s) (WithinOrStruck n s) := by
  cases hp : isPrimitive m with
  | true =>
    obtain ⟨q, hq⟩ := primOf_of_isPrimitive (s := v) hp
    rw [primOf_micro hq]
    exact primitive_within hs h (primOf_usedUp hq) rest
  | false =>
    by_cases ht : m = .test
    · subst ht
      simp only [micro, pollTest]
      split
      · split
        · exact failWait_within hs h.countPoll
        · exact .inr (h.countPoll.congr rfl rfl rfl rfl)
      · exact h.countPoll
    · obtain ⟨l, r, hm⟩ := micro_assigns hp ht rest v
      rw [hm]
      exact h.congr rfl rfl rfl rfl

/-- A run of a sequence, or one engine step of it, ends within `n` primitives or is struck after them. -/
theorem runs_within (hs : FirstReset n s) (h : UsedUp 0 s u) (hr : Runs p u t) : WithinOrStruck n s t := by
  have h0 : Within n s u := ⟨0, Nat.zero_le n, h⟩
  have done : ∀ v, Within n s v → WithinOrStruck n s (complete v) := fun v h => .inr (h.congr rfl rfl rfl rfl)
  obtain rfl | rfl := hr
  · refine runSeq_rec (I := fun _ => Within n s) done (fun m rest v h => ?_) p u h0
    have hm := micro_within hs h m rest
    exact ⟨fun t e => by rw [e] at hm; exact hm, fun t e => by rw [e] at hm; exact hm⟩
  · refine engineMove_rec (I := fun _ => Within n s) done (fun m rest v h _ => ?_)
      (fun m rest v h _ => micro_within hs h m rest) p u h0
    refine (micro_within hs h m rest).imp (fun t ht => ?_) fun _ h => h
    obtain ⟨q, j, e⟩ := advance_eq rest t
    rw [e]
    exact .inr (ht.congr rfl rfl rfl rfl)

end FirstReset

/-- Settles O50: `runSeq_struck` where the EngineReset is in the next slot, `runs_within` where it comes later. -/
theorem engineResetStrikesAtAnyPrimitive : Obligations.EngineResetStrikesAtAnyPrimitive := by
  refine ⟨fun i s _ hf hr hin => ?fresh, fun s m rest _ hf hi hq hm hr => ?resumed, fun i n s t h hb hn => ?later⟩
  case fresh =>
    have hrun := runSeq_struck (s := accept i s) (comesToPrimitive_prog s.cfg hin) hf hr
    exact ⟨_, exec_prog i s, hrun⟩
  case resumed =>
    have hp : comesToPrimitive s.seq = true := by rw [hq]; exact comesToPrimitive_cons.mpr (.inl hm)
    exact ⟨_, step_busy hi hf, runSeq_struck hp hf hr⟩
  case later =>
    obtain ⟨p, u, hu, -, hsu⟩ := runsOperation_run h
    have hstart : UsedUp 0 s u := by
      obtain rfl | rfl := hsu
      · exact .refl u
      · exact ⟨rfl, rfl, rfl, rfl⟩
    obtain k | ⟨k, hk, g⟩ := runs_within ⟨hb, hn⟩ hstart hu
    · exact .inl ⟨k.env, k.trace, k.powerUp, k.cfg, k.host⟩
    · exact .inr ⟨k, hk, g.env, g.trace⟩

end Sys2Proof.Machine
end

section
/-! PROOF of O49 (R150, R244, R270, R271): an EngineReset that strikes a poll from WT.6. The primitives before it are those
of the poll and keep all but the lines; the pulse event it makes, or the poll has made, is a status read. -/

namespace Sys2Proof.Machine

variable {s t u : State} {rest : List Micro} {k : Nat} {v : Byte} {l : Locals}

theorem Went.refl (s : State) : Went [] s s s.ctrl s.dir s.loc [] [] :=
  ⟨rfl, .refl s, rfl, rfl, rfl, rfl, rfl, rfl⟩

/-- CTRL after the first `k` primitives of a poll: E is high from WT.6 to WT.9 (R150). -/
def State.pollCtrl (s : State) (k : Nat) : Byte := if k = 0 ∨ k = 4 then s.ctrl else s.ctrl ||| s.cfg.mE

/-- The first `k` primitives of a poll from WT.6 have been executed, `v` being the byte sampled. -/
def PolledTo (k : Nat) (v : Byte) (l : Locals) (s u : State) : Prop :=
  Went ((pollBody s.cfg).take k) s u (s.pollCtrl k) .input l ((pollPrims s.cfg v).take k).reverse
    (if k = 4 then [pollRecord s] else [])

theorem PolledTo.slot (h : PolledTo k v l s u) (hk : k ≤ 4) : u.slot = s.env.getD k {} := by
  have hlength : ((pollPrims s.cfg v).take k).reverse.length = k := by
    simp only [List.length_reverse, List.length_take, pollPrims, List.length_cons, List.length_nil]
    omega
  rw [slot_eq_getD h.env, hlength]

/-- With E high in a poll the lines show a status read (R58, R150). -/
theorem pulseRecord_polling (w : s.cfg.wf = true) (hw : s.waiting rest) (K : Kept s u)
    (hc : u.ctrl = s.ctrl ||| s.cfg.mE) (hd : u.dir = .input) : u.flagE = true ∧ u.pulseRecord = pollRecord s := by
  obtain ⟨-, -, -, -, -, hrs, hrw⟩ := hw
  obtain ⟨h1, h2, h3, h4, h5, h6, -⟩ := flags_of K.cfg hc
  rw [flagIn_or] at h1 h2 h3 h4 h5 h6
  rw [flag_mE_mCS1 w, Bool.or_false] at h1
  rw [flag_mE_mCS2 w, Bool.or_false] at h2
  rw [flag_mE_mRST w, Bool.or_false] at h3
  rw [flag_mE_mRS w, Bool.or_false] at h4
  rw [flag_mE_mRW w, Bool.or_false] at h5
  rw [flag_mE_mE w, Bool.or_true] at h6
  refine ⟨h6, ?_⟩
  rw [State.pulseRecord, h1, h2, h3, h4, h5, hd, K.dout]
  rw [State.flagRS] at hrs
  rw [State.flagRW] at hrw
  rw [hrs, hrw]
  rfl

/-- The primitives of a poll, one after the other, as far as none of their slots holds an EngineReset (R150). -/
theorem polledTo (w : s.cfg.wf = true) (hw : s.waiting rest) : ∀ k, k ≤ 4 →
    (∀ j, j < k → (s.env.getD j {}).reset = false) → ∃ u v l, PolledTo k v l s u
  | 0, _, _ => by
    obtain ⟨-, -, -, hd, -⟩ := hw
    have W := Went.refl s
    rw [hd] at W
    exact ⟨s, 0, s.loc, W⟩
  | k + 1, hk, hr => by
    obtain ⟨u, v, l, W⟩ := polledTo w hw k (by omega) fun j hj => hr j (by omega)
    obtain ⟨-, -, hfault, -, he, -⟩ := id hw
    have n : u.noResetNow = true := by rw [State.noResetNow, W.slot (by omega), hr k (by omega)]; rfl
    have hf : u.protoFault = none := W.kept.fault.trans hfault
    have hc : u.cfg = s.cfg := W.kept.cfg
    match k, hk with
    | 0, _ =>
      obtain ⟨t, T⟩ := went_set n hf s.cfg.mE (by rw [hc]; exact flag_mE_mRST w)
      rw [W.ctrl, W.dir] at T
      exact ⟨t, v, _, W.append T⟩
    | 1, _ =>
      obtain ⟨t, T⟩ := went_delay n hf .settle
      rw [W.ctrl, W.dir] at T
      exact ⟨t, v, _, W.append T⟩
    | 2, _ =>
      obtain ⟨hE, -⟩ := pulseRecord_polling w hw W.kept W.ctrl W.dir
      obtain ⟨t, T, -⟩ := went_sample n hf
      rw [W.ctrl, W.dir, hE] at T
      exact ⟨t, _, _, W.append T⟩
    | 3, _ =>
      obtain ⟨hE, hrecord⟩ := pulseRecord_polling w hw W.kept W.ctrl W.dir
      obtain ⟨t, T⟩ := went_clear (hc ▸ w) n hf s.cfg.mE fun _ k => by rw [hrecord]; exact Bool.and_false _
      rw [W.ctrl, W.dir, hE, hc, flag_mE_mE w, hrecord] at T
      have hlow : s.pollCtrl 3 &&& ~~~s.cfg.mE = s.pollCtrl 4 := or_and_not he
      rw [hlow] at T
      exact ⟨t, v, _, W.append T⟩

/-! ## The EngineReset -/

/-- With E high in a poll its pulse event is still to come, and E is low before WT.6's `CtrlSet` and after the fall at
WT.9 (R150). -/
theorem PolledTo.record (h : PolledTo k v l s u) (w : s.cfg.wf = true) (hw : s.waiting rest) :
    (u.flagE = true → u.pulseRecord = pollRecord s) ∧
      (if u.flagE then u.pulseRecord :: u.pulses else u.pulses) = if k = 0 then s.pulses else pollRecord s :: s.pulses := by
  obtain ⟨-, -, -, -, he, -⟩ := id hw
  have hp : u.pulses = _ := h.pulses
  have hc : u.ctrl = s.pollCtrl k := h.ctrl
  by_cases hk : k = 0 ∨ k = 4
  · rw [State.pollCtrl, if_pos hk] at hc
    obtain ⟨-, -, -, -, -, hlow, -⟩ := flags_of h.kept.cfg hc
    have hE : u.flagE = false := hlow.trans he
    rw [hE, hp]
    obtain rfl | rfl := hk <;> simp
  · rw [State.pollCtrl, if_neg hk] at hc
    obtain ⟨hE, hrecord⟩ := pulseRecord_polling w hw h.kept hc h.dir
    rw [hE, hp, hrecord]
    simp [not_or.mp hk]

/-- An EngineReset with a pulse event no controller acts on meets no busy controller (R58, R63, R270). -/
theorem struck_unoffered (h : struck s t) (ho : s.flagE = true → ∀ c, s.offers c = false) :
    t.protoFault = none ∧ sameButReady s t ∧ sameRam s t := by
  obtain ⟨-, -, -, -, hf, hlow, hhigh⟩ := h
  cases he : s.flagE with
  | false =>
    rw [he] at hf
    obtain ⟨hctl, hram⟩ := hlow he
    exact ⟨hf, hctl, hram⟩
  | true =>
    have ho := ho he
    have hb : ∀ c, s.meetsBusy c = false := fun c => by simp [State.meetsBusy, ho]
    obtain ⟨b, -, hd⟩ := hhigh he
    simp only [ho, hb, Bool.false_eq_true, if_false, Bool.false_and, false_and] at hd
    refine ⟨?_, sameButReady_arrive fun c => (hd c).1, fun c => (hd c).2⟩
    simp [hf, he, State.metFault, hb]

/-- The rest of the poll begins with a primitive, whose place the EngineReset takes (R270). -/
theorem PolledTo.step_struck (h : PolledTo k v l s u) (hk : k < 5) (hw : s.waiting rest) (hr : u.slot.reset = true) :
    ∃ t, step s = .next t ∧ struck u t ∧ t.host = u.host := by
  obtain ⟨hq, hi, hf, -⟩ := hw
  have hsplit : s.seq = (pollBody s.cfg).take k ++ ((pollBody s.cfg).drop k ++ .test :: rest) := by
    rw [← List.append_assoc, List.take_append_drop, hq]
  have hp : comesToPrimitive ((pollBody s.cfg).drop k ++ .test :: rest) = true := by
    interval_cases k <;> rfl
  refine ⟨_, step_busy hi hf, ?_⟩
  rw [hsplit, runSeq_append h.go]
  exact runSeq_struck hp (h.kept.fault.trans hf) hr

/-- Settles O49: the primitives before the EngineReset are those of `polledTo`, and no controller acts on the pulse event
of a poll. -/
theorem engineResetEndsTheHang : Obligations.EngineResetEndsTheHang := by
  intro s rest n w hw hn hb hr
  obtain ⟨u, v, l, W⟩ := polledTo w hw n (by omega) hb
  obtain ⟨t, ht, hs, hhost⟩ := W.step_struck hn hw (by rw [W.slot (by omega)]; exact hr)
  obtain ⟨hrecord, hpulses⟩ := W.record w hw
  have K := W.kept
  obtain ⟨hfault, hctl, hram⟩ := struck_unoffered hs fun he c => by
    rw [← reaches_offers, hrecord he]; exact Bool.and_false _
  obtain ⟨hpower, hcfg, htrace, hp, -⟩ := hs
  exact ⟨t, v, ht, hpower, hcfg.trans K.cfg, hhost.trans K.host, htrace.trans W.trace, hp.trans hpulses, hfault,
    sameButReady_trans K.sameButReady hctl, fun c page col => (hram c page col).trans (K.ram c page col)⟩

end Sys2Proof.Machine
end

section
/-! PROOF of O57 (R155, R280, R286): every sequence but those of SETC, CLRC and CFGRD brings lines at rest back to rest. A
run follows the lines of its sequence, and the test of a poll, where a wait can fail, is taken with E low. -/

namespace Sys2Proof.Machine

variable {c : Config} {i : Instr} {m : Micro} {rest p : List Micro} {s t : State}

/-- The lines of the rest state (R280). -/
def Lines.AtRest (l : Lines) : Prop := l.dir = .output ∧ l.e = false

/-- Lines at rest, RS and RW low. -/
def restLines : Lines := ⟨.output, false, false, false⟩

/-- From WT.6 on what is left of the sequence ends at rest: from rest the whole sequence does, and it comes to WT.6 with
the lines of WT.6 (R150, R280). -/
theorem afterAll_atRest_of_poll {done : List Micro} (w : c.wf = true) (hO : Orderly c (progOf c i))
    (h : progOf c i = done ++ (pollBody c ++ .test :: rest)) :
    (pollLines.afterAll c (pollBody c ++ .test :: rest)).AtRest := by
  have hsplit : progOf c i = (done ++ pollBody c) ++ .test :: rest := by rw [h, List.append_assoc]
  have hwt : restLines.afterAll c (done ++ pollBody c) = pollLines :=
    disciplined_test_lines (disciplined_drop (hsplit ▸ disciplined_prog w i restLines))
  have hrest : (restLines.afterAll c (progOf c i)).AtRest := hO.rest restLines rfl rfl
  rw [afterAll_append, afterAll_pollBody w]
  rwa [hsplit, afterAll_append, hwt] at hrest

/-- Operation i is under way and what is left of its sequence ends at rest. -/
structure HomeBound (c : Config) (i : Instr) (p : List Micro) (s : State) : Prop where
  underWay : UnderWay c i p s
  home : (s.lines.afterAll c p).AtRest

theorem HomeBound.go (w : c.wf = true) (h : HomeBound c i (m :: rest) s) (hm : micro m rest s = .go t) :
    HomeBound c i rest t := by
  refine ⟨h.underWay.go hm, ?_⟩
  have hc := h.underWay.cfg
  subst hc
  rw [(micro_go_lines w hm).1]
  exact h.home

/-- A step that leaves the sequence with the engine idle is the failure of a wait, after its `SetDir(OUTPUT)` (R155). -/
theorem HomeBound.stop (w : c.wf = true) (h : HomeBound c i (m :: rest) s) (hm : micro m rest s = .stop t)
    (hi : t.idle = true) : t.atRest := by
  have giveUp : Passed s (setDir .output (countPoll s).slot (countPoll s).arrive) :=
    (countPoll_passed s).trans (passed_setDir .output _)
  have hidle := h.underWay.idle
  revert hm hi
  refine micro_cases (P := fun f => f = .stop t → t.idle = true → t.atRest) ?struck (fun _ _ _ e => nomatch e) ?fault
    (fun _ _ _ e => nomatch e) (fun _ e => nomatch e) (fun _ _ e => nomatch e) ?loop ?dead ?fail
  case struck =>
    intro hr
    have hn := noReset_now h.underWay.noReset
    simp [State.noResetNow, hr] at hn
  case fault => intro p hp _ e; cases e; exact idle_absurd ((primOf_passed hp s).idle.trans hidle)
  case loop => rintro - - - e; cases e; exact idle_absurd ((countPoll_passed s).idle.trans hidle)
  case dead => rintro - - e; cases e; exact idle_absurd (giveUp.idle.trans hidle)
  case fail =>
    rintro rfl - - e -
    cases e
    have hl : (countPoll s).lines = pollLines :=
      (countPoll_lines s).trans (disciplined_test_lines (h.underWay.lines w))
    exact ⟨rfl, congrArg Lines.e ((arrive_lines (countPoll s)).trans hl)⟩

theorem HomeBound.run (w : c.wf = true) (h : HomeBound c i p s) (hi : (runSeq p s).idle = true) :
    (runSeq p s).atRest := by
  revert hi
  exact runSeq_rec (I := HomeBound c i) (E := fun t => t.idle = true → t.atRest) (fun _ hs _ => hs.home)
    (fun _ _ _ hs => ⟨fun _ => hs.go w, fun _ => hs.stop w⟩) p s h

/-- Settles O57: both at its first step, from rest, and at WT.6 the operation is bound for rest. -/
theorem operationsReturnToRest : Obligations.OperationsReturnToRest := by
  intro i s t w _ hn hm hr h hi
  have hO : Orderly s.cfg (progOf s.cfg i) :=
    orderly_prog w i (by rintro v rfl; cases hm) (by rintro v rfl; cases hm) hr
  obtain ⟨⟨hd, he⟩, hx⟩ | ⟨ho, ⟨rest, hw⟩, hx⟩ := h
  · rw [exec_prog] at hx
    cases hx
    exact HomeBound.run w ⟨underWay_accept hn, hO.rest s.lines hd he⟩ hi
  · obtain ⟨hq, hidle, hf, -⟩ := id hw
    obtain rfl := step_inProgress hidle hf hx
    obtain ⟨-, -, done, hdone⟩ := id ho
    refine HomeBound.run w ⟨underWay_waiting hn ho hw, ?_⟩ hi
    rw [waiting_lines hw, hq]
    exact afterAll_atRest_of_poll w hO (hq ▸ hdone)

end Sys2Proof.Machine
end
